-- ==== Sys2Proof/Word.lean ====
section
/-! DEFINITION. The plain data types of the DCCB (spec/00_scope.md R10): bytes, 32-bit register words,
64-bit lanes and byte strings. -/

namespace Sys2Proof

/-- `u8`: one byte of a byte string or of DMEM (R10). -/
abbrev Byte := BitVec 8

/-- `u32`: a register, a command word or a Salsa20 word (R10, R18). -/
abbrev Word := BitVec 32

/-- `u64`: a Keccak lane or a word of a 64-bit algorithm (R10, R113). -/
abbrev Lane := BitVec 64

/-- A byte string, byte 0 first (R10, R40). -/
abbrev Bytes := List Byte

end Sys2Proof
end

