-- ==== Sys2Proof/Machine/Bytes.lean ====
section
/-! DEFINITION. Byte strings and integers (spec/00_scope.md R10): `be`, `le`, `be_n`, `le_n`, `xor`,
splitting into blocks, and the square-and-multiply powers that the field rules use. -/

namespace Sys2Proof.Machine

open Sys2Proof

/-- `le_n(v)`: v as exactly n bytes, least significant first (R10). -/
def leBytes : Nat → Nat → Bytes
  | 0, _ => []
  | n + 1, v => BitVec.ofNat 8 v :: leBytes n (v / 256)

/-- `be_n(v)`: v as exactly n bytes, most significant first (R10). -/
def beBytes (n v : Nat) : Bytes := (leBytes n v).reverse

/-- `le(X)`: the little-endian integer of a byte string (R10). -/
def leNat : Bytes → Nat
  | [] => 0
  | b :: bs => b.toNat + 256 * leNat bs

/-- `be(X)`: the big-endian integer of a byte string (R10). -/
def beNat (x : Bytes) : Nat := leNat x.reverse

/-- A byte string read as a big-endian bit vector of n bits. -/
def beBits (n : Nat) (x : Bytes) : BitVec n := BitVec.ofNat n (beNat x)

/-- `xor(X, Y)`: bytewise exclusive-or of two strings of equal length (R10). -/
def xorBytes (x y : Bytes) : Bytes := List.zipWith (fun a b => a ^^^ b) x y

/-- `bytes(n)`: n zero bytes (R10). -/
def zeroBytes (n : Nat) : Bytes := List.replicate n 0

/-- The first `count` blocks of n bytes each; a last block takes what is left. -/
def splitBlocks (n : Nat) : Nat → Bytes → List Bytes
  | 0, _ => []
  | count + 1, x => x.take n :: splitBlocks n count (x.drop n)

/-- The string cut into blocks of n bytes, the last one possibly shorter. -/
def blocksOf (n : Nat) (x : Bytes) : List Bytes := splitBlocks n ((x.length + n - 1) / n) x

/-- The bits of k from the most significant to the least (45_keyexchange.md R132). -/
def bitsMsb (k : Nat) : List Bool := (List.range (k.log2 + 1)).reverse.map k.testBit

/-- One square-and-multiply step modulo p. -/
def powModStep (p x acc : Nat) (bit : Bool) : Nat :=
  if bit then acc * acc % p * x % p else acc * acc % p

/-- x^e mod p, by square and multiply (45_keyexchange.md R128, R134). -/
def powMod (p x e : Nat) : Nat := (bitsMsb e).foldl (powModStep p x) (1 % p)

end Sys2Proof.Machine
end

