-- ==== Sys2Proof/Machine/Aes.lean ====
section
/-! DEFINITION. AES-256 (spec/43_cipher.md R99 to R102): the field GF(2^8), the S-box, the key expansion,
the cipher and the inverse cipher. A block is 16 bytes; byte r + 4c is row r, column c of the state. -/

namespace Sys2Proof.Machine

open Sys2Proof

/-- A byte times 2 in GF(2^8) modulo 0x11B (R99). -/
def gfDouble (a : Byte) : Byte := if a.getLsbD 7 then (a <<< 1) ^^^ 0x1B else a <<< 1

/-- `gmul(a, b)`: the sum of a·2^i over the set bits i of b, for the bits from i on (R99). -/
def gfMulFrom : Nat → Nat → Byte → Byte → Byte
  | 0, _, _, _ => 0
  | count + 1, i, a, b => (if b.getLsbD i then a else 0) ^^^ gfMulFrom count (i + 1) (gfDouble a) b

/-- `gmul(a, b)`, the product in GF(2^8) (R99). -/
def gfMul (a b : Byte) : Byte := gfMulFrom 8 0 a b

/-- a^e in GF(2^8). -/
def gfPow (a : Byte) : Nat → Byte
  | 0 => 1
  | e + 1 => gfMul a (gfPow a e)

/-- `inv(x)`: x^254, and 0 for 0 (R99). -/
def gfInv (x : Byte) : Byte := if x = 0 then 0 else gfPow x 254

/-- `affine(b)` (R99). -/
def aesAffine (b : Byte) : Byte :=
  b ^^^ b.rotateRight 4 ^^^ b.rotateRight 5 ^^^ b.rotateRight 6 ^^^ b.rotateRight 7 ^^^ 0x63

/-- The S-box table of R99: rows by the high nibble, columns by the low nibble. -/
def aesSboxRows : List (List Byte) := [
  [0x63, 0x7c, 0x77, 0x7b, 0xf2, 0x6b, 0x6f, 0xc5, 0x30, 0x01, 0x67, 0x2b, 0xfe, 0xd7, 0xab, 0x76],
  [0xca, 0x82, 0xc9, 0x7d, 0xfa, 0x59, 0x47, 0xf0, 0xad, 0xd4, 0xa2, 0xaf, 0x9c, 0xa4, 0x72, 0xc0],
  [0xb7, 0xfd, 0x93, 0x26, 0x36, 0x3f, 0xf7, 0xcc, 0x34, 0xa5, 0xe5, 0xf1, 0x71, 0xd8, 0x31, 0x15],
  [0x04, 0xc7, 0x23, 0xc3, 0x18, 0x96, 0x05, 0x9a, 0x07, 0x12, 0x80, 0xe2, 0xeb, 0x27, 0xb2, 0x75],
  [0x09, 0x83, 0x2c, 0x1a, 0x1b, 0x6e, 0x5a, 0xa0, 0x52, 0x3b, 0xd6, 0xb3, 0x29, 0xe3, 0x2f, 0x84],
  [0x53, 0xd1, 0x00, 0xed, 0x20, 0xfc, 0xb1, 0x5b, 0x6a, 0xcb, 0xbe, 0x39, 0x4a, 0x4c, 0x58, 0xcf],
  [0xd0, 0xef, 0xaa, 0xfb, 0x43, 0x4d, 0x33, 0x85, 0x45, 0xf9, 0x02, 0x7f, 0x50, 0x3c, 0x9f, 0xa8],
  [0x51, 0xa3, 0x40, 0x8f, 0x92, 0x9d, 0x38, 0xf5, 0xbc, 0xb6, 0xda, 0x21, 0x10, 0xff, 0xf3, 0xd2],
  [0xcd, 0x0c, 0x13, 0xec, 0x5f, 0x97, 0x44, 0x17, 0xc4, 0xa7, 0x7e, 0x3d, 0x64, 0x5d, 0x19, 0x73],
  [0x60, 0x81, 0x4f, 0xdc, 0x22, 0x2a, 0x90, 0x88, 0x46, 0xee, 0xb8, 0x14, 0xde, 0x5e, 0x0b, 0xdb],
  [0xe0, 0x32, 0x3a, 0x0a, 0x49, 0x06, 0x24, 0x5c, 0xc2, 0xd3, 0xac, 0x62, 0x91, 0x95, 0xe4, 0x79],
  [0xe7, 0xc8, 0x37, 0x6d, 0x8d, 0xd5, 0x4e, 0xa9, 0x6c, 0x56, 0xf4, 0xea, 0x65, 0x7a, 0xae, 0x08],
  [0xba, 0x78, 0x25, 0x2e, 0x1c, 0xa6, 0xb4, 0xc6, 0xe8, 0xdd, 0x74, 0x1f, 0x4b, 0xbd, 0x8b, 0x8a],
  [0x70, 0x3e, 0xb5, 0x66, 0x48, 0x03, 0xf6, 0x0e, 0x61, 0x35, 0x57, 0xb9, 0x86, 0xc1, 0x1d, 0x9e],
  [0xe1, 0xf8, 0x98, 0x11, 0x69, 0xd9, 0x8e, 0x94, 0x9b, 0x1e, 0x87, 0xe9, 0xce, 0x55, 0x28, 0xdf],
  [0x8c, 0xa1, 0x89, 0x0d, 0xbf, 0xe6, 0x42, 0x68, 0x41, 0x99, 0x2d, 0x0f, 0xb0, 0x54, 0xbb, 0x16]]

/-- `SBOX(x)`, read from the table (R99). -/
def aesSbox (x : Byte) : Byte := (aesSboxRows.getD (x.toNat / 16) []).getD (x.toNat % 16) 0

/-- `INV_SBOX`, the inverse permutation (R99). -/
def aesInvSbox (y : Byte) : Byte := BitVec.ofNat 8 (aesSboxRows.flatten.idxOf y)

/-- The temporary word of step i of the key expansion, from w[i-1] and the current rcon (R100). -/
def aesKeyTemp (i : Nat) (rcon : Byte) (t : Bytes) : Bytes :=
  if i % 8 = 0 then
    [aesSbox (t.getD 1 0) ^^^ rcon, aesSbox (t.getD 2 0), aesSbox (t.getD 3 0), aesSbox (t.getD 0 0)]
  else if i % 8 = 4 then t.map aesSbox
  else t

/-- Extend the key words, newest first, by `count` words; `i` is the next index (R100). -/
def aesExtend : Nat → Nat → Byte → List Bytes → List Bytes
  | 0, _, _, ws => ws
  | count + 1, i, rcon, ws =>
    aesExtend count (i + 1) (if i % 8 = 0 then gfDouble rcon else rcon)
      (xorBytes (ws.getD 7 []) (aesKeyTemp i rcon (ws.getD 0 [])) :: ws)

/-- `KeyExpand(KEY)`: the 60 words w[0] .. w[59] (R100). -/
def aesKeyWords (key : Bytes) : List Bytes := (aesExtend 52 8 1 (splitBlocks 4 8 key).reverse).reverse

/-- The round key d: words 4d .. 4d+3, column by column (R101). -/
def aesRoundKey (ws : List Bytes) (d : Nat) : Bytes := ((ws.drop (4 * d)).take 4).flatten

/-- `AddRoundKey` (R101). -/
def aesAddKey (k s : Bytes) : Bytes := xorBytes s k

/-- `ShiftRows`: s'[r][c] = s[r][(c + r) mod 4] (R101). -/
def aesShiftRows (s : Bytes) : Bytes := (List.range 16).map fun k => s.getD (k % 4 + 4 * ((k / 4 + k % 4) % 4)) 0

/-- `InvShiftRows`: s'[r][c] = s[r][(c − r) mod 4] (R102). -/
def aesInvShiftRows (s : Bytes) : Bytes :=
  (List.range 16).map fun k => s.getD (k % 4 + 4 * ((k / 4 + 4 - k % 4) % 4)) 0

/-- One column times a circulant matrix with first row m0 m1 m2 m3, entry r of the product. -/
def aesColumn (m0 m1 m2 m3 : Byte) (s : Bytes) (c r : Nat) : Byte :=
  gfMul (s.getD (4 * c + r) 0) m0 ^^^ gfMul (s.getD (4 * c + (r + 1) % 4) 0) m1
    ^^^ gfMul (s.getD (4 * c + (r + 2) % 4) 0) m2 ^^^ gfMul (s.getD (4 * c + (r + 3) % 4) 0) m3

/-- `MixColumns`, coefficients 2 3 1 1 (R101). -/
def aesMixColumns (s : Bytes) : Bytes := (List.range 16).map fun k => aesColumn 2 3 1 1 s (k / 4) (k % 4)

/-- `InvMixColumns`, coefficients 14 11 13 9 (R102). -/
def aesInvMixColumns (s : Bytes) : Bytes := (List.range 16).map fun k => aesColumn 14 11 13 9 s (k / 4) (k % 4)

/-- One of the rounds 1 .. 13 (R101). -/
def aesRound (ws : List Bytes) (s : Bytes) (d : Nat) : Bytes :=
  aesAddKey (aesRoundKey ws d) (aesMixColumns (aesShiftRows (s.map aesSbox)))

/-- The inverse round d ≥ 1 (R102). -/
def aesInvRound (ws : List Bytes) (s : Bytes) (d : Nat) : Bytes :=
  aesInvMixColumns (aesAddKey (aesRoundKey ws d) ((aesInvShiftRows s).map aesInvSbox))

/-- The round numbers 1 .. 13. -/
def aesRounds : List Nat := (List.range 13).map (· + 1)

/-- `E_AES` on byte strings (R101). -/
def aesEncryptBytes (key x : Bytes) : Bytes :=
  let ws := aesKeyWords key
  let s := aesRounds.foldl (aesRound ws) (aesAddKey (aesRoundKey ws 0) x)
  aesAddKey (aesRoundKey ws 14) (aesShiftRows (s.map aesSbox))

/-- `D_AES` on byte strings (R102). -/
def aesDecryptBytes (key y : Bytes) : Bytes :=
  let ws := aesKeyWords key
  let s := aesRounds.reverse.foldl (aesInvRound ws) (aesAddKey (aesRoundKey ws 14) y)
  aesAddKey (aesRoundKey ws 0) ((aesInvShiftRows s).map aesInvSbox)

/-- `E_AES(KEY, X)`, key and block as big-endian vectors (R101). -/
def aesEncrypt (key : BitVec 256) (x : BitVec 128) : BitVec 128 :=
  beBits 128 (aesEncryptBytes (beBytes 32 key.toNat) (beBytes 16 x.toNat))

/-- `D_AES(KEY, Y)`, key and block as big-endian vectors (R102). -/
def aesDecrypt (key : BitVec 256) (y : BitVec 128) : BitVec 128 :=
  beBits 128 (aesDecryptBytes (beBytes 32 key.toNat) (beBytes 16 y.toNat))

end Sys2Proof.Machine
end

