-- ==== Sys2Proof/Machine/Camellia.lean ====
section
/-! DEFINITION. Camellia-256 of RFC 3713, the configuration primitive E_Camellia and D_Camellia
(spec/43_cipher.md R98). PRESUMED: the text is from the standard, not from the spec (assumption 11). -/

namespace Sys2Proof.Machine

open Sys2Proof

/-- SBOX1: rows by the high nibble, columns by the low nibble. -/
def camelliaRows : List (List Byte) := [
  [0x70, 0x82, 0x2c, 0xec, 0xb3, 0x27, 0xc0, 0xe5, 0xe4, 0x85, 0x57, 0x35, 0xea, 0x0c, 0xae, 0x41],
  [0x23, 0xef, 0x6b, 0x93, 0x45, 0x19, 0xa5, 0x21, 0xed, 0x0e, 0x4f, 0x4e, 0x1d, 0x65, 0x92, 0xbd],
  [0x86, 0xb8, 0xaf, 0x8f, 0x7c, 0xeb, 0x1f, 0xce, 0x3e, 0x30, 0xdc, 0x5f, 0x5e, 0xc5, 0x0b, 0x1a],
  [0xa6, 0xe1, 0x39, 0xca, 0xd5, 0x47, 0x5d, 0x3d, 0xd9, 0x01, 0x5a, 0xd6, 0x51, 0x56, 0x6c, 0x4d],
  [0x8b, 0x0d, 0x9a, 0x66, 0xfb, 0xcc, 0xb0, 0x2d, 0x74, 0x12, 0x2b, 0x20, 0xf0, 0xb1, 0x84, 0x99],
  [0xdf, 0x4c, 0xcb, 0xc2, 0x34, 0x7e, 0x76, 0x05, 0x6d, 0xb7, 0xa9, 0x31, 0xd1, 0x17, 0x04, 0xd7],
  [0x14, 0x58, 0x3a, 0x61, 0xde, 0x1b, 0x11, 0x1c, 0x32, 0x0f, 0x9c, 0x16, 0x53, 0x18, 0xf2, 0x22],
  [0xfe, 0x44, 0xcf, 0xb2, 0xc3, 0xb5, 0x7a, 0x91, 0x24, 0x08, 0xe8, 0xa8, 0x60, 0xfc, 0x69, 0x50],
  [0xaa, 0xd0, 0xa0, 0x7d, 0xa1, 0x89, 0x62, 0x97, 0x54, 0x5b, 0x1e, 0x95, 0xe0, 0xff, 0x64, 0xd2],
  [0x10, 0xc4, 0x00, 0x48, 0xa3, 0xf7, 0x75, 0xdb, 0x8a, 0x03, 0xe6, 0xda, 0x09, 0x3f, 0xdd, 0x94],
  [0x87, 0x5c, 0x83, 0x02, 0xcd, 0x4a, 0x90, 0x33, 0x73, 0x67, 0xf6, 0xf3, 0x9d, 0x7f, 0xbf, 0xe2],
  [0x52, 0x9b, 0xd8, 0x26, 0xc8, 0x37, 0xc6, 0x3b, 0x81, 0x96, 0x6f, 0x4b, 0x13, 0xbe, 0x63, 0x2e],
  [0xe9, 0x79, 0xa7, 0x8c, 0x9f, 0x6e, 0xbc, 0x8e, 0x29, 0xf5, 0xf9, 0xb6, 0x2f, 0xfd, 0xb4, 0x59],
  [0x78, 0x98, 0x06, 0x6a, 0xe7, 0x46, 0x71, 0xba, 0xd4, 0x25, 0xab, 0x42, 0x88, 0xa2, 0x8d, 0xfa],
  [0x72, 0x07, 0xb9, 0x55, 0xf8, 0xee, 0xac, 0x0a, 0x36, 0x49, 0x2a, 0x68, 0x3c, 0x38, 0xf1, 0xa4],
  [0x40, 0x28, 0xd3, 0x7b, 0xbb, 0xc9, 0x43, 0xc1, 0x15, 0xe3, 0xad, 0xf4, 0x77, 0xc7, 0x80, 0x9e]]

/-- SBOX1. -/
def camelliaSbox (x : Byte) : Byte := (camelliaRows.getD (x.toNat / 16) []).getD (x.toNat % 16) 0

/-- The eight substituted bytes of F: SBOX1, 2, 3, 4, 2, 3, 4, 1. -/
def camelliaSubst (x : Lane) : Bytes :=
  let t := beBytes 8 x.toNat
  let s (i : Nat) : Byte := t.getD i 0
  [camelliaSbox (s 0), (camelliaSbox (s 1)).rotateLeft 1, (camelliaSbox (s 2)).rotateLeft 7,
    camelliaSbox ((s 3).rotateLeft 1), (camelliaSbox (s 4)).rotateLeft 1, (camelliaSbox (s 5)).rotateLeft 7,
    camelliaSbox ((s 6).rotateLeft 1), camelliaSbox (s 7)]

/-- Which substituted bytes each output byte of F adds up. -/
def camelliaMixRows : List (List Nat) :=
  [[0, 2, 3, 5, 6, 7], [0, 1, 3, 4, 6, 7], [0, 1, 2, 4, 5, 7], [1, 2, 3, 4, 5, 6],
    [0, 1, 5, 6, 7], [1, 2, 4, 6, 7], [2, 3, 4, 5, 7], [0, 3, 4, 5, 6]]

/-- The function F. -/
def camelliaF (x k : Lane) : Lane :=
  let t := camelliaSubst (x ^^^ k)
  beBits 64 (camelliaMixRows.map fun row => row.foldl (fun acc i => acc ^^^ t.getD i 0) 0)

/-- The function FL. -/
def camelliaFL (x k : Lane) : Lane :=
  let x1 := x.extractLsb' 32 32
  let x2 := x.extractLsb' 0 32 ^^^ (x1 &&& k.extractLsb' 32 32).rotateLeft 1
  (x1 ^^^ (x2 ||| k.extractLsb' 0 32)) ++ x2

/-- The function FLINV, the inverse of FL. -/
def camelliaFLInv (y k : Lane) : Lane :=
  let y1 := y.extractLsb' 32 32 ^^^ (y.extractLsb' 0 32 ||| k.extractLsb' 0 32)
  y1 ++ (y.extractLsb' 0 32 ^^^ (y1 &&& k.extractLsb' 32 32).rotateLeft 1)

/-- Two Feistel rounds on the halves (D1, D2). -/
def camelliaPair (d : Lane × Lane) (k : Lane × Lane) : Lane × Lane :=
  let d2 := d.2 ^^^ camelliaF d.1 k.1
  (d.1 ^^^ camelliaF d2 k.2, d2)

/-- The FL layer between the round groups. -/
def camelliaLayer (d : Lane × Lane) (k : Lane × Lane) : Lane × Lane := (camelliaFL d.1 k.1, camelliaFLInv d.2 k.2)

/-- The subkeys: the two whitening pairs, the twelve round-key pairs, the three FL pairs. -/
structure CamelliaKeys where
  pre : Lane × Lane
  post : Lane × Lane
  rounds : List (Lane × Lane)
  layers : List (Lane × Lane)
deriving DecidableEq, Repr

/-- The two halves of a 128-bit value rotated left by n. -/
def camelliaHalves (x : BitVec 128) (n : Nat) : Lane × Lane :=
  ((x.rotateLeft n).extractLsb' 64 64, (x.rotateLeft n).extractLsb' 0 64)

/-- Two key-schedule rounds with the constants k1 and k2. -/
def camelliaMixKey (x : BitVec 128) (k1 k2 : Lane) : BitVec 128 :=
  let d := camelliaPair (camelliaHalves x 0) (k1, k2)
  d.1 ++ d.2

/-- The key schedule for a 256-bit key. -/
def camelliaSchedule (key : BitVec 256) : CamelliaKeys :=
  let kl := key.extractLsb' 128 128
  let kr := key.extractLsb' 0 128
  let t := camelliaMixKey (kl ^^^ kr) 0xA09E667F3BCC908B 0xB67AE8584CAA73B2
  let ka := camelliaMixKey (t ^^^ kl) 0xC6EF372FE94F82BE 0x54FF53A5F1D36F1C
  let kb := camelliaMixKey (ka ^^^ kr) 0x10E527FADE682D1D 0xB05688C2B3E6C1FD
  let h := camelliaHalves
  { pre := h kl 0
    post := h kb 111
    rounds := [h kb 0, h kr 15, h ka 15, h kb 30, h kl 45, h ka 45, h kr 60, h kb 60, h kl 77,
      h kr 94, h ka 94, h kl 111]
    layers := [h kr 30, h kl 60, h ka 77] }

/-- Six rounds: three pairs of round keys. -/
def camelliaSix (k : CamelliaKeys) (i : Nat) (d : Lane × Lane) : Lane × Lane :=
  ((k.rounds.drop (3 * i)).take 3).foldl camelliaPair d

/-- The data path with given subkeys. -/
def camelliaCrypt (k : CamelliaKeys) (x : BitVec 128) : BitVec 128 :=
  let h := camelliaHalves x 0
  let d0 := camelliaSix k 0 (h.1 ^^^ k.pre.1, h.2 ^^^ k.pre.2)
  let d1 := camelliaSix k 1 (camelliaLayer d0 (k.layers.getD 0 (0, 0)))
  let d2 := camelliaSix k 2 (camelliaLayer d1 (k.layers.getD 1 (0, 0)))
  let d3 := camelliaSix k 3 (camelliaLayer d2 (k.layers.getD 2 (0, 0)))
  (d3.2 ^^^ k.post.1) ++ (d3.1 ^^^ k.post.2)

/-- A pair exchanged. -/
def camelliaSwap (k : Lane × Lane) : Lane × Lane := (k.2, k.1)

/-- The subkeys for decryption: the same keys in reverse order. -/
def CamelliaKeys.reversed (k : CamelliaKeys) : CamelliaKeys where
  pre := k.post
  post := k.pre
  rounds := k.rounds.reverse.map camelliaSwap
  layers := k.layers.reverse.map camelliaSwap

/-- `E_Camellia(KEY, X)` (43_cipher.md R98). -/
def camelliaEncrypt (key : BitVec 256) (x : BitVec 128) : BitVec 128 := camelliaCrypt (camelliaSchedule key) x

/-- `D_Camellia(KEY, Y)` (43_cipher.md R98). -/
def camelliaDecrypt (key : BitVec 256) (y : BitVec 128) : BitVec 128 :=
  camelliaCrypt (camelliaSchedule key).reversed y

end Sys2Proof.Machine
end

