-- ==== Sys2Proof/Machine/Des.lean ====
section
/-! DEFINITION. TripleDES, the configuration primitive E_TripleDES and D_TripleDES (spec/43_cipher.md R98: EDE
with three keys K1, K2, K3). PRESUMED: the text of DES is from FIPS 46-3, not from the spec (assumption 11).
The tables number bits from 1, the most significant, as the standard does. -/

namespace Sys2Proof.Machine

open Sys2Proof

/-- Select bits by a table of positions counted from 1 at the most significant bit. -/
def desSelect {n : Nat} (table : List Nat) (m : Nat) (x : BitVec n) : BitVec m :=
  BitVec.ofNat m (table.foldl (fun acc i => 2 * acc + (x.getMsbD (i - 1)).toNat) 0)

/-- The initial permutation. -/
def desIp : List Nat :=
  [ 58, 50, 42, 34, 26, 18, 10, 2, 60, 52, 44, 36, 28, 20, 12, 4,
    62, 54, 46, 38, 30, 22, 14, 6, 64, 56, 48, 40, 32, 24, 16, 8,
    57, 49, 41, 33, 25, 17, 9, 1, 59, 51, 43, 35, 27, 19, 11, 3,
    61, 53, 45, 37, 29, 21, 13, 5, 63, 55, 47, 39, 31, 23, 15, 7]

/-- The final permutation, the inverse of the initial one. -/
def desFp : List Nat :=
  [ 40, 8, 48, 16, 56, 24, 64, 32, 39, 7, 47, 15, 55, 23, 63, 31,
    38, 6, 46, 14, 54, 22, 62, 30, 37, 5, 45, 13, 53, 21, 61, 29,
    36, 4, 44, 12, 52, 20, 60, 28, 35, 3, 43, 11, 51, 19, 59, 27,
    34, 2, 42, 10, 50, 18, 58, 26, 33, 1, 41, 9, 49, 17, 57, 25]

/-- The expansion of a half block. -/
def desExpansion : List Nat :=
  [ 32, 1, 2, 3, 4, 5, 4, 5, 6, 7, 8, 9, 8, 9, 10, 11,
    12, 13, 12, 13, 14, 15, 16, 17, 16, 17, 18, 19, 20, 21, 20, 21,
    22, 23, 24, 25, 24, 25, 26, 27, 28, 29, 28, 29, 30, 31, 32, 1]

/-- The permutation P. -/
def desP : List Nat :=
  [ 16, 7, 20, 21, 29, 12, 28, 17, 1, 15, 23, 26, 5, 18, 31, 10,
    2, 8, 24, 14, 32, 27, 3, 9, 19, 13, 30, 6, 22, 11, 4, 25]

/-- Permuted choice 1. -/
def desPc1 : List Nat :=
  [ 57, 49, 41, 33, 25, 17, 9, 1, 58, 50, 42, 34, 26, 18,
    10, 2, 59, 51, 43, 35, 27, 19, 11, 3, 60, 52, 44, 36,
    63, 55, 47, 39, 31, 23, 15, 7, 62, 54, 46, 38, 30, 22,
    14, 6, 61, 53, 45, 37, 29, 21, 13, 5, 28, 20, 12, 4]

/-- Permuted choice 2. -/
def desPc2 : List Nat :=
  [ 14, 17, 11, 24, 1, 5, 3, 28, 15, 6, 21, 10, 23, 19, 12, 4,
    26, 8, 16, 7, 27, 20, 13, 2, 41, 52, 31, 37, 47, 55, 30, 40,
    51, 45, 33, 48, 44, 49, 39, 56, 34, 53, 46, 42, 50, 36, 29, 32]

/-- The eight S-boxes, row by row. -/
def desSboxes : List (List Nat) := [
  [14, 4, 13, 1, 2, 15, 11, 8, 3, 10, 6, 12, 5, 9, 0, 7, 0, 15, 7, 4, 14, 2, 13, 1, 10, 6, 12, 11, 9, 5, 3, 8,
    4, 1, 14, 8, 13, 6, 2, 11, 15, 12, 9, 7, 3, 10, 5, 0, 15, 12, 8, 2, 4, 9, 1, 7, 5, 11, 3, 14, 10, 0, 6, 13],
  [15, 1, 8, 14, 6, 11, 3, 4, 9, 7, 2, 13, 12, 0, 5, 10, 3, 13, 4, 7, 15, 2, 8, 14, 12, 0, 1, 10, 6, 9, 11, 5,
    0, 14, 7, 11, 10, 4, 13, 1, 5, 8, 12, 6, 9, 3, 2, 15, 13, 8, 10, 1, 3, 15, 4, 2, 11, 6, 7, 12, 0, 5, 14, 9],
  [10, 0, 9, 14, 6, 3, 15, 5, 1, 13, 12, 7, 11, 4, 2, 8, 13, 7, 0, 9, 3, 4, 6, 10, 2, 8, 5, 14, 12, 11, 15, 1,
    13, 6, 4, 9, 8, 15, 3, 0, 11, 1, 2, 12, 5, 10, 14, 7, 1, 10, 13, 0, 6, 9, 8, 7, 4, 15, 14, 3, 11, 5, 2, 12],
  [7, 13, 14, 3, 0, 6, 9, 10, 1, 2, 8, 5, 11, 12, 4, 15, 13, 8, 11, 5, 6, 15, 0, 3, 4, 7, 2, 12, 1, 10, 14, 9,
    10, 6, 9, 0, 12, 11, 7, 13, 15, 1, 3, 14, 5, 2, 8, 4, 3, 15, 0, 6, 10, 1, 13, 8, 9, 4, 5, 11, 12, 7, 2, 14],
  [2, 12, 4, 1, 7, 10, 11, 6, 8, 5, 3, 15, 13, 0, 14, 9, 14, 11, 2, 12, 4, 7, 13, 1, 5, 0, 15, 10, 3, 9, 8, 6,
    4, 2, 1, 11, 10, 13, 7, 8, 15, 9, 12, 5, 6, 3, 0, 14, 11, 8, 12, 7, 1, 14, 2, 13, 6, 15, 0, 9, 10, 4, 5, 3],
  [12, 1, 10, 15, 9, 2, 6, 8, 0, 13, 3, 4, 14, 7, 5, 11, 10, 15, 4, 2, 7, 12, 9, 5, 6, 1, 13, 14, 0, 11, 3, 8,
    9, 14, 15, 5, 2, 8, 12, 3, 7, 0, 4, 10, 1, 13, 11, 6, 4, 3, 2, 12, 9, 5, 15, 10, 11, 14, 1, 7, 6, 0, 8, 13],
  [4, 11, 2, 14, 15, 0, 8, 13, 3, 12, 9, 7, 5, 10, 6, 1, 13, 0, 11, 7, 4, 9, 1, 10, 14, 3, 5, 12, 2, 15, 8, 6,
    1, 4, 11, 13, 12, 3, 7, 14, 10, 15, 6, 8, 0, 5, 9, 2, 6, 11, 13, 8, 1, 4, 10, 7, 9, 5, 0, 15, 14, 2, 3, 12],
  [13, 2, 8, 4, 6, 15, 11, 1, 10, 9, 3, 14, 5, 0, 12, 7, 1, 15, 13, 8, 10, 3, 7, 4, 12, 5, 6, 11, 0, 14, 9, 2,
    7, 11, 4, 1, 9, 12, 14, 2, 0, 6, 10, 13, 15, 3, 5, 8, 2, 1, 14, 7, 4, 10, 8, 13, 15, 12, 9, 0, 3, 5, 6, 11]]

/-- The total left rotation of the key halves in round d (from 0). -/
def desShift (d : Nat) : Nat := [1, 2, 4, 6, 8, 10, 12, 14, 15, 17, 19, 21, 23, 25, 27, 28].getD d 0

/-- The round key d (from 0). -/
def desRoundKey (key : BitVec 64) (d : Nat) : BitVec 48 :=
  let cd : BitVec 56 := desSelect desPc1 56 key
  let c : BitVec 28 := (cd.extractLsb' 28 28).rotateLeft (desShift d)
  let e : BitVec 28 := (cd.extractLsb' 0 28).rotateLeft (desShift d)
  desSelect desPc2 48 (c ++ e)

/-- S-box i on a six-bit value: the outer bits select the row, the inner ones the column. -/
def desSbox (i v : Nat) : Nat :=
  (desSboxes.getD i []).getD (16 * (2 * (v / 32) + v % 2) + v / 2 % 16) 0

/-- The function f. -/
def desF (r : BitVec 32) (k : BitVec 48) : BitVec 32 :=
  let x := desSelect desExpansion 48 r ^^^ k
  let s := (List.range 8).foldl (fun acc i => 16 * acc + desSbox i (x.extractLsb' (42 - 6 * i) 6).toNat) 0
  desSelect desP 32 (BitVec.ofNat 32 s)

/-- One Feistel round on (L, R). -/
def desRound (lr : BitVec 32 × BitVec 32) (k : BitVec 48) : BitVec 32 × BitVec 32 :=
  (lr.2, lr.1 ^^^ desF lr.2 k)

/-- The data path with given round keys: the halves are exchanged after the last round. -/
def desCrypt (ks : List (BitVec 48)) (x : BitVec 64) : BitVec 64 :=
  let y : BitVec 64 := desSelect desIp 64 x
  let lr := ks.foldl desRound (y.extractLsb' 32 32, y.extractLsb' 0 32)
  desSelect desFp 64 (lr.2 ++ lr.1)

/-- The sixteen round keys. -/
def desKeys (key : BitVec 64) : List (BitVec 48) := (List.range 16).map (desRoundKey key)

/-- E_DES. -/
def desEncrypt (key : BitVec 64) (x : BitVec 64) : BitVec 64 := desCrypt (desKeys key) x

/-- D_DES: the round keys in reverse order. -/
def desDecrypt (key : BitVec 64) (y : BitVec 64) : BitVec 64 := desCrypt (desKeys key).reverse y

/-- `E_TripleDES`: E_DES(K3, D_DES(K2, E_DES(K1, X))) (43_cipher.md R98). -/
def tripleDesEncrypt (key : BitVec 192) (x : BitVec 64) : BitVec 64 :=
  desEncrypt (key.extractLsb' 0 64) (desDecrypt (key.extractLsb' 64 64) (desEncrypt (key.extractLsb' 128 64) x))

/-- `D_TripleDES`: D_DES(K1, E_DES(K2, D_DES(K3, Y))) (43_cipher.md R98). -/
def tripleDesDecrypt (key : BitVec 192) (y : BitVec 64) : BitVec 64 :=
  desDecrypt (key.extractLsb' 128 64) (desEncrypt (key.extractLsb' 64 64) (desDecrypt (key.extractLsb' 0 64) y))

end Sys2Proof.Machine
end

