-- ==== Sys2Proof/Machine/Idea.lean ====
section
/-! DEFINITION. IDEA (Lai and Massey), the configuration primitive E_IDEA and D_IDEA (spec/43_cipher.md R98).
PRESUMED: the text is from the published cipher, not from the spec (assumption 11). Decryption undoes the
encryption steps in reverse order, which is the same function as the usual inverted key schedule. -/

namespace Sys2Proof.Machine

open Sys2Proof

/-- Multiplication modulo 2^16 + 1, the zero word standing for 2^16. -/
def ideaMul (a b : BitVec 16) : BitVec 16 :=
  let x := if a = 0 then 65536 else a.toNat
  let y := if b = 0 then 65536 else b.toNat
  BitVec.ofNat 16 (x * y % 65537)

/-- The inverse for `ideaMul`: the power 65535 modulo the prime 65537. -/
def ideaInv (a : BitVec 16) : BitVec 16 :=
  BitVec.ofNat 16 (powMod 65537 (if a = 0 then 65536 else a.toNat) 65535)

/-- The four words of a block. -/
structure IdeaBlock where
  x1 : BitVec 16
  x2 : BitVec 16
  x3 : BitVec 16
  x4 : BitVec 16
deriving DecidableEq, Repr

/-- The block as four words, the first the most significant. -/
def ideaSplit (x : BitVec 64) : IdeaBlock :=
  ⟨x.extractLsb' 48 16, x.extractLsb' 32 16, x.extractLsb' 16 16, x.extractLsb' 0 16⟩

/-- The four words as a block. -/
def ideaJoin (b : IdeaBlock) : BitVec 64 := b.x1 ++ b.x2 ++ b.x3 ++ b.x4

/-- Subkey i (from 0) of the 52: the key is rotated left by 25 bits after every eight words. -/
def ideaSubkey (key : BitVec 128) (i : Nat) : BitVec 16 :=
  (key.rotateLeft (25 * (i / 8))).extractLsb' (112 - 16 * (i % 8)) 16

/-- The key layer with subkeys i .. i+3. -/
def ideaKeyLayer (key : BitVec 128) (i : Nat) (b : IdeaBlock) : IdeaBlock :=
  ⟨ideaMul b.x1 (ideaSubkey key i), b.x2 + ideaSubkey key (i + 1), b.x3 + ideaSubkey key (i + 2),
    ideaMul b.x4 (ideaSubkey key (i + 3))⟩

/-- The key layer undone. -/
def ideaKeyLayerInv (key : BitVec 128) (i : Nat) (b : IdeaBlock) : IdeaBlock :=
  ⟨ideaMul b.x1 (ideaInv (ideaSubkey key i)), b.x2 - ideaSubkey key (i + 1), b.x3 - ideaSubkey key (i + 2),
    ideaMul b.x4 (ideaInv (ideaSubkey key (i + 3)))⟩

/-- The multiply-add layer with subkeys i and i+1; it undoes itself. -/
def ideaMaLayer (key : BitVec 128) (i : Nat) (b : IdeaBlock) : IdeaBlock :=
  let t0 := ideaMul (b.x1 ^^^ b.x3) (ideaSubkey key i)
  let t1 := ideaMul ((b.x2 ^^^ b.x4) + t0) (ideaSubkey key (i + 1))
  let t2 := t0 + t1
  ⟨b.x1 ^^^ t1, b.x2 ^^^ t2, b.x3 ^^^ t1, b.x4 ^^^ t2⟩

/-- The two middle words exchanged. -/
def ideaSwap (b : IdeaBlock) : IdeaBlock := ⟨b.x1, b.x3, b.x2, b.x4⟩

/-- Round d (from 0). -/
def ideaRound (key : BitVec 128) (b : IdeaBlock) (d : Nat) : IdeaBlock :=
  ideaSwap (ideaMaLayer key (6 * d + 4) (ideaKeyLayer key (6 * d) b))

/-- Round d undone. -/
def ideaRoundInv (key : BitVec 128) (b : IdeaBlock) (d : Nat) : IdeaBlock :=
  ideaKeyLayerInv key (6 * d) (ideaMaLayer key (6 * d + 4) (ideaSwap b))

/-- `E_IDEA(KEY, X)` (43_cipher.md R98): eight rounds and the output transformation. -/
def ideaEncrypt (key : BitVec 128) (x : BitVec 64) : BitVec 64 :=
  ideaJoin (ideaKeyLayer key 48 (ideaSwap ((List.range 8).foldl (ideaRound key) (ideaSplit x))))

/-- `D_IDEA(KEY, Y)` (43_cipher.md R98). -/
def ideaDecrypt (key : BitVec 128) (y : BitVec 64) : BitVec 64 :=
  ideaJoin ((List.range 8).reverse.foldl (ideaRoundInv key) (ideaSwap (ideaKeyLayerInv key 48 (ideaSplit y))))

end Sys2Proof.Machine
end

