-- ==== Sys2Proof/Syntax.lean ====
section
/-! DEFINITION. The command set (spec/30_encoding.md R55 to R59): the fields of a command word, the
enumerations that the fields select, and one constructor of `Instr` per row of the opcode table. -/

namespace Sys2Proof

/-- The hash functions of the ALG field of HASH and STRETCH (41_kdf.md R73). -/
inductive HashAlg where
  | sha256 | sha512 | whirlpool
deriving DecidableEq, Repr, Inhabited

/-- The block ciphers of the ALG field of the cipher commands, in code order (00_scope.md R8). -/
inductive Cipher where
  | blowfish | aes | camellia | idea | tripleDes
deriving DecidableEq, Repr, Inhabited

/-- The block modes (R57): no ECB and no CTR (43_cipher.md R104). -/
inductive Mode where
  | cbc | cfb | ofb
deriving DecidableEq, Repr, Inhabited

/-- The padding schemes (R57, 40_padding.md R67). -/
inductive Scheme where
  | pkcs7 | ansix923 | iso10126 | iso97971
deriving DecidableEq, Repr, Inhabited

/-- The two Scrypt channels (R57 CH, 10_state.md R29). -/
inductive ChannelId where
  | zero | one
deriving DecidableEq, Repr, Inhabited

/-- The algorithm tags 0 to 13 of the key-agreement unit, in order (45_keyexchange.md R127). -/
inductive Tag where
  | dh768 | dh1024 | dh1536 | dh2048 | dh3072 | dh4096 | dh6144 | dh8192
  | ecdh224 | x25519 | ecdh384 | ecdh409 | ecdh521 | ecdh571
deriving DecidableEq, Repr, Inhabited

/-- The fields of the one command format F (R55), as the latch holds them (R56). -/
structure Fields where
  op : BitVec 8
  alg : BitVec 3
  mode : BitVec 3
  pad : BitVec 3
  ch : BitVec 1
  rsv : BitVec 6
  sel : BitVec 8
deriving DecidableEq, Repr, Inhabited

/-- One constructor per row of spec/opcode_table.json (R58). A constructor carries the fields its row
uses, as raw codes: a code outside its set still is this command, and the command completes with the
error R57 names. CH has no refused value, so it is already a channel. -/
inductive Instr where
  | nop
  | pad (pad : BitVec 3)
  | unpad (pad : BitVec 3)
  | keyfit
  | hash (alg : BitVec 3)
  | stretch (alg : BitVec 3)
  | scryptStart (ch : ChannelId)
  | scryptAck (ch : ChannelId)
  | scryptCancel (ch : ChannelId)
  | cipherEnc (alg mode pad : BitVec 3)
  | cipherDec (alg mode pad : BitVec 3)
  | macGen
  | macVerify
  | envEnc (mode pad : BitVec 3) (sel : BitVec 8)
  | envDec (mode pad : BitVec 3) (sel : BitVec 8)
  | kxGenerate (sel : BitVec 8)
  | kxSerialize (sel : BitVec 8)
  | kxParse
  | kxCompute
  | kxNuke
  | kxApplied
  | saltOrder
deriving DecidableEq, Repr, Inhabited

end Sys2Proof
end

