-- ==== Sys2Proof/Config.lean ====
section
/-! DEFINITION. What an implementation fixes (spec/00_scope.md R7), and the free values: constants with
no body, of which nothing can be proved but what their type says. The inputs from outside the block
(the turns of the agents) have their type here, because a free turn is one of them. -/

namespace Sys2Proof

/-- `DMEM_BYTES` (R7). -/
def Config.dmemBytes : Nat := 65536

/-- The register window is 128 KiB (10_state.md R18). -/
def Config.windowBytes : Nat := 131072

/-- The window offset of DMEM byte 0 (10_state.md R18). -/
def Config.dmemWindow : Nat := 0x1000

/-- The constant that ID reads (10_state.md R19). -/
def Config.idValue : Word := 0x44430007

/-- `SCRYPT_CHUNK`: ROMix iterations per chunk (R7). -/
def Config.scryptChunk : Nat := 1000

/-- `SCRYPT_MEM_BYTES`: bytes of V storage per channel (R7). -/
def Config.scryptMemBytes : Nat := 8388608

/-- `UNPAD_STRICT` is 0 (R7, 40_padding.md R69). -/
def Config.unpadStrict : Bool := false

/-- The codec's default round count (R9, 30_encoding.md R61). -/
def Config.defaultRounds : Nat := 1000

/-- `BASE`, OPEN: the platform address of the register window (R7, 20_memory.md R47). -/
opaque Config.base : Nat

/-- `KEYFIT_HASH_S` for S in 8, 16, 20, 24, 64, OPEN: it returns exactly S bytes (R7, 41_kdf.md R76), read
here as one big-endian integer. S = 32 is SHA-256 and does not use it. -/
opaque Config.keyfitHash (size : Nat) (key : Bytes) : BitVec (8 * size)

/-- `STRETCH_HASH`, OPEN: the hash of the codec's Stretch-KDF (R7, 43_cipher.md R105). -/
opaque Config.stretchHash : HashAlg

/-- `E_Blowfish` and `D_Blowfish` with a 64-byte key, OPEN: for every key a permutation of 8-byte blocks and
its inverse (43_cipher.md R98), blocks and keys read as big-endian integers. -/
opaque Config.blowfish (key : BitVec 512) : Equiv.Perm (BitVec 64)

/-- A DH group: the prime and the generator (45_keyexchange.md R134). `DH_GROUP(b)`, OPEN, is
`Config.dhGroup` of Sys2Proof/Machine/Parameters.lean, with the laws of Sys2Proof/Machine/Groups.lean. -/
structure DhGroup where
  p : Nat
  g : Nat
deriving DecidableEq, Repr, Inhabited

/-- A short-Weierstrass curve over a prime field, its base point and the point's order
(45_keyexchange.md R130, R135). `ECDH_CURVE(b)`, OPEN, is `Config.primeCurve` or `Config.binaryCurve` of
Sys2Proof/Machine/Parameters.lean. -/
structure PrimeCurve where
  p : Nat
  a : Nat
  b : Nat
  gx : Nat
  gy : Nat
  n : Nat
deriving DecidableEq, Repr, Inhabited

/-- A curve over GF(2^b), its reduction polynomial (bit b included), base point and order
(45_keyexchange.md R129, R131, R135). The degree b is the size that names the curve. -/
structure BinaryCurve where
  f : Nat
  a : Nat
  b : Nat
  gx : Nat
  gy : Nat
  n : Nat
deriving DecidableEq, Repr, Inhabited

/-- A free value: the bytes of the point at infinity as a public key, read as one big-endian integer. The spec
gives O no uncompressed form (45_keyexchange.md R135; assumption 19). -/
opaque Config.infinityKey (fieldBytes : Nat) : BitVec (8 * (1 + 2 * fieldBytes))

/-- `PW_N_PRIMARY`, OPEN (R7, 42_scrypt.md R97). -/
opaque Config.pwNPrimary : Nat

/-- `PW_N_SECONDARY`, OPEN (R7, 42_scrypt.md R97). -/
opaque Config.pwNSecondary : Nat

/-- The width of a host access: 1, 2 or 4 bytes (20_memory.md R39, R41). -/
inductive Width where
  | byte | half | word
deriving DecidableEq, Repr, Inhabited

/-- What a host access does (46_system.md R149, R150). -/
inductive BusOp where
  | read
  | write (v : Word)
deriving DecidableEq, Repr, Inhabited

/-- One turn: which agent moves next, and for the host its access (10_state.md R15, 60_exceptions.md R173). -/
inductive Turn where
  /-- A host access at an offset from BASE. -/
  | host (offset : Nat) (width : Width) (op : BusOp)
  /-- A host access at a platform address; BASE gives its offset. -/
  | platform (address : Nat) (width : Width) (op : BusOp)
  /-- The command unit. -/
  | commandUnit
  /-- A Scrypt channel. -/
  | channel (c : ChannelId)
deriving DecidableEq, Repr, Inhabited

/-- The free turn: who moves, and what the host does, where no script says so (60_exceptions.md R173: "any
agent with an enabled step may take the next step"). -/
opaque Config.freeTurn (clock : Nat) : Turn

/-- The free draw: value `k` of the random source in command step `count` (10_state.md R36: "a free input
of the step that makes it"). -/
opaque Config.freeDraw (count k : Nat) : Nat

end Sys2Proof
end

