-- ==== Sys2Proof/Decode.lean ====
section
/-! DEFINITION. The command decoder, total on all 2^32 words, and after it the encoder, both from the
one format F (spec/30_encoding.md R55, R56) and the opcode map (R58). A word that matches no row is
illegal (R60): the decoder refuses it, and the command unit completes it with ERR_ILLEGAL. -/

namespace Sys2Proof

/-- The fields of a command word (R56). -/
def decodeFields (w : Word) : Fields where
  op := w.extractLsb' 0 8
  alg := w.extractLsb' 8 3
  mode := w.extractLsb' 11 3
  pad := w.extractLsb' 14 3
  ch := w.extractLsb' 17 1
  rsv := w.extractLsb' 18 6
  sel := w.extractLsb' 24 8

/-- The channel that the CH bit selects (R57). -/
def channelOfBit (b : BitVec 1) : ChannelId := if b = 0#1 then .zero else .one

/-- `some i` when the condition holds: the row matches, and the fields it does not use are zero. -/
def legalWhen (unusedZero : Bool) (i : Instr) : Option Instr := if unusedZero then some i else none

/-- The command of a latched field tuple: the opcode map of R58, with every field a row does not use
zero and RSV zero (R60). `none` is an illegal command. -/
def instrOf (f : Fields) : Option Instr :=
  match f.op.toNat with
  | 0x00 => legalWhen (f.alg == 0 && f.mode == 0 && f.pad == 0 && f.ch == 0 && f.rsv == 0 && f.sel == 0) .nop
  | 0x01 => legalWhen (f.alg == 0 && f.mode == 0 && f.ch == 0 && f.rsv == 0 && f.sel == 0) (.pad f.pad)
  | 0x02 => legalWhen (f.alg == 0 && f.mode == 0 && f.ch == 0 && f.rsv == 0 && f.sel == 0) (.unpad f.pad)
  | 0x03 => legalWhen (f.alg == 0 && f.mode == 0 && f.pad == 0 && f.ch == 0 && f.rsv == 0 && f.sel == 0) .keyfit
  | 0x04 => legalWhen (f.mode == 0 && f.pad == 0 && f.ch == 0 && f.rsv == 0 && f.sel == 0) (.hash f.alg)
  | 0x05 => legalWhen (f.mode == 0 && f.pad == 0 && f.ch == 0 && f.rsv == 0 && f.sel == 0) (.stretch f.alg)
  | 0x06 => legalWhen (f.alg == 0 && f.mode == 0 && f.pad == 0 && f.rsv == 0 && f.sel == 0) (.scryptStart (channelOfBit f.ch))
  | 0x07 => legalWhen (f.alg == 0 && f.mode == 0 && f.pad == 0 && f.rsv == 0 && f.sel == 0) (.scryptAck (channelOfBit f.ch))
  | 0x08 => legalWhen (f.alg == 0 && f.mode == 0 && f.pad == 0 && f.rsv == 0 && f.sel == 0) (.scryptCancel (channelOfBit f.ch))
  | 0x09 => legalWhen (f.ch == 0 && f.rsv == 0 && f.sel == 0) (.cipherEnc f.alg f.mode f.pad)
  | 0x0A => legalWhen (f.ch == 0 && f.rsv == 0 && f.sel == 0) (.cipherDec f.alg f.mode f.pad)
  | 0x0B => legalWhen (f.alg == 0 && f.mode == 0 && f.pad == 0 && f.ch == 0 && f.rsv == 0 && f.sel == 0) .macGen
  | 0x0C => legalWhen (f.alg == 0 && f.mode == 0 && f.pad == 0 && f.ch == 0 && f.rsv == 0 && f.sel == 0) .macVerify
  | 0x0D => legalWhen (f.alg == 0 && f.ch == 0 && f.rsv == 0) (.envEnc f.mode f.pad f.sel)
  | 0x0E => legalWhen (f.alg == 0 && f.ch == 0 && f.rsv == 0) (.envDec f.mode f.pad f.sel)
  | 0x0F => legalWhen (f.alg == 0 && f.mode == 0 && f.pad == 0 && f.ch == 0 && f.rsv == 0) (.kxGenerate f.sel)
  | 0x10 => legalWhen (f.alg == 0 && f.mode == 0 && f.pad == 0 && f.ch == 0 && f.rsv == 0) (.kxSerialize f.sel)
  | 0x11 => legalWhen (f.alg == 0 && f.mode == 0 && f.pad == 0 && f.ch == 0 && f.rsv == 0 && f.sel == 0) .kxParse
  | 0x12 => legalWhen (f.alg == 0 && f.mode == 0 && f.pad == 0 && f.ch == 0 && f.rsv == 0 && f.sel == 0) .kxCompute
  | 0x13 => legalWhen (f.alg == 0 && f.mode == 0 && f.pad == 0 && f.ch == 0 && f.rsv == 0 && f.sel == 0) .kxNuke
  | 0x14 => legalWhen (f.alg == 0 && f.mode == 0 && f.pad == 0 && f.ch == 0 && f.rsv == 0 && f.sel == 0) .kxApplied
  | 0x15 => legalWhen (f.alg == 0 && f.mode == 0 && f.pad == 0 && f.ch == 0 && f.rsv == 0 && f.sel == 0) .saltOrder
  | _ => none

/-- The command a 32-bit word written to CMD stands for, or `none` for an illegal word (R60, R62). -/
def decodeWord (w : Word) : Option Instr := instrOf (decodeFields w)

/-- The command read from the low `nbits` bits of `w`, the bits above them zero. A command is one 32-bit
word, delivered whole by one CMD write (R62), so no byte order enters. -/
def decodeTableWord (nbits w : Nat) : Option Instr := decodeWord (BitVec.ofNat 32 (w % 2 ^ nbits))

/-- The CH bit of a channel (R57). -/
def channelBit : ChannelId → BitVec 1
  | .zero => 0
  | .one => 1

/-- The fields of a command: its opcode, the fields its row uses, every other field zero (R58, R60). -/
def fieldsOf : Instr → Fields
  | .nop => ⟨0x00, 0, 0, 0, 0, 0, 0⟩
  | .pad pad => ⟨0x01, 0, 0, pad, 0, 0, 0⟩
  | .unpad pad => ⟨0x02, 0, 0, pad, 0, 0, 0⟩
  | .keyfit => ⟨0x03, 0, 0, 0, 0, 0, 0⟩
  | .hash alg => ⟨0x04, alg, 0, 0, 0, 0, 0⟩
  | .stretch alg => ⟨0x05, alg, 0, 0, 0, 0, 0⟩
  | .scryptStart ch => ⟨0x06, 0, 0, 0, channelBit ch, 0, 0⟩
  | .scryptAck ch => ⟨0x07, 0, 0, 0, channelBit ch, 0, 0⟩
  | .scryptCancel ch => ⟨0x08, 0, 0, 0, channelBit ch, 0, 0⟩
  | .cipherEnc alg mode pad => ⟨0x09, alg, mode, pad, 0, 0, 0⟩
  | .cipherDec alg mode pad => ⟨0x0A, alg, mode, pad, 0, 0, 0⟩
  | .macGen => ⟨0x0B, 0, 0, 0, 0, 0, 0⟩
  | .macVerify => ⟨0x0C, 0, 0, 0, 0, 0, 0⟩
  | .envEnc mode pad sel => ⟨0x0D, 0, mode, pad, 0, 0, sel⟩
  | .envDec mode pad sel => ⟨0x0E, 0, mode, pad, 0, 0, sel⟩
  | .kxGenerate sel => ⟨0x0F, 0, 0, 0, 0, 0, sel⟩
  | .kxSerialize sel => ⟨0x10, 0, 0, 0, 0, 0, sel⟩
  | .kxParse => ⟨0x11, 0, 0, 0, 0, 0, 0⟩
  | .kxCompute => ⟨0x12, 0, 0, 0, 0, 0, 0⟩
  | .kxNuke => ⟨0x13, 0, 0, 0, 0, 0, 0⟩
  | .kxApplied => ⟨0x14, 0, 0, 0, 0, 0, 0⟩
  | .saltOrder => ⟨0x15, 0, 0, 0, 0, 0, 0⟩

/-- A field tuple laid out as a word: SEL, RSV, CH, PAD, MODE, ALG, OP from bit 31 down (R55). -/
def encodeFields (f : Fields) : Word := f.sel ++ f.rsv ++ f.ch ++ f.pad ++ f.mode ++ f.alg ++ f.op

/-- The command word of a command (R55, R58, R63). -/
def encode (i : Instr) : Word := encodeFields (fieldsOf i)

/-- A row of the opcode map: a word is the row's when its bits under `mask` are `value` (R58). -/
structure OpcodeRow where
  mask : Word
  value : Word
deriving DecidableEq, Repr

/-- The row of a command: OP alone is fixed besides the zero bits; the used fields' bits are free (R58). -/
def rowOf : Instr → OpcodeRow
  | .nop => ⟨0xFFFFFFFF, 0x00⟩
  | .pad _ => ⟨0xFFFE3FFF, 0x01⟩
  | .unpad _ => ⟨0xFFFE3FFF, 0x02⟩
  | .keyfit => ⟨0xFFFFFFFF, 0x03⟩
  | .hash _ => ⟨0xFFFFF8FF, 0x04⟩
  | .stretch _ => ⟨0xFFFFF8FF, 0x05⟩
  | .scryptStart _ => ⟨0xFFFDFFFF, 0x06⟩
  | .scryptAck _ => ⟨0xFFFDFFFF, 0x07⟩
  | .scryptCancel _ => ⟨0xFFFDFFFF, 0x08⟩
  | .cipherEnc _ _ _ => ⟨0xFFFE00FF, 0x09⟩
  | .cipherDec _ _ _ => ⟨0xFFFE00FF, 0x0A⟩
  | .macGen => ⟨0xFFFFFFFF, 0x0B⟩
  | .macVerify => ⟨0xFFFFFFFF, 0x0C⟩
  | .envEnc _ _ _ => ⟨0x00FE07FF, 0x0D⟩
  | .envDec _ _ _ => ⟨0x00FE07FF, 0x0E⟩
  | .kxGenerate _ => ⟨0x00FFFFFF, 0x0F⟩
  | .kxSerialize _ => ⟨0x00FFFFFF, 0x10⟩
  | .kxParse => ⟨0xFFFFFFFF, 0x11⟩
  | .kxCompute => ⟨0xFFFFFFFF, 0x12⟩
  | .kxNuke => ⟨0xFFFFFFFF, 0x13⟩
  | .kxApplied => ⟨0xFFFFFFFF, 0x14⟩
  | .saltOrder => ⟨0xFFFFFFFF, 0x15⟩

/-- The 22 rows of the opcode map, in opcode order (R58). -/
def opcodeTable : List OpcodeRow :=
  [rowOf .nop, rowOf (.pad 0), rowOf (.unpad 0), rowOf .keyfit, rowOf (.hash 0), rowOf (.stretch 0),
    rowOf (.scryptStart .zero), rowOf (.scryptAck .zero), rowOf (.scryptCancel .zero),
    rowOf (.cipherEnc 0 0 0), rowOf (.cipherDec 0 0 0), rowOf .macGen, rowOf .macVerify,
    rowOf (.envEnc 0 0 0), rowOf (.envDec 0 0 0), rowOf (.kxGenerate 0), rowOf (.kxSerialize 0),
    rowOf .kxParse, rowOf .kxCompute, rowOf .kxNuke, rowOf .kxApplied, rowOf .saltOrder]

/-- A word matches a row (R58). -/
def OpcodeRow.accepts (r : OpcodeRow) (w : Word) : Bool := (w &&& r.mask) == r.value

end Sys2Proof
end

