-- ==== Sys2Proof/Machine/State.lean ====
section
/-! DEFINITION. The state of the DCCB as plain data (spec/10_state.md), its reset value
(spec/70_reset_and_hazards.md R178), and the two ways a step can stop. -/

namespace Sys2Proof.Machine

open Sys2Proof

/-- Why a step stops with a fault. No command faults: the DCCB has no traps (60_exceptions.md R167). -/
inductive Fault where
  /-- A host access at an address outside the 128 KiB register window (10_state.md R18): it is no access to
  the DCCB at all. Raised by a host turn only. Safe: the model stops where the block is not addressed. -/
  | outsideWindow (address : Nat)
deriving DecidableEq, Repr

/-- Why a step is refused. -/
inductive Refusal where
  /-- An instruction without a meaning. Raised by no arm of `exec`. Safe: the model would stop. -/
  | notModelled (mnemonic : String)
deriving DecidableEq, Repr

/-- The codes of STATUS.ERR and SC_ERR (60_exceptions.md R158); every other value never occurs. -/
inductive ErrorCode where
  | ok | authFail | decryptFail | badSelector | illegal | config | range | overlap | capacity | length
  | padding | cancelled | saltTie | kxNoKey | kxFail | badBlob | resource | chBusy | state
deriving DecidableEq, Repr, Inhabited

/-- The argument and parameter registers (10_state.md R25, R26), and the latch's copy of them (R32). -/
structure Args where
  aOff : Word := 0
  aLen : Word := 0
  bOff : Word := 0
  bLen : Word := 0
  cOff : Word := 0
  cLen : Word := 0
  dstOff : Word := 0
  dstCap : Word := 0
  param0 : Word := 0
  param1 : Word := 0
  param2 : Word := 0
  param3 : Word := 0
deriving DecidableEq, Repr, Inhabited

/-- The result registers (10_state.md R27). -/
structure Results where
  outLen : Word := 0
  out0 : Word := 0
  out1 : Word := 0
  out2 : Word := 0
  out3 : Word := 0
  out4 : Word := 0
deriving DecidableEq, Repr, Inhabited

/-- The command latch (10_state.md R32). STATUS.BUSY shows `pending`. -/
structure Latch where
  pending : Bool := false
  f : Fields := ⟨0, 0, 0, 0, 0, 0, 0⟩
  a : Args := {}
deriving DecidableEq, Repr, Inhabited

/-- The states of the key-exchange engine (10_state.md R28). -/
inductive KxPhase where
  | noKey | keyGenerated | secretComputed | passwordsApplied
deriving DecidableEq, Repr, Inhabited

/-- The phases of a Scrypt channel (10_state.md R29); the codes 5 to 7 never occur. -/
inductive Phase where
  | idle | running | waitAck | done | cancelled
deriving DecidableEq, Repr, Inhabited

/-- A channel's hidden inputs and working values (10_state.md R34). Empty strings and zeros after reset. -/
structure Run where
  cancelReq : Bool := false
  password : Bytes := []
  salt : Bytes := []
  n : Nat := 0
  r : Nat := 0
  p : Nat := 0
  dkLen : Nat := 0
  dst : Nat := 0
  blocks : List Bytes := []
  x : Bytes := []
  v : List Bytes := []
  done : Nat := 0
  events : Nat := 0
deriving DecidableEq, Repr, Inhabited

/-- A Scrypt channel: its read-only bank (10_state.md R29) and its hidden state (R34). -/
structure Channel where
  phase : Phase := .idle
  cancelReqBit : Bool := false
  scErr : ErrorCode := .ok
  doneOps : Word := 0
  totalOps : Word := 0
  eventsReg : Word := 0
  dstOffReg : Word := 0
  dkLenReg : Word := 0
  run : Run := {}
deriving DecidableEq, Repr, Inhabited

/-- DMEM as (address, byte) pairs: addresses strictly rising, no entry for a byte that is 0
(10_state.md R31: every byte is 0 at reset). -/
abbrev Memory := List Host.Cell

/-- The whole state. The last five fields are the model's own. -/
structure State where
  /-- CTRL.IE (R20). -/
  ie : Bool := false
  /-- STATUS.DONE (R21). -/
  doneFlag : Bool := false
  /-- STATUS.CMD_OVR (R21). -/
  cmdOvr : Bool := false
  /-- STATUS.BUSERR (R21). -/
  busErr : Bool := false
  /-- STATUS.ERR (R21). -/
  err : ErrorCode := .ok
  /-- CMD: the last accepted word (R22). -/
  cmd : Word := 0
  /-- IRQ_STATUS bits 2:0 (R23). -/
  irqStatus : BitVec 3 := 0
  /-- IRQ_ENABLE bits 2:0 (R24). -/
  irqEnable : BitVec 3 := 0
  /-- A_OFF to DST_CAP and PARAM0 to PARAM3 (R25, R26). -/
  args : Args := {}
  /-- OUT_LEN and OUT0 to OUT4 (R27). -/
  results : Results := {}
  /-- KX_STATE.STATE (R28). -/
  kxPhase : KxPhase := .noKey
  /-- `slot_tag` (R35); KX_STATE.TAG shows it (R28). -/
  slotTag : Option Tag := none
  /-- `slot_priv` (R35): the private integer, or the 32-byte string of tag 9 as `le`; 0 is zeroed. -/
  slotPriv : Nat := 0
  /-- Scrypt channel 0 (R29, R34). -/
  ch0 : Channel := {}
  /-- Scrypt channel 1 (R29, R34). -/
  ch1 : Channel := {}
  /-- DMEM (R31). -/
  dmem : Memory := []
  /-- The command latch (R32). -/
  latch : Latch := {}
  /-- The model's own: the script of the agents' turns, next turn first (assumption 1). -/
  turns : List Turn := []
  /-- The model's own: how many free turns were taken (assumption 1). -/
  clock : Nat := 0
  /-- The model's own: the random source's scripted values, one list per command step (assumption 3). -/
  draws : List (List Nat) := []
  /-- The model's own: how many command steps were taken; it indexes the free draws (assumption 3). -/
  drawCount : Nat := 0
  /-- The model's own: the value that the last host read returned (assumption 5). -/
  readData : Word := 0
deriving DecidableEq, Repr, Inhabited

/-- The reset state (70_reset_and_hazards.md R178): every register 0 but ID, which is a constant, and
KX_STATE, which reads 0x0000FF00 (NoKey, empty slot); DMEM all zero; no command pending; both channels
idle with empty hidden state. The model's own fields are empty or 0 (DESIGN CHOICE, assumptions 1, 3, 5). -/
def State.reset : State where
  ie := false
  doneFlag := false
  cmdOvr := false
  busErr := false
  err := .ok
  cmd := 0
  irqStatus := 0
  irqEnable := 0
  args := {}
  results := {}
  kxPhase := .noKey
  slotTag := none
  slotPriv := 0
  ch0 := {}
  ch1 := {}
  dmem := []
  latch := {}
  turns := []
  clock := 0
  draws := []
  drawCount := 0
  readData := 0

end Sys2Proof.Machine
end

