-- ==== Sys2Proof/Machine/Flags.lean ====
section
/-! DEFINITION. The status words: STATUS and its error codes (spec/10_state.md R21, spec/60_exceptions.md
R158), KX_STATE (R28), SC_STATE (R29), the interrupt bits and the line `irq` (R23, R164, R165). The DCCB
has no condition codes (R37). -/

namespace Sys2Proof.Machine

open Sys2Proof

/-- The byte of an error code (R158). -/
def ErrorCode.toByte : ErrorCode → BitVec 8
  | .ok => 0x00
  | .authFail => 0x01
  | .decryptFail => 0x02
  | .badSelector => 0xFD
  | .illegal => 0x10
  | .config => 0x11
  | .range => 0x12
  | .overlap => 0x13
  | .capacity => 0x14
  | .length => 0x15
  | .padding => 0x16
  | .cancelled => 0x17
  | .saltTie => 0x18
  | .kxNoKey => 0x19
  | .kxFail => 0x1A
  | .badBlob => 0x1B
  | .resource => 0x1C
  | .chBusy => 0x1D
  | .state => 0x1E

/-- STATUS.BUSY shows the latch's `pending` (R32). -/
def State.busy (s : State) : Bool := s.latch.pending

/-- One flag as a one-bit field. -/
def bit (b : Bool) : BitVec 1 := BitVec.ofBool b

/-- The STATUS word: ERR in 15:8, BUSERR 3, CMD_OVR 2, DONE 1, BUSY 0, the rest 0 (R21). -/
def statusWord (s : State) : Word :=
  0#16 ++ s.err.toByte ++ 0#4 ++ bit s.busErr ++ bit s.cmdOvr ++ bit s.doneFlag ++ bit s.busy

/-- The CTRL word: IE in bit 1; SRST and CLRERR read 0 (R20). -/
def ctrlWord (s : State) : Word := 0#30 ++ bit s.ie ++ 0#1

/-- The code of an engine state (R28). -/
def KxPhase.code : KxPhase → BitVec 2
  | .noKey => 0
  | .keyGenerated => 1
  | .secretComputed => 2
  | .passwordsApplied => 3

/-- The number of an algorithm tag (45_keyexchange.md R127). -/
def tagCode : Tag → BitVec 8
  | .dh768 => 0
  | .dh1024 => 1
  | .dh1536 => 2
  | .dh2048 => 3
  | .dh3072 => 4
  | .dh4096 => 5
  | .dh6144 => 6
  | .dh8192 => 7
  | .ecdh224 => 8
  | .x25519 => 9
  | .ecdh384 => 10
  | .ecdh409 => 11
  | .ecdh521 => 12
  | .ecdh571 => 13

/-- The TAG field: the live key's tag, 0xFF when the slot is empty (R28). -/
def slotTagByte : Option Tag → BitVec 8
  | none => 0xFF
  | some t => tagCode t

/-- The KX_STATE word: TAG in 15:8, STATE in 1:0 (R28). -/
def kxStateWord (s : State) : Word := 0#16 ++ slotTagByte s.slotTag ++ 0#6 ++ s.kxPhase.code

/-- The code of a channel phase (R29). -/
def Phase.code : Phase → BitVec 3
  | .idle => 0
  | .running => 1
  | .waitAck => 2
  | .done => 3
  | .cancelled => 4

/-- The SC_STATE word: SC_ERR in 15:8, CANCEL_REQ 3, STATE 2:0 (R29). -/
def scStateWord (c : Channel) : Word :=
  0#16 ++ c.scErr.toByte ++ 0#4 ++ bit c.cancelReqBit ++ c.phase.code

/-- IRQ_STATUS and IRQ_ENABLE as words: bits 31:3 read 0 (R23, R24). -/
def irqWord (b : BitVec 3) : Word := 0#29 ++ b

/-- IRQ_STATUS bit 0, CMD_DONE (R23). -/
def irqCmdDone : BitVec 3 := 1

/-- IRQ_STATUS bit 1 + c, SC0_EVT or SC1_EVT (R23). -/
def irqEvent : ChannelId → BitVec 3
  | .zero => 2
  | .one => 4

/-- The level of the interrupt line (R165). -/
def State.irq (s : State) : Bool :=
  s.ie && ((s.irqStatus.getLsbD 0 && s.irqEnable.getLsbD 0)
    || (s.irqStatus.getLsbD 1 && s.irqEnable.getLsbD 1)
    || (s.irqStatus.getLsbD 2 && s.irqEnable.getLsbD 2))

end Sys2Proof.Machine
end

