-- ==== Sys2Proof/Machine/Ops.lean ====
section
/-! DEFINITION. The shared operations: DMEM (spec/20_memory.md R38), the channels and the key slot, the
events (spec/42_scrypt.md R92), and the one completion of a command, with success or with an error
(spec/10_state.md R33, spec/60_exceptions.md R159), which is what this hardware has for an exception.
It has no return from one (R168). -/

namespace Sys2Proof.Machine

open Sys2Proof

/-- What an unlisted DMEM address reads as: 0, the reset contents (10_state.md R31). -/
def Memory.unlisted : Byte := 0

/-- DMEM[a] (R38). -/
def Memory.read : Memory → Nat → Byte
  | [], _ => Memory.unlisted
  | (k, v) :: m, a => if k = a then v else Memory.read m a

/-- DMEM[a] <- b (R38), keeping the canonical form. -/
def Memory.write : Memory → Nat → Byte → Memory
  | [], a, b => if b = Memory.unlisted then [] else [(a, b)]
  | (k, v) :: m, a, b =>
    if a < k then (if b = Memory.unlisted then (k, v) :: m else (a, b) :: (k, v) :: m)
    else if a = k then (if b = Memory.unlisted then m else (a, b) :: m)
    else (k, v) :: Memory.write m a b

/-- `MemRead(off, n)` (R38). -/
def Memory.readBytes (m : Memory) (off n : Nat) : Bytes := (List.range n).map fun i => Memory.read m (off + i)

/-- `MemWrite(off, len(V), V)` (R38). -/
def Memory.writeBytes (m : Memory) (off : Nat) : Bytes → Memory
  | [] => m
  | b :: bs => Memory.writeBytes (Memory.write m off b) (off + 1) bs

/-- The canonical form: addresses strictly rising, no listed byte equal to what an unlisted one reads. -/
def Memory.wf : Memory → Bool
  | [] => true
  | [(_, v)] => v != Memory.unlisted
  | (k, v) :: (k', v') :: m => v != Memory.unlisted && decide (k < k') && Memory.wf ((k', v') :: m)

/-- Channel c (10_state.md R29). -/
def State.channel (s : State) : ChannelId → Channel
  | .zero => s.ch0
  | .one => s.ch1

/-- Replace channel c. -/
def State.setChannel (s : State) (c : ChannelId) (ch : Channel) : State :=
  match c with
  | .zero => { s with ch0 := ch }
  | .one => { s with ch1 := ch }

/-- The other channel. -/
def otherChannel : ChannelId → ChannelId
  | .zero => .one
  | .one => .zero

/-- The channel is RUNNING or WAIT_ACK: its result range is reserved (20_memory.md R44). -/
def Channel.active (ch : Channel) : Bool := ch.phase == .running || ch.phase == .waitAck

/-- `RaiseEvent(c)` (42_scrypt.md R92): count the event, set the channel's interrupt bit. -/
def State.raiseEvent (s : State) (c : ChannelId) : State :=
  let ch := s.channel c
  { s.setChannel c { ch with eventsReg := ch.eventsReg + 1, run := { ch.run with events := ch.run.events + 1 } } with
    irqStatus := s.irqStatus ||| irqEvent c }

/-- `MemWrite(off, len(V), V)` on the state's DMEM (20_memory.md R38). -/
def State.storeBytes (s : State) (off : Nat) (v : Bytes) : State :=
  { s with dmem := s.dmem.writeBytes off v }

/-- Write the private-key slot and the engine's state (45_keyexchange.md R137). -/
def State.setSlot (s : State) (phase : KxPhase) (tag : Option Tag) (priv : Nat) : State :=
  { s with kxPhase := phase, slotTag := tag, slotPriv := priv }

/-- Value k of the random source in this command step: the scripted one, else the free one
(10_state.md R36). -/
def State.draw (s : State) (k : Nat) : Nat :=
  (s.draws.headD [])[k]?.getD (Config.freeDraw s.drawCount k)

/-- Byte k drawn in this command step. -/
def State.drawByte (s : State) (k : Nat) : Byte := BitVec.ofNat 8 (s.draw k)

/-- `draw_bytes(n)`, made of the values from k on (00_scope.md R11). -/
def State.drawBytes (s : State) (k n : Nat) : Bytes := (List.range n).map fun i => s.drawByte (k + i)

/-- `draw_int(lo, hi)`, made of value k: the value itself when it lies in the range, else folded into it
(00_scope.md R11). Every integer of the range is some draw. -/
def State.drawInt (s : State) (k lo hi : Nat) : Nat :=
  if lo ≤ s.draw k ∧ s.draw k ≤ hi then s.draw k else lo + s.draw k % (hi + 1 - lo)

/-- What a command's rule answers when no check fails: the state with its effects, and its results. -/
structure Effect where
  state : State
  results : Results := {}
deriving DecidableEq, Repr

/-- The completion step (10_state.md R33): results, ERR, DONE = 1, BUSY = `pending` = 0, CMD_DONE = 1. The
step's draws are used up, whether the command succeeds or fails (60_exceptions.md R159). -/
def State.finish (s : State) (e : ErrorCode) (r : Results) : State :=
  { s with
    results := r
    err := e
    doneFlag := true
    latch := { s.latch with pending := false }
    irqStatus := s.irqStatus ||| irqCmdDone
    draws := s.draws.tail
    drawCount := s.drawCount + 1 }

/-- Complete a command: on success its effects stand; on an error nothing of them does, and the result
registers are 0 (60_exceptions.md R159). -/
def complete (s : State) (outcome : Except ErrorCode Effect) : Host.Outcome State Fault Refusal :=
  match outcome with
  | .ok effect => .next (effect.state.finish .ok effect.results)
  | .error code => .next (s.finish code {})

end Sys2Proof.Machine
end

