-- ==== Sys2Proof/Machine/Operands.lean ====
section
/-! DEFINITION. The operands of a command: the field codes (spec/30_encoding.md R57), the latched
descriptors (spec/20_memory.md R43), the overlap rule (R44), and the delivery of a result (R45). -/

namespace Sys2Proof.Machine

open Sys2Proof

/-- The hash of an ALG code (R57). -/
def hashOfCode (c : BitVec 3) : Option HashAlg :=
  match c.toNat with
  | 0 => some .sha256
  | 1 => some .sha512
  | 2 => some .whirlpool
  | _ => none

/-- The cipher of a code (R57, 00_scope.md R8). -/
def cipherOfNat (c : Nat) : Option Cipher :=
  match c with
  | 0 => some .blowfish
  | 1 => some .aes
  | 2 => some .camellia
  | 3 => some .idea
  | 4 => some .tripleDes
  | _ => none

/-- The mode of a MODE code (R57). -/
def modeOfCode (c : BitVec 3) : Option Mode :=
  match c.toNat with
  | 0 => some .cbc
  | 1 => some .cfb
  | 2 => some .ofb
  | _ => none

/-- The padding scheme of a PAD code (R57). -/
def schemeOfCode (c : BitVec 3) : Option Scheme :=
  match c.toNat with
  | 0 => some .pkcs7
  | 1 => some .ansix923
  | 2 => some .iso10126
  | 3 => some .iso97971
  | _ => none

/-- The algorithm tag of a number (R57, 45_keyexchange.md R127). -/
def tagOfNat (c : Nat) : Option Tag :=
  match c with
  | 0 => some .dh768
  | 1 => some .dh1024
  | 2 => some .dh1536
  | 3 => some .dh2048
  | 4 => some .dh3072
  | 5 => some .dh4096
  | 6 => some .dh6144
  | 7 => some .dh8192
  | 8 => some .ecdh224
  | 9 => some .x25519
  | 10 => some .ecdh384
  | 11 => some .ecdh409
  | 12 => some .ecdh521
  | 13 => some .ecdh571
  | _ => none

/-- A descriptor: a DMEM byte range (00_scope.md R14). -/
structure Descriptor where
  off : Nat
  len : Nat
deriving DecidableEq, Repr

/-- Descriptor A (10_state.md R25). -/
def Args.a (a : Args) : Descriptor := ⟨a.aOff.toNat, a.aLen.toNat⟩

/-- Descriptor B (10_state.md R25). -/
def Args.b (a : Args) : Descriptor := ⟨a.bOff.toNat, a.bLen.toNat⟩

/-- Descriptor C (10_state.md R25). -/
def Args.c (a : Args) : Descriptor := ⟨a.cOff.toNat, a.cLen.toNat⟩

/-- The output descriptor DST (10_state.md R25). -/
def Args.dst (a : Args) : Descriptor := ⟨a.dstOff.toNat, a.dstCap.toNat⟩

/-- The descriptor is admitted: off + len ≤ DMEM_BYTES as unbounded integers (20_memory.md R43). -/
def Descriptor.admitted (d : Descriptor) : Bool := decide (d.off + d.len ≤ Config.dmemBytes)

/-- The two ranges share a byte; zero-length ranges share none (20_memory.md R44). -/
def Descriptor.overlaps (d e : Descriptor) : Bool :=
  decide (max d.off e.off < min (d.off + d.len) (e.off + e.len))

/-- A channel's result range (20_memory.md R44). -/
def Channel.resultRange (ch : Channel) : Descriptor := ⟨ch.dstOffReg.toNat, ch.dkLenReg.toNat⟩

/-- The range shares a byte with the result range of a channel that is RUNNING or WAIT_ACK (R44). -/
def Descriptor.hitsChannel (d : Descriptor) (ch : Channel) : Bool := ch.active && d.overlaps ch.resultRange

/-- The descriptor checks of a command with inputs `ins` and output DST, in order: ERR_RANGE, then
ERR_OVERLAP (R43, R44, 60_exceptions.md R161). `none`: all pass. -/
def operandError (s : State) (ins : List Descriptor) : Option ErrorCode :=
  let dst := s.latch.a.dst
  if (ins ++ [dst]).any (fun d => !d.admitted) then some .range
  else if ins.any dst.overlaps || dst.hitsChannel s.ch0 || dst.hitsChannel s.ch1 then some .overlap
  else none

/-- Run `k` when the descriptor checks pass (60_exceptions.md R161). -/
def withOperands (s : State) (ins : List Descriptor) (k : Except ErrorCode Effect) : Except ErrorCode Effect :=
  match operandError s ins with
  | some e => .error e
  | none => k

/-- Run `k` when every input descriptor is admitted, for a command without DST (R43). -/
def withInputs (ins : List Descriptor) (k : Except ErrorCode Effect) : Except ErrorCode Effect :=
  if ins.any (fun d => !d.admitted) then .error .range else k

/-- `MemRead` of an input operand (R43). -/
def State.operand (s : State) (d : Descriptor) : Bytes := s.dmem.readBytes d.off d.len

/-- Deliver a result (R45): ERR_CAPACITY when it is longer than DST_CAP, else its bytes go to DST_OFF and
OUT_LEN is its length; `r` gives the other result registers. -/
def deliver (s : State) (y : Bytes) (r : Results) : Except ErrorCode Effect :=
  if s.latch.a.dst.len < y.length then .error .capacity
  else .ok { state := s.storeBytes s.latch.a.dst.off y, results := { r with outLen := BitVec.ofNat 32 y.length } }

end Sys2Proof.Machine
end

