-- ==== Sys2Proof/Machine/Sha2.lean ====
section
/-! DEFINITION. SHA-256 and SHA-512 of FIPS 180-4, the configuration primitives H_SHA256 and H_SHA512
(spec/00_scope.md R7, spec/41_kdf.md R73: "named by their standards"). PRESUMED: the text is from the
standard, not from the spec (assumption 10). -/

namespace Sys2Proof.Machine

open Sys2Proof

/-- The eight working words of a compression. -/
structure ShaState (w : Nat) where
  a : BitVec w
  b : BitVec w
  c : BitVec w
  d : BitVec w
  e : BitVec w
  f : BitVec w
  g : BitVec w
  h : BitVec w
deriving DecidableEq, Repr

/-- What distinguishes SHA-256 from SHA-512: the rotation amounts (the last of a small sigma is a shift),
the round constants, the initial value, and the bytes of a word and of the length field. -/
structure ShaVariant (w : Nat) where
  bigSigma0 : Nat × Nat × Nat
  bigSigma1 : Nat × Nat × Nat
  smallSigma0 : Nat × Nat × Nat
  smallSigma1 : Nat × Nat × Nat
  constants : List (BitVec w)
  initial : ShaState w
  wordBytes : Nat
deriving DecidableEq, Repr

/-- Three rotations, exclusive-or'ed (FIPS 180-4 §4.1). -/
def shaRotations (r : Nat × Nat × Nat) {w : Nat} (x : BitVec w) : BitVec w :=
  x.rotateRight r.1 ^^^ x.rotateRight r.2.1 ^^^ x.rotateRight r.2.2

/-- Two rotations and a shift, exclusive-or'ed (FIPS 180-4 §4.1). -/
def shaSchedule (r : Nat × Nat × Nat) {w : Nat} (x : BitVec w) : BitVec w :=
  x.rotateRight r.1 ^^^ x.rotateRight r.2.1 ^^^ (x >>> r.2.2)

/-- One round, with its constant and its schedule word (FIPS 180-4 §6.2.2, §6.4.2). -/
def shaRound {w : Nat} (v : ShaVariant w) (s : ShaState w) (kw : BitVec w × BitVec w) : ShaState w :=
  let choose := (s.e &&& s.f) ^^^ (~~~s.e &&& s.g)
  let t1 := s.h + shaRotations v.bigSigma1 s.e + choose + kw.1 + kw.2
  let majority := (s.a &&& s.b) ^^^ (s.a &&& s.c) ^^^ (s.b &&& s.c)
  let t2 := shaRotations v.bigSigma0 s.a + majority
  ⟨t1 + t2, s.a, s.b, s.c, s.d + t1, s.e, s.f, s.g⟩

/-- Extend the message schedule, newest word first, by `count` words. -/
def shaExtend {w : Nat} (v : ShaVariant w) : Nat → List (BitVec w) → List (BitVec w)
  | 0, ws => ws
  | count + 1, ws =>
    shaExtend v count
      ((shaSchedule v.smallSigma1 (ws.getD 1 0) + ws.getD 6 0 + shaSchedule v.smallSigma0 (ws.getD 14 0)
        + ws.getD 15 0) :: ws)

/-- The message schedule of one block. -/
def shaWords {w : Nat} (v : ShaVariant w) (block : Bytes) : List (BitVec w) :=
  (shaExtend v (v.constants.length - 16)
    ((splitBlocks v.wordBytes 16 block).map (beBits w)).reverse).reverse

/-- The compression of one block. -/
def shaCompress {w : Nat} (v : ShaVariant w) (s : ShaState w) (block : Bytes) : ShaState w :=
  let t := (v.constants.zip (shaWords v block)).foldl (shaRound v) s
  ⟨s.a + t.a, s.b + t.b, s.c + t.c, s.d + t.d, s.e + t.e, s.f + t.f, s.g + t.g, s.h + t.h⟩

/-- The padded message: 0x80, zeros, and the bit length in two words (FIPS 180-4 §5.1). -/
def shaPad {w : Nat} (v : ShaVariant w) (x : Bytes) : Bytes :=
  let block := 16 * v.wordBytes
  let tail := 1 + 2 * v.wordBytes
  x ++ [0x80] ++ zeroBytes ((block - (x.length + tail) % block) % block) ++ beBytes (2 * v.wordBytes) (8 * x.length)

/-- The final words of the whole message. -/
def shaDigest {w : Nat} (v : ShaVariant w) (x : Bytes) : ShaState w :=
  (blocksOf (16 * v.wordBytes) (shaPad v x)).foldl (shaCompress v) v.initial

/-- The eight words as one bit vector, a first. -/
def ShaState.join {w : Nat} (s : ShaState w) : BitVec (w + w + w + w + w + w + w + w) :=
  s.a ++ s.b ++ s.c ++ s.d ++ s.e ++ s.f ++ s.g ++ s.h

/-- The round constants of SHA-256 (FIPS 180-4 §4.2.2). -/
def sha256Constants : List (BitVec 32) :=
  [0x428A2F98, 0x71374491, 0xB5C0FBCF, 0xE9B5DBA5, 0x3956C25B, 0x59F111F1, 0x923F82A4, 0xAB1C5ED5] ++
  [0xD807AA98, 0x12835B01, 0x243185BE, 0x550C7DC3, 0x72BE5D74, 0x80DEB1FE, 0x9BDC06A7, 0xC19BF174] ++
  [0xE49B69C1, 0xEFBE4786, 0x0FC19DC6, 0x240CA1CC, 0x2DE92C6F, 0x4A7484AA, 0x5CB0A9DC, 0x76F988DA] ++
  [0x983E5152, 0xA831C66D, 0xB00327C8, 0xBF597FC7, 0xC6E00BF3, 0xD5A79147, 0x06CA6351, 0x14292967] ++
  [0x27B70A85, 0x2E1B2138, 0x4D2C6DFC, 0x53380D13, 0x650A7354, 0x766A0ABB, 0x81C2C92E, 0x92722C85] ++
  [0xA2BFE8A1, 0xA81A664B, 0xC24B8B70, 0xC76C51A3, 0xD192E819, 0xD6990624, 0xF40E3585, 0x106AA070] ++
  [0x19A4C116, 0x1E376C08, 0x2748774C, 0x34B0BCB5, 0x391C0CB3, 0x4ED8AA4A, 0x5B9CCA4F, 0x682E6FF3] ++
  [0x748F82EE, 0x78A5636F, 0x84C87814, 0x8CC70208, 0x90BEFFFA, 0xA4506CEB, 0xBEF9A3F7, 0xC67178F2]

/-- The round constants of SHA-512 (FIPS 180-4 §4.2.3). -/
def sha512Constants : List (BitVec 64) :=
  [0x428A2F98D728AE22, 0x7137449123EF65CD, 0xB5C0FBCFEC4D3B2F, 0xE9B5DBA58189DBBC] ++
  [0x3956C25BF348B538, 0x59F111F1B605D019, 0x923F82A4AF194F9B, 0xAB1C5ED5DA6D8118] ++
  [0xD807AA98A3030242, 0x12835B0145706FBE, 0x243185BE4EE4B28C, 0x550C7DC3D5FFB4E2] ++
  [0x72BE5D74F27B896F, 0x80DEB1FE3B1696B1, 0x9BDC06A725C71235, 0xC19BF174CF692694] ++
  [0xE49B69C19EF14AD2, 0xEFBE4786384F25E3, 0x0FC19DC68B8CD5B5, 0x240CA1CC77AC9C65] ++
  [0x2DE92C6F592B0275, 0x4A7484AA6EA6E483, 0x5CB0A9DCBD41FBD4, 0x76F988DA831153B5] ++
  [0x983E5152EE66DFAB, 0xA831C66D2DB43210, 0xB00327C898FB213F, 0xBF597FC7BEEF0EE4] ++
  [0xC6E00BF33DA88FC2, 0xD5A79147930AA725, 0x06CA6351E003826F, 0x142929670A0E6E70] ++
  [0x27B70A8546D22FFC, 0x2E1B21385C26C926, 0x4D2C6DFC5AC42AED, 0x53380D139D95B3DF] ++
  [0x650A73548BAF63DE, 0x766A0ABB3C77B2A8, 0x81C2C92E47EDAEE6, 0x92722C851482353B] ++
  [0xA2BFE8A14CF10364, 0xA81A664BBC423001, 0xC24B8B70D0F89791, 0xC76C51A30654BE30] ++
  [0xD192E819D6EF5218, 0xD69906245565A910, 0xF40E35855771202A, 0x106AA07032BBD1B8] ++
  [0x19A4C116B8D2D0C8, 0x1E376C085141AB53, 0x2748774CDF8EEB99, 0x34B0BCB5E19B48A8] ++
  [0x391C0CB3C5C95A63, 0x4ED8AA4AE3418ACB, 0x5B9CCA4F7763E373, 0x682E6FF3D6B2B8A3] ++
  [0x748F82EE5DEFB2FC, 0x78A5636F43172F60, 0x84C87814A1F0AB72, 0x8CC702081A6439EC] ++
  [0x90BEFFFA23631E28, 0xA4506CEBDE82BDE9, 0xBEF9A3F7B2C67915, 0xC67178F2E372532B] ++
  [0xCA273ECEEA26619C, 0xD186B8C721C0C207, 0xEADA7DD6CDE0EB1E, 0xF57D4F7FEE6ED178] ++
  [0x06F067AA72176FBA, 0x0A637DC5A2C898A6, 0x113F9804BEF90DAE, 0x1B710B35131C471B] ++
  [0x28DB77F523047D84, 0x32CAAB7B40C72493, 0x3C9EBE0A15C9BEBC, 0x431D67C49C100D4C] ++
  [0x4CC5D4BECB3E42B6, 0x597F299CFC657E2A, 0x5FCB6FAB3AD6FAEC, 0x6C44198C4A475817]

/-- SHA-256 (FIPS 180-4 §6.2). -/
def sha256Variant : ShaVariant 32 where
  bigSigma0 := (2, 13, 22)
  bigSigma1 := (6, 11, 25)
  smallSigma0 := (7, 18, 3)
  smallSigma1 := (17, 19, 10)
  constants := sha256Constants
  initial := ⟨0x6A09E667, 0xBB67AE85, 0x3C6EF372, 0xA54FF53A,
    0x510E527F, 0x9B05688C, 0x1F83D9AB, 0x5BE0CD19⟩
  wordBytes := 4

/-- SHA-512 (FIPS 180-4 §6.4). -/
def sha512Variant : ShaVariant 64 where
  bigSigma0 := (28, 34, 39)
  bigSigma1 := (14, 18, 41)
  smallSigma0 := (1, 8, 7)
  smallSigma1 := (19, 61, 6)
  constants := sha512Constants
  initial := ⟨0x6A09E667F3BCC908, 0xBB67AE8584CAA73B, 0x3C6EF372FE94F82B, 0xA54FF53A5F1D36F1,
    0x510E527FADE682D1, 0x9B05688C2B3E6C1F, 0x1F83D9ABFB41BD6B, 0x5BE0CD19137E2179⟩
  wordBytes := 8

/-- H_SHA256 (41_kdf.md R73): 32 bytes as one big-endian vector. -/
def sha256 (x : Bytes) : BitVec 256 := (shaDigest sha256Variant x).join

/-- H_SHA512 (41_kdf.md R73): 64 bytes as one big-endian vector. -/
def sha512 (x : Bytes) : BitVec 512 := (shaDigest sha512Variant x).join

end Sys2Proof.Machine
end

