-- ==== Sys2Proof/Machine/Whirlpool.lean ====
section
/-! DEFINITION. Whirlpool of ISO/IEC 10118-3, the configuration primitive H_WHIRLPOOL (spec/00_scope.md R7,
spec/41_kdf.md R73: "named by their standards"). PRESUMED: the text is from the standard, not from the
spec (assumption 10). The state is 64 bytes, row by row. -/

namespace Sys2Proof.Machine

open Sys2Proof

/-- The mini-box E. -/
def whirlE : List Nat := [0x1, 0xB, 0x9, 0xC, 0xD, 0x6, 0xF, 0x3, 0xE, 0x8, 0x7, 0x4, 0xA, 0x2, 0x5, 0x0]

/-- The mini-box R. -/
def whirlR : List Nat := [0x7, 0xC, 0xB, 0xD, 0xE, 0x4, 0x9, 0xF, 0x6, 0x3, 0x8, 0xA, 0x2, 0x5, 0x1, 0x0]

/-- The inverse of E. -/
def whirlEInv (x : Nat) : Nat := whirlE.idxOf x

/-- The substitution box, built from the mini-boxes. -/
def whirlSbox (x : Byte) : Byte :=
  let u := whirlE.getD (x.toNat / 16) 0
  let l := whirlEInv (x.toNat % 16)
  let r := whirlR.getD (u ^^^ l) 0
  BitVec.ofNat 8 (whirlE.getD (u ^^^ r) 0 * 16 + whirlEInv (l ^^^ r))

/-- x times 2 in GF(2^8) modulo 0x11D. -/
def whirlDouble (x : Byte) : Byte := if x.getLsbD 7 then (x <<< 1) ^^^ 0x1D else x <<< 1

/-- x times a coefficient of the diffusion matrix, one of 1, 2, 4, 5, 8, 9. -/
def whirlTimes (x : Byte) (c : Nat) : Byte :=
  let x2 := whirlDouble x
  let x4 := whirlDouble x2
  let x8 := whirlDouble x4
  match c with
  | 1 => x
  | 2 => x2
  | 4 => x4
  | 5 => x4 ^^^ x
  | 8 => x8
  | _ => x8 ^^^ x

/-- The first row of the circulant diffusion matrix. -/
def whirlRow : List Nat := [1, 1, 4, 1, 8, 5, 2, 9]

/-- Byte (row i, column j) of a state. -/
def whirlAt (s : Bytes) (i j : Nat) : Byte := s.getD (8 * i + j) 0

/-- SubBytes and ShiftColumns: column j moves down by j rows. -/
def whirlSubShift (s : Bytes) : Bytes :=
  (List.range 64).map fun k => whirlSbox (whirlAt s ((k / 8 + 8 - k % 8) % 8) (k % 8))

/-- MixRows: each row times the circulant matrix. -/
def whirlMix (s : Bytes) : Bytes :=
  (List.range 64).map fun k =>
    (List.range 8).foldl (fun acc t => acc ^^^ whirlTimes (whirlAt s (k / 8) t) (whirlRow.getD ((k % 8 + 8 - t) % 8) 0)) 0

/-- SubBytes, ShiftColumns, MixRows, and the addition of a key. -/
def whirlRoundFn (key s : Bytes) : Bytes := xorBytes (whirlMix (whirlSubShift s)) key

/-- The constant of round r (from 1): eight S-box values in row 0, zeros below. -/
def whirlConstant (r : Nat) : Bytes :=
  (List.range 8).map (fun j => whirlSbox (BitVec.ofNat 8 (8 * (r - 1) + j))) ++ zeroBytes 56

/-- One round on the (key, state) pair. -/
def whirlStep (ks : Bytes × Bytes) (r : Nat) : Bytes × Bytes :=
  let key := whirlRoundFn (whirlConstant r) ks.1
  (key, whirlRoundFn key ks.2)

/-- The block cipher W, ten rounds. -/
def whirlCipher (key block : Bytes) : Bytes :=
  ((List.range 10).foldl (fun ks r => whirlStep ks (r + 1)) (key, xorBytes block key)).2

/-- The Miyaguchi-Preneel compression. -/
def whirlCompress (h block : Bytes) : Bytes := xorBytes (xorBytes (whirlCipher h block) h) block

/-- The padded message: 0x80, zeros, and the bit length in 32 bytes. -/
def whirlPad (x : Bytes) : Bytes :=
  x ++ [0x80] ++ zeroBytes ((64 - (x.length + 33) % 64) % 64) ++ beBytes 32 (8 * x.length)

/-- H_WHIRLPOOL (41_kdf.md R73): 64 bytes as one big-endian vector. -/
def whirlpool (x : Bytes) : BitVec 512 :=
  beBits 512 ((blocksOf 64 (whirlPad x)).foldl whirlCompress (zeroBytes 64))

end Sys2Proof.Machine
end

