-- ==== Sys2Proof/Machine/Kdf.lean ====
section
/-! DEFINITION. The KDF unit (spec/41_kdf.md): the hashes (R73), HMAC (R74), PBKDF2 (R75), key fitting (R76),
and the commands KEYFIT, HASH and STRETCH (R77 to R79). -/

namespace Sys2Proof.Machine

open Sys2Proof

/-- hLen, the digest bytes (R73). -/
def hashLen : HashAlg → Nat
  | .sha256 => 32
  | .sha512 => 64
  | .whirlpool => 64

/-- bLen, the input block bytes (R73). -/
def hashBlock : HashAlg → Nat
  | .sha256 => 64
  | .sha512 => 128
  | .whirlpool => 64

/-- `HASH(code, X)` (R73). -/
def hash : HashAlg → Bytes → Bytes
  | .sha256, x => beBytes 32 (sha256 x).toNat
  | .sha512, x => beBytes 64 (sha512 x).toNat
  | .whirlpool, x => beBytes 64 (whirlpool x).toNat

/-- The HMAC key as one input block: hashed when longer, then zero-padded (R74). -/
def hmacKey (alg : HashAlg) (k : Bytes) : Bytes :=
  let k' := if hashBlock alg < k.length then hash alg k else k
  k' ++ zeroBytes (hashBlock alg - k'.length)

/-- `HMAC(code, K, X)` (R74). -/
def hmac (alg : HashAlg) (k x : Bytes) : Bytes :=
  let k0 := hmacKey alg k
  hash alg (k0.map (· ^^^ 0x5c) ++ hash alg (k0.map (· ^^^ 0x36) ++ x))

/-- The inner loop of PBKDF2: `count` more iterations from U and F (R75). -/
def pbkdf2Iterate (alg : HashAlg) (p : Bytes) : Nat → Bytes → Bytes → Bytes
  | 0, _, f => f
  | count + 1, u, f =>
    let u' := hmac alg p u
    pbkdf2Iterate alg p count u' (xorBytes f u')

/-- Block i (from 1) of PBKDF2 (R75). -/
def pbkdf2Block (alg : HashAlg) (p s : Bytes) (c i : Nat) : Bytes :=
  let u := hmac alg p (s ++ beBytes 4 i)
  pbkdf2Iterate alg p (c - 1) u u

/-- `PBKDF2(code, P, S, c, dkLen)` (R75). -/
def pbkdf2 (alg : HashAlg) (p s : Bytes) (c dkLen : Nat) : Bytes :=
  ((List.range ((dkLen + hashLen alg - 1) / hashLen alg)).flatMap fun i => pbkdf2Block alg p s c (i + 1)).take dkLen

/-- `KEYFIT_HASH_S(K)`: SHA-256 for S = 32, the OPEN function otherwise (R76). -/
def keyfitHash (size : Nat) (k : Bytes) : Bytes :=
  if size = 32 then hash .sha256 k else beBytes size (Config.keyfitHash size k).toNat

/-- `KEYFIT(K, S)` (R76). -/
def keyfit (k : Bytes) (size : Nat) : Bytes := if k.length = size then k else keyfitHash size k

/-- The sizes KEYFIT accepts (R76, R77). -/
def keyfitSizes : List Nat := [8, 16, 20, 24, 32, 64]

/-- The rule of KEYFIT (R77). -/
def keyfitCommand (s : State) : Except ErrorCode Effect :=
  if !keyfitSizes.contains s.latch.a.param0.toNat then .error .config
  else withOperands s [s.latch.a.a] (deliver s (keyfit (s.operand s.latch.a.a) s.latch.a.param0.toNat) {})

/-- KEYFIT (R77). -/
def execKeyfit (s : State) : Host.Outcome State Fault Refusal := complete s (keyfitCommand s)

/-- The rule of HASH (R78). -/
def hashCommand (code : BitVec 3) (s : State) : Except ErrorCode Effect :=
  match hashOfCode code with
  | none => .error .config
  | some alg => withOperands s [s.latch.a.a] (deliver s (hash alg (s.operand s.latch.a.a)) {})

/-- HASH (R78). -/
def execHash (code : BitVec 3) (s : State) : Host.Outcome State Fault Refusal := complete s (hashCommand code s)

/-- The rule of STRETCH (R79). -/
def stretchCommand (code : BitVec 3) (s : State) : Except ErrorCode Effect :=
  match hashOfCode code with
  | none => .error .config
  | some alg =>
    if s.latch.a.param0 = 0 ∨ s.latch.a.param1 = 0 then .error .config
    else withOperands s [s.latch.a.a, s.latch.a.b]
      (deliver s (pbkdf2 alg (s.operand s.latch.a.a) (s.operand s.latch.a.b) s.latch.a.param0.toNat
        s.latch.a.param1.toNat) {})

/-- STRETCH (R79). -/
def execStretch (code : BitVec 3) (s : State) : Host.Outcome State Fault Refusal := complete s (stretchCommand code s)

end Sys2Proof.Machine
end

