-- ==== Sys2Proof/Machine/Padding.lean ====
section
/-! DEFINITION. The padding aligner (spec/40_padding.md): the functions PAD and UNPAD (R66 to R69) and the
commands PAD and UNPAD (R70, R71). -/

namespace Sys2Proof.Machine

open Sys2Proof

/-- The pad length N = B − (len mod B) (R66). -/
def padLen (b len : Nat) : Nat := b - len % b

/-- How many fill bytes PAD draws: N − 1 for ISO10126, none otherwise (R67). -/
def padDraws (scheme : Scheme) (b len : Nat) : Nat :=
  match scheme with
  | .iso10126 => padLen b len - 1
  | _ => 0

/-- `PAD(M, scheme, B)`; `fill i` is the i-th drawn fill byte (R67). -/
def padBytes (scheme : Scheme) (b : Nat) (fill : Nat → Byte) (m : Bytes) : Bytes :=
  let n := padLen b m.length
  match scheme with
  | .pkcs7 => m ++ List.replicate n (BitVec.ofNat 8 n)
  | .ansix923 => m ++ zeroBytes (n - 1) ++ [BitVec.ofNat 8 n]
  | .iso10126 => m ++ (List.range (n - 1)).map fill ++ [BitVec.ofNat 8 n]
  | .iso97971 => m ++ [0x80] ++ zeroBytes (n - 1)

/-- The fill bytes that UNPAD_STRICT = 1 checks for a trailing length byte n (R68, R69). -/
def strictFillOk (scheme : Scheme) (x : Bytes) (n : Nat) : Bool :=
  match scheme with
  | .pkcs7 => (x.drop (x.length - n)).all (· == BitVec.ofNat 8 n)
  | .ansix923 => ((x.drop (x.length - n)).take (n - 1)).all (· == 0)
  | _ => true

/-- UNPAD of the schemes that end in a length byte (R68). -/
def unpadLength (strict : Bool) (scheme : Scheme) (b : Nat) (x : Bytes) : Except ErrorCode Bytes :=
  match x.getLast? with
  | none => .error .padding
  | some last =>
    let n := last.toNat
    if n = 0 ∨ b < n ∨ x.length < n then .error .padding
    else if strict && !strictFillOk scheme x n then .error .padding
    else .ok (x.take (x.length - n))

/-- UNPAD of ISO97971: scan back over zero bytes to the marker 0x80 (R68). -/
def unpadMarker (strict : Bool) (b : Nat) (x : Bytes) : Except ErrorCode Bytes :=
  match x.reverse.dropWhile (· == 0) with
  | [] => .error .padding
  | marker :: rest =>
    if marker ≠ 0x80 then .error .padding
    else if strict && decide (b < x.length - rest.length) then .error .padding
    else .ok rest.reverse

/-- `UNPAD(X, scheme, B)` under UNPAD_STRICT = `strict` (R68, R69). -/
def unpadBytes (strict : Bool) (scheme : Scheme) (b : Nat) (x : Bytes) : Except ErrorCode Bytes :=
  match scheme with
  | .iso97971 => unpadMarker strict b x
  | _ => unpadLength strict scheme b x

/-- blockSizeBits is a multiple of 8 in 8 .. 2040 (R70, R71). -/
def blockBitsOk (bits : Nat) : Bool := bits % 8 == 0 && decide (8 ≤ bits) && decide (bits ≤ 2040)

/-- The rule of PAD (R70). -/
def padCommand (code : BitVec 3) (s : State) : Except ErrorCode Effect :=
  match schemeOfCode code with
  | none => .error .config
  | some scheme =>
    if !blockBitsOk s.latch.a.param0.toNat then .error .config
    else withOperands s [s.latch.a.a]
      (deliver s (padBytes scheme (s.latch.a.param0.toNat / 8) s.drawByte (s.operand s.latch.a.a)) {})

/-- PAD (R70). -/
def execPad (code : BitVec 3) (s : State) : Host.Outcome State Fault Refusal := complete s (padCommand code s)

/-- The rule of UNPAD (R71). -/
def unpadCommand (code : BitVec 3) (s : State) : Except ErrorCode Effect :=
  match schemeOfCode code with
  | none => .error .config
  | some scheme =>
    if !blockBitsOk s.latch.a.param0.toNat then .error .config
    else withOperands s [s.latch.a.a]
      (match unpadBytes Config.unpadStrict scheme (s.latch.a.param0.toNat / 8) (s.operand s.latch.a.a) with
        | .error e => .error e
        | .ok y => deliver s y {})

/-- UNPAD (R71). -/
def execUnpad (code : BitVec 3) (s : State) : Host.Outcome State Fault Refusal := complete s (unpadCommand code s)

end Sys2Proof.Machine
end

