-- ==== Sys2Proof/Machine/CipherMode.lean ====
section
/-! DEFINITION. The cipher-mode unit (spec/43_cipher.md): the five block ciphers (R98), the modes (R103), the
codec functions (R105 to R108), and the commands CIPHER_ENC and CIPHER_DEC (R109, R110). -/

namespace Sys2Proof.Machine

open Sys2Proof

/-- kB, the key bytes of a cipher (00_scope.md R8). -/
def cipherKeyBytes : Cipher → Nat
  | .blowfish => 64
  | .aes => 32
  | .camellia => 32
  | .idea => 16
  | .tripleDes => 24

/-- bB, the block bytes of a cipher (00_scope.md R8). -/
def cipherBlockBytes : Cipher → Nat
  | .blowfish => 8
  | .aes => 16
  | .camellia => 16
  | .idea => 8
  | .tripleDes => 8

/-- `E_alg(KEY, X)` (R98). -/
def blockEncrypt (alg : Cipher) (key x : Bytes) : Bytes :=
  match alg with
  | .blowfish => beBytes 8 (Config.blowfish (beBits 512 key) (beBits 64 x)).toNat
  | .aes => beBytes 16 (aesEncrypt (beBits 256 key) (beBits 128 x)).toNat
  | .camellia => beBytes 16 (camelliaEncrypt (beBits 256 key) (beBits 128 x)).toNat
  | .idea => beBytes 8 (ideaEncrypt (beBits 128 key) (beBits 64 x)).toNat
  | .tripleDes => beBytes 8 (tripleDesEncrypt (beBits 192 key) (beBits 64 x)).toNat

/-- `D_alg(KEY, Y)` (R98). -/
def blockDecrypt (alg : Cipher) (key y : Bytes) : Bytes :=
  match alg with
  | .blowfish => beBytes 8 ((Config.blowfish (beBits 512 key)).symm (beBits 64 y)).toNat
  | .aes => beBytes 16 (aesDecrypt (beBits 256 key) (beBits 128 y)).toNat
  | .camellia => beBytes 16 (camelliaDecrypt (beBits 256 key) (beBits 128 y)).toNat
  | .idea => beBytes 8 (ideaDecrypt (beBits 128 key) (beBits 64 y)).toNat
  | .tripleDes => beBytes 8 (tripleDesDecrypt (beBits 192 key) (beBits 64 y)).toNat

/-- CBC encryption of the blocks, from the previous ciphertext block (R103). -/
def cbcEncrypt (alg : Cipher) (key : Bytes) : Bytes → List Bytes → List Bytes
  | _, [] => []
  | prev, p :: ps =>
    let c := blockEncrypt alg key (xorBytes p prev)
    c :: cbcEncrypt alg key c ps

/-- CBC decryption (R103). -/
def cbcDecrypt (alg : Cipher) (key : Bytes) : Bytes → List Bytes → List Bytes
  | _, [] => []
  | prev, c :: cs => xorBytes (blockDecrypt alg key c) prev :: cbcDecrypt alg key c cs

/-- CFB encryption (R103). -/
def cfbEncrypt (alg : Cipher) (key : Bytes) : Bytes → List Bytes → List Bytes
  | _, [] => []
  | prev, p :: ps =>
    let c := xorBytes p (blockEncrypt alg key prev)
    c :: cfbEncrypt alg key c ps

/-- CFB decryption, which uses only E (R103). -/
def cfbDecrypt (alg : Cipher) (key : Bytes) : Bytes → List Bytes → List Bytes
  | _, [] => []
  | prev, c :: cs => xorBytes c (blockEncrypt alg key prev) :: cfbDecrypt alg key c cs

/-- OFB, encryption and decryption alike (R103). -/
def ofbCrypt (alg : Cipher) (key : Bytes) : Bytes → List Bytes → List Bytes
  | _, [] => []
  | prev, p :: ps =>
    let o := blockEncrypt alg key prev
    xorBytes p o :: ofbCrypt alg key o ps

/-- The blocks X_1 .. X_n of an input, n = len / b (R103). -/
def cipherBlocks (alg : Cipher) (x : Bytes) : List Bytes :=
  splitBlocks (cipherBlockBytes alg) (x.length / cipherBlockBytes alg) x

/-- `ModeEnc(alg, mode, KEY, IV, P)` (R103). -/
def modeEncrypt (alg : Cipher) (mode : Mode) (key iv p : Bytes) : Bytes :=
  match mode with
  | .cbc => (cbcEncrypt alg key iv (cipherBlocks alg p)).flatten
  | .cfb => (cfbEncrypt alg key iv (cipherBlocks alg p)).flatten
  | .ofb => (ofbCrypt alg key iv (cipherBlocks alg p)).flatten

/-- `ModeDec(alg, mode, KEY, IV, C)` (R103). -/
def modeDecrypt (alg : Cipher) (mode : Mode) (key iv c : Bytes) : Bytes :=
  match mode with
  | .cbc => (cbcDecrypt alg key iv (cipherBlocks alg c)).flatten
  | .cfb => (cfbDecrypt alg key iv (cipherBlocks alg c)).flatten
  | .ofb => (ofbCrypt alg key iv (cipherBlocks alg c)).flatten

/-- The derived material M of a layer: bB(alg) + kB(alg) bytes (R105). -/
def codecMaterial (stretch : HashAlg) (alg : Cipher) (k salt : Bytes) (rounds : Nat) : Bytes :=
  pbkdf2 stretch (keyfit k (cipherKeyBytes alg)) salt rounds (cipherBlockBytes alg + cipherKeyBytes alg)

/-- The IV of a layer: the first bB(alg) bytes of M (R105, 90_conflicts.md C8). -/
def codecIv (stretch : HashAlg) (alg : Cipher) (k salt : Bytes) (rounds : Nat) : Bytes :=
  (codecMaterial stretch alg k salt rounds).take (cipherBlockBytes alg)

/-- The KEY of a layer: the bytes of M after the IV (R105). -/
def codecKey (stretch : HashAlg) (alg : Cipher) (k salt : Bytes) (rounds : Nat) : Bytes :=
  (codecMaterial stretch alg k salt rounds).drop (cipherBlockBytes alg)

/-- `CodecSalt(C)`: absent, given, or re-hashed to 8 bytes (R106). -/
def codecSalt (drawn c : Bytes) : Bytes :=
  if c.length = 0 then drawn else if c.length = 8 then c else keyfitHash 8 c

/-- `CodecEnc(alg, mode, scheme, P, K, salt, rounds)`, one encryption layer (R107). -/
def codecEncrypt (stretch : HashAlg) (alg : Cipher) (mode : Mode) (scheme : Scheme) (fill : Nat → Byte)
    (p k salt : Bytes) (rounds : Nat) : Bytes :=
  salt ++ modeEncrypt alg mode (codecKey stretch alg k salt rounds) (codecIv stretch alg k salt rounds)
    (padBytes scheme (cipherBlockBytes alg) fill p)

/-- `CodecDec(alg, mode, scheme, X, K, rounds)` (R108). -/
def codecDecrypt (stretch : HashAlg) (strict : Bool) (alg : Cipher) (mode : Mode) (scheme : Scheme)
    (x k : Bytes) (rounds : Nat) : Except ErrorCode Bytes :=
  let b := cipherBlockBytes alg
  if x.length < 8 + b ∨ (x.length - 8) % b ≠ 0 then .error .length
  else
    unpadBytes strict scheme b
      (modeDecrypt alg mode (codecKey stretch alg k (x.take 8) rounds) (codecIv stretch alg k (x.take 8) rounds)
        (x.drop 8))

/-- kdfRounds: 0 selects 1000 (30_encoding.md R61). -/
def kdfRounds (param : Word) : Nat := if param = 0 then Config.defaultRounds else param.toNat

/-- The draws of CIPHER_ENC: the salt first when C is empty, then the fill bytes (R106, R107). -/
def cipherSaltDraws (c : Bytes) : Nat := if c.length = 0 then 8 else 0

/-- The rule of CIPHER_ENC (R109). -/
def cipherEncCommand (alg mode pad : BitVec 3) (s : State) : Except ErrorCode Effect :=
  match cipherOfNat alg.toNat, modeOfCode mode, schemeOfCode pad with
  | some alg, some mode, some scheme =>
    let a := s.latch.a
    let c := s.operand a.c
    withOperands s [a.a, a.b, a.c]
      (deliver s
        (codecEncrypt Config.stretchHash alg mode scheme (fun i => s.drawByte (cipherSaltDraws c + i))
          (s.operand a.a) (s.operand a.b) (codecSalt (s.drawBytes 0 8) c) (kdfRounds a.param0)) {})
  | _, _, _ => .error .config

/-- CIPHER_ENC (R109). -/
def execCipherEnc (alg mode pad : BitVec 3) (s : State) : Host.Outcome State Fault Refusal :=
  complete s (cipherEncCommand alg mode pad s)

/-- The rule of CIPHER_DEC (R110). -/
def cipherDecCommand (alg mode pad : BitVec 3) (s : State) : Except ErrorCode Effect :=
  match cipherOfNat alg.toNat, modeOfCode mode, schemeOfCode pad with
  | some alg, some mode, some scheme =>
    let a := s.latch.a
    withOperands s [a.a, a.b]
      (match codecDecrypt Config.stretchHash Config.unpadStrict alg mode scheme (s.operand a.a) (s.operand a.b)
          (kdfRounds a.param0) with
        | .error e => .error e
        | .ok y => deliver s y {})
  | _, _, _ => .error .config

/-- CIPHER_DEC (R110). -/
def execCipherDec (alg mode pad : BitVec 3) (s : State) : Host.Outcome State Fault Refusal :=
  complete s (cipherDecCommand alg mode pad s)

end Sys2Proof.Machine
end

