-- ==== Sys2Proof/Machine/Keccak.lean ====
section
/-! DEFINITION. KMAC256 (spec/44_mac_envelope.md section 1): Keccak-f[1600] (R113), the sponge (R114), the
SP 800-185 encodings (R115), cSHAKE256 (R116), KMAC256 and the DCCB's MAC (R117), CtEqual (R118). A state is
25 lanes; lane x + 5y is A[x][y]. -/

namespace Sys2Proof.Machine

open Sys2Proof

/-- A[x][y], indices mod 5 (R113). -/
def lane (a : List Lane) (x y : Nat) : Lane := a.getD (x % 5 + 5 * (y % 5)) 0

/-- A state from a function of x and y. -/
def lanes (f : Nat → Nat → Lane) : List Lane := (List.range 25).map fun k => f (k % 5) (k / 5)

/-- The rotations RHO[x][y], rows x (R113). -/
def keccakRho : List (List Nat) :=
  [[0, 36, 3, 41, 18], [1, 44, 10, 45, 2], [62, 6, 43, 15, 61], [28, 55, 25, 21, 56], [27, 20, 39, 8, 14]]

/-- The round constants RC (R113). -/
def keccakRc : List Lane :=
  [0x0000000000000001, 0x0000000000008082, 0x800000000000808A, 0x8000000080008000] ++
  [0x000000000000808B, 0x0000000080000001, 0x8000000080008081, 0x8000000000008009] ++
  [0x000000000000008A, 0x0000000000000088, 0x0000000080008009, 0x000000008000000A] ++
  [0x000000008000808B, 0x800000000000008B, 0x8000000000008089, 0x8000000000008003] ++
  [0x8000000000008002, 0x8000000000000080, 0x000000000000800A, 0x800000008000000A] ++
  [0x8000000080008081, 0x8000000000008080, 0x0000000080000001, 0x8000000080008008]

/-- C[x] of step θ (R113). -/
def keccakColumn (a : List Lane) (x : Nat) : Lane :=
  lane a x 0 ^^^ lane a x 1 ^^^ lane a x 2 ^^^ lane a x 3 ^^^ lane a x 4

/-- Step θ (R113). -/
def keccakTheta (a : List Lane) : List Lane :=
  lanes fun x y => lane a x y ^^^ (keccakColumn a (x + 4) ^^^ (keccakColumn a (x + 1)).rotateLeft 1)

/-- Steps ρ and π: B[y][2x+3y] = rotl64(A[x][y], RHO[x][y]) (R113). Solved for the target: B[u][v] comes
from y = u and x = u + 3v mod 5. -/
def keccakRhoPi (a : List Lane) : List Lane :=
  lanes fun u v =>
    (lane a (u + 3 * v) u).rotateLeft ((keccakRho.getD ((u + 3 * v) % 5) []).getD u 0)

/-- Step χ (R113). -/
def keccakChi (b : List Lane) : List Lane :=
  lanes fun x y => lane b x y ^^^ (~~~(lane b (x + 1) y) &&& lane b (x + 2) y)

/-- Step ι (R113). -/
def keccakIota (rc : Lane) (a : List Lane) : List Lane := a.set 0 (a.getD 0 0 ^^^ rc)

/-- One round: θ, ρ and π, χ, ι (R113). -/
def keccakRound (a : List Lane) (rc : Lane) : List Lane := keccakIota rc (keccakChi (keccakRhoPi (keccakTheta a)))

/-- `KECCAK_F(A)` (R113). -/
def keccakF (a : List Lane) : List Lane := keccakRc.foldl keccakRound a

/-- The rate of Keccak[512] in bytes (R114). -/
def keccakRate : Nat := 136

/-- The padded input: domain byte, zeros to a whole block, the last byte OR 0x80 (R114). -/
def spongePad (m : Bytes) (d : Byte) : Bytes :=
  let x := m ++ [d] ++ zeroBytes ((keccakRate - (m.length + 1) % keccakRate) % keccakRate)
  x.set (x.length - 1) (x.getD (x.length - 1) 0 ||| 0x80)

/-- Absorb one 136-byte block (R114). -/
def spongeAbsorb (a : List Lane) (q : Bytes) : List Lane :=
  let ws := (splitBlocks 8 17 q).map fun w => (BitVec.ofNat 64 (leNat w) : Lane)
  keccakF (lanes fun x y => if x + 5 * y < 17 then lane a x y ^^^ ws.getD (x + 5 * y) 0 else lane a x y)

/-- The 136 output bytes of a state (R114). -/
def spongeOut (a : List Lane) : Bytes := (List.range 17).flatMap fun i => leBytes 8 (a.getD i 0).toNat

/-- Squeeze `count` blocks (R114). -/
def spongeSqueeze : Nat → List Lane → Bytes
  | 0, _ => []
  | count + 1, a => spongeOut a ++ spongeSqueeze count (keccakF a)

/-- `Sponge(M, d, L)` (R114). -/
def sponge (m : Bytes) (d : Byte) (l : Nat) : Bytes :=
  let a := (blocksOf keccakRate (spongePad m d)).foldl spongeAbsorb (List.replicate 25 0)
  (spongeSqueeze ((l + keccakRate - 1) / keccakRate) a).take l

/-- The least n ≥ 1 with x < 2^(8n) (R115). -/
def encodeLen (x : Nat) : Nat := x.log2 / 8 + 1

/-- `left_encode(x)` (R115). -/
def leftEncode (x : Nat) : Bytes := BitVec.ofNat 8 (encodeLen x) :: beBytes (encodeLen x) x

/-- `right_encode(x)` (R115). -/
def rightEncode (x : Nat) : Bytes := beBytes (encodeLen x) x ++ [BitVec.ofNat 8 (encodeLen x)]

/-- `encode_string(S)` (R115). -/
def encodeString (s : Bytes) : Bytes := leftEncode (8 * s.length) ++ s

/-- `bytepad(X, w)` (R115). -/
def bytepad (x : Bytes) (w : Nat) : Bytes :=
  let z := leftEncode w ++ x
  z ++ zeroBytes ((w - z.length % w) % w)

/-- `cSHAKE256(X, L, Nm, S)`, L in bits (R116). -/
def cshake256 (x : Bytes) (l : Nat) (nm s : Bytes) : Bytes :=
  if nm.isEmpty && s.isEmpty then sponge x 0x1F (l / 8)
  else sponge (bytepad (encodeString nm ++ encodeString s) 136 ++ x) 0x04 (l / 8)

/-- ascii("KMAC") (R117). -/
def asciiKmac : Bytes := [0x4B, 0x4D, 0x41, 0x43]

/-- ascii("DiscordCrypt MAC"), the customization string (R117, 00_scope.md R9). -/
def macCustomization : Bytes :=
  [0x44, 0x69, 0x73, 0x63, 0x6F, 0x72, 0x64, 0x43, 0x72, 0x79, 0x70, 0x74, 0x20, 0x4D, 0x41, 0x43]

/-- `KMAC256(K, X, L, S)` (R117). -/
def kmac256 (k x : Bytes) (l : Nat) (s : Bytes) : Bytes :=
  cshake256 (bytepad (encodeString k) 136 ++ x ++ rightEncode l) l asciiKmac s

/-- `MAC(K, X)`, 32 bytes (R117). -/
def mac (k x : Bytes) : Bytes := kmac256 k x 256 macCustomization

/-- The accumulated differences of two strings, every byte examined (R118). -/
def ctDifference (t1 t2 : Bytes) : Byte :=
  (List.range 32).foldl (fun acc i => acc ||| (t1.getD i 0 ^^^ t2.getD i 0)) 0

/-- `CtEqual(T1, T2)` (R118). -/
def ctEqual (t1 t2 : Bytes) : Bool := ctDifference t1 t2 == 0

end Sys2Proof.Machine
end

