-- ==== Sys2Proof/Machine/Envelope.lean ====
section
/-! DEFINITION. The MAC unit and the envelope sequencer (spec/44_mac_envelope.md): MAC_GEN and MAC_VERIFY
(R119, R120), the cipher selector and the envelope function (R121, R122), ENV_ENC and ENV_DEC (R123, R124). -/

namespace Sys2Proof.Machine

open Sys2Proof

/-- The rule of MAC_GEN (R119). -/
def macGenCommand (s : State) : Except ErrorCode Effect :=
  let a := s.latch.a
  withOperands s [a.a, a.b] (deliver s (mac (s.operand a.b) (s.operand a.a)) {})

/-- MAC_GEN (R119). -/
def execMacGen (s : State) : Host.Outcome State Fault Refusal := complete s (macGenCommand s)

/-- The rule of MAC_VERIFY (R120). -/
def macVerifyCommand (s : State) : Except ErrorCode Effect :=
  let a := s.latch.a
  if a.cLen ≠ 32 then .error .config
  else withInputs [a.a, a.b, a.c]
    (if ctEqual (s.operand a.c) (mac (s.operand a.b) (s.operand a.a)) then .ok { state := s, results := { out0 := 1 } }
    else .error .authFail)

/-- MAC_VERIFY (R120). -/
def execMacVerify (s : State) : Host.Outcome State Fault Refusal := complete s (macVerifyCommand s)

/-- The primary cipher of a selector: SEL mod 5; none above 24 (R121). -/
def selectorPrimary (sel : BitVec 8) : Option Cipher :=
  if sel.toNat ≤ 24 then cipherOfNat (sel.toNat % 5) else none

/-- The secondary cipher of a selector: SEL div 5; none above 24 (R121). -/
def selectorSecondary (sel : BitVec 8) : Option Cipher :=
  if sel.toNat ≤ 24 then cipherOfNat (sel.toNat / 5) else none

/-- `EnvEnc(SEL, mode, scheme, P, K1, K2, s1, s2)` with the two ciphers of SEL; `fill1` and `fill2` are the
layers' drawn fill bytes (R122). -/
def envEncrypt (stretch : HashAlg) (primary secondary : Cipher) (mode : Mode) (scheme : Scheme)
    (fill1 fill2 : Nat → Byte) (p k1 k2 s1 s2 : Bytes) : Bytes :=
  let l1 := codecEncrypt stretch primary mode scheme fill1 p k1 s1 Config.defaultRounds
  let l2 := codecEncrypt stretch secondary mode scheme fill2 l1 k2 s2 Config.defaultRounds
  mac (k1 ++ k2) l2 ++ l2

/-- The result of ENV_DEC on an envelope (R124): short, tampered with, undecryptable, or the plaintext. -/
def envDecrypt (stretch : HashAlg) (strict : Bool) (primary secondary : Cipher) (mode : Mode) (scheme : Scheme)
    (w k1 k2 : Bytes) : Except ErrorCode Bytes :=
  let l2 := w.drop 32
  if w.length < 40 then .error .decryptFail
  else if !ctEqual (w.take 32) (mac (k1 ++ k2) l2) then .error .authFail
  else
    match codecDecrypt stretch strict secondary mode scheme l2 k2 Config.defaultRounds with
    | .error _ => .error .decryptFail
    | .ok l1 =>
      match codecDecrypt stretch strict primary mode scheme l1 k1 Config.defaultRounds with
      | .error _ => .error .decryptFail
      | .ok p => .ok p

/-- OUT0 and OUT1 of the envelope commands: the primary and secondary cipher codes (R123, R124). -/
def selectorResults (sel : BitVec 8) : Results :=
  { out0 := BitVec.ofNat 32 (sel.toNat % 5), out1 := BitVec.ofNat 32 (sel.toNat / 5) }

/-- The rule of ENV_ENC (R123). The draws are s1, layer 1's fill bytes, s2, layer 2's fill bytes. -/
def envEncCommand (mode pad : BitVec 3) (sel : BitVec 8) (s : State) : Except ErrorCode Effect :=
  match selectorPrimary sel, selectorSecondary sel with
  | some primary, some secondary =>
    match modeOfCode mode, schemeOfCode pad with
    | some mode, some scheme =>
      let a := s.latch.a
      let p := s.operand a.a
      let second := 8 + padDraws scheme (cipherBlockBytes primary) p.length
      withOperands s [a.a, a.b, a.c]
        (deliver s
          (envEncrypt Config.stretchHash primary secondary mode scheme (fun i => s.drawByte (8 + i))
            (fun i => s.drawByte (second + 8 + i)) p (s.operand a.b) (s.operand a.c) (s.drawBytes 0 8)
            (s.drawBytes second 8))
          (selectorResults sel))
    | _, _ => .error .config
  | _, _ => .error .badSelector

/-- ENV_ENC (R123). -/
def execEnvEnc (mode pad : BitVec 3) (sel : BitVec 8) (s : State) : Host.Outcome State Fault Refusal :=
  complete s (envEncCommand mode pad sel s)

/-- The rule of ENV_DEC (R124). -/
def envDecCommand (mode pad : BitVec 3) (sel : BitVec 8) (s : State) : Except ErrorCode Effect :=
  match selectorPrimary sel, selectorSecondary sel with
  | some primary, some secondary =>
    match modeOfCode mode, schemeOfCode pad with
    | some mode, some scheme =>
      let a := s.latch.a
      withOperands s [a.a, a.b, a.c]
        (match envDecrypt Config.stretchHash Config.unpadStrict primary secondary mode scheme (s.operand a.a)
            (s.operand a.b) (s.operand a.c) with
          | .error e => .error e
          | .ok p => deliver s p (selectorResults sel))
    | _, _ => .error .config
  | _, _ => .error .badSelector

/-- ENV_DEC (R124). -/
def execEnvDec (mode pad : BitVec 3) (sel : BitVec 8) (s : State) : Host.Outcome State Fault Refusal :=
  complete s (envDecCommand mode pad sel s)

end Sys2Proof.Machine
end

