-- ==== Sys2Proof/Machine/Curve.lean ====
section
/-! DEFINITION. The arithmetic of the key-agreement unit (spec/45_keyexchange.md): the prime field (R128), the
binary field (R129), the two group laws (R130, R131), ScalarMul (R132), and X25519 (R133). -/

namespace Sys2Proof.Machine

open Sys2Proof

/-- add in F_p (R128). -/
def fpAdd (p x y : Nat) : Nat := (x + y) % p

/-- sub in F_p (R128). -/
def fpSub (p x y : Nat) : Nat := (x + (p - y % p)) % p

/-- mul in F_p (R128). -/
def fpMul (p x y : Nat) : Nat := x * y % p

/-- inv in F_p: x^(p−2) mod p (R128). -/
def fpInv (p x : Nat) : Nat := powMod p x (p - 2)

/-- One step of the plain carry-less product: shift, add x when the bit is set (R129). -/
def clMulStep (x acc : Nat) (bit : Bool) : Nat := if bit then (2 * acc) ^^^ x else 2 * acc

/-- The carry-less product of two polynomials over GF(2), not reduced (R129). -/
def clMul (x y : Nat) : Nat := (bitsMsb y).foldl (clMulStep x) 0

/-- One step of the carry-less product: shift, reduce by f, add x when the bit is set (R129). -/
def gf2MulStep (m f x acc : Nat) (bit : Bool) : Nat :=
  let d := 2 * acc
  let e := if d.testBit m then d ^^^ f else d
  if bit then e ^^^ x else e

/-- mul in GF(2^m): the carry-less product reduced mod f (R129). -/
def gf2Mul (m f x y : Nat) : Nat := (bitsMsb y).foldl (gf2MulStep m f x) 0

/-- One square-and-multiply step in GF(2^m). -/
def gf2PowStep (m f x acc : Nat) (bit : Bool) : Nat :=
  if bit then gf2Mul m f (gf2Mul m f acc acc) x else gf2Mul m f acc acc

/-- inv in GF(2^m): x^(2^m − 2) (R129). -/
def gf2Inv (m f x : Nat) : Nat := (bitsMsb (2 ^ m - 2)).foldl (gf2PowStep m f x) 1

/-- A point of a curve, or the point at infinity O (R130, R131). -/
inductive Point where
  | infinity
  | affine (x y : Nat)
deriving DecidableEq, Repr, Inhabited

/-- y^2 = x^3 + a·x + b over F_p (R130). -/
def primeOnCurve (e : PrimeCurve) (x y : Nat) : Bool :=
  fpMul e.p y y == fpAdd e.p (fpAdd e.p (fpMul e.p (fpMul e.p x x) x) (fpMul e.p e.a x)) e.b

/-- The third point from a slope: x3 = λ^2 − x1 − x2, y3 = λ·(x1 − x3) − y1 (R130). -/
def primeChord (p l x1 y1 x2 : Nat) : Point :=
  let x3 := fpSub p (fpSub p (fpMul p l l) x1) x2
  .affine x3 (fpSub p (fpMul p l (fpSub p x1 x3)) y1)

/-- The group law on a prime-field curve (R130). -/
def primeAdd (e : PrimeCurve) : Point → Point → Point
  | .infinity, q => q
  | q, .infinity => q
  | .affine x1 y1, .affine x2 y2 =>
    if x1 = x2 then
      if fpAdd e.p y1 y2 = 0 then .infinity
      else primeChord e.p (fpMul e.p (fpAdd e.p (fpMul e.p 3 (fpMul e.p x1 x1)) e.a) (fpInv e.p (fpMul e.p 2 y1))) x1 y1 x2
    else primeChord e.p (fpMul e.p (fpSub e.p y2 y1) (fpInv e.p (fpSub e.p x2 x1))) x1 y1 x2

/-- y^2 + x·y = x^3 + a·x^2 + b over GF(2^m) (R131). -/
def binaryOnCurve (m : Nat) (e : BinaryCurve) (x y : Nat) : Bool :=
  let mul := gf2Mul m e.f
  (mul y y ^^^ mul x y) == (mul (mul x x) x ^^^ mul e.a (mul x x) ^^^ e.b)

/-- The group law on a binary-field curve (R131). -/
def binaryAdd (m : Nat) (e : BinaryCurve) : Point → Point → Point
  | .infinity, q => q
  | q, .infinity => q
  | .affine x1 y1, .affine x2 y2 =>
    let mul := gf2Mul m e.f
    if x1 = x2 then
      if y2 = x1 ^^^ y1 then .infinity
      else
        let l := x1 ^^^ mul y1 (gf2Inv m e.f x1)
        let x3 := mul l l ^^^ l ^^^ e.a
        .affine x3 (mul x1 x1 ^^^ mul (l ^^^ 1) x3)
    else
      let l := mul (y1 ^^^ y2) (gf2Inv m e.f (x1 ^^^ x2))
      let x3 := mul l l ^^^ l ^^^ x1 ^^^ x2 ^^^ e.a
      .affine x3 (mul l (x1 ^^^ x3) ^^^ x3 ^^^ y1)

/-- `ScalarMul(k, P)` by left-to-right double-and-add over a group law (R132). -/
def scalarMul (add : Point → Point → Point) (k : Nat) (q : Point) : Point :=
  (bitsMsb k).foldl (fun acc bit => if bit then add (add acc acc) q else add acc acc) .infinity

/-- The prime of Curve25519 (R133). -/
def p25519 : Nat := 2 ^ 255 - 19

/-- The ladder's variables (R133). -/
structure Ladder where
  x2 : Nat
  z2 : Nat
  x3 : Nat
  z3 : Nat
  swap : Bool
deriving DecidableEq, Repr

/-- Exchange (x2, z2) with (x3, z3) when asked (R133). -/
def Ladder.exchange (l : Ladder) (when : Bool) : Ladder :=
  { l with
    x2 := if when then l.x3 else l.x2
    z2 := if when then l.z3 else l.z2
    x3 := if when then l.x2 else l.x3
    z3 := if when then l.z2 else l.z3 }

/-- The arithmetic of one ladder step, all mod p (R133). -/
def Ladder.combine (x1 : Nat) (l : Ladder) : Ladder :=
  let p := p25519
  let a := fpAdd p l.x2 l.z2
  let aa := fpMul p a a
  let b := fpSub p l.x2 l.z2
  let bb := fpMul p b b
  let e := fpSub p aa bb
  let c := fpAdd p l.x3 l.z3
  let d := fpSub p l.x3 l.z3
  let da := fpMul p d a
  let cb := fpMul p c b
  { l with
    x3 := fpMul p (fpAdd p da cb) (fpAdd p da cb)
    z3 := fpMul p x1 (fpMul p (fpSub p da cb) (fpSub p da cb))
    x2 := fpMul p aa bb
    z2 := fpMul p e (fpAdd p aa (fpMul p 121665 e)) }

/-- One ladder step with bit kt (R133). -/
def ladderStep (x1 : Nat) (l : Ladder) (kt : Bool) : Ladder :=
  { Ladder.combine x1 (l.exchange (xor l.swap kt)) with swap := kt }

/-- The clamped scalar: k[0] AND 248, k[31] AND 127 OR 64, as `le` (R133). -/
def x25519Scalar (k : Bytes) : Nat :=
  ((BitVec.ofNat 256 (leNat k) &&& BitVec.ofNat 256 (2 ^ 255 - 8)) ||| BitVec.ofNat 256 (2 ^ 254)).toNat

/-- The u coordinate: u[31] AND 127, `le` mod p (R133). -/
def x25519Coordinate (u : Bytes) : Nat :=
  (BitVec.ofNat 256 (leNat u) &&& BitVec.ofNat 256 (2 ^ 255 - 1)).toNat % p25519

/-- The scalar's bits 254 down to 0 (R133). -/
def x25519Bits (k : Nat) : List Bool := (List.range 255).reverse.map k.testBit

/-- `X25519(k, u)` (R133). -/
def x25519 (k u : Bytes) : Bytes :=
  let x1 := x25519Coordinate u
  let l := (x25519Bits (x25519Scalar k)).foldl (ladderStep x1) ⟨1, 0, x1, 1, false⟩
  let r := l.exchange l.swap
  leBytes 32 (fpMul p25519 r.x2 (fpInv p25519 r.z2))

/-- The base point u = 9 (R133). -/
def x25519Base : Bytes := 9 :: zeroBytes 31

end Sys2Proof.Machine
end

