-- ==== Sys2Proof/Machine/Groups.lean ====
section
/-! DEFINITION. The laws that the spec gives the OPEN groups and curves: spec/00_scope.md R7 (a prime p of b bits and
a generator g; a short-Weierstrass curve over a prime or binary field), spec/45_keyexchange.md R127 (fields of b
bits), R129 (f of degree b), R131 (b ≠ 0) and R135 (a base point G and its prime order n), and
spec/46_system.md R157 (p > 2, deg f = m). -/

namespace Sys2Proof

open Sys2Proof.Machine

/-- What DH_GROUP(b) obeys (00_scope.md R7). The spec does not name the group that g generates; the law asks for a
subgroup of F_p^* with more than two elements, which a generator of F_p^* and one of a large subgroup
both have (assumption 15). -/
structure DhGroup.Lawful (d : DhGroup) (bits : Nat) : Prop where
  prime : d.p.Prime
  bitLength : 2 ^ (bits - 1) ≤ d.p ∧ d.p < 2 ^ bits
  generates : d.g < d.p ∧ 2 < orderOf (d.g : ZMod d.p)

/-- What a prime-field ECDH_CURVE(b) obeys (00_scope.md R7, 45_keyexchange.md R127, R130, R135; 46_system.md R157). -/
structure PrimeCurve.Lawful (e : PrimeCurve) (bits : Nat) : Prop where
  prime : e.p.Prime
  odd : 2 < e.p
  bitLength : 2 ^ (bits - 1) ≤ e.p ∧ e.p < 2 ^ bits
  coefficients : e.a < e.p ∧ e.b < e.p
  coordinates : e.gx < e.p ∧ e.gy < e.p
  onCurve : primeOnCurve e e.gx e.gy = true
  orderPrime : e.n.Prime
  order : scalarMul (primeAdd e) e.n (.affine e.gx e.gy) = .infinity

/-- f is a polynomial of degree m over GF(2) that is no product of two of lower degree, so that the remainders mod f
are the field GF(2^m) (45_keyexchange.md R129). -/
def IrreducibleOfDegree (m f : Nat) : Prop :=
  (2 ^ m ≤ f ∧ f < 2 ^ (m + 1)) ∧ ∀ u < 2 ^ m, ∀ v < 2 ^ m, clMul u v ≠ f

/-- What a binary-field ECDH_CURVE(b) obeys (00_scope.md R7, 45_keyexchange.md R127, R129, R131, R135). -/
structure BinaryCurve.Lawful (e : BinaryCurve) (bits : Nat) : Prop where
  reduction : IrreducibleOfDegree bits e.f
  coefficients : e.a < 2 ^ bits ∧ e.b < 2 ^ bits ∧ e.b ≠ 0
  coordinates : e.gx < 2 ^ bits ∧ e.gy < 2 ^ bits
  onCurve : binaryOnCurve bits e e.gx e.gy = true
  orderPrime : e.n.Prime
  order : scalarMul (binaryAdd bits e) e.n (.affine e.gx e.gy) = .infinity

end Sys2Proof
end

