-- ==== Sys2Proof/Laws/Groups.lean ====
section
/-! SUPPORT. Groups and curves that obey the laws of Sys2Proof/Machine/Groups.lean exist at every size, so that the
laws can be asked of the OPEN parameters. The groups given here are no choice of the model: they only show
that the types of the parameters have a member. -/

namespace Sys2Proof.Machine

open Sys2Proof

/-! ### Small scalars -/

theorem bitsMsb_zero : bitsMsb 0 = [false] := by decide
theorem bitsMsb_one : bitsMsb 1 = [true] := by decide
theorem bitsMsb_two : bitsMsb 2 = [true, false] := by decide

/-! ### Primes -/

/-- There is a prime of every bit length from 2 on, and it is odd (Bertrand's postulate). -/
theorem exists_prime_of_bits (bits : Nat) (h : 2 ≤ bits) :
    ∃ p, p.Prime ∧ 2 ^ (bits - 1) < p ∧ p < 2 ^ bits := by
  obtain ⟨p, hp, hlt, hle⟩ := Nat.exists_prime_lt_and_le_two_mul (2 ^ (bits - 1)) (by positivity)
  have hpow : 2 * 2 ^ (bits - 1) = 2 ^ bits := by rw [← pow_succ', show bits - 1 + 1 = bits by omega]
  refine ⟨p, hp, hlt, lt_of_le_of_ne (hpow ▸ hle) ?_⟩
  rintro rfl
  exact Nat.Prime.not_prime_pow h hp

/-- 2 generates more than two elements modulo every prime above 3. -/
theorem two_lt_orderOf_two (p : Nat) (hp : p.Prime) (h : 3 < p) : 2 < orderOf ((2 : Nat) : ZMod p) := by
  have := Fact.mk hp
  have hne : ((2 : Nat) : ZMod p) ≠ 0 := by
    rw [Ne, ZMod.natCast_eq_zero_iff]
    exact fun hd => by have := Nat.le_of_dvd (by decide) hd; omega
  have h0 : 0 < orderOf ((2 : Nat) : ZMod p) := by
    rw [← Units.val_mk0 hne, orderOf_units]
    exact orderOf_pos _
  have hpow := pow_orderOf_eq_one ((2 : Nat) : ZMod p)
  by_contra hlt
  have hcases : orderOf ((2 : Nat) : ZMod p) = 1 ∨ orderOf ((2 : Nat) : ZMod p) = 2 := by omega
  have key : ∀ k : Nat, 0 < k → k < p → ((k : Nat) : ZMod p) ≠ 0 := fun k hk hkp => by
    rw [Ne, ZMod.natCast_eq_zero_iff]
    exact fun hd => by have := Nat.le_of_dvd hk hd; omega
  rcases hcases with hc | hc <;> rw [hc] at hpow
  · exact key 1 (by omega) (by omega) (by push_cast at hpow ⊢; linear_combination hpow)
  · exact key 3 (by omega) (by omega) (by push_cast at hpow ⊢; linear_combination hpow)

/-- A lawful DH group of every size from 3 bits on. -/
theorem dhGroup_lawful_of_prime (bits p : Nat) (h : 3 ≤ bits) (hp : p.Prime ∧ 2 ^ (bits - 1) < p ∧ p < 2 ^ bits) :
    DhGroup.Lawful ⟨p, 2⟩ bits := by
  have h4 : 2 ^ 2 ≤ 2 ^ (bits - 1) := Nat.pow_le_pow_right (by decide) (by omega)
  exact ⟨hp.1, ⟨hp.2.1.le, hp.2.2⟩, by dsimp only; omega, two_lt_orderOf_two p hp.1 (by omega)⟩

/-- A lawful prime-field curve of every size from 2 bits on: y^2 = x^3 + x with the point (0, 0) of order 2. -/
theorem primeCurve_lawful_of_prime (bits p : Nat) (h : 2 ≤ bits) (hp : p.Prime ∧ 2 ^ (bits - 1) < p ∧ p < 2 ^ bits) :
    PrimeCurve.Lawful ⟨p, 1, 0, 0, 0, 2⟩ bits := by
  have h2 : 2 ^ 1 ≤ 2 ^ (bits - 1) := Nat.pow_le_pow_right (by decide) (by omega)
  refine ⟨hp.1, by dsimp only; omega, ⟨hp.2.1.le, hp.2.2⟩, by dsimp only; omega, by dsimp only; omega, ?_,
    Nat.prime_two, ?_⟩
  · simp [primeOnCurve, fpMul, fpAdd]
  · simp [scalarMul, bitsMsb_two, primeAdd, fpAdd]

/-! ### Polynomials over GF(2) as numbers -/

open Polynomial in
/-- The polynomial of a number: bit i is the coefficient of X^i (45_keyexchange.md R129). -/
noncomputable def polyOf (n : Nat) : (ZMod 2)[X] := ∑ i ∈ Finset.range (n.log2 + 1), if n.testBit i then X ^ i else 0

theorem testBit_false_of_log2_lt (n i : Nat) (h : n.log2 < i) : n.testBit i = false :=
  Nat.testBit_lt_two_pow (Nat.lt_pow_of_log_lt (by decide) (by rwa [← Nat.log2_eq_log_two]))

theorem polyOf_coeff (n i : Nat) : (polyOf n).coeff i = if n.testBit i then 1 else 0 := by
  rw [polyOf, Polynomial.finsetSum_coeff]
  by_cases h : i ∈ Finset.range (n.log2 + 1)
  · rw [Finset.sum_eq_single_of_mem i h]
    · split <;> simp
    · intro j _ hj
      split <;> simp [Polynomial.coeff_X_pow, Ne.symm hj]
  · have hb := testBit_false_of_log2_lt n i (by simpa using h)
    rw [hb, Finset.sum_eq_zero]
    · rfl
    · intro j hj
      split
      · rw [Polynomial.coeff_X_pow, if_neg (by rintro rfl; exact h hj)]
      · simp

theorem polyOf_xor (x y : Nat) : polyOf (x ^^^ y) = polyOf x + polyOf y := by
  ext i
  rw [Polynomial.coeff_add, polyOf_coeff, polyOf_coeff, polyOf_coeff, Nat.testBit_xor]
  cases x.testBit i <;> cases y.testBit i <;> decide

theorem polyOf_double (x : Nat) : polyOf (2 * x) = Polynomial.X * polyOf x := by
  ext i
  cases i with
  | zero => simp [polyOf_coeff, Nat.testBit_zero]
  | succ i => rw [Polynomial.coeff_X_mul, polyOf_coeff, polyOf_coeff, Nat.testBit_succ, Nat.mul_div_cancel_left _ (by decide)]

theorem polyOf_clMulStep (x acc : Nat) (bit : Bool) :
    polyOf (clMulStep x acc bit) = Polynomial.X * polyOf acc + if bit then polyOf x else 0 := by
  cases bit <;> simp [clMulStep, polyOf_xor, polyOf_double]

theorem polyOf_foldl (x y n acc : Nat) :
    polyOf (((List.range n).reverse.map y.testBit).foldl (clMulStep x) acc)
      = Polynomial.X ^ n * polyOf acc
        + polyOf x * ∑ i ∈ Finset.range n, if y.testBit i then (Polynomial.X : Polynomial (ZMod 2)) ^ i else 0 := by
  induction n generalizing acc with
  | zero => simp
  | succ n ih =>
    rw [List.range_succ, List.reverse_append, List.reverse_singleton, List.singleton_append, List.map_cons,
      List.foldl_cons, ih, polyOf_clMulStep, Finset.sum_range_succ]
    split <;> ring

/-- The carry-less product is the product of polynomials over GF(2). -/
theorem polyOf_clMul (x y : Nat) : polyOf (clMul x y) = polyOf x * polyOf y := by
  rw [clMul, bitsMsb, polyOf_foldl, show polyOf 0 = 0 by ext i; simp [polyOf_coeff]]
  simp [polyOf]

/-- A polynomial as a number. -/
theorem exists_polyOf (m : Nat) (P : Polynomial (ZMod 2)) (hdeg : P.natDegree = m) (h0 : P ≠ 0) :
    ∃ f, polyOf f = P ∧ 2 ^ m ≤ f ∧ f < 2 ^ (m + 1) := by
  have bitCase : ∀ z : ZMod 2, (if decide (z = 1) = true then (1 : ZMod 2) else 0) = z := by decide
  have htop : P.coeff m = 1 := by
    have hne : P.coeff m ≠ 0 := by
      rw [← hdeg]
      exact Polynomial.leadingCoeff_ne_zero.mpr h0
    revert hne
    generalize P.coeff m = z
    revert z
    decide
  let f := Nat.ofBits (fun i : Fin (m + 1) => decide (P.coeff i = 1))
  have hbits : ∀ i, f.testBit i = decide (P.coeff i = 1) := by
    intro i
    rw [Nat.testBit_ofBits]
    split
    · rfl
    · rw [Polynomial.coeff_eq_zero_of_natDegree_lt (by omega)]
      decide
  refine ⟨f, ?_, ?_, Nat.ofBits_lt_two_pow _⟩
  · ext i
    rw [polyOf_coeff, hbits, bitCase]
  · exact Nat.ge_two_pow_of_testBit (by rw [hbits, htop]; decide)

theorem polyOf_natDegree_lt (m u : Nat) (hu : u < 2 ^ m) (h0 : polyOf u ≠ 0) : (polyOf u).natDegree < m := by
  rw [Polynomial.natDegree_lt_iff_degree_lt h0, Polynomial.degree_lt_iff_coeff_zero]
  intro i hi
  rw [polyOf_coeff, Nat.testBit_lt_two_pow (lt_of_lt_of_le hu (Nat.pow_le_pow_right (by decide) hi))]
  rfl

/-- There is an irreducible polynomial of every degree over GF(2): the minimal polynomial of a generator of
GF(2^m). -/
theorem exists_irreducible_of_degree (m : Nat) (h : 1 ≤ m) : ∃ f, IrreducibleOfDegree m f := by
  have : Fact (Nat.Prime 2) := ⟨Nat.prime_two⟩
  obtain ⟨α, hα⟩ := Field.exists_primitive_element (ZMod 2) (GaloisField 2 m)
  have hint : IsIntegral (ZMod 2) α := Algebra.IsIntegral.isIntegral α
  have hdeg : (minpoly (ZMod 2) α).natDegree = m := by
    rw [← IntermediateField.adjoin.finrank hint, hα, IntermediateField.finrank_top', GaloisField.finrank 2 (by omega)]
  have hirr := minpoly.irreducible hint
  obtain ⟨f, hf, hlo, hhi⟩ := exists_polyOf m _ hdeg hirr.ne_zero
  refine ⟨f, ⟨hlo, hhi⟩, fun u hu v hv hmul => ?_⟩
  have hprod : polyOf u * polyOf v = minpoly (ZMod 2) α := by rw [← polyOf_clMul, hmul, hf]
  have hu0 : polyOf u ≠ 0 := fun hz => hirr.ne_zero (by rw [← hprod, hz, zero_mul])
  have hv0 : polyOf v ≠ 0 := fun hz => hirr.ne_zero (by rw [← hprod, hz, mul_zero])
  have hsum : (polyOf u).natDegree + (polyOf v).natDegree = m := by
    rw [← Polynomial.natDegree_mul hu0 hv0, hprod, hdeg]
  have hul := polyOf_natDegree_lt m u hu hu0
  have hvl := polyOf_natDegree_lt m v hv hv0
  rcases hirr.isUnit_or_isUnit hprod.symm with hunit | hunit
  · have := Polynomial.natDegree_eq_zero_of_isUnit hunit; omega
  · have := Polynomial.natDegree_eq_zero_of_isUnit hunit; omega

/-- A lawful binary-field curve of every size: y^2 + x·y = x^3 + 1 with the point (0, 1) of order 2. -/
theorem binaryCurve_lawful_of_irreducible (bits f : Nat) (h : 1 ≤ bits) (hf : IrreducibleOfDegree bits f) :
    BinaryCurve.Lawful ⟨f, 0, 1, 0, 1, 2⟩ bits := by
  have h1 : 1 < 2 ^ bits := Nat.one_lt_two_pow (by omega)
  have mulOneOne : gf2Mul bits f 1 1 = 1 := by simp [gf2Mul, bitsMsb_one, gf2MulStep]
  have mulZeroOne : gf2Mul bits f 0 1 = 0 := by simp [gf2Mul, bitsMsb_one, gf2MulStep]
  have mulZeroZero : gf2Mul bits f 0 0 = 0 := by simp [gf2Mul, bitsMsb_zero, gf2MulStep]
  refine ⟨hf, by dsimp only; omega, by dsimp only; omega, ?_, Nat.prime_two, ?_⟩
  · simp [binaryOnCurve, mulOneOne, mulZeroOne, mulZeroZero]
  · simp [scalarMul, bitsMsb_two, binaryAdd]

end Sys2Proof.Machine
end

