-- ==== Sys2Proof/Machine/Parameters.lean ====
section
/-! DEFINITION. The OPEN groups and curves, DH_GROUP(b) and ECDH_CURVE(b) (spec/00_scope.md R7): constants with no
body, of which nothing is known but the laws of Sys2Proof/Machine/Groups.lean. Each is a member of the type of
the lawful groups of its size. That the type has a member is handed to the constant as an argument: it is what
Lean asks before it admits a constant with no body, and it says nothing of the constant's value. -/

namespace Sys2Proof

open Sys2Proof.Machine

/-- The groups that DH_GROUP(b) may be; the law is asked from 3 bits on, where such groups exist (R7). -/
abbrev LawfulDhGroup (bits : Nat) : Type := { d : DhGroup // 3 ≤ bits → d.Lawful bits }

/-- The curves that a prime-field ECDH_CURVE(b) may be, from 2 bits on (R7). -/
abbrev LawfulPrimeCurve (bits : Nat) : Type := { e : PrimeCurve // 2 ≤ bits → e.Lawful bits }

/-- The curves that a binary-field ECDH_CURVE(b) may be, from 1 bit on (R7). -/
abbrev LawfulBinaryCurve (bits : Nat) : Type := { e : BinaryCurve // 1 ≤ bits → e.Lawful bits }

/-- There is a lawful DH group. -/
abbrev lawfulDhGroup_inhabited (bits : Nat) : Inhabited (LawfulDhGroup bits) where
  default :=
    if h : 3 ≤ bits then
      have ex := exists_prime_of_bits bits (by omega)
      ⟨⟨Nat.find ex, 2⟩, fun _ => dhGroup_lawful_of_prime bits _ h (Nat.find_spec ex)⟩
    else ⟨default, fun h' => absurd h' h⟩

/-- There is a lawful prime-field curve. -/
abbrev lawfulPrimeCurve_inhabited (bits : Nat) : Inhabited (LawfulPrimeCurve bits) where
  default :=
    if h : 2 ≤ bits then
      have ex := exists_prime_of_bits bits h
      ⟨⟨Nat.find ex, 1, 0, 0, 0, 2⟩, fun _ => primeCurve_lawful_of_prime bits _ h (Nat.find_spec ex)⟩
    else ⟨default, fun h' => absurd h' h⟩

/-- There is a lawful binary-field curve. -/
abbrev lawfulBinaryCurve_inhabited (bits : Nat) : Inhabited (LawfulBinaryCurve bits) where
  default :=
    if h : 1 ≤ bits then
      have ex := exists_irreducible_of_degree bits h
      have : DecidablePred (IrreducibleOfDegree bits) := fun f => by unfold IrreducibleOfDegree; infer_instance
      ⟨⟨Nat.find ex, 0, 1, 0, 1, 2⟩, fun _ => binaryCurve_lawful_of_irreducible bits _ h (Nat.find_spec ex)⟩
    else ⟨default, fun h' => absurd h' h⟩

/-- DH_GROUP(b) as a lawful group (R7). -/
opaque Config.lawfulDhGroup (bits : Nat) [Inhabited (LawfulDhGroup bits)] : LawfulDhGroup bits

/-- ECDH_CURVE(b) over a prime field as a lawful curve (R7). -/
opaque Config.lawfulPrimeCurve (bits : Nat) [Inhabited (LawfulPrimeCurve bits)] : LawfulPrimeCurve bits

/-- ECDH_CURVE(b) over GF(2^b) as a lawful curve (R7). -/
opaque Config.lawfulBinaryCurve (bits : Nat) [Inhabited (LawfulBinaryCurve bits)] : LawfulBinaryCurve bits

/-- `DH_GROUP(b)`, OPEN (R7). -/
def Config.dhGroup (bits : Nat) : DhGroup := (@Config.lawfulDhGroup bits (lawfulDhGroup_inhabited bits)).val

/-- `ECDH_CURVE(b)` for b in 224, 384, 521, OPEN (R7). -/
def Config.primeCurve (bits : Nat) : PrimeCurve := (@Config.lawfulPrimeCurve bits (lawfulPrimeCurve_inhabited bits)).val

/-- `ECDH_CURVE(b)` for b in 409, 571, OPEN (R7); the field is GF(2^b). -/
def Config.binaryCurve (bits : Nat) : BinaryCurve :=
  (@Config.lawfulBinaryCurve bits (lawfulBinaryCurve_inhabited bits)).val

/-- DH_GROUP(b) is a prime of b bits and a generator (R7). -/
theorem Config.dhGroup_lawful (bits : Nat) (h : 3 ≤ bits) : (Config.dhGroup bits).Lawful bits :=
  (@Config.lawfulDhGroup bits (lawfulDhGroup_inhabited bits)).property h

/-- ECDH_CURVE(b) over a prime field obeys its laws (R7, 46_system.md R157). -/
theorem Config.primeCurve_lawful (bits : Nat) (h : 2 ≤ bits) : (Config.primeCurve bits).Lawful bits :=
  (@Config.lawfulPrimeCurve bits (lawfulPrimeCurve_inhabited bits)).property h

/-- ECDH_CURVE(b) over GF(2^b) obeys its laws (R7, 46_system.md R157). -/
theorem Config.binaryCurve_lawful (bits : Nat) (h : 1 ≤ bits) : (Config.binaryCurve bits).Lawful bits :=
  (@Config.lawfulBinaryCurve bits (lawfulBinaryCurve_inhabited bits)).property h

end Sys2Proof
end

