-- ==== Sys2Proof/Machine/KeyExchange.lean ====
section
/-! DEFINITION. The key-agreement unit (spec/45_keyexchange.md): the algorithm tags (R127), key generation and
secret computation (R134 to R136), the slot (R137, R138), the commands KX_GENERATE to KX_APPLIED (R139 to
R144) and SALT_ORDER (R145). -/

namespace Sys2Proof.Machine

open Sys2Proof

/-- What a tag selects (R127). -/
inductive KxAlgorithm where
  | dh (bits : Nat)
  | x25519
  | prime (bits : Nat)
  | binary (bits : Nat)
deriving DecidableEq, Repr

/-- The algorithm and size of a tag (R127). -/
def tagAlgorithm : Tag → KxAlgorithm
  | .dh768 => .dh 768
  | .dh1024 => .dh 1024
  | .dh1536 => .dh 1536
  | .dh2048 => .dh 2048
  | .dh3072 => .dh 3072
  | .dh4096 => .dh 4096
  | .dh6144 => .dh 6144
  | .dh8192 => .dh 8192
  | .ecdh224 => .prime 224
  | .x25519 => .x25519
  | .ecdh384 => .prime 384
  | .ecdh409 => .binary 409
  | .ecdh521 => .prime 521
  | .ecdh571 => .binary 571

/-- fb = ceil(b/8), the bytes of a coordinate (R127). -/
def fieldBytes (bits : Nat) : Nat := (bits + 7) / 8

/-- PUBLEN(t) (R127). -/
def pubLen (t : Tag) : Nat :=
  match tagAlgorithm t with
  | .dh b => b / 8
  | .x25519 => 32
  | .prime b => 1 + 2 * fieldBytes b
  | .binary b => 1 + 2 * fieldBytes b

/-- SECLEN(t) (R127). -/
def secLen (t : Tag) : Nat :=
  match tagAlgorithm t with
  | .dh b => b / 8
  | .x25519 => 32
  | .prime b => fieldBytes b
  | .binary b => fieldBytes b

/-- The group law of a prime-field curve by its size (R130). -/
def primeGroup (b : Nat) : Point → Point → Point := primeAdd (Config.primeCurve b)

/-- The group law of a binary-field curve by its size (R131). -/
def binaryGroup (b : Nat) : Point → Point → Point := binaryAdd b (Config.binaryCurve b)

/-- The uncompressed point 0x04 ‖ X ‖ Y (R135); O, which no base-point multiple below the order is, has
no such form, and its bytes are a free value (assumption 19). -/
def encodePoint (fb : Nat) : Point → Bytes
  | .infinity => beBytes (1 + 2 * fb) (Config.infinityKey fb).toNat
  | .affine x y => [0x04] ++ beBytes fb x ++ beBytes fb y

/-- The private key that KX_GENERATE draws (R134, R135, R136); 32 drawn bytes are kept as `le`. -/
def generatePrivate (t : Tag) (s : State) : Nat :=
  match tagAlgorithm t with
  | .dh b => s.drawInt 0 2 ((Config.dhGroup b).p - 2)
  | .x25519 => leNat (s.drawBytes 0 32)
  | .prime b => s.drawInt 0 1 ((Config.primeCurve b).n - 1)
  | .binary b => s.drawInt 0 1 ((Config.binaryCurve b).n - 1)

/-- The public key of a private key (R134, R135, R136). -/
def publicKey (t : Tag) (priv : Nat) : Bytes :=
  match tagAlgorithm t with
  | .dh b => beBytes (b / 8) (powMod (Config.dhGroup b).p (Config.dhGroup b).g priv)
  | .x25519 => x25519 (leBytes 32 priv) x25519Base
  | .prime b =>
    encodePoint (fieldBytes b)
      (scalarMul (primeGroup b) priv (.affine (Config.primeCurve b).gx (Config.primeCurve b).gy))
  | .binary b =>
    encodePoint (fieldBytes b)
      (scalarMul (binaryGroup b) priv (.affine (Config.binaryCurve b).gx (Config.binaryCurve b).gy))

/-- The DH secret from a remote public key V (R134). `none` is ERR_KX_FAIL. -/
def dhSecret (group : DhGroup) (b x : Nat) (v : Bytes) : Option Bytes :=
  let y := beNat v
  let sec := powMod group.p y x
  if v.length ≠ b / 8 then none
  else if y < 2 ∨ group.p - 2 < y then none
  else if sec = 1 then none
  else some (beBytes (b / 8) sec)

/-- The X coordinate of a result point; O is refused (R135). -/
def pointSecret (fb : Nat) : Point → Option Bytes
  | .infinity => none
  | .affine x _ => some (beBytes fb x)

/-- The ECDH secret from a remote uncompressed point V (R135): length, first byte, both coordinates below the
field's bound, the point on the curve, and S not O. `none` is ERR_KX_FAIL. -/
def ecdhSecret (fb bound : Nat) (onCurve : Nat → Nat → Bool) (add : Point → Point → Point) (d : Nat)
    (v : Bytes) : Option Bytes :=
  let x := beNat ((v.drop 1).take fb)
  let y := beNat (v.drop (1 + fb))
  if v.length ≠ 1 + 2 * fb then none
  else if v.head? ≠ some 0x04 then none
  else if bound ≤ x ∨ bound ≤ y then none
  else if !onCurve x y then none
  else pointSecret fb (scalarMul add d (.affine x y))

/-- The X25519 secret from V (R136): 32 bytes, and the all-zero secret is refused. -/
def x25519Secret (k : Nat) (v : Bytes) : Option Bytes :=
  let sec := x25519 (leBytes 32 k) v
  if v.length ≠ 32 then none
  else if sec.all (· == 0) then none
  else some sec

/-- The secret computation of a tag (R134, R135, R136). -/
def sharedSecret (t : Tag) (priv : Nat) (v : Bytes) : Option Bytes :=
  match tagAlgorithm t with
  | .dh b => dhSecret (Config.dhGroup b) b priv v
  | .x25519 => x25519Secret priv v
  | .prime b =>
    ecdhSecret (fieldBytes b) (Config.primeCurve b).p (primeOnCurve (Config.primeCurve b)) (primeGroup b) priv v
  | .binary b =>
    ecdhSecret (fieldBytes b) (2 ^ b) (binaryOnCurve b (Config.binaryCurve b)) (binaryGroup b) priv v

/-- OUT0 = the tag (R139, R142). -/
def tagResult (t : Tag) : Word := (tagCode t).setWidth 32

/-- The rule of KX_GENERATE (R139): the new key overwrites the old one in the slot; that the old one is
zeroed first cannot be seen, because the step is atomic. -/
def kxGenerateCommand (sel : BitVec 8) (s : State) : Except ErrorCode Effect :=
  match tagOfNat sel.toNat with
  | none => .error .config
  | some t =>
    withOperands s []
      (if s.latch.a.dst.len < pubLen t then .error .capacity
      else
        let priv := generatePrivate t s
        .ok
          { state := (s.setSlot .keyGenerated (some t) priv).storeBytes s.latch.a.dst.off (publicKey t priv)
            results := { outLen := BitVec.ofNat 32 (pubLen t), out0 := tagResult t } })

/-- KX_GENERATE (R139). -/
def execKxGenerate (sel : BitVec 8) (s : State) : Host.Outcome State Fault Refusal :=
  complete s (kxGenerateCommand sel s)

/-- The salt length that KX_SERIALIZE draws, 16 to 31 (R140, 90_conflicts.md C5). -/
def blobSaltLen (s : State) : Nat := s.drawInt 0 16 31

/-- The PublicKeyBlob [t] ‖ [n] ‖ salt ‖ key (R140). -/
def publicKeyBlob (t : Tag) (salt key : Bytes) : Bytes := [tagCode t, BitVec.ofNat 8 salt.length] ++ salt ++ key

/-- The rule of KX_SERIALIZE (R140). -/
def kxSerializeCommand (sel : BitVec 8) (s : State) : Except ErrorCode Effect :=
  let a := s.latch.a
  match tagOfNat sel.toNat with
  | none => .error .config
  | some t =>
    withOperands s [a.a]
      (if a.a.len ≠ pubLen t then .error .length
      else
        deliver s (publicKeyBlob t (s.drawBytes 1 (blobSaltLen s)) (s.operand a.a))
          { out0 := BitVec.ofNat 32 (blobSaltLen s), out1 := a.dstOff + 2 })

/-- KX_SERIALIZE (R140). -/
def execKxSerialize (sel : BitVec 8) (s : State) : Host.Outcome State Fault Refusal :=
  complete s (kxSerializeCommand sel s)

/-- What KX_PARSE reads from a blob: the tag and the salt length, when the blob is well formed (R141). -/
def parseBlob (x : Bytes) : Option (Tag × Nat) :=
  match x with
  | t :: n :: rest =>
    match tagOfNat t.toNat with
    | none => none
    | some tag =>
      if n.toNat < 16 ∨ 32 < n.toNat then none
      else if rest.length ≠ n.toNat + pubLen tag then none
      else some (tag, n.toNat)
  | _ => none

/-- The rule of KX_PARSE (R141). -/
def kxParseCommand (s : State) : Except ErrorCode Effect :=
  let a := s.latch.a
  withInputs [a.a]
    (match parseBlob (s.operand a.a) with
      | none => .error .badBlob
      | some (t, n) =>
        .ok
          { state := s
            results :=
              { out0 := tagResult t, out1 := a.aOff + 2, out2 := BitVec.ofNat 32 n,
                out3 := a.aOff + 2 + BitVec.ofNat 32 n, out4 := BitVec.ofNat 32 (pubLen t) } })

/-- KX_PARSE (R141). -/
def execKxParse (s : State) : Host.Outcome State Fault Refusal := complete s (kxParseCommand s)

/-- The rule of KX_COMPUTE (R142): a failure keeps the key; success zeroes it. -/
def kxComputeCommand (s : State) : Except ErrorCode Effect :=
  let a := s.latch.a
  match s.slotTag with
  | none => .error .kxNoKey
  | some t =>
    withOperands s [a.a]
      (match sharedSecret t s.slotPriv (s.operand a.a) with
        | none => .error .kxFail
        | some sec =>
          if a.dst.len < secLen t then .error .capacity
          else
            .ok
              { state := (s.storeBytes a.dst.off sec).setSlot .secretComputed none 0
                results := { outLen := BitVec.ofNat 32 (secLen t), out0 := tagResult t } })

/-- KX_COMPUTE (R142). -/
def execKxCompute (s : State) : Host.Outcome State Fault Refusal := complete s (kxComputeCommand s)

/-- KX_NUKE (R143). -/
def execKxNuke (s : State) : Host.Outcome State Fault Refusal :=
  complete s (.ok { state := s.setSlot .noKey none 0 })

/-- The rule of KX_APPLIED (R144). -/
def kxAppliedCommand (s : State) : Except ErrorCode Effect :=
  if s.kxPhase = .secretComputed then .ok { state := { s with kxPhase := .passwordsApplied } } else .error .state

/-- KX_APPLIED (R144). -/
def execKxApplied (s : State) : Host.Outcome State Fault Refusal := complete s (kxAppliedCommand s)

/-- The first 4-byte chunk at which the two salts differ decides: is the remote one larger (R145)? -/
def firstDifference : List Bytes → List Bytes → Option Bool
  | l :: ls, r :: rs => if beNat r ≠ beNat l then some (decide (beNat l < beNat r)) else firstDifference ls rs
  | _, _ => none

/-- The salt order: `some true` when the remote salt is primary, `none` for a tie (R145). -/
def remoteIsPrimary (localSalt remoteSalt : Bytes) : Option Bool :=
  if remoteSalt.length ≠ localSalt.length then some (decide (localSalt.length < remoteSalt.length))
  else firstDifference (blocksOf 4 localSalt) (blocksOf 4 remoteSalt)

/-- The rule of SALT_ORDER (R145). -/
def saltOrderCommand (s : State) : Except ErrorCode Effect :=
  let a := s.latch.a
  withInputs [a.a, a.b]
    (match remoteIsPrimary (s.operand a.a) (s.operand a.b) with
      | none => .error .saltTie
      | some remote => .ok { state := s, results := { out0 := if remote then 1 else 0 } })

/-- SALT_ORDER (R145). -/
def execSaltOrder (s : State) : Host.Outcome State Fault Refusal := complete s (saltOrderCommand s)

end Sys2Proof.Machine
end

