-- ==== Sys2Proof/Machine/ScryptCore.lean ====
section
/-! DEFINITION. The Scrypt functions (spec/42_scrypt.md section 1): Salsa20/8 (R81), BlockMix (R82),
Integerify and ROMix (R83), and Scrypt (R84). -/

namespace Sys2Proof.Machine

open Sys2Proof

/-- The statements of the column round, in order: (a, b, c, n) is x[a] ^= rotl32(x[b] + x[c], n) (R81). -/
def salsaColumn : List (Nat × Nat × Nat × Nat) :=
  [ (4, 0, 12, 7), (8, 4, 0, 9), (12, 8, 4, 13), (0, 12, 8, 18),
    (9, 5, 1, 7), (13, 9, 5, 9), (1, 13, 9, 13), (5, 1, 13, 18),
    (14, 10, 6, 7), (2, 14, 10, 9), (6, 2, 14, 13), (10, 6, 2, 18),
    (3, 15, 11, 7), (7, 3, 15, 9), (11, 7, 3, 13), (15, 11, 7, 18)]

/-- The statements of the row round, in order (R81). -/
def salsaRow : List (Nat × Nat × Nat × Nat) :=
  [ (1, 0, 3, 7), (2, 1, 0, 9), (3, 2, 1, 13), (0, 3, 2, 18),
    (6, 5, 4, 7), (7, 6, 5, 9), (4, 7, 6, 13), (5, 4, 7, 18),
    (11, 10, 9, 7), (8, 11, 10, 9), (9, 8, 11, 13), (10, 9, 8, 18),
    (12, 15, 14, 7), (13, 12, 15, 9), (14, 13, 12, 13), (15, 14, 13, 18)]

/-- One statement on the sixteen words (R81). -/
def salsaStep (x : List Word) (q : Nat × Nat × Nat × Nat) : List Word :=
  x.set q.1 (x.getD q.1 0 ^^^ (x.getD q.2.1 0 + x.getD q.2.2.1 0).rotateLeft q.2.2.2)

/-- One double round (R81). -/
def salsaDouble (x : List Word) : List Word := (salsaColumn ++ salsaRow).foldl salsaStep x

/-- The sixteen little-endian words of a 64-byte string (R81). -/
def salsaWords (b : Bytes) : List Word := (splitBlocks 4 16 b).map fun w => BitVec.ofNat 32 (leNat w)

/-- `Salsa20_8(B)` (R81). -/
def salsa20_8 (b : Bytes) : Bytes :=
  let input := salsaWords b
  let x := salsaDouble (salsaDouble (salsaDouble (salsaDouble input)))
  (List.zipWith (fun u v => leBytes 4 (u + v).toNat) x input).flatten

/-- The chain of BlockMix: each block is xored into X and goes through Salsa20/8 (R82). -/
def blockMixChain : Bytes → List Bytes → List Bytes
  | _, [] => []
  | x, b :: bs =>
    let y := salsa20_8 (xorBytes x b)
    y :: blockMixChain y bs

/-- Every other block of a list, from the first. -/
def everyOther : List Bytes → List Bytes
  | [] => []
  | [b] => [b]
  | b :: _ :: bs => b :: everyOther bs

/-- `BlockMix(B, r)`: even-indexed blocks first, then the odd ones (R82). -/
def blockMix (b : Bytes) (r : Nat) : Bytes :=
  let blocks := splitBlocks 64 (2 * r) b
  let y := blockMixChain (blocks.getD (2 * r - 1) []) blocks
  (everyOther y ++ everyOther (y.drop 1)).flatten

/-- `Integerify(X, r)`: the little-endian u32 at the start of the last 64-byte block (R83). -/
def integerify (x : Bytes) (r : Nat) : Nat := leNat ((x.drop ((2 * r - 1) * 64)).take 4)

/-- The filling loop of ROMix: X and the entries V[0] .. after `count` iterations (R83). -/
def romixFill (r : Nat) : Nat → Bytes × List Bytes → Bytes × List Bytes
  | 0, xv => xv
  | count + 1, xv => romixFill r count (blockMix xv.1 r, xv.2 ++ [xv.1])

/-- The mixing loop of ROMix over the entries V (R83). -/
def romixMix (n r : Nat) (v : List Bytes) : Nat → Bytes → Bytes
  | 0, x => x
  | count + 1, x => romixMix n r v count (blockMix (xorBytes x (v.getD (integerify x r % n) [])) r)

/-- `ROMix(B, N, r)` (R83). -/
def romix (b : Bytes) (n r : Nat) : Bytes :=
  let xv := romixFill r n (b, [])
  romixMix n r xv.2 n xv.1

/-- The p blocks that the first PBKDF2 step makes from password and salt (R84, R88). -/
def scryptBlocks (password salt : Bytes) (r p : Nat) : List Bytes :=
  splitBlocks (128 * r) p (pbkdf2 .sha256 password salt 1 (p * 128 * r))

/-- `Scrypt(P, S, N, r, p, dkLen)` (R84). -/
def scrypt (password salt : Bytes) (n r p dkLen : Nat) : Bytes :=
  pbkdf2 .sha256 password ((scryptBlocks password salt r p).map fun b => romix b n r).flatten 1 dkLen

end Sys2Proof.Machine
end

