-- ==== Sys2Proof/Machine/Scrypt.lean ====
section
/-! DEFINITION. The Scrypt engine (spec/42_scrypt.md sections 2 to 4): the parameter checks (R85), an op
(R86), the chunk, which is a channel's step (R89), and the commands SCRYPT_START, SCRYPT_ACK and
SCRYPT_CANCEL (R88, R90, R91). -/

namespace Sys2Proof.Machine

open Sys2Proof

/-- N is a power of two and N ≥ 2 (R85). -/
def scryptCostOk (n : Nat) : Bool := decide (2 ≤ n) && 2 ^ n.log2 == n

/-- The parameter checks of R85 that give ERR_CONFIG, with products as unbounded integers. -/
def scryptConfigOk (n r p dkLen : Nat) : Bool :=
  scryptCostOk n && decide (1 ≤ dkLen) && decide (dkLen ≤ 65535) && decide (1 ≤ r) && decide (1 ≤ p)
    && decide (r * p < 2 ^ 30) && decide (2 * n * p < 2 ^ 32)

/-- The memory checks of R85 that give ERR_RESOURCE. -/
def scryptMemoryOk (n r p : Nat) : Bool :=
  decide (128 * r * n ≤ Config.scryptMemBytes) && decide (128 * r * p ≤ Config.scryptMemBytes)

/-- T = 2·N·p, the ops of a run (R86). -/
def Run.total (run : Run) : Nat := 2 * run.n * run.p

/-- V[j] <- X: entry j of the array, which grows to hold it (R86). -/
def storeEntry (v : List Bytes) (j : Nat) (x : Bytes) : List Bytes :=
  (v ++ List.replicate (j + 1 - v.length) []).set j x

/-- `Op(k)` for k = done (R86). -/
def scryptOp (run : Run) : Run :=
  let blk := run.done / (2 * run.n)
  let j := run.done % (2 * run.n)
  let x := if j = 0 then run.blocks.getD blk [] else run.x
  if j < run.n then
    { run with v := storeEntry run.v j x, x := blockMix x run.r, done := run.done + 1 }
  else
    let y := blockMix (xorBytes x (run.v.getD (integerify x run.r % run.n) [])) run.r
    { run with
      x := y
      blocks := if j = 2 * run.n - 1 then run.blocks.set blk y else run.blocks
      done := run.done + 1 }

/-- k ops in order (R86, R89). -/
def scryptOps : Nat → Run → Run
  | 0, run => run
  | k + 1, run => scryptOps k (scryptOp run)

/-- The result of a run whose ops are done (R84, R89). -/
def Run.result (run : Run) : Bytes := pbkdf2 .sha256 run.password run.blocks.flatten 1 run.dkLen

/-- Zero P, S, Bv, X and V (R89). -/
def Run.scrub (run : Run) : Run := { run with password := [], salt := [], blocks := [], x := [], v := [] }

/-- Raise channel c's event (R92) and, on the cancelling one, zero all its hidden state
(10_state.md R34: "At reset and at cancellation all of it is zero or empty"; assumption 9). -/
def cancelChannel (c : ChannelId) (s : State) : State :=
  let s' := (s.setChannel c { s.channel c with phase := .cancelled, cancelReqBit := true, scErr := .cancelled }).raiseEvent c
  s'.setChannel c { s'.channel c with run := {} }

/-- A working chunk: at most SCRYPT_CHUNK ops, then DONE with the result written, or WAIT_ACK (R89). -/
def workChannel (c : ChannelId) (s : State) : State :=
  let ch := s.channel c
  let run := scryptOps (min Config.scryptChunk (ch.run.total - ch.run.done)) ch.run
  let doneOps := BitVec.ofNat 32 run.done
  if run.done = run.total then
    ((s.storeBytes run.dst run.result).setChannel c
      { ch with phase := .done, doneOps := doneOps, run := run.scrub }).raiseEvent c
  else
    (s.setChannel c { ch with phase := .waitAck, doneOps := doneOps, run := run }).raiseEvent c

/-- `Chunk(c)`, channel c's step when it is enabled (R89). -/
def chunk (c : ChannelId) (s : State) : State :=
  if (s.channel c).run.cancelReq then cancelChannel c s else workChannel c s

/-- The channel that SCRYPT_START leaves: inputs taken, counts zeroed, RUNNING (R88). -/
def startedChannel (password salt : Bytes) (n r p dkLen dst : Nat) : Channel where
  phase := .running
  cancelReqBit := false
  scErr := .ok
  doneOps := 0
  totalOps := BitVec.ofNat 32 (2 * n * p)
  eventsReg := 0
  dstOffReg := BitVec.ofNat 32 dst
  dkLenReg := BitVec.ofNat 32 dkLen
  run :=
    { cancelReq := false, password := password, salt := salt, n := n, r := r, p := p, dkLen := dkLen, dst := dst,
      blocks := scryptBlocks password salt r p, x := [], v := [], done := 0, events := 0 }

/-- The rule of SCRYPT_START (R88). -/
def scryptStartCommand (c : ChannelId) (s : State) : Except ErrorCode Effect :=
  let a := s.latch.a
  let n := a.param0.toNat
  let r := a.param1.toNat
  let p := a.param2.toNat
  let dkLen := a.param3.toNat
  if !scryptConfigOk n r p dkLen then .error .config
  else if !scryptMemoryOk n r p then .error .resource
  else if (s.channel c).active then .error .chBusy
  else if [a.a, a.b, a.dst].any (fun d => !d.admitted) then .error .range
  else if (Descriptor.mk a.dstOff.toNat dkLen).hitsChannel (s.channel (otherChannel c)) then .error .overlap
  else if a.dstCap.toNat < dkLen then .error .capacity
  else .ok { state := s.setChannel c (startedChannel (s.operand a.a) (s.operand a.b) n r p dkLen a.dstOff.toNat) }

/-- SCRYPT_START (R88). -/
def execScryptStart (c : ChannelId) (s : State) : Host.Outcome State Fault Refusal :=
  complete s (scryptStartCommand c s)

/-- The rule of SCRYPT_ACK (R90). -/
def scryptAckCommand (c : ChannelId) (s : State) : Except ErrorCode Effect :=
  if (s.channel c).phase = .waitAck then .ok { state := s.setChannel c { s.channel c with phase := .running } }
  else .error .state

/-- SCRYPT_ACK (R90). -/
def execScryptAck (c : ChannelId) (s : State) : Host.Outcome State Fault Refusal := complete s (scryptAckCommand c s)

/-- The rule of SCRYPT_CANCEL (R91). -/
def scryptCancelCommand (c : ChannelId) (s : State) : Except ErrorCode Effect :=
  let ch := s.channel c
  if ch.active then
    .ok { state := s.setChannel c { ch with phase := .running, cancelReqBit := true, run := { ch.run with cancelReq := true } } }
  else .error .state

/-- SCRYPT_CANCEL (R91). -/
def execScryptCancel (c : ChannelId) (s : State) : Host.Outcome State Fault Refusal :=
  complete s (scryptCancelCommand c s)

end Sys2Proof.Machine
end

