-- ==== Sys2Proof/Machine/System.lean ====
section
/-! DEFINITION. System operations (spec/46_system.md): NOP (R148), the register map of the window
(spec/10_state.md R18), host reads and writes (R149, R150), the CMD, CTRL and IRQ_STATUS writes (R151 to
R153), and the soft reset (spec/70_reset_and_hazards.md R179). -/

namespace Sys2Proof.Machine

open Sys2Proof

/-- NOP (R148): nothing but the completion. -/
def execNop (s : State) : Host.Outcome State Fault Refusal := complete s (.ok { state := s })

/-- The twelve argument and parameter registers (10_state.md R25, R26). -/
inductive ArgReg where
  | aOff | aLen | bOff | bLen | cOff | cLen | dstOff | dstCap | param0 | param1 | param2 | param3
deriving DecidableEq, Repr

/-- The registers of a Scrypt bank (10_state.md R29). -/
inductive ScReg where
  | state | doneOps | totalOps | events | dstOff | dkLen
deriving DecidableEq, Repr

/-- The listed registers of the window (10_state.md R18). -/
inductive Reg where
  | id | ctrl | status | cmd | irqStatus | irqEnable
  | arg (r : ArgReg)
  | outLen | out0 | out1 | out2 | out3 | out4
  | kxState
  | sc (c : ChannelId) (r : ScReg)
deriving DecidableEq, Repr

/-- The register at a word offset; `none` is reserved (10_state.md R18, R30). -/
def regAt (offset : Nat) : Option Reg :=
  match offset with
  | 0x000 => some .id
  | 0x004 => some .ctrl
  | 0x008 => some .status
  | 0x00C => some .cmd
  | 0x010 => some .irqStatus
  | 0x014 => some .irqEnable
  | 0x020 => some (.arg .aOff)
  | 0x024 => some (.arg .aLen)
  | 0x028 => some (.arg .bOff)
  | 0x02C => some (.arg .bLen)
  | 0x030 => some (.arg .cOff)
  | 0x034 => some (.arg .cLen)
  | 0x038 => some (.arg .dstOff)
  | 0x03C => some (.arg .dstCap)
  | 0x040 => some (.arg .param0)
  | 0x044 => some (.arg .param1)
  | 0x048 => some (.arg .param2)
  | 0x04C => some (.arg .param3)
  | 0x050 => some .outLen
  | 0x054 => some .out0
  | 0x058 => some .out1
  | 0x05C => some .out2
  | 0x060 => some .out3
  | 0x064 => some .out4
  | 0x080 => some .kxState
  | 0x100 => some (.sc .zero .state)
  | 0x104 => some (.sc .zero .doneOps)
  | 0x108 => some (.sc .zero .totalOps)
  | 0x10C => some (.sc .zero .events)
  | 0x110 => some (.sc .zero .dstOff)
  | 0x114 => some (.sc .zero .dkLen)
  | 0x120 => some (.sc .one .state)
  | 0x124 => some (.sc .one .doneOps)
  | 0x128 => some (.sc .one .totalOps)
  | 0x12C => some (.sc .one .events)
  | 0x130 => some (.sc .one .dstOff)
  | 0x134 => some (.sc .one .dkLen)
  | _ => none

/-- An argument register's value (10_state.md R25, R26). -/
def Args.get (a : Args) : ArgReg → Word
  | .aOff => a.aOff
  | .aLen => a.aLen
  | .bOff => a.bOff
  | .bLen => a.bLen
  | .cOff => a.cOff
  | .cLen => a.cLen
  | .dstOff => a.dstOff
  | .dstCap => a.dstCap
  | .param0 => a.param0
  | .param1 => a.param1
  | .param2 => a.param2
  | .param3 => a.param3

/-- An argument register written (10_state.md R25, R26). -/
def Args.set (a : Args) (r : ArgReg) (v : Word) : Args :=
  match r with
  | .aOff => { a with aOff := v }
  | .aLen => { a with aLen := v }
  | .bOff => { a with bOff := v }
  | .bLen => { a with bLen := v }
  | .cOff => { a with cOff := v }
  | .cLen => { a with cLen := v }
  | .dstOff => { a with dstOff := v }
  | .dstCap => { a with dstCap := v }
  | .param0 => { a with param0 := v }
  | .param1 => { a with param1 := v }
  | .param2 => { a with param2 := v }
  | .param3 => { a with param3 := v }

/-- A register of a channel's bank (10_state.md R29). -/
def Channel.get (ch : Channel) : ScReg → Word
  | .state => scStateWord ch
  | .doneOps => ch.doneOps
  | .totalOps => ch.totalOps
  | .events => ch.eventsReg
  | .dstOff => ch.dstOffReg
  | .dkLen => ch.dkLenReg

/-- The value a host read of a register returns (R149). -/
def State.readReg (s : State) : Reg → Word
  | .id => Config.idValue
  | .ctrl => ctrlWord s
  | .status => statusWord s
  | .cmd => s.cmd
  | .irqStatus => irqWord s.irqStatus
  | .irqEnable => irqWord s.irqEnable
  | .arg r => s.args.get r
  | .outLen => s.results.outLen
  | .out0 => s.results.out0
  | .out1 => s.results.out1
  | .out2 => s.results.out2
  | .out3 => s.results.out3
  | .out4 => s.results.out4
  | .kxState => kxStateWord s
  | .sc c r => (s.channel c).get r

/-- A CMD write (R151): accepted into the latch when BUSY = 0, else dropped with CMD_OVR. -/
def State.issue (s : State) (w : Word) : State :=
  if s.busy then { s with cmdOvr := true }
  else
    { s with
      cmd := w
      latch := { pending := true, f := decodeFields w, a := s.args }
      doneFlag := false }

/-- The soft reset (70_reset_and_hazards.md R179): every piece of state the spec names takes its reset
value; the model's own fields are no part of the block and stay. -/
def State.softReset (s : State) : State :=
  { State.reset with turns := s.turns, clock := s.clock, draws := s.draws, drawCount := s.drawCount, readData := s.readData }

/-- A CTRL write (R152). -/
def State.writeCtrl (s : State) (v : Word) : State :=
  if v.getLsbD 0 then s.softReset
  else
    { s with
      ie := v.getLsbD 1
      cmdOvr := s.cmdOvr && !v.getLsbD 2
      busErr := s.busErr && !v.getLsbD 2 }

/-- A register write (R150): CTRL, CMD, IRQ_STATUS (write 1 to clear, R153), IRQ_ENABLE and the argument
registers take it; a write to every other register is ignored. -/
def State.writeReg (s : State) (r : Reg) (v : Word) : State :=
  match r with
  | .ctrl => s.writeCtrl v
  | .cmd => s.issue v
  | .irqStatus => { s with irqStatus := s.irqStatus &&& ~~~v.extractLsb' 0 3 }
  | .irqEnable => { s with irqEnable := v.extractLsb' 0 3 }
  | .arg r => { s with args := s.args.set r v }
  | .id => s
  | .status => s
  | .outLen => s
  | .out0 => s
  | .out1 => s
  | .out2 => s
  | .out3 => s
  | .out4 => s
  | .kxState => s
  | .sc _ _ => s

/-- The bytes of an access width. -/
def widthBytes : Width → Nat
  | .byte => 1
  | .half => 2
  | .word => 4

/-- What an access reaches: a listed register, a DMEM byte range, or a reserved offset. -/
inductive Target where
  | register (r : Reg)
  | dmem (i : Nat)
  | reserved
deriving DecidableEq, Repr

/-- The target of an access at a window offset. The DMEM window holds the accesses all of whose bytes lie in
DMEM (20_memory.md R39); any other offset is a listed register's, or reserved (10_state.md R30). -/
def target (offset : Nat) (w : Width) : Target :=
  if Config.dmemWindow ≤ offset ∧ offset - Config.dmemWindow + (widthBytes w) ≤ Config.dmemBytes then
    .dmem (offset - Config.dmemWindow)
  else
    match regAt offset with
    | some r => .register r
    | none => .reserved

/-- The width or the time of an access that its target refuses (20_memory.md R41, R42): outside the DMEM window every
access is 4 bytes wide, and the DMEM window is closed while BUSY = 1. -/
def Target.refuses (s : State) (w : Width) : Target → Bool
  | .dmem _ => s.busy
  | .register _ => w != .word
  | .reserved => w != .word

/-- The access is refused (20_memory.md R41, R42; 46_system.md R150: "any misaligned or wrong-width access"), at reserved
offsets too (assumption 7) and past the end of the DMEM window (assumption 8). -/
def accessRefused (s : State) (offset : Nat) (w : Width) : Bool :=
  offset % widthBytes w != 0 || (target offset w).refuses s w

/-- The value a host read returns when it is not refused (R149). -/
def State.readTarget (s : State) (w : Width) : Target → Word
  | .register r => s.readReg r
  | .dmem i => BitVec.ofNat 32 (leNat (s.dmem.readBytes i (widthBytes w)))
  | .reserved => 0

/-- The effect of a host write that is not refused (R150). -/
def State.writeTarget (s : State) (w : Width) (v : Word) : Target → State
  | .register r => s.writeReg r v
  | .dmem i => s.storeBytes i (leBytes (widthBytes w) (v.toNat % 2 ^ (8 * (widthBytes w))))
  | .reserved => s

/-- A host read (R149): the value goes to `readData`; a refused read returns 0 and sets BUSERR. -/
def hostRead (offset : Nat) (w : Width) (s : State) : State :=
  if accessRefused s offset w then { s with busErr := true, readData := 0 }
  else { s with readData := s.readTarget w (target offset w) }

/-- A host write (R150): a refused write changes nothing and sets BUSERR. -/
def hostWrite (offset : Nat) (w : Width) (v : Word) (s : State) : State :=
  if accessRefused s offset w then { s with busErr := true } else s.writeTarget w v (target offset w)

/-- The host's step (10_state.md R15): one access at a window offset. An offset outside the 128 KiB window is
no access to the block (assumption 6). -/
def hostAccess (offset : Nat) (w : Width) (op : BusOp) (s : State) : Host.Outcome State Fault Refusal :=
  if offset < Config.windowBytes then
    match op with
    | .read => .next (hostRead offset w s)
    | .write v => .next (hostWrite offset w v s)
  else .fault (.outsideWindow offset)

/-- The host's step at a platform address: BASE gives the offset (10_state.md R18, 20_memory.md R47). -/
def platformAccess (address : Nat) (w : Width) (op : BusOp) (s : State) : Host.Outcome State Fault Refusal :=
  if Config.base ≤ address ∧ address - Config.base < Config.windowBytes then hostAccess (address - Config.base) w op s
  else .fault (.outsideWindow address)

end Sys2Proof.Machine
end

