-- ==== Sys2Proof/Machine/Dispatch.lean ====
section
/-! DEFINITION. Which meaning each command has (spec/30_encoding.md R58): one arm per constructor. -/

namespace Sys2Proof.Machine

open Sys2Proof

/-- Execute a command on the latched operands, in one atomic step (spec/10_state.md R33). -/
def exec (i : Instr) (s : State) : Host.Outcome State Fault Refusal :=
  match i with
  | .nop => Sys2Proof.Machine.execNop s
  | .pad pad => Sys2Proof.Machine.execPad pad s
  | .unpad pad => Sys2Proof.Machine.execUnpad pad s
  | .keyfit => Sys2Proof.Machine.execKeyfit s
  | .hash alg => Sys2Proof.Machine.execHash alg s
  | .stretch alg => Sys2Proof.Machine.execStretch alg s
  | .scryptStart ch => Sys2Proof.Machine.execScryptStart ch s
  | .scryptAck ch => Sys2Proof.Machine.execScryptAck ch s
  | .scryptCancel ch => Sys2Proof.Machine.execScryptCancel ch s
  | .cipherEnc alg mode pad => Sys2Proof.Machine.execCipherEnc alg mode pad s
  | .cipherDec alg mode pad => Sys2Proof.Machine.execCipherDec alg mode pad s
  | .macGen => Sys2Proof.Machine.execMacGen s
  | .macVerify => Sys2Proof.Machine.execMacVerify s
  | .envEnc mode pad sel => Sys2Proof.Machine.execEnvEnc mode pad sel s
  | .envDec mode pad sel => Sys2Proof.Machine.execEnvDec mode pad sel s
  | .kxGenerate sel => Sys2Proof.Machine.execKxGenerate sel s
  | .kxSerialize sel => Sys2Proof.Machine.execKxSerialize sel s
  | .kxParse => Sys2Proof.Machine.execKxParse s
  | .kxCompute => Sys2Proof.Machine.execKxCompute s
  | .kxNuke => Sys2Proof.Machine.execKxNuke s
  | .kxApplied => Sys2Proof.Machine.execKxApplied s
  | .saltOrder => Sys2Proof.Machine.execSaltOrder s

end Sys2Proof.Machine
end

