-- ==== Sys2Proof/Machine/Agents.lean ====
section
/-! DEFINITION. The agents' steps (spec/10_state.md R15, spec/60_exceptions.md R173): the command unit, the
Scrypt channels and the host, and which of them a turn names. -/

namespace Sys2Proof.Machine

open Sys2Proof

/-- The command unit's step on the latched command (10_state.md R33): the decoded command's rule, or
ERR_ILLEGAL for fields that are no command (30_encoding.md R60). -/
def runLatched (s : State) : Host.Outcome State Fault Refusal :=
  match instrOf s.latch.f with
  | some i => exec i s
  | none => complete s (.error .illegal)

/-- The command unit's turn: enabled while `pending` = 1; otherwise it changes nothing (assumption 2). -/
def commandTurn (s : State) : Host.Outcome State Fault Refusal :=
  if s.latch.pending then runLatched s else .next s

/-- Channel c's turn: one chunk, enabled while RUNNING (42_scrypt.md R89); otherwise it changes nothing
(assumption 2). -/
def channelTurn (c : ChannelId) (s : State) : Host.Outcome State Fault Refusal :=
  .next (if (s.channel c).phase = .running then chunk c s else s)

/-- The step of the agent that the turn names (60_exceptions.md R173). -/
def takeTurn (t : Turn) (s : State) : Host.Outcome State Fault Refusal :=
  match t with
  | .host offset w op => hostAccess offset w op s
  | .platform address w op => platformAccess address w op s
  | .commandUnit => commandTurn s
  | .channel c => channelTurn c s

/-- The CMD write of R151 accepted whatever BUSY was, and the next turn given to the command unit: the state
whose next step runs the word. -/
def acceptForNextTurn (w : Word) (s : State) : State :=
  { s with
    cmd := w
    latch := { pending := true, f := decodeFields w, a := s.args }
    doneFlag := false
    turns := .commandUnit :: s.turns }

end Sys2Proof.Machine
end

