-- ==== Sys2Proof/Machine/Step.lean ====
section
/-! DEFINITION. One step of the DCCB (spec/60_exceptions.md R173): the next turn, scripted or free, is taken;
and how a word is placed as the command that the next step runs. -/

namespace Sys2Proof.Machine

open Sys2Proof

/-- One step: the first turn of the script, or the free turn when the script is empty (assumption 1). -/
def step (s : State) : Host.Outcome State Fault Refusal :=
  match s.turns with
  | t :: rest => takeTurn t { s with turns := rest }
  | [] => takeTurn (Config.freeTurn s.clock) { s with clock := s.clock + 1 }

/-- `s` with the command word `w` accepted and the command unit's turn next (assumption 4). -/
def State.withFetchWord (s : State) (nbits w : Nat) : State :=
  acceptForNextTurn (BitVec.ofNat 32 (w % 2 ^ nbits)) s

end Sys2Proof.Machine
end

