-- ==== Sys2Proof/Machine/HostProgram.lean ====
section
/-! DEFINITION. Host programs: the register writes and pseudo-instructions of spec/30_encoding.md R63 and R64 as
scripts of host turns, and the session-password derivation of spec/45_keyexchange.md R146 as values. No
program is part of the block; the block only sees the accesses. -/

namespace Sys2Proof.Machine

open Sys2Proof

/-- The window offset of an argument register (10_state.md R18). -/
def ArgReg.offset : ArgReg → Nat
  | .aOff => 0x020
  | .aLen => 0x024
  | .bOff => 0x028
  | .bLen => 0x02C
  | .cOff => 0x030
  | .cLen => 0x034
  | .dstOff => 0x038
  | .dstCap => 0x03C
  | .param0 => 0x040
  | .param1 => 0x044
  | .param2 => 0x048
  | .param3 => 0x04C

/-- The offset of a register inside its channel's bank (10_state.md R18). -/
def ScReg.offset : ScReg → Nat
  | .state => 0x00
  | .doneOps => 0x04
  | .totalOps => 0x08
  | .events => 0x0C
  | .dstOff => 0x10
  | .dkLen => 0x14

/-- The number of a channel (10_state.md R29). -/
def channelIndex : ChannelId → Nat
  | .zero => 0
  | .one => 1

/-- The window offset of a listed register (10_state.md R18). -/
def Reg.offset : Reg → Nat
  | .id => 0x000
  | .ctrl => 0x004
  | .status => 0x008
  | .cmd => 0x00C
  | .irqStatus => 0x010
  | .irqEnable => 0x014
  | .arg r => r.offset
  | .outLen => 0x050
  | .out0 => 0x054
  | .out1 => 0x058
  | .out2 => 0x05C
  | .out3 => 0x060
  | .out4 => 0x064
  | .kxState => 0x080
  | .sc c r => 0x100 + 0x20 * channelIndex c + r.offset

/-- `W NAME, value` (R63). -/
def regWrite (r : Reg) (v : Word) : Turn := .host r.offset .word (.write v)

/-- `R NAME` (R63). -/
def regRead (r : Reg) : Turn := .host r.offset .word .read

/-- The operand that a pseudo-instruction `ARG` sets (R64). -/
inductive OperandName where
  | a | b | c | dst
deriving DecidableEq, Repr

/-- `ARG X, off, len` (R64). -/
def argProgram (x : OperandName) (off len : Word) : List Turn :=
  match x with
  | .a => [regWrite (.arg .aOff) off, regWrite (.arg .aLen) len]
  | .b => [regWrite (.arg .bOff) off, regWrite (.arg .bLen) len]
  | .c => [regWrite (.arg .cOff) off, regWrite (.arg .cLen) len]
  | .dst => [regWrite (.arg .dstOff) off, regWrite (.arg .dstCap) len]

/-- The register of `PRM i` (R64); i is 0 to 3. -/
def paramReg (i : Fin 4) : ArgReg :=
  match i with
  | 0 => .param0
  | 1 => .param1
  | 2 => .param2
  | 3 => .param3

/-- `PRM i, v` (R64). -/
def prmProgram (i : Fin 4) (v : Word) : List Turn := [regWrite (.arg (paramReg i)) v]

/-- `ISSUE mnemonic fields` (R64). -/
def issueProgram (i : Instr) : List Turn := [regWrite .cmd (encode i)]

/-- One read of the loop of `WAITDONE` (R64). -/
def waitDoneRead : Turn := regRead .status

/-- The STATUS value at which `WAITDONE` ends: DONE = 1 and BUSY = 0 (R64). -/
def waitDoneEnds (status : Word) : Bool := status.getLsbD 1 && !status.getLsbD 0

/-- The error code in the final STATUS value of `WAITDONE` (R64). -/
def waitDoneError (status : Word) : BitVec 8 := status.extractLsb' 8 8

/-- One read of the loop of `WAITCH ch, s` (R64). -/
def waitChRead (c : ChannelId) : Turn := regRead (.sc c .state)

/-- The SC_STATE value at which `WAITCH ch, s` ends (R64). -/
def waitChEnds (phase : Phase) (state : Word) : Bool := state.extractLsb' 0 3 == phase.code

/-- `ACKIRQ m` (R64). -/
def ackIrqProgram (m : Word) : List Turn := [regWrite .irqStatus m]

/-- The operands of one SCRYPT_START of the session-password program (45_keyexchange.md R146). -/
structure PasswordRun where
  channel : ChannelId
  password : Bytes
  salt : Bytes
  n : Nat
  r : Nat
  p : Nat
  dkLen : Nat
deriving DecidableEq, Repr

/-- The salt that SALT_ORDER names primary, and the other one (R146 step 1); `none` is a tie. -/
def orderedSalts (localSalt remoteSalt : Bytes) : Option (Bytes × Bytes) :=
  match remoteIsPrimary localSalt remoteSalt with
  | none => none
  | some true => some (remoteSalt, localSalt)
  | some false => some (localSalt, remoteSalt)

/-- The primary run of R146 step 4: SHA-512 of the primary salt is its salt (42_scrypt.md R97). -/
def primaryRun (secret primSalt secSalt : Bytes) : PasswordRun where
  channel := .zero
  password := secret ++ hash .whirlpool secSalt
  salt := hash .sha512 primSalt
  n := Config.pwNPrimary
  r := 16
  p := 2
  dkLen := 256

/-- The secondary run of R146 step 5: Whirlpool of the secondary salt is its salt (42_scrypt.md R97). -/
def secondaryRun (secret primSalt secSalt : Bytes) : PasswordRun where
  channel := .one
  password := primSalt ++ secret ++ secSalt
  salt := hash .whirlpool secSalt
  n := Config.pwNSecondary
  r := 8
  p := 1
  dkLen := 256

/-- The bytes that a run delivers when it reaches DONE (42_scrypt.md R94). -/
def PasswordRun.key (run : PasswordRun) : Bytes := scrypt run.password run.salt run.n run.r run.p run.dkLen

/-- The session passwords of R146: the primary key and the secondary key; `none` when the salts tie. -/
def sessionPasswords (secret localSalt remoteSalt : Bytes) : Option (Bytes × Bytes) :=
  match orderedSalts localSalt remoteSalt with
  | none => none
  | some (prim, sec) => some ((primaryRun secret prim sec).key, (secondaryRun secret prim sec).key)

end Sys2Proof.Machine
end

