-- ==== Sys2Proof/WellFormed.lean ====
section
/-! DEFINITION. Well-formed commands (spec/30_encoding.md R57): every field code lies in its set. An
ill-formed command is still decoded and executed; it completes with ERR_CONFIG or ERR_BAD_SELECTOR. -/

namespace Sys2Proof

/-- A hash code: 0 to 2 (R57). -/
def hashCodeOk (alg : BitVec 3) : Bool := alg.toNat ≤ 2

/-- A cipher code: 0 to 4 (R57). -/
def cipherCodeOk (alg : BitVec 3) : Bool := alg.toNat ≤ 4

/-- A block-mode code: 0 to 2 (R57). -/
def modeCodeOk (mode : BitVec 3) : Bool := mode.toNat ≤ 2

/-- A padding-scheme code: 0 to 3 (R57). -/
def schemeCodeOk (pad : BitVec 3) : Bool := pad.toNat ≤ 3

/-- A cipher selector: 0 to 24 (R57). -/
def selectorOk (sel : BitVec 8) : Bool := sel.toNat ≤ 24

/-- An algorithm tag: 0 to 13 (R57). -/
def tagCodeOk (sel : BitVec 8) : Bool := sel.toNat ≤ 13

/-- Every field of the command holds a value of its set (R57). -/
def Instr.wellFormed : Instr → Bool
  | .nop => true
  | .pad c => schemeCodeOk c
  | .unpad c => schemeCodeOk c
  | .keyfit => true
  | .hash alg => hashCodeOk alg
  | .stretch alg => hashCodeOk alg
  | .scryptStart _ => true
  | .scryptAck _ => true
  | .scryptCancel _ => true
  | .cipherEnc a m c => cipherCodeOk a && modeCodeOk m && schemeCodeOk c
  | .cipherDec a m c => cipherCodeOk a && modeCodeOk m && schemeCodeOk c
  | .macGen => true
  | .macVerify => true
  | .envEnc m c x => modeCodeOk m && schemeCodeOk c && selectorOk x
  | .envDec m c x => modeCodeOk m && schemeCodeOk c && selectorOk x
  | .kxGenerate sel => tagCodeOk sel
  | .kxSerialize sel => tagCodeOk sel
  | .kxParse => true
  | .kxCompute => true
  | .kxNuke => true
  | .kxApplied => true
  | .saltOrder => true

end Sys2Proof
end

