-- ==== Sys2Proof/Safety.lean ====
section
/-! DEFINITION. The terms of the claims about the DCCB: what a completed command leaves changed and unchanged
(spec/10_state.md R33, spec/60_exceptions.md R159, R160), the order of a command's checks (R161), the
transitions of the channels and of the key-exchange engine (spec/42_scrypt.md R87,
spec/45_keyexchange.md R137), and the invariant of every reachable state. -/

namespace Sys2Proof.Machine

open Sys2Proof

/-! ### What a command leaves -/

/-- The completion step wrote its registers (10_state.md R33): ERR, the results, DONE = 1, `pending` = 0 and
CMD_DONE = 1; the latched fields stay, and the step's draws are used up. -/
structure Completed (s t : State) (e : ErrorCode) (r : Results) : Prop where
  err : t.err = e
  results : t.results = r
  doneFlag : t.doneFlag = true
  pending : t.latch.pending = false
  latchFields : t.latch.f = s.latch.f ∧ t.latch.a = s.latch.a
  irqStatus : t.irqStatus = s.irqStatus ||| 1#3
  draws : t.draws = s.draws.tail ∧ t.drawCount = s.drawCount + 1

/-- Every register that no command writes is unchanged: IE, CMD_OVR, BUSERR, CMD, IRQ_ENABLE, the argument
registers, and the model's own script of turns and last read value. -/
structure SameRegisters (s t : State) : Prop where
  ie : t.ie = s.ie
  cmdOvr : t.cmdOvr = s.cmdOvr
  busErr : t.busErr = s.busErr
  cmd : t.cmd = s.cmd
  irqEnable : t.irqEnable = s.irqEnable
  args : t.args = s.args
  turns : t.turns = s.turns
  clock : t.clock = s.clock
  readData : t.readData = s.readData

/-- The private-key slot and KX_STATE are unchanged (45_keyexchange.md R137). -/
structure SameSlot (s t : State) : Prop where
  kxPhase : t.kxPhase = s.kxPhase
  slotTag : t.slotTag = s.slotTag
  slotPriv : t.slotPriv = s.slotPriv

/-- Both Scrypt channels are unchanged (10_state.md R29, R34). -/
structure SameChannels (s t : State) : Prop where
  ch0 : t.ch0 = s.ch0
  ch1 : t.ch1 = s.ch1

/-- Every byte of DMEM reads as before. -/
def SameMemory (s t : State) : Prop := ∀ a, t.dmem.read a = s.dmem.read a

/-- The bytes y stand at [off, off + len(y)), and every byte outside reads as before (20_memory.md R38). -/
def StoredAt (s t : State) (off : Nat) (y : Bytes) : Prop :=
  ∀ a, t.dmem.read a = if off ≤ a ∧ a < off + y.length then y.getD (a - off) 0 else s.dmem.read a

/-- The slot holds this state, tag and key. -/
structure SlotIs (t : State) (phase : KxPhase) (tag : Option Tag) (priv : Nat) : Prop where
  kxPhase : t.kxPhase = phase
  slotTag : t.slotTag = tag
  slotPriv : t.slotPriv = priv

/-- The command fails with code e (60_exceptions.md R159): result registers 0, no DMEM byte written, and the
slot, KX_STATE and both channels as before. -/
def Fails (i : Instr) (s : State) (e : ErrorCode) : Prop :=
  ∃ t, exec i s = .next t ∧ Completed s t e {} ∧ SameRegisters s t ∧ SameSlot s t ∧ SameChannels s t ∧ t.dmem = s.dmem

/-- The command succeeds: its results are r, it stores nothing, and nothing else changes. -/
def Answers (i : Instr) (s : State) (r : Results) : Prop :=
  ∃ t, exec i s = .next t ∧ Completed s t .ok r ∧ SameRegisters s t ∧ SameSlot s t ∧ SameChannels s t ∧ SameMemory s t

/-- The command succeeds: it stores y at DST_OFF, OUT_LEN = len(y), the other results are those of r, and
nothing else changes (20_memory.md R45). -/
def Stores (i : Instr) (s : State) (y : Bytes) (r : Results) : Prop :=
  ∃ t, exec i s = .next t ∧ Completed s t .ok { r with outLen := BitVec.ofNat 32 y.length } ∧ SameRegisters s t
    ∧ SameSlot s t ∧ SameChannels s t ∧ StoredAt s t s.latch.a.dstOff.toNat y

/-- The command succeeds with results all 0: it moves channel c to `ch`, and nothing else changes. -/
def MovesChannel (i : Instr) (s : State) (c : ChannelId) (ch : Channel) : Prop :=
  ∃ t, exec i s = .next t ∧ Completed s t .ok {} ∧ SameRegisters s t ∧ SameSlot s t ∧ SameMemory s t
    ∧ t.channel c = ch ∧ t.channel (otherChannel c) = s.channel (otherChannel c)

/-- The command succeeds: the slot and KX_STATE become these, the results are r, it stores nothing, and nothing
else changes. -/
def MovesSlot (i : Instr) (s : State) (phase : KxPhase) (tag : Option Tag) (priv : Nat) : Prop :=
  ∃ t, exec i s = .next t ∧ Completed s t .ok {} ∧ SameRegisters s t ∧ SlotIs t phase tag priv ∧ SameChannels s t
    ∧ SameMemory s t

/-- The command succeeds: it stores y at DST_OFF with OUT_LEN = len(y) and the other results of r, the slot and
KX_STATE become these, and nothing else changes. -/
def StoresAndMovesSlot (i : Instr) (s : State) (y : Bytes) (r : Results) (phase : KxPhase) (tag : Option Tag)
    (priv : Nat) : Prop :=
  ∃ t, exec i s = .next t ∧ Completed s t .ok { r with outLen := BitVec.ofNat 32 y.length } ∧ SameRegisters s t
    ∧ SlotIs t phase tag priv ∧ SameChannels s t ∧ StoredAt s t s.latch.a.dstOff.toNat y

/-! ### Illegal commands (30_encoding.md R58, R60) -/

/-- The opcodes whose row uses ALG, MODE, PAD, CH or SEL: the "fields used" column of R58, read by field. -/
def usesAlg : List Nat := [0x04, 0x05, 0x09, 0x0A]
/-- The opcodes whose row uses MODE (R58). -/
def usesMode : List Nat := [0x09, 0x0A, 0x0D, 0x0E]
/-- The opcodes whose row uses PAD (R58). -/
def usesPad : List Nat := [0x01, 0x02, 0x09, 0x0A, 0x0D, 0x0E]
/-- The opcodes whose row uses CH (R58). -/
def usesCh : List Nat := [0x06, 0x07, 0x08]
/-- The opcodes whose row uses SEL (R58). -/
def usesSel : List Nat := [0x0D, 0x0E, 0x0F, 0x10]

/-- A command word is illegal: a reserved opcode, a nonzero RSV, or a nonzero field that its row does not use
(30_encoding.md R60). -/
def IllegalFields (f : Fields) : Prop :=
  0x16 ≤ f.op.toNat ∨ f.rsv ≠ 0
    ∨ (f.op.toNat ∉ usesAlg ∧ f.alg ≠ 0) ∨ (f.op.toNat ∉ usesMode ∧ f.mode ≠ 0) ∨ (f.op.toNat ∉ usesPad ∧ f.pad ≠ 0)
    ∨ (f.op.toNat ∉ usesCh ∧ f.ch ≠ 0) ∨ (f.op.toNat ∉ usesSel ∧ f.sel ≠ 0)

/-! ### Operands -/

/-- The two ranges share a byte (20_memory.md R44). -/
def SharesByte (d e : Descriptor) : Prop := ∃ a, d.off ≤ a ∧ a < d.off + d.len ∧ e.off ≤ a ∧ a < e.off + e.len

/-- A channel in RUNNING or WAIT_ACK (20_memory.md R44). -/
def ActiveChannel (s : State) (c : ChannelId) : Prop :=
  (s.channel c).phase = .running ∨ (s.channel c).phase = .waitAck

/-- Every descriptor of the list lies in DMEM (20_memory.md R43). -/
def InsideDmem (ds : List Descriptor) : Prop := ∀ d ∈ ds, d.off + d.len ≤ 65536

/-- The descriptor checks of a command with inputs `ins` and output DST pass (20_memory.md R43, R44). -/
structure OperandsOk (s : State) (ins : List Descriptor) : Prop where
  inside : InsideDmem (ins ++ [s.latch.a.dst])
  apart : ∀ d ∈ ins, ¬SharesByte s.latch.a.dst d
  unreserved : ∀ c, ActiveChannel s c → ¬SharesByte s.latch.a.dst (s.channel c).resultRange

/-! ### The order of the checks (60_exceptions.md R161, items 2 to 7) -/

/-- Items 2 and 3, the field codes (30_encoding.md R57): the selector first, then every other field. -/
def fieldError : Instr → Option ErrorCode
  | .envEnc m p sel => if !selectorOk sel then some .badSelector else if modeCodeOk m && schemeCodeOk p then none else some .config
  | .envDec m p sel => if !selectorOk sel then some .badSelector else if modeCodeOk m && schemeCodeOk p then none else some .config
  | i => if i.wellFormed then none else some .config

/-- Item 3, the PARAM values and fixed lengths. -/
def paramError (i : Instr) (a : Args) : Option ErrorCode :=
  match i with
  | .pad _ => if blockBitsOk a.param0.toNat then none else some .config
  | .unpad _ => if blockBitsOk a.param0.toNat then none else some .config
  | .keyfit => if keyfitSizes.contains a.param0.toNat then none else some .config
  | .stretch _ => if a.param0 = 0 ∨ a.param1 = 0 then some .config else none
  | .macVerify => if a.cLen = 32 then none else some .config
  | .scryptStart _ =>
    if scryptConfigOk a.param0.toNat a.param1.toNat a.param2.toNat a.param3.toNat then none else some .config
  | _ => none

/-- Item 4, the memory of a Scrypt run (42_scrypt.md R85). -/
def resourceError (i : Instr) (a : Args) : Option ErrorCode :=
  match i with
  | .scryptStart _ => if scryptMemoryOk a.param0.toNat a.param1.toNat a.param2.toNat then none else some .resource
  | _ => none

/-- Item 5, the engine states. -/
def engineError (i : Instr) (s : State) : Option ErrorCode :=
  match i with
  | .scryptStart c => if (s.channel c).active then some .chBusy else none
  | .scryptAck c => if (s.channel c).phase = .waitAck then none else some .state
  | .scryptCancel c => if (s.channel c).active then none else some .state
  | .kxApplied => if s.kxPhase = .secretComputed then none else some .state
  | .kxCompute => if s.slotTag = none then some .kxNoKey else none
  | _ => none

/-- The input descriptors that a command uses (30_encoding.md R59). -/
def inputsOf (i : Instr) (a : Args) : List Descriptor :=
  match i with
  | .pad _ => [a.a]
  | .unpad _ => [a.a]
  | .keyfit => [a.a]
  | .hash _ => [a.a]
  | .stretch _ => [a.a, a.b]
  | .scryptStart _ => [a.a, a.b]
  | .cipherEnc _ _ _ => [a.a, a.b, a.c]
  | .cipherDec _ _ _ => [a.a, a.b]
  | .macGen => [a.a, a.b]
  | .macVerify => [a.a, a.b, a.c]
  | .envEnc _ _ _ => [a.a, a.b, a.c]
  | .envDec _ _ _ => [a.a, a.b, a.c]
  | .kxSerialize _ => [a.a]
  | .kxParse => [a.a]
  | .kxCompute => [a.a]
  | .saltOrder => [a.a, a.b]
  | .nop | .scryptAck _ | .scryptCancel _ | .kxGenerate _ | .kxNuke | .kxApplied => []

/-- The command uses DST (30_encoding.md R59). -/
def usesDst : Instr → Bool
  | .pad _ | .unpad _ | .keyfit | .hash _ | .stretch _ | .scryptStart _ | .cipherEnc _ _ _ | .cipherDec _ _ _
  | .macGen | .envEnc _ _ _ | .envDec _ _ _ | .kxGenerate _ | .kxSerialize _ | .kxCompute => true
  | .nop | .scryptAck _ | .scryptCancel _ | .macVerify | .kxParse | .kxNuke | .kxApplied | .saltOrder => false

/-- Item 6: a descriptor that the command uses lies outside DMEM (20_memory.md R43). -/
def rangeError (i : Instr) (a : Args) : Option ErrorCode :=
  if (inputsOf i a ++ if usesDst i then [a.dst] else []).all (·.admitted) then none else some .range

/-- Item 7: DST meets an input of the command, or an active channel's result range. SCRYPT_START's own
result range [DST_OFF, DST_OFF + dkLen) is checked against the other channel only (20_memory.md R44). -/
def overlapError (i : Instr) (s : State) : Option ErrorCode :=
  match i with
  | .scryptStart c =>
    if (Descriptor.mk s.latch.a.dstOff.toNat s.latch.a.param3.toNat).hitsChannel (s.channel (otherChannel c)) then some .overlap
    else none
  | i =>
    if usesDst i && ((inputsOf i s.latch.a).any s.latch.a.dst.overlaps || s.latch.a.dst.hitsChannel s.ch0
      || s.latch.a.dst.hitsChannel s.ch1) then some .overlap
    else none

/-- The first failing check among items 2 to 7 of R161. -/
def firstError (i : Instr) (s : State) : Option ErrorCode :=
  fieldError i <|> paramError i s.latch.a <|> resourceError i s.latch.a <|> engineError i s
    <|> rangeError i s.latch.a <|> overlapError i s

/-- The refused parameters of a Scrypt run (42_scrypt.md R85): N no power of two from 2 on, dkLen outside 1 .. 65535, r or
p zero, r·p ≥ 2^30, or 2·N·p ≥ 2^32. -/
def ScryptOutOfRange (n r p dkLen : Nat) : Prop :=
  (∀ k, 1 ≤ k → n ≠ 2 ^ k) ∨ dkLen = 0 ∨ 65535 < dkLen ∨ r = 0 ∨ p = 0 ∨ 2 ^ 30 ≤ r * p ∨ 2 ^ 32 ≤ 2 * n * p

/-- A forbidden overlap (20_memory.md R44): DST shares a byte with an input of the command or with an active channel's
result range; the result range of a SCRYPT_START, dkLen bytes from DST_OFF on, shares a byte with that of the other
channel while that one is active. -/
def ForbiddenOverlap (i : Instr) (s : State) : Prop :=
  match i with
  | .scryptStart c =>
    ActiveChannel s (otherChannel c)
      ∧ SharesByte ⟨s.latch.a.dstOff.toNat, s.latch.a.param3.toNat⟩ (s.channel (otherChannel c)).resultRange
  | i =>
    (∃ d ∈ inputsOf i s.latch.a, SharesByte s.latch.a.dst d)
      ∨ ∃ c, ActiveChannel s c ∧ SharesByte s.latch.a.dst (s.channel c).resultRange

/-- The length of the result, for the commands whose result length is known before the result
(20_memory.md R45): `none` for the others, and for a KX_SERIALIZE whose key has the wrong length. -/
def resultLength (i : Instr) (s : State) : Option Nat :=
  let a := s.latch.a
  match i with
  | .pad _ => some (a.aLen.toNat + padLen (a.param0.toNat / 8) a.aLen.toNat)
  | .keyfit => some a.param0.toNat
  | .hash code => (hashOfCode code).map hashLen
  | .stretch _ => some a.param1.toNat
  | .cipherEnc alg _ _ =>
    (cipherOfNat alg.toNat).map fun alg => 8 + (a.aLen.toNat + padLen (cipherBlockBytes alg) a.aLen.toNat)
  | .macGen => some 32
  | .envEnc _ _ sel =>
    match selectorPrimary sel, selectorSecondary sel with
    | some primary, some secondary =>
      let l1 := 8 + (a.aLen.toNat + padLen (cipherBlockBytes primary) a.aLen.toNat)
      some (32 + (8 + (l1 + padLen (cipherBlockBytes secondary) l1)))
    | _, _ => none
  | .kxGenerate sel => (tagOfNat sel.toNat).map pubLen
  | .kxSerialize sel =>
    match tagOfNat sel.toNat with
    | some t => if a.aLen.toNat = pubLen t then some (2 + (blobSaltLen s + pubLen t)) else none
    | none => none
  | _ => none

/-! ### Transitions -/

/-- The command unit's step of this turn executes command i. -/
def Executes (turn : Turn) (s : State) (i : Instr) : Prop :=
  turn = .commandUnit ∧ s.latch.pending = true ∧ instrOf s.latch.f = some i

/-- The turn is a soft reset: an aligned 4-byte host write to CTRL with bit 0 set (46_system.md R152). -/
def SoftResets (turn : Turn) : Prop :=
  ∃ v : Word, v.getLsbD 0 = true ∧
    (turn = .host 0x004 .word (.write v) ∨ turn = .platform (Config.base + 0x004) .word (.write v))

/-- One row of the table of channel transitions (42_scrypt.md R87), or no change at all of the channel: no other
step writes its bank or its hidden state (R94). -/
def PhaseRule (turn : Turn) (s t : State) (c : ChannelId) : Prop :=
  let old := s.channel c
  let new := t.channel c
  new = old
    ∨ (Executes turn s (.scryptStart c) ∧ ¬ActiveChannel s c ∧ new.phase = .running ∧ t.err = .ok)
    ∨ (turn = .channel c ∧ old.phase = .running ∧ old.run.cancelReq = false ∧ new.phase = .waitAck
        ∧ new.run.done < new.run.total)
    ∨ (turn = .channel c ∧ old.phase = .running ∧ old.run.cancelReq = false ∧ new.phase = .done
        ∧ new.run.done = new.run.total)
    ∨ (turn = .channel c ∧ old.phase = .running ∧ old.run.cancelReq = true ∧ new.phase = .cancelled)
    ∨ (Executes turn s (.scryptAck c) ∧ old.phase = .waitAck ∧ new = { old with phase := .running })
    ∨ (Executes turn s (.scryptCancel c) ∧ ActiveChannel s c
        ∧ new = { old with phase := .running, cancelReqBit := true, run := { old.run with cancelReq := true } })
    ∨ (SoftResets turn ∧ new = {})

/-- One row of the table of key-exchange transitions, or no change (45_keyexchange.md R137). -/
def KxRule (turn : Turn) (s t : State) : Prop :=
  SameSlot s t
    ∨ (∃ sel tag, Executes turn s (.kxGenerate sel) ∧ t.err = .ok ∧ tagOfNat sel.toNat = some tag
        ∧ SlotIs t .keyGenerated (some tag) (generatePrivate tag s))
    ∨ (Executes turn s .kxCompute ∧ t.err = .ok ∧ (∃ tag, s.slotTag = some tag) ∧ SlotIs t .secretComputed none 0)
    ∨ (Executes turn s .kxApplied ∧ t.err = .ok ∧ s.kxPhase = .secretComputed
        ∧ SlotIs t .passwordsApplied s.slotTag s.slotPriv)
    ∨ (Executes turn s .kxNuke ∧ SlotIs t .noKey none 0)
    ∨ (SoftResets turn ∧ SlotIs t .noKey none 0)

/-! ### The invariant -/

/-- The bank shows the hidden run (10_state.md R29, R34). -/
structure BankShows (ch : Channel) : Prop where
  doneOps : ch.doneOps.toNat = ch.run.done
  totalOps : ch.totalOps.toNat = ch.run.total
  events : ch.eventsReg.toNat = ch.run.events
  dstOff : ch.dstOffReg.toNat = ch.run.dst
  dkLen : ch.dkLenReg.toNat = ch.run.dkLen
  cancelReq : ch.cancelReqBit = ch.run.cancelReq

/-- A run between its START and its last chunk: the checks of SCRYPT_START held (42_scrypt.md R85, R88), it
is unfinished after whole chunks (R89), and the bank shows it. -/
structure ActiveRun (ch : Channel) : Prop where
  config : scryptConfigOk ch.run.n ch.run.r ch.run.p ch.run.dkLen = true
  memory : scryptMemoryOk ch.run.n ch.run.r ch.run.p = true
  fits : ch.run.dst + ch.run.dkLen ≤ 65536
  blocks : ch.run.blocks.length = ch.run.p
  blockBytes : ∀ b ∈ ch.run.blocks, b.length = 128 * ch.run.r
  unfinished : ch.run.done < ch.run.total
  wholeChunks : ch.run.done = 1000 * ch.run.events
  bank : BankShows ch
  noError : ch.scErr = .ok

/-- The run's secrets are zeroed (42_scrypt.md R89). -/
structure Scrubbed (run : Run) : Prop where
  password : run.password = []
  salt : run.salt = []
  blocks : run.blocks = []
  x : run.x = []
  v : run.v = []

/-- What holds of a channel in each phase (42_scrypt.md R87 to R92). -/
def ChannelInv (ch : Channel) : Prop :=
  match ch.phase with
  | .idle => ch = {}
  | .running => ActiveRun ch
  | .waitAck => ActiveRun ch ∧ ch.run.cancelReq = false ∧ 1 ≤ ch.run.events
  | .done => Scrubbed ch.run ∧ BankShows ch ∧ ch.run.done = ch.run.total ∧ ch.run.cancelReq = false ∧ ch.scErr = .ok
  | .cancelled => ch.run = {} ∧ ch.scErr = .cancelled ∧ ch.cancelReqBit = true

/-- The invariant of every reachable state: DMEM is in canonical form and inside its 65536 bytes
(10_state.md R31); ERR never is ERR_CANCELLED (60_exceptions.md R158); BUSY and DONE exclude each other
(10_state.md R21); the slot holds a key exactly in KeyGenerated and is zeroed when empty
(45_keyexchange.md R137); and each channel fits its phase. -/
structure Inv (s : State) : Prop where
  memory : s.dmem.wf = true
  memoryBound : ∀ e ∈ s.dmem, e.1 < 65536
  errCode : s.err ≠ .cancelled
  busyNotDone : s.latch.pending = true → s.doneFlag = false
  keyPhase : s.slotTag.isSome = true ↔ s.kxPhase = .keyGenerated
  keyZeroed : s.slotTag = none → s.slotPriv = 0
  channels : ∀ c, ChannelInv (s.channel c)
  apart : (ActiveChannel s .zero ∧ ActiveChannel s .one) → ¬SharesByte s.ch0.resultRange s.ch1.resultRange

/-- A state that some run reaches from the hardware reset, the script of turns and draws being any
(70_reset_and_hazards.md R177: a reset starts every run). -/
inductive Reachable : State → Prop
  | start (turns : List Turn) (draws : List (List Nat)) : Reachable { State.reset with turns := turns, draws := draws }
  | next (s t : State) : Reachable s → step s = .next t → Reachable t

/-- A channel whose run is k ops into the run that SCRYPT_START began on these inputs (42_scrypt.md R86). -/
def RunAt (ch : Channel) (password salt : Bytes) (n r p dkLen dst k events : Nat) : Prop :=
  ch.run = { scryptOps k (startedChannel password salt n r p dkLen dst).run with events := events }

end Sys2Proof.Machine
end

