-- ==== Sys2Proof/Certificates/Slice0/Obligations.lean ====
section
/-! DEFINITION. The statements about the DCCB that are to be proved. Each docstring names the rules of spec/ that the
statement formalises. `Fails`, `Answers`, `Stores`, `MovesChannel`, `MovesSlot` and `StoresAndMovesSlot`
(Sys2Proof/Safety.lean) say that `exec` answers a next state, what the completion wrote there, and that
every other register, the slot, the channels and every other byte of DMEM are as before.

The fields `turns`, `clock`, `draws`, `drawCount` and `readData` are the model's own. What a statement says of them
(an unchanged script of turns, one list of draws used up by a command step) is the model's choice, log entries
1, 2, 3 and 5, and no rule of the spec. -/

open Sys2Proof Sys2Proof.Machine

/-! ### Encoding -/

/-- R55 to R58: decoding the encoded word of any command gives the command, fields and all. -/
def Obligations.DecodeOfEncodeGivesCommand : Prop :=
  ∀ i : Instr, decodeWord (encode i) = some i ∧ decodeTableWord 32 (encode i).toNat = some i

/-- R58: a word is a command exactly when it matches a row of the opcode map, and then it is the encoding of
the command it decodes to. -/
def Obligations.DecodedWordMatchesOpcodeRow : Prop :=
  ∀ w : Word, ((decodeWord w).isSome = true ↔ ∃ r ∈ opcodeTable, w &&& r.mask = r.value)
    ∧ ∀ i, decodeWord w = some i → encode i = w ∧ w &&& (rowOf i).mask = (rowOf i).value

/-- R60: which commands are illegal, and that an illegal one completes with ERR_ILLEGAL, reads no operand and
writes nothing but the result registers and STATUS. -/
def Obligations.IllegalCommandCompletesWithErrIllegal : Prop :=
  (∀ f : Fields, instrOf f = none ↔ IllegalFields f)
    ∧ ∀ s : State, s.latch.pending = true → IllegalFields s.latch.f →
      ∃ t, commandTurn s = .next t ∧ Completed s t .illegal {} ∧ SameRegisters s t ∧ SameSlot s t ∧ SameChannels s t
        ∧ t.dmem = s.dmem

/-- Words that the spec writes out decode to their commands (R60, R88, R109, R123, R139, R148). -/
def Obligations.SpecWordsDecode : Prop :=
  decodeWord 0x00000000 = some .nop ∧ decodeWord 0x01000000 = none
    ∧ decodeWord 0x00020006 = some (.scryptStart .one) ∧ decodeWord 0x00000109 = some (.cipherEnc 1 0 0)
    ∧ decodeWord 0x0700000D = some (.envEnc 0 0 7) ∧ decodeWord 0x0900000F = some (.kxGenerate 9)
    ∧ decodeWord 0x00000016 = none

/-! ### Steps -/

/-- R33, R151, R173: with a command pending, the command unit's step is the execution of the decoded command, and the
turn is used up; the same from the state that `withFetchWord` makes of any state; and a CMD write while BUSY = 0,
then the command unit's step, executes the command on the argument registers of the moment of the write. The script of
turns and `withFetchWord` are the model's choice (log entries 1 and 4). -/
def Obligations.StepExecutesDecodedCommand : Prop :=
  (∀ (s : State) (i : Instr) (w : Word) (rest : List Turn), s.turns = .commandUnit :: rest → s.latch.pending = true →
      s.latch.f = decodeFields w → decodeWord w = some i → step s = exec i { s with turns := rest })
    ∧ (∀ (s : State) (i : Instr) (w : Word), decodeWord w = some i →
      step (s.withFetchWord 32 w.toNat)
        = exec i { s with cmd := w, latch := { pending := true, f := decodeFields w, a := s.args }, doneFlag := false })
    ∧ ∀ (s : State) (i : Instr) (rest : List Turn), s.turns = regWrite .cmd (encode i) :: .commandUnit :: rest →
      s.latch.pending = false →
      ∃ t, step s = .next t ∧ step t = exec i
        { s with
          turns := rest
          cmd := encode i
          latch := { pending := true, f := fieldsOf i, a := s.args }
          doneFlag := false }

/-- R173: a pending command completes in the command unit's step, and a RUNNING channel leaves RUNNING in its own
step, whatever the state. -/
def Obligations.EnabledAgentsMakeProgress : Prop :=
  (∀ s : State, s.latch.pending = true →
      ∃ t, commandTurn s = .next t ∧ t.latch.pending = false ∧ t.doneFlag = true ∧ t.irqStatus.getLsbD 0 = true)
    ∧ ∀ (s : State) (c : ChannelId), (s.channel c).phase = .running →
      ∃ t, channelTurn c s = .next t
        ∧ ((t.channel c).phase = .waitAck ∨ (t.channel c).phase = .done ∨ (t.channel c).phase = .cancelled)

/-! ### Host accesses -/

/-- R151: a CMD write is dropped with CMD_OVR while BUSY = 1; otherwise the word and the argument registers go to
the latch, BUSY becomes 1 and DONE 0, and nothing else changes. -/
def Obligations.CmdWriteIssuesOrIsDropped : Prop :=
  ∀ (s : State) (w : Word), hostAccess 0x00C .word (.write w) s = .next
    (if s.latch.pending = true then { s with cmdOvr := true }
    else
      { s with
        cmd := w
        latch :=
          { pending := true
            f :=
              { op := w.extractLsb' 0 8, alg := w.extractLsb' 8 3, mode := w.extractLsb' 11 3, pad := w.extractLsb' 14 3,
                ch := w.extractLsb' 17 1, rsv := w.extractLsb' 18 6, sel := w.extractLsb' 24 8 }
            a := s.args }
        doneFlag := false })

/-- R152: a CTRL write with SRST = 1 is the soft reset and nothing else in v acts; otherwise IE is written, and
CLRERR = 1 clears CMD_OVR and BUSERR. SRST and CLRERR always read 0: CTRL reads as IE in bit 1. That the soft reset leaves
the model's own fields is the model's choice (log entry 2). -/
def Obligations.CtrlWriteResetsOrSetsEnable : Prop :=
  (∀ (s : State) (v : Word), hostAccess 0x004 .word (.write v) s = .next
    (if v.getLsbD 0 = true then
      { State.reset with
        turns := s.turns, clock := s.clock, draws := s.draws, drawCount := s.drawCount, readData := s.readData }
    else if v.getLsbD 2 = true then { s with ie := v.getLsbD 1, cmdOvr := false, busErr := false }
    else { s with ie := v.getLsbD 1 }))
    ∧ ∀ s : State, ∃ u, hostAccess 0x004 .word .read s = .next u ∧ u.readData.toNat = 2 * s.ie.toNat

/-- R153: an IRQ_STATUS write clears exactly the bits written as 1; it changes nothing else, so it acknowledges no
channel. -/
def Obligations.IrqStatusWriteClearsOnes : Prop :=
  ∀ (s : State) (v : Word), ∃ b : BitVec 3, hostAccess 0x010 .word (.write v) s = .next { s with irqStatus := b }
    ∧ ∀ i, i < 3 → b.getLsbD i = if v.getLsbD i = true then false else s.irqStatus.getLsbD i

/-- R149, R18 to R29: a host read of a listed register returns its value and changes nothing else. Each offset of the
register map shows the field of the state that the map names, and the words of CTRL, STATUS, KX_STATE and SC_STATE
have their fields where the tables put them. -/
def Obligations.RegisterReadsReturnTheirFields : Prop :=
  (∀ (s : State) (r : Reg), hostAccess r.offset .word .read s = .next { s with readData := s.readReg r })
    ∧ (∀ s : State, ∀ e ∈
        [(0x000, (0x44430007 : Word)), (0x004, ctrlWord s), (0x008, statusWord s), (0x00C, s.cmd),
          (0x010, s.irqStatus.setWidth 32), (0x014, s.irqEnable.setWidth 32), (0x020, s.args.aOff), (0x024, s.args.aLen),
          (0x028, s.args.bOff), (0x02C, s.args.bLen), (0x030, s.args.cOff), (0x034, s.args.cLen), (0x038, s.args.dstOff),
          (0x03C, s.args.dstCap), (0x040, s.args.param0), (0x044, s.args.param1), (0x048, s.args.param2),
          (0x04C, s.args.param3), (0x050, s.results.outLen), (0x054, s.results.out0), (0x058, s.results.out1),
          (0x05C, s.results.out2), (0x060, s.results.out3), (0x064, s.results.out4), (0x080, kxStateWord s),
          (0x100, scStateWord s.ch0), (0x104, s.ch0.doneOps), (0x108, s.ch0.totalOps), (0x10C, s.ch0.eventsReg),
          (0x110, s.ch0.dstOffReg), (0x114, s.ch0.dkLenReg), (0x120, scStateWord s.ch1), (0x124, s.ch1.doneOps),
          (0x128, s.ch1.totalOps), (0x12C, s.ch1.eventsReg), (0x130, s.ch1.dstOffReg), (0x134, s.ch1.dkLenReg)],
        hostAccess e.1 .word .read s = .next { s with readData := e.2 })
    ∧ (∀ s : State, (ctrlWord s).toNat = 2 * s.ie.toNat
        ∧ (statusWord s).toNat
            = s.latch.pending.toNat + 2 * s.doneFlag.toNat + 4 * s.cmdOvr.toNat + 8 * s.busErr.toNat
              + 256 * s.err.toByte.toNat
        ∧ (kxStateWord s).toNat
            = s.kxPhase.code.toNat + 256 * (match s.slotTag with | none => 0xFF | some t => (tagCode t).toNat))
    ∧ ∀ ch : Channel,
        (scStateWord ch).toNat = ch.phase.code.toNat + 8 * ch.cancelReqBit.toNat + 256 * ch.scErr.toByte.toNat

/-- R150: writes to the read-only registers are ignored; a write to an argument register replaces that register
alone, whether or not BUSY = 1, and the latch keeps its copy; IRQ_ENABLE takes bits 2:0. -/
def Obligations.RegisterWritesReachOnlyTheirRegister : Prop :=
  (∀ (s : State) (v : Word) (r : Reg),
      (r ∈ [Reg.id, .status, .outLen, .out0, .out1, .out2, .out3, .out4, .kxState] ∨ ∃ c b, r = .sc c b) →
      hostAccess r.offset .word (.write v) s = .next s)
    ∧ (∀ (s : State) (v : Word) (r : ArgReg), ∃ args : Args,
        hostAccess (Reg.arg r).offset .word (.write v) s = .next { s with args := args }
          ∧ ∀ q : ArgReg, args.get q = if q = r then v else s.args.get q)
    ∧ ∀ (s : State) (v : Word), ∃ b : BitVec 3,
        hostAccess 0x014 .word (.write v) s = .next { s with irqEnable := b } ∧ b.toNat = v.toNat % 8

/-- R39, R40: an aligned host write of width w to the DMEM window while BUSY = 0 stores the low w bytes of the value
little-endian and changes nothing else; a host read of it then returns that value zero-extended. -/
def Obligations.DmemWindowIsLittleEndian : Prop :=
  ∀ (s : State) (i : Nat) (w : Width) (v : Word), s.dmem.wf = true → s.latch.pending = false →
    i % widthBytes w = 0 → i + widthBytes w ≤ 65536 →
    ∃ t, hostAccess (0x1000 + i) w (.write v) s = .next t
      ∧ t = { s with dmem := t.dmem }
      ∧ (∀ a, t.dmem.read a
          = if i ≤ a ∧ a < i + widthBytes w then BitVec.ofNat 8 (v.toNat / 256 ^ (a - i)) else s.dmem.read a)
      ∧ ∃ u, hostAccess (0x1000 + i) w .read t = .next u ∧ u = { t with readData := u.readData }
        ∧ u.readData.toNat = v.toNat % 256 ^ widthBytes w

/-- R41, R42, R150: an access of the window that is misaligned for its width, one outside the DMEM window that is not 4
bytes wide, and a DMEM window access while BUSY = 1 is refused: a write changes nothing, a read returns 0, and BUSERR
becomes 1. That this holds at reserved offsets and past the end of DMEM too is DEDUCED (log entries 7 and 8). -/
def Obligations.RefusedAccessSetsBusErr : Prop :=
  ∀ (s : State) (o : Nat) (w : Width) (op : BusOp), o < 131072 →
    (o % widthBytes w ≠ 0 ∨ (¬(0x1000 ≤ o ∧ o < 0x1000 + 65536) ∧ w ≠ .word)
      ∨ (0x1000 ≤ o ∧ o < 0x1000 + 65536 ∧ s.latch.pending = true)) →
    hostAccess o w op s = .next
      (match op with
        | .read => { s with busErr := true, readData := 0 }
        | .write _ => { s with busErr := true })

/-- R30: an aligned 4-byte access to an offset of the window that the register map does not list reads 0, ignores
writes and sets no BUSERR. -/
def Obligations.ReservedOffsetsReadZero : Prop :=
  ∀ (s : State) (o : Nat) (op : BusOp), o < 131072 → o % 4 = 0 → (∀ r : Reg, o ≠ r.offset) →
    ¬(0x1000 ≤ o ∧ o < 0x1000 + 65536) →
    hostAccess o .word op s = .next
      (match op with
        | .read => { s with readData := 0 }
        | .write _ => s)

/-! ### Reset and the interrupt line -/

/-- R178, R179: after a hardware reset, and after a CTRL write with SRST = 1 in any state, every register reads its
reset value, every DMEM byte is 0, the latch, the slot and the channels are empty, and the line is low. -/
def Obligations.ResetLeavesSpecifiedValues : Prop :=
  ∀ u : State, (u = State.reset ∨ ∃ (s : State) (v : Word), v.getLsbD 0 = true ∧ hostAccess 0x004 .word (.write v) s = .next u) →
    (∀ r : Reg, u.readReg r = match r with | .id => 0x44430007 | .kxState => 0x0000FF00 | _ => 0)
      ∧ (∀ a, u.dmem.read a = 0) ∧ u.latch = {} ∧ u.slotTag = none ∧ u.slotPriv = 0 ∧ u.ch0.run = {} ∧ u.ch1.run = {}
      ∧ u.irq = false

/-- R164, R165: the line is high exactly while IE = 1 and some source is both pending in IRQ_STATUS and enabled in
IRQ_ENABLE. A completing command raises it when its source is enabled, and leaves it as it was otherwise; an event of a
channel does the same for its own source. -/
def Obligations.CompletionAndEventsRaiseTheLine : Prop :=
  (∀ s : State, s.irq = true ↔ s.ie = true ∧ ∃ i < 3, s.irqStatus.getLsbD i = true ∧ s.irqEnable.getLsbD i = true)
    ∧ (∀ (i : Instr) (s t : State), exec i s = .next t →
      t.irq = (s.irq || (s.ie && s.irqEnable.getLsbD 0)))
    ∧ ∀ (s t : State) (c : ChannelId), (s.channel c).phase = .running → channelTurn c s = .next t →
      t.irq = (s.irq || (s.ie && s.irqEnable.getLsbD (match c with | .zero => 1 | .one => 2)))

/-! ### Commands: results and frames -/

/-- R148: NOP completes with all result registers 0 and changes nothing else, in every state. -/
def Obligations.NopOnlyCompletes : Prop := ∀ s : State, Answers .nop s {}

/-- R70, R66, R67: PAD stores the message followed by the N = B − (len mod B) padding bytes of the scheme. -/
def Obligations.PadAppendsSchemePadding : Prop :=
  ∀ (s : State) (code : BitVec 3) (b n : Nat) (m tail : Bytes),
    s.dmem.wf = true → OperandsOk s [s.latch.a.a] → s.latch.a.param0.toNat = 8 * b → 1 ≤ b → b ≤ 255 →
    m = s.operand s.latch.a.a → n = b - m.length % b → m.length + n ≤ s.latch.a.dstCap.toNat →
    (code = 0 ∧ tail = List.replicate n (BitVec.ofNat 8 n)
      ∨ code = 1 ∧ tail = zeroBytes (n - 1) ++ [BitVec.ofNat 8 n]
      ∨ code = 2 ∧ tail = s.drawBytes 0 (n - 1) ++ [BitVec.ofNat 8 n]
      ∨ code = 3 ∧ tail = 0x80 :: zeroBytes (n - 1)) →
    Stores (.pad code) s (m ++ tail) {}

/-- R71, R68, R45: UNPAD stores the message m when the input is m followed by a pad whose length byte, or whose marker
and zero bytes, the scheme accepts; when m is longer than DST_CAP it fails with ERR_CAPACITY. -/
def Obligations.UnpadRemovesPadding : Prop :=
  ∀ (s : State) (code : BitVec 3) (b : Nat) (m tail : Bytes),
    s.dmem.wf = true → OperandsOk s [s.latch.a.a] → s.latch.a.param0.toNat = 8 * b → 1 ≤ b → b ≤ 255 →
    s.operand s.latch.a.a = m ++ tail →
    (code.toNat ≤ 2 ∧ (∃ fill : Bytes, ∃ n : Byte, tail = fill ++ [n] ∧ n.toNat = fill.length + 1 ∧ n.toNat ≤ b)
      ∨ code = 3 ∧ (∃ k, tail = 0x80 :: zeroBytes k)) →
    (m.length ≤ s.latch.a.dstCap.toNat → Stores (.unpad code) s m {})
      ∧ (s.latch.a.dstCap.toNat < m.length → Fails (.unpad code) s .capacity)

/-- R71, R68: UNPAD fails with ERR_PADDING on an empty input, on a length byte that is 0, above B or above the
input's length, and for ISO97971 on an input whose last nonzero byte is not the marker 0x80, or that has none. -/
def Obligations.UnpadRefusesMalformedPadding : Prop :=
  ∀ (s : State) (code : BitVec 3) (b : Nat) (x : Bytes),
    OperandsOk s [s.latch.a.a] → s.latch.a.param0.toNat = 8 * b → 1 ≤ b → b ≤ 255 → x = s.operand s.latch.a.a →
    (code.toNat ≤ 2 ∧ (x = [] ∨ ∃ rest : Bytes, ∃ n : Byte, x = rest ++ [n] ∧ (n = 0 ∨ b < n.toNat ∨ x.length < n.toNat))
      ∨ code = 3 ∧ ((∃ k, x = zeroBytes k) ∨ ∃ rest : Bytes, ∃ v : Byte, ∃ k, x = rest ++ v :: zeroBytes k ∧ v ≠ 0 ∧ v ≠ 0x80)) →
    Fails (.unpad code) s .padding

/-- R77, R76: KEYFIT stores a key of exactly S bytes unchanged, and otherwise the S-byte hash of it, SHA-256 for
S = 32. -/
def Obligations.KeyfitStoresFittedKey : Prop :=
  ∀ (s : State) (size : Nat) (k y : Bytes),
    s.dmem.wf = true → OperandsOk s [s.latch.a.a] → s.latch.a.param0.toNat = size → size ∈ [8, 16, 20, 24, 32, 64] →
    size ≤ s.latch.a.dstCap.toNat → k = s.operand s.latch.a.a →
    y = (if k.length = size then k else if size = 32 then hash .sha256 k else beBytes size (Config.keyfitHash size k).toNat) →
    y.length = size ∧ Stores .keyfit s y {}

/-- R78, R73: HASH stores the digest of the message under the hash of the ALG code, hLen bytes. -/
def Obligations.HashStoresDigest : Prop :=
  ∀ (s : State) (code : BitVec 3) (alg : HashAlg) (len : Nat),
    s.dmem.wf = true → OperandsOk s [s.latch.a.a] →
    ((code = 0 ∧ alg = .sha256 ∧ len = 32) ∨ (code = 1 ∧ alg = .sha512 ∧ len = 64)
      ∨ (code = 2 ∧ alg = .whirlpool ∧ len = 64)) →
    len ≤ s.latch.a.dstCap.toNat →
    (hash alg (s.operand s.latch.a.a)).length = len ∧ Stores (.hash code) s (hash alg (s.operand s.latch.a.a)) {}

/-- R79, R75: STRETCH stores PBKDF2 of the password and the salt, exactly the asked number of bytes. -/
def Obligations.StretchStoresDerivedBytes : Prop :=
  ∀ (s : State) (code : BitVec 3) (alg : HashAlg),
    s.dmem.wf = true → OperandsOk s [s.latch.a.a, s.latch.a.b] →
    ((code = 0 ∧ alg = .sha256) ∨ (code = 1 ∧ alg = .sha512) ∨ (code = 2 ∧ alg = .whirlpool)) →
    1 ≤ s.latch.a.param0.toNat → 1 ≤ s.latch.a.param1.toNat → s.latch.a.param1.toNat ≤ s.latch.a.dstCap.toNat →
    (pbkdf2 alg (s.operand s.latch.a.a) (s.operand s.latch.a.b) s.latch.a.param0.toNat s.latch.a.param1.toNat).length
        = s.latch.a.param1.toNat
      ∧ Stores (.stretch code) s
        (pbkdf2 alg (s.operand s.latch.a.a) (s.operand s.latch.a.b) s.latch.a.param0.toNat s.latch.a.param1.toNat) {}

/-- R88, R85, R45: SCRYPT_START with parameters in their ranges, on a channel that is not RUNNING or WAIT_ACK, takes the
inputs into the channel, zeroes its counts and makes it RUNNING; it stores nothing. A capacity below dkLen fails with
ERR_CAPACITY. -/
def Obligations.ScryptStartBeginsRun : Prop :=
  ∀ (s : State) (c : ChannelId) (n r p dkLen : Nat),
    n = s.latch.a.param0.toNat → r = s.latch.a.param1.toNat → p = s.latch.a.param2.toNat → dkLen = s.latch.a.param3.toNat →
    (∃ k, 1 ≤ k ∧ n = 2 ^ k) → 1 ≤ dkLen → dkLen ≤ 65535 → 1 ≤ r → 1 ≤ p → r * p < 2 ^ 30 → 2 * n * p < 2 ^ 32 →
    128 * r * n ≤ 8388608 → 128 * r * p ≤ 8388608 → ¬ActiveChannel s c →
    InsideDmem [s.latch.a.a, s.latch.a.b, s.latch.a.dst] →
    (ActiveChannel s (otherChannel c) →
      ¬SharesByte ⟨s.latch.a.dstOff.toNat, dkLen⟩ (s.channel (otherChannel c)).resultRange) →
    (s.latch.a.dstCap.toNat < dkLen → Fails (.scryptStart c) s .capacity) ∧ (dkLen ≤ s.latch.a.dstCap.toNat →
    MovesChannel (.scryptStart c) s c
      { phase := .running
        cancelReqBit := false
        scErr := .ok
        doneOps := 0
        totalOps := BitVec.ofNat 32 (2 * n * p)
        eventsReg := 0
        dstOffReg := s.latch.a.dstOff
        dkLenReg := s.latch.a.param3
        run :=
          { cancelReq := false
            password := s.operand s.latch.a.a
            salt := s.operand s.latch.a.b
            n := n
            r := r
            p := p
            dkLen := dkLen
            dst := s.latch.a.dstOff.toNat
            blocks :=
              splitBlocks (128 * r) p (pbkdf2 .sha256 (s.operand s.latch.a.a) (s.operand s.latch.a.b) 1 (p * 128 * r))
            x := []
            v := []
            done := 0
            events := 0 } })

/-- R90, R91: SCRYPT_ACK moves a channel from WAIT_ACK to RUNNING and changes nothing else; SCRYPT_CANCEL on a channel
in RUNNING or WAIT_ACK sets its cancel request, hidden and shown, and leaves it RUNNING. In any other phase each
fails with ERR_STATE. -/
def Obligations.ScryptAckAndCancelAnswerEvents : Prop :=
  ∀ (s : State) (c : ChannelId),
    ((s.channel c).phase = .waitAck → MovesChannel (.scryptAck c) s c { s.channel c with phase := .running })
      ∧ ((s.channel c).phase ≠ .waitAck → Fails (.scryptAck c) s .state)
      ∧ (ActiveChannel s c →
        MovesChannel (.scryptCancel c) s c
          { s.channel c with
            phase := .running
            cancelReqBit := true
            run := { (s.channel c).run with cancelReq := true } })
      ∧ (¬ActiveChannel s c → Fails (.scryptCancel c) s .state)

/-- R109, R105 to R107: CIPHER_ENC stores salt ‖ ModeEnc of the padded plaintext, under the IV and KEY that the
Stretch-KDF derives from the fitted key and the salt; the salt is C, its 8-byte hash, or drawn. -/
def Obligations.CipherEncStoresLayer : Prop :=
  ∀ (s : State) (acode mcode pcode : BitVec 3) (alg : Cipher) (mode : Mode) (scheme : Scheme) (p k c salt m y : Bytes)
    (rounds draws : Nat),
    s.dmem.wf = true → cipherOfNat acode.toNat = some alg → modeOfCode mcode = some mode → schemeOfCode pcode = some scheme →
    OperandsOk s [s.latch.a.a, s.latch.a.b, s.latch.a.c] →
    p = s.operand s.latch.a.a → k = s.operand s.latch.a.b → c = s.operand s.latch.a.c →
    rounds = (if s.latch.a.param0 = 0 then 1000 else s.latch.a.param0.toNat) →
    ((c.length = 0 ∧ salt = s.drawBytes 0 8 ∧ draws = 8) ∨ (c.length = 8 ∧ salt = c ∧ draws = 0)
      ∨ (c.length ≠ 0 ∧ c.length ≠ 8 ∧ salt = beBytes 8 (Config.keyfitHash 8 c).toNat ∧ draws = 0)) →
    m = pbkdf2 Config.stretchHash (keyfit k (cipherKeyBytes alg)) salt rounds (cipherBlockBytes alg + cipherKeyBytes alg) →
    y = salt ++ modeEncrypt alg mode (m.drop (cipherBlockBytes alg)) (m.take (cipherBlockBytes alg))
      (padBytes scheme (cipherBlockBytes alg) (fun i => s.drawByte (draws + i)) p) →
    y.length ≤ s.latch.a.dstCap.toNat →
    y.length = 8 + p.length + padLen (cipherBlockBytes alg) p.length ∧ Stores (.cipherEnc acode mcode pcode) s y {}

/-- R110, R108, R45: CIPHER_DEC stores what the layer's decryption gives, and fails with ERR_CAPACITY when that is longer
than DST_CAP. It fails with ERR_LENGTH on a ciphertext shorter than 8 + bB or not block-aligned, and with ERR_PADDING
when UNPAD refuses the decrypted blocks. -/
def Obligations.CipherDecStoresPlaintext : Prop :=
  ∀ (s : State) (acode mcode pcode : BitVec 3) (alg : Cipher) (mode : Mode) (scheme : Scheme) (x k m : Bytes) (rounds : Nat),
    s.dmem.wf = true → cipherOfNat acode.toNat = some alg → modeOfCode mcode = some mode → schemeOfCode pcode = some scheme →
    OperandsOk s [s.latch.a.a, s.latch.a.b] → x = s.operand s.latch.a.a → k = s.operand s.latch.a.b →
    rounds = (if s.latch.a.param0 = 0 then 1000 else s.latch.a.param0.toNat) →
    m = pbkdf2 Config.stretchHash (keyfit k (cipherKeyBytes alg)) (x.take 8) rounds
      (cipherBlockBytes alg + cipherKeyBytes alg) →
    ((x.length < 8 + cipherBlockBytes alg ∨ (x.length - 8) % cipherBlockBytes alg ≠ 0) →
        Fails (.cipherDec acode mcode pcode) s .length)
      ∧ (8 + cipherBlockBytes alg ≤ x.length → (x.length - 8) % cipherBlockBytes alg = 0 →
          ∀ padded : Bytes, padded
              = modeDecrypt alg mode (m.drop (cipherBlockBytes alg)) (m.take (cipherBlockBytes alg)) (x.drop 8) →
            (∀ e, unpadBytes false scheme (cipherBlockBytes alg) padded = .error e →
                Fails (.cipherDec acode mcode pcode) s .padding)
              ∧ ∀ y, unpadBytes false scheme (cipherBlockBytes alg) padded = .ok y →
                (y.length ≤ s.latch.a.dstCap.toNat → Stores (.cipherDec acode mcode pcode) s y {})
                  ∧ (s.latch.a.dstCap.toNat < y.length → Fails (.cipherDec acode mcode pcode) s .capacity))

/-- R119, R117: MAC_GEN stores the 32-byte MAC of the message under the key. -/
def Obligations.MacGenStoresTag : Prop :=
  ∀ s : State, s.dmem.wf = true → OperandsOk s [s.latch.a.a, s.latch.a.b] → 32 ≤ s.latch.a.dstCap.toNat →
    (mac (s.operand s.latch.a.b) (s.operand s.latch.a.a)).length = 32
      ∧ Stores .macGen s (mac (s.operand s.latch.a.b) (s.operand s.latch.a.a)) {}

/-- R120, R118: MAC_VERIFY answers OUT0 = 1 exactly when all 32 bytes of the tag are the MAC's, and fails with
ERR_AUTH_FAIL when any byte differs; a tag of another length is ERR_CONFIG. -/
def Obligations.MacVerifyComparesWholeTag : Prop :=
  (∀ s : State, s.latch.a.cLen ≠ 32 → Fails .macVerify s .config)
    ∧ ∀ s : State, s.latch.a.cLen = 32 → InsideDmem [s.latch.a.a, s.latch.a.b, s.latch.a.c] →
      (s.operand s.latch.a.c = mac (s.operand s.latch.a.b) (s.operand s.latch.a.a) → Answers .macVerify s { out0 := 1 })
        ∧ (s.operand s.latch.a.c ≠ mac (s.operand s.latch.a.b) (s.operand s.latch.a.a) → Fails .macVerify s .authFail)

/-- R123, R122: ENV_ENC encrypts with the primary cipher, then with the secondary one, and stores the MAC of the
second layer under both keys, followed by that layer; the draws are s1, layer 1's fill, s2, layer 2's fill. -/
def Obligations.EnvEncStoresEnvelope : Prop :=
  ∀ (s : State) (mcode pcode : BitVec 3) (sel : BitVec 8) (primary secondary : Cipher) (mode : Mode) (scheme : Scheme)
    (p k1 k2 s1 s2 l1 l2 : Bytes) (fill : Nat),
    s.dmem.wf = true → sel.toNat ≤ 24 → cipherOfNat (sel.toNat % 5) = some primary →
    cipherOfNat (sel.toNat / 5) = some secondary → modeOfCode mcode = some mode → schemeOfCode pcode = some scheme →
    OperandsOk s [s.latch.a.a, s.latch.a.b, s.latch.a.c] →
    p = s.operand s.latch.a.a → k1 = s.operand s.latch.a.b → k2 = s.operand s.latch.a.c →
    fill = (if scheme = .iso10126 then padLen (cipherBlockBytes primary) p.length - 1 else 0) →
    s1 = s.drawBytes 0 8 → s2 = s.drawBytes (8 + fill) 8 →
    l1 = codecEncrypt Config.stretchHash primary mode scheme (fun i => s.drawByte (8 + i)) p k1 s1 1000 →
    l2 = codecEncrypt Config.stretchHash secondary mode scheme (fun i => s.drawByte (16 + fill + i)) l1 k2 s2 1000 →
    32 + l2.length ≤ s.latch.a.dstCap.toNat →
    Stores (.envEnc mcode pcode sel) s (mac (k1 ++ k2) l2 ++ l2)
      { out0 := BitVec.ofNat 32 (sel.toNat % 5), out1 := BitVec.ofNat 32 (sel.toNat / 5) }

/-- R124, R45: ENV_DEC stores the plaintext when the envelope's MAC is right and both layers decrypt, and fails with
ERR_CAPACITY when that plaintext is longer than DST_CAP. -/
def Obligations.EnvDecStoresPlaintext : Prop :=
  ∀ (s : State) (mcode pcode : BitVec 3) (sel : BitVec 8) (primary secondary : Cipher) (mode : Mode) (scheme : Scheme)
    (w k1 k2 l1 p : Bytes),
    s.dmem.wf = true → sel.toNat ≤ 24 → cipherOfNat (sel.toNat % 5) = some primary →
    cipherOfNat (sel.toNat / 5) = some secondary → modeOfCode mcode = some mode → schemeOfCode pcode = some scheme →
    OperandsOk s [s.latch.a.a, s.latch.a.b, s.latch.a.c] →
    w = s.operand s.latch.a.a → k1 = s.operand s.latch.a.b → k2 = s.operand s.latch.a.c →
    40 ≤ w.length → w.take 32 = mac (k1 ++ k2) (w.drop 32) →
    codecDecrypt Config.stretchHash false secondary mode scheme (w.drop 32) k2 1000 = .ok l1 →
    codecDecrypt Config.stretchHash false primary mode scheme l1 k1 1000 = .ok p →
    (p.length ≤ s.latch.a.dstCap.toNat → Stores (.envDec mcode pcode sel) s p
        { out0 := BitVec.ofNat 32 (sel.toNat % 5), out1 := BitVec.ofNat 32 (sel.toNat / 5) })
      ∧ (s.latch.a.dstCap.toNat < p.length → Fails (.envDec mcode pcode sel) s .capacity)

/-- R124: an envelope below 40 bytes fails with ERR_DECRYPT_FAIL; one whose tag is not the MAC of the rest fails with
ERR_AUTH_FAIL, whatever its layers hold; one that is authentic but does not decrypt fails with
ERR_DECRYPT_FAIL. -/
def Obligations.EnvDecRefusesBadEnvelopes : Prop :=
  ∀ (s : State) (mcode pcode : BitVec 3) (sel : BitVec 8) (primary secondary : Cipher) (mode : Mode) (scheme : Scheme)
    (w k1 k2 : Bytes),
    sel.toNat ≤ 24 → cipherOfNat (sel.toNat % 5) = some primary →
    cipherOfNat (sel.toNat / 5) = some secondary → modeOfCode mcode = some mode → schemeOfCode pcode = some scheme →
    OperandsOk s [s.latch.a.a, s.latch.a.b, s.latch.a.c] →
    w = s.operand s.latch.a.a → k1 = s.operand s.latch.a.b → k2 = s.operand s.latch.a.c →
    (w.length < 40 → Fails (.envDec mcode pcode sel) s .decryptFail)
      ∧ (40 ≤ w.length → w.take 32 ≠ mac (k1 ++ k2) (w.drop 32) → Fails (.envDec mcode pcode sel) s .authFail)
      ∧ (40 ≤ w.length → w.take 32 = mac (k1 ++ k2) (w.drop 32) →
          (∀ l1 p, codecDecrypt Config.stretchHash false secondary mode scheme (w.drop 32) k2 1000 = .ok l1 →
            codecDecrypt Config.stretchHash false primary mode scheme l1 k1 1000 ≠ .ok p) →
          Fails (.envDec mcode pcode sel) s .decryptFail)

/-- R139, R134 to R136: KX_GENERATE puts a freshly drawn private key of the tag into the slot, whatever it held, and
stores the key's public key, PUBLEN(t) bytes. Which draws make the key is the model's numbering (log entry 3). An
X25519 key is 32 drawn bytes; a DH key is drawn from 2 .. p − 2 and an ECDH key from 1 .. n − 1, and it lies there:
the group and the curve obey the laws of R7, R127, R129, R131, R135 and R157 (what g generates: log entry 15). -/
def Obligations.KxGenerateFillsSlot : Prop :=
  ∀ (s : State) (sel : BitVec 8) (t : Tag) (priv : Nat),
    s.dmem.wf = true → tagOfNat sel.toNat = some t → OperandsOk s [] → pubLen t ≤ s.latch.a.dstCap.toNat →
    (match tagAlgorithm t with
      | .dh b => priv = s.drawInt 0 2 ((Config.dhGroup b).p - 2)
      | .x25519 => priv = leNat (s.drawBytes 0 32)
      | .prime b => priv = s.drawInt 0 1 ((Config.primeCurve b).n - 1)
      | .binary b => priv = s.drawInt 0 1 ((Config.binaryCurve b).n - 1)) →
    (publicKey t priv).length = pubLen t
      ∧ StoresAndMovesSlot (.kxGenerate sel) s (publicKey t priv) { out0 := sel.setWidth 32 } .keyGenerated (some t) priv
      ∧ (match tagAlgorithm t with
        | .dh b => (Config.dhGroup b).Lawful b ∧ 2 ≤ priv ∧ priv ≤ (Config.dhGroup b).p - 2
        | .x25519 => priv < 2 ^ 256
        | .prime b => (Config.primeCurve b).Lawful b ∧ 1 ≤ priv ∧ priv ≤ (Config.primeCurve b).n - 1
        | .binary b => (Config.binaryCurve b).Lawful b ∧ 1 ≤ priv ∧ priv ≤ (Config.binaryCurve b).n - 1)

/-- R140: KX_SERIALIZE stores [t] ‖ [n] ‖ salt ‖ key with a drawn salt of drawn length n in 16 .. 31; a key that is not
PUBLEN(t) bytes long fails with ERR_LENGTH. -/
def Obligations.KxSerializeStoresBlob : Prop :=
  ∀ (s : State) (sel : BitVec 8) (t : Tag) (n : Nat),
    s.dmem.wf = true → tagOfNat sel.toNat = some t → OperandsOk s [s.latch.a.a] → n = s.drawInt 0 16 31 →
    16 ≤ n ∧ n ≤ 31
      ∧ (s.latch.a.aLen.toNat ≠ pubLen t → Fails (.kxSerialize sel) s .length)
      ∧ (s.latch.a.aLen.toNat = pubLen t → 2 + n + pubLen t ≤ s.latch.a.dstCap.toNat →
          Stores (.kxSerialize sel) s (sel :: BitVec.ofNat 8 n :: (s.drawBytes 1 n ++ s.operand s.latch.a.a))
            { out0 := BitVec.ofNat 32 n, out1 := BitVec.ofNat 32 (s.latch.a.dstOff.toNat + 2) })

/-- R141: KX_PARSE of [t] ‖ [n] ‖ salt ‖ key with t ≤ 13, 16 ≤ n ≤ 32 and PUBLEN(t) key bytes answers the tag and the
places and lengths of salt and key; every other string fails with ERR_BAD_BLOB. -/
def Obligations.KxParseLocatesSaltAndKey : Prop :=
  (∀ (s : State) (t : Tag) (tb n : Byte) (salt key : Bytes), InsideDmem [s.latch.a.a] →
      s.operand s.latch.a.a = tb :: n :: (salt ++ key) → tagOfNat tb.toNat = some t → 16 ≤ n.toNat → n.toNat ≤ 32 →
      salt.length = n.toNat → key.length = pubLen t →
      Answers .kxParse s
        { out0 := BitVec.ofNat 32 tb.toNat
          out1 := BitVec.ofNat 32 (s.latch.a.aOff.toNat + 2)
          out2 := BitVec.ofNat 32 n.toNat
          out3 := BitVec.ofNat 32 (s.latch.a.aOff.toNat + 2 + n.toNat)
          out4 := BitVec.ofNat 32 (pubLen t) })
    ∧ ∀ s : State, InsideDmem [s.latch.a.a] →
      (¬∃ (t : Tag) (tb n : Byte) (salt key : Bytes), s.operand s.latch.a.a = tb :: n :: (salt ++ key)
        ∧ tagOfNat tb.toNat = some t ∧ 16 ≤ n.toNat ∧ n.toNat ≤ 32 ∧ salt.length = n.toNat ∧ key.length = pubLen t) →
      Fails .kxParse s .badBlob

/-- R142: KX_COMPUTE with a live key stores the shared secret and empties and zeroes the slot; a refused public value
fails with ERR_KX_FAIL and keeps the key; an empty slot is ERR_KX_NOKEY. -/
def Obligations.KxComputeStoresSecretOnce : Prop :=
  (∀ s : State, s.slotTag = none → Fails .kxCompute s .kxNoKey)
    ∧ ∀ (s : State) (t : Tag), s.slotTag = some t → OperandsOk s [s.latch.a.a] →
      (sharedSecret t s.slotPriv (s.operand s.latch.a.a) = none → Fails .kxCompute s .kxFail)
        ∧ ∀ sec : Bytes, sharedSecret t s.slotPriv (s.operand s.latch.a.a) = some sec →
          sec.length = secLen t
            ∧ (s.latch.a.dstCap.toNat < secLen t → Fails .kxCompute s .capacity)
            ∧ (s.dmem.wf = true → secLen t ≤ s.latch.a.dstCap.toNat →
              StoresAndMovesSlot .kxCompute s sec { out0 := BitVec.ofNat 32 (tagCode t).toNat } .secretComputed none 0)

/-- R143, R144: KX_NUKE zeroes and empties the slot in every state, and changes nothing else; KX_APPLIED moves
SecretComputed to PasswordsApplied and changes nothing else, and in any other state it fails with ERR_STATE. -/
def Obligations.KxNukeAndAppliedMoveEngine : Prop :=
  ∀ s : State, MovesSlot .kxNuke s .noKey none 0
    ∧ (s.kxPhase = .secretComputed → MovesSlot .kxApplied s .passwordsApplied s.slotTag s.slotPriv)
    ∧ (s.kxPhase ≠ .secretComputed → Fails .kxApplied s .state)

/-- R145: SALT_ORDER compares the lengths first; for equal lengths the first byte that differs decides, and equal salts
fail with ERR_SALT_TIE. OUT0 = 1 says that the remote salt is primary. -/
def Obligations.SaltOrderPicksLargerSalt : Prop :=
  ∀ (s : State) (l r : Bytes), InsideDmem [s.latch.a.a, s.latch.a.b] →
    l = s.operand s.latch.a.a → r = s.operand s.latch.a.b →
    (l.length < r.length → Answers .saltOrder s { out0 := 1 }) ∧ (r.length < l.length → Answers .saltOrder s { out0 := 0 })
      ∧ (∀ (same restL restR : Bytes) (x y : Byte), l = same ++ x :: restL → r = same ++ y :: restR →
          restL.length = restR.length → x ≠ y → Answers .saltOrder s { out0 := if x.toNat < y.toNat then 1 else 0 })
      ∧ (l = r → Fails .saltOrder s .saltTie)

/-! ### Errors -/

/-- R160: after a failed command the state is as before it, but for ERR, DONE, BUSY, the results, which are 0,
CMD_DONE and `pending`. -/
def Obligations.ErrorsArePrecise : Prop :=
  ∀ (i : Instr) (s t : State), exec i s = .next t → t.err ≠ .ok →
    Completed s t t.err {} ∧ SameRegisters s t ∧ SameSlot s t ∧ SameChannels s t ∧ t.dmem = s.dmem

/-- R161, items 2 to 7: the first failing check gives the code; when none of them fails, only a data-dependent error or
ERR_CAPACITY can follow. The refused values are spelled out: the field codes (R57), the ranges of PARAM (R70, R71,
R77, R79, R85), the memory of a Scrypt run (R85), a busy channel (R88), a descriptor outside DMEM (R43) and a
forbidden overlap (R44). The refusals by SCRYPT_ACK, SCRYPT_CANCEL, KX_COMPUTE, KX_APPLIED and MAC_VERIFY are
spelled out in the statements of those commands. -/
def Obligations.FirstFailingCheckIsReported : Prop :=
  (∀ (i : Instr) (s : State) (e : ErrorCode), firstError i s = some e → Fails i s e)
    ∧ (∀ (i : Instr) (s t : State), firstError i s = none → exec i s = .next t →
      t.err ∈ [ErrorCode.ok, .length, .padding, .badBlob, .kxFail, .saltTie, .authFail, .decryptFail, .capacity])
    ∧ (∀ (s : State) (alg mode pad : BitVec 3) (sel : BitVec 8),
      (3 ≤ alg.toNat → Fails (.hash alg) s .config ∧ Fails (.stretch alg) s .config)
        ∧ (4 ≤ pad.toNat → Fails (.pad pad) s .config ∧ Fails (.unpad pad) s .config)
        ∧ (5 ≤ alg.toNat ∨ 3 ≤ mode.toNat ∨ 4 ≤ pad.toNat →
          Fails (.cipherEnc alg mode pad) s .config ∧ Fails (.cipherDec alg mode pad) s .config)
        ∧ (25 ≤ sel.toNat → Fails (.envEnc mode pad sel) s .badSelector ∧ Fails (.envDec mode pad sel) s .badSelector)
        ∧ (sel.toNat ≤ 24 → 3 ≤ mode.toNat ∨ 4 ≤ pad.toNat →
          Fails (.envEnc mode pad sel) s .config ∧ Fails (.envDec mode pad sel) s .config)
        ∧ (14 ≤ sel.toNat → Fails (.kxGenerate sel) s .config ∧ Fails (.kxSerialize sel) s .config))
    ∧ (∀ (s : State) (code : BitVec 3) (v : Nat), v = s.latch.a.param0.toNat →
      (v % 8 ≠ 0 ∨ v < 8 ∨ 2040 < v → Fails (.pad code) s .config ∧ Fails (.unpad code) s .config)
        ∧ (v ∉ [8, 16, 20, 24, 32, 64] → Fails .keyfit s .config)
        ∧ (v = 0 ∨ s.latch.a.param1 = 0 → Fails (.stretch code) s .config))
    ∧ (∀ (s : State) (c : ChannelId) (n r p dkLen : Nat),
      n = s.latch.a.param0.toNat → r = s.latch.a.param1.toNat → p = s.latch.a.param2.toNat →
      dkLen = s.latch.a.param3.toNat →
      (ScryptOutOfRange n r p dkLen → Fails (.scryptStart c) s .config)
        ∧ (¬ScryptOutOfRange n r p dkLen → 8388608 < 128 * r * n ∨ 8388608 < 128 * r * p →
          Fails (.scryptStart c) s .resource)
        ∧ (¬ScryptOutOfRange n r p dkLen → 128 * r * n ≤ 8388608 → 128 * r * p ≤ 8388608 → ActiveChannel s c →
          Fails (.scryptStart c) s .chBusy))
    ∧ ∀ (i : Instr) (s : State), fieldError i = none → paramError i s.latch.a = none → resourceError i s.latch.a = none →
      engineError i s = none →
      ((∃ d ∈ inputsOf i s.latch.a, 65536 < d.off + d.len)
          ∨ (usesDst i = true ∧ 65536 < s.latch.a.dstOff.toNat + s.latch.a.dstCap.toNat) → Fails i s .range)
        ∧ ((∀ d ∈ inputsOf i s.latch.a, d.off + d.len ≤ 65536) → usesDst i = true →
          s.latch.a.dstOff.toNat + s.latch.a.dstCap.toNat ≤ 65536 → ForbiddenOverlap i s → Fails i s .overlap)

/-- R45: a command whose result is longer than DST_CAP fails with ERR_CAPACITY after every earlier check passed, and
one whose result fits succeeds with OUT_LEN its length. (SCRYPT_START and the commands whose result length depends on the
data, UNPAD, CIPHER_DEC, ENV_DEC and KX_COMPUTE, have their capacity clauses in their own statements.) -/
def Obligations.CapacityDecidesKnownLengthResults : Prop :=
  ∀ (i : Instr) (s : State) (n : Nat), firstError i s = none → resultLength i s = some n →
    (s.latch.a.dstCap.toNat < n → Fails i s .capacity)
      ∧ (n ≤ s.latch.a.dstCap.toNat → ∃ t, exec i s = .next t ∧ t.err = .ok ∧ t.results.outLen.toNat = n)

/-! ### Invariants and transitions -/

/-- The invariant holds of the reset state (R178). -/
def Obligations.ResetStateMeetsInvariant : Prop := Inv State.reset

/-- Every step of every agent keeps the invariant: DMEM stays canonical and inside its 65536 bytes, the slot holds a
key exactly in KeyGenerated, and each channel fits its phase (R28 to R35, R87 to R92, R137, R158). That a CANCELLED channel's
hidden parameters and counts are zero is DEDUCED (log entry 9). -/
def Obligations.EveryStepKeepsInvariant : Prop := ∀ s t : State, Inv s → step s = .next t → Inv t

/-- R87, R94: in every state that meets the invariant, every turn of every agent moves a channel along a row of the
transition table, or leaves its bank and its hidden state as they are. -/
def Obligations.ChannelPhasesFollowTable : Prop :=
  ∀ (turn : Turn) (s t : State) (c : ChannelId), Inv s → takeTurn turn s = .next t → PhaseRule turn s t c

/-- R137, R138: every turn of every agent moves the key-exchange engine along a row of the transition table, or leaves
the slot and KX_STATE as they are. -/
def Obligations.KeyExchangeFollowsTable : Prop :=
  ∀ (turn : Turn) (s t : State), takeTurn turn s = .next t → KxRule turn s t

/-- R138: only KX_COMPUTE reads the private key. Two states that differ in the key alone take every other turn to
states that differ in the key at most, so no register, no byte of DMEM and no channel shows it. -/
def Obligations.PrivateKeyIsReadOnlyByKxCompute : Prop :=
  ∀ (turn : Turn) (s t : State) (k : Nat), ¬Executes turn s .kxCompute → takeTurn turn s = .next t →
    ∃ u, takeTurn turn { s with slotPriv := k } = .next u ∧ { u with slotPriv := 0 } = { t with slotPriv := 0 }

/-- R44, R54: no command changes a byte of the result range of a channel that is RUNNING or WAIT_ACK. -/
def Obligations.CommandsSpareActiveResultRanges : Prop :=
  ∀ (i : Instr) (s t : State) (c : ChannelId) (a : Nat), s.dmem.wf = true → exec i s = .next t → ActiveChannel s c →
    (s.channel c).resultRange.off ≤ a → a < (s.channel c).resultRange.off + (s.channel c).resultRange.len →
    t.dmem.read a = s.dmem.read a

/-! ### The Scrypt engine -/

/-- R93, R54, R89: a channel's step changes no register but IRQ_STATUS, where it sets its own event bit, not the slot,
not the other channel; it reads nothing of the other channel; and it writes DMEM only when it reaches DONE, and
then only in its result range. -/
def Obligations.ChannelStepIsConfined : Prop :=
  ∀ (s : State) (c : ChannelId), s.dmem.wf = true → (s.channel c).phase = .running →
    ∃ t, channelTurn c s = .next t
      ∧ t = { s with irqStatus := s.irqStatus ||| irqEvent c, ch0 := t.ch0, ch1 := t.ch1, dmem := t.dmem }
      ∧ t.channel (otherChannel c) = s.channel (otherChannel c)
      ∧ (∀ ch : Channel, channelTurn c (s.setChannel (otherChannel c) ch) = .next (t.setChannel (otherChannel c) ch))
      ∧ ((t.channel c).phase ≠ .done → SameMemory s t)
      ∧ ∀ a, ¬((s.channel c).run.dst ≤ a ∧ a < (s.channel c).run.dst + (s.channel c).run.dkLen) →
        t.dmem.read a = s.dmem.read a

/-- R89, R91, R95: a chunk that samples a cancel request runs no op, writes no byte of DMEM, counts one event and ends in
CANCELLED with ERR_CANCELLED, the bank's op counts as they were, and every secret of the run gone. (That the hidden
parameters and counts are zeroed too is DEDUCED, log entry 9; this statement does not say it.) -/
def Obligations.CancelledRunDeliversNothing : Prop :=
  ∀ (s : State) (c : ChannelId), (s.channel c).phase = .running → (s.channel c).run.cancelReq = true →
    ∃ t, channelTurn c s = .next t ∧ SameMemory s t ∧ SameSlot s t
      ∧ t.channel (otherChannel c) = s.channel (otherChannel c) ∧ t.irqStatus = s.irqStatus ||| irqEvent c
      ∧ (t.channel c).phase = .cancelled ∧ (t.channel c).cancelReqBit = true ∧ (t.channel c).scErr = .cancelled
      ∧ (t.channel c).doneOps = (s.channel c).doneOps ∧ (t.channel c).totalOps = (s.channel c).totalOps
      ∧ (t.channel c).eventsReg = (s.channel c).eventsReg + 1 ∧ Scrubbed (t.channel c).run

/-- R86, R89: a working chunk that does not finish the run does exactly SCRYPT_CHUNK = 1000 ops of it, shows the new op
count, raises one event and waits; it writes no byte of DMEM. -/
def Obligations.WorkingChunkRunsThousandOps : Prop :=
  ∀ (s : State) (c : ChannelId) (password salt : Bytes) (n r p dkLen dst k events : Nat),
    (s.channel c).phase = .running → RunAt (s.channel c) password salt n r p dkLen dst k events → k + 1000 < 2 * n * p →
    ∃ t, channelTurn c s = .next t ∧ (t.channel c).phase = .waitAck
      ∧ RunAt (t.channel c) password salt n r p dkLen dst (k + 1000) (events + 1)
      ∧ (t.channel c).doneOps = BitVec.ofNat 32 (k + 1000) ∧ (t.channel c).eventsReg = (s.channel c).eventsReg + 1
      ∧ (t.channel c).totalOps = (s.channel c).totalOps ∧ SameMemory s t

/-- R86: running the 2·N·p ops of a run replaces each of its p blocks by its ROMix. -/
def Obligations.ScryptOpsComputeRomix : Prop :=
  ∀ (password salt : Bytes) (n r p dkLen dst : Nat),
    (scryptOps (2 * n * p) (startedChannel password salt n r p dkLen dst).run).blocks
      = (scryptBlocks password salt r p).map fun b => if n = 0 then b else romix b n r

/-- R94, R89: the last working chunk of a run, whatever chunks came before, writes exactly Scrypt(P, S, N, r, p, dkLen)
of the inputs taken at START to the result range, ends in DONE, and zeroes the run's secrets. -/
def Obligations.FinishedRunDeliversScrypt : Prop :=
  ∀ (s : State) (c : ChannelId) (password salt : Bytes) (n r p dkLen dst k events : Nat),
    s.dmem.wf = true → (s.channel c).phase = .running →
    RunAt (s.channel c) password salt n r p dkLen dst k events → k < 2 * n * p → 2 * n * p ≤ k + 1000 →
    ∃ t, channelTurn c s = .next t ∧ (t.channel c).phase = .done ∧ (t.channel c).doneOps = BitVec.ofNat 32 (2 * n * p)
      ∧ (t.channel c).eventsReg = (s.channel c).eventsReg + 1 ∧ Scrubbed (t.channel c).run
      ∧ StoredAt s t dst (scrypt password salt n r p dkLen)

/-! ### Functions -/

/-- R72: UNPAD(PAD(M, scheme, B), scheme, B) = M for every scheme, every B in 1 .. 255, every M and every draw of fill
bytes, under both values of UNPAD_STRICT. -/
def Obligations.UnpadInvertsPad : Prop :=
  ∀ (strict : Bool) (scheme : Scheme) (b : Nat) (fill : Nat → Byte) (m : Bytes), 1 ≤ b → b ≤ 255 →
    unpadBytes strict scheme b (padBytes scheme b fill m) = .ok m

/-- R98: for every cipher and every KEY of its size, D(KEY, E(KEY, X)) = X on blocks of its size. The texts of Camellia,
IDEA and TripleDES are PRESUMED (log entry 11); for Blowfish the law is the model's choice of type (log entry 12). -/
def Obligations.BlockDecryptionInvertsEncryption : Prop :=
  ∀ (alg : Cipher) (key x : Bytes), key.length = cipherKeyBytes alg → x.length = cipherBlockBytes alg →
    blockDecrypt alg key (blockEncrypt alg key x) = x

/-- R112: CodecDec(alg, mode, scheme, CodecEnc(alg, mode, scheme, P, K, salt, rounds), K, rounds) = P. -/
def Obligations.CodecRoundTrip : Prop :=
  ∀ (stretch : HashAlg) (strict : Bool) (alg : Cipher) (mode : Mode) (scheme : Scheme) (fill : Nat → Byte)
    (p k salt : Bytes) (rounds : Nat), salt.length = 8 → 1 ≤ rounds →
    codecDecrypt stretch strict alg mode scheme (codecEncrypt stretch alg mode scheme fill p k salt rounds) k rounds = .ok p

/-- R125: ENV_DEC of an envelope that EnvEnc built with the same selector, mode, scheme and keys stores the plaintext,
whatever the salts and fill bytes were. -/
def Obligations.EnvelopeRoundTrip : Prop :=
  ∀ (s : State) (mcode pcode : BitVec 3) (sel : BitVec 8) (primary secondary : Cipher) (mode : Mode) (scheme : Scheme)
    (fill1 fill2 : Nat → Byte) (p s1 s2 : Bytes),
    s.dmem.wf = true → sel.toNat ≤ 24 → cipherOfNat (sel.toNat % 5) = some primary →
    cipherOfNat (sel.toNat / 5) = some secondary → modeOfCode mcode = some mode → schemeOfCode pcode = some scheme →
    OperandsOk s [s.latch.a.a, s.latch.a.b, s.latch.a.c] → s1.length = 8 → s2.length = 8 →
    s.operand s.latch.a.a = envEncrypt Config.stretchHash primary secondary mode scheme fill1 fill2 p
      (s.operand s.latch.a.b) (s.operand s.latch.a.c) s1 s2 →
    p.length ≤ s.latch.a.dstCap.toNat →
    Stores (.envDec mcode pcode sel) s p
      { out0 := BitVec.ofNat 32 (sel.toNat % 5), out1 := BitVec.ofNat 32 (sel.toNat / 5) }

/-- R142, R134: two DH parties of one group that take each other's public keys compute the same secret. -/
def Obligations.DhPartiesAgree : Prop :=
  ∀ (group : DhGroup) (bits x y : Nat) (sx sy : Bytes), bits % 8 = 0 → group.p ≤ 2 ^ bits →
    dhSecret group bits x (beBytes (bits / 8) (powMod group.p group.g y)) = some sx →
    dhSecret group bits y (beBytes (bits / 8) (powMod group.p group.g x)) = some sy → sx = sy

/-- R134, R128: square-and-multiply is exponentiation modulo p, and the DH secret is y^x mod p in b/8 big-endian bytes,
refused for a public value of the wrong length or outside 2 .. p − 2, and for the secret 1. -/
def Obligations.DhSecretIsModularPower : Prop :=
  (∀ p x e : Nat, powMod p x e = x ^ e % p)
    ∧ ∀ (group : DhGroup) (bits x : Nat) (v : Bytes),
      dhSecret group bits x v
        = if v.length = bits / 8 ∧ 2 ≤ beNat v ∧ beNat v ≤ group.p - 2 ∧ beNat v ^ x % group.p ≠ 1 then
            some (beBytes (bits / 8) (beNat v ^ x % group.p))
          else none

/-- R121: SEL in 0 .. 24 names each ordered pair of ciphers exactly once, primary = SEL mod 5, secondary = SEL div 5. -/
def Obligations.SelectorsNameAllCipherPairs : Prop :=
  (∀ sel : BitVec 8, sel.toNat ≤ 24 →
      selectorPrimary sel = cipherOfNat (sel.toNat % 5) ∧ selectorSecondary sel = cipherOfNat (sel.toNat / 5))
    ∧ ∀ c d : Cipher, ∃! sel : BitVec 8, sel.toNat ≤ 24 ∧ selectorPrimary sel = some c ∧ selectorSecondary sel = some d

/-- R145: two peers that exchange salts get opposite answers, and both see a tie exactly when the salts are equal. -/
def Obligations.SaltOrderIsAntisymmetric : Prop :=
  ∀ l r : Bytes, (remoteIsPrimary l r = none ↔ l = r)
    ∧ ∀ b : Bool, remoteIsPrimary l r = some b → remoteIsPrimary r l = some (!b)
end

