-- ==== Sys2Proof/Laws/Lengths.lean ====
section
/-! SUPPORT. How many bytes each function returns: the byte forms of integers (spec/00_scope.md R10), the hashes and
PBKDF2 (spec/41_kdf.md), the Scrypt core (spec/42_scrypt.md), the padding and the codec (spec/40_padding.md,
spec/43_cipher.md), the MAC and the key-agreement values (spec/45_keyexchange.md R127). -/

namespace Sys2Proof.Machine

open Sys2Proof

/-! ### Byte strings -/

@[simp] theorem leBytes_length (n v : Nat) : (leBytes n v).length = n := by
  induction n generalizing v with
  | zero => rfl
  | succ n ih => simp [leBytes, ih]

@[simp] theorem beBytes_length (n v : Nat) : (beBytes n v).length = n := by simp [beBytes]

@[simp] theorem zeroBytes_length (n : Nat) : (zeroBytes n).length = n := by simp [zeroBytes]

@[simp] theorem xorBytes_length (x y : Bytes) : (xorBytes x y).length = min x.length y.length := by simp [xorBytes]

@[simp] theorem splitBlocks_length (n count : Nat) (x : Bytes) : (splitBlocks n count x).length = count := by
  induction count generalizing x with
  | zero => rfl
  | succ count ih => simp [splitBlocks, ih]

/-- Every block of a long enough string is full. -/
theorem splitBlocks_block_length (n count : Nat) (x : Bytes) (h : count * n ≤ x.length) (b : Bytes)
    (hb : b ∈ splitBlocks n count x) : b.length = n := by
  induction count generalizing x with
  | zero => simp [splitBlocks] at hb
  | succ count ih =>
    rw [Nat.succ_mul] at h
    rcases List.mem_cons.mp hb with rfl | hb
    · simp only [List.length_take]; omega
    · exact ih (x.drop n) (by simp only [List.length_drop]; omega) hb

/-- The blocks of a string of exactly that many bytes join to it. -/
theorem splitBlocks_flatten (n count : Nat) (x : Bytes) (h : x.length = count * n) :
    (splitBlocks n count x).flatten = x := by
  induction count generalizing x with
  | zero => simp [splitBlocks, List.length_eq_zero_iff.mp (by simpa using h)]
  | succ count ih =>
    rw [splitBlocks, List.flatten_cons, ih (x.drop n) (by rw [List.length_drop, h, Nat.succ_mul]; omega),
      List.take_append_drop]

/-- Cutting joined full blocks gives them back. -/
theorem splitBlocks_of_flatten (n : Nat) (bs : List Bytes) (h : ∀ b ∈ bs, b.length = n) :
    splitBlocks n bs.length bs.flatten = bs := by
  induction bs with
  | nil => rfl
  | cons b bs ih =>
    have hb : b.length = n := h b (by simp)
    rw [List.length_cons, splitBlocks, List.flatten_cons, List.take_left' hb, List.drop_left' hb,
      ih fun b' hb' => h b' (by simp [hb'])]

/-- Joined full blocks have that many bytes. -/
theorem flatten_length (n : Nat) (bs : List Bytes) (h : ∀ b ∈ bs, b.length = n) :
    bs.flatten.length = bs.length * n := by
  induction bs with
  | nil => simp
  | cons b bs ih =>
    rw [List.flatten_cons, List.length_append, h b (by simp), ih fun b' hb' => h b' (by simp [hb']), List.length_cons,
      Nat.succ_mul, Nat.add_comm]

/-! ### Hashes and derivations -/

@[simp] theorem hash_length (alg : HashAlg) (x : Bytes) : (hash alg x).length = hashLen alg := by
  cases alg <;> simp [hash, hashLen]

@[simp] theorem hmac_length (alg : HashAlg) (k x : Bytes) : (hmac alg k x).length = hashLen alg := by simp [hmac]

theorem pbkdf2Iterate_length (alg : HashAlg) (p : Bytes) (count : Nat) (u f : Bytes) (hf : f.length = hashLen alg) :
    (pbkdf2Iterate alg p count u f).length = hashLen alg := by
  induction count generalizing u f with
  | zero => exact hf
  | succ count ih => exact ih _ _ (by simp [hf])

@[simp] theorem pbkdf2Block_length (alg : HashAlg) (p s : Bytes) (c i : Nat) :
    (pbkdf2Block alg p s c i).length = hashLen alg :=
  pbkdf2Iterate_length alg p _ _ _ (hmac_length ..)

theorem hashLen_pos (alg : HashAlg) : 0 < hashLen alg := by cases alg <;> decide

/-- PBKDF2 returns exactly dkLen bytes (R75). -/
@[simp] theorem pbkdf2_length (alg : HashAlg) (p s : Bytes) (c dkLen : Nat) : (pbkdf2 alg p s c dkLen).length = dkLen := by
  have h : ∀ n, ((List.range n).flatMap fun i => pbkdf2Block alg p s c (i + 1)).length = n * hashLen alg := by
    intro n
    simp [List.length_flatMap]
  rw [pbkdf2, List.length_take, h, Nat.min_eq_left]
  have hp := hashLen_pos alg
  have h1 := Nat.div_add_mod (dkLen + hashLen alg - 1) (hashLen alg)
  have h2 := Nat.mod_lt (dkLen + hashLen alg - 1) hp
  rw [Nat.mul_comm]
  omega

/-- KEYFIT returns exactly the asked size (R76). -/
@[simp] theorem keyfit_length (k : Bytes) (size : Nat) : (keyfit k size).length = size := by
  unfold keyfit
  split
  · assumption
  · unfold keyfitHash
    split
    · simp_all [hashLen]
    · simp

@[simp] theorem keyfitHash_length (size : Nat) (k : Bytes) : (keyfitHash size k).length = size := by
  unfold keyfitHash
  split
  · simp_all [hashLen]
  · simp

/-! ### The Scrypt core -/

@[simp] theorem salsaWords_length (b : Bytes) : (salsaWords b).length = 16 := by simp [salsaWords]

theorem salsaFold_length (qs : List (Nat × Nat × Nat × Nat)) (x : List Word) :
    (qs.foldl salsaStep x).length = x.length := by
  induction qs generalizing x with
  | nil => rfl
  | cons q qs ih => simp [ih, salsaStep]

@[simp] theorem salsaDouble_length (x : List Word) : (salsaDouble x).length = x.length := salsaFold_length _ _

@[simp] theorem salsa20_8_length (b : Bytes) : (salsa20_8 b).length = 64 := by
  unfold salsa20_8
  rw [flatten_length 4]
  · simp
  · intro w hw
    obtain ⟨i, hi, rfl⟩ := List.getElem_of_mem hw
    simp

@[simp] theorem blockMixChain_length (x : Bytes) (bs : List Bytes) : (blockMixChain x bs).length = bs.length := by
  induction bs generalizing x with
  | nil => rfl
  | cons b bs ih => simp [blockMixChain, ih]

theorem blockMixChain_block (x : Bytes) (bs : List Bytes) (b : Bytes) (h : b ∈ blockMixChain x bs) : b.length = 64 := by
  induction bs generalizing x with
  | nil => simp [blockMixChain] at h
  | cons c bs ih =>
    have h' : b = salsa20_8 (xorBytes x c) ∨ b ∈ blockMixChain (salsa20_8 (xorBytes x c)) bs := by
      simpa only [blockMixChain, List.mem_cons] using h
    rcases h' with h' | h'
    · rw [h', salsa20_8_length]
    · exact ih _ h'

theorem everyOther_mem (bs : List Bytes) (b : Bytes) (h : b ∈ everyOther bs) : b ∈ bs := by
  induction bs using everyOther.induct with
  | case1 => simp [everyOther] at h
  | case2 c => simpa [everyOther] using h
  | case3 c d bs ih =>
    rcases List.mem_cons.mp h with rfl | h
    · simp
    · simp [ih h]

theorem everyOther_length (bs : List Bytes) : (everyOther bs).length = (bs.length + 1) / 2 := by
  induction bs using everyOther.induct with
  | case1 => rfl
  | case2 c => simp [everyOther]
  | case3 c d bs ih => simp only [everyOther, List.length_cons, ih]; omega

/-- BlockMix returns 128·r bytes (R82). -/
@[simp] theorem blockMix_length (b : Bytes) (r : Nat) : (blockMix b r).length = 128 * r := by
  unfold blockMix
  rw [flatten_length 64]
  · simp only [List.length_append, everyOther_length, List.length_drop, blockMixChain_length, splitBlocks_length]
    omega
  · intro c hc
    rcases List.mem_append.mp hc with hc | hc
    · exact blockMixChain_block _ _ c (everyOther_mem _ _ hc)
    · exact blockMixChain_block _ _ c (List.mem_of_mem_drop (everyOther_mem _ _ hc))

theorem romixFill_length (r count : Nat) (xv : Bytes × List Bytes) (h : xv.1.length = 128 * r) :
    (romixFill r count xv).1.length = 128 * r := by
  induction count generalizing xv with
  | zero => exact h
  | succ count ih => exact ih _ (by simp)

theorem romixMix_length (n r : Nat) (v : List Bytes) (count : Nat) (x : Bytes) (h : x.length = 128 * r) :
    (romixMix n r v count x).length = 128 * r := by
  induction count generalizing x with
  | zero => exact h
  | succ count ih => exact ih _ (by simp)

/-- ROMix maps 128·r bytes to 128·r bytes (R83). -/
theorem romix_length (b : Bytes) (n r : Nat) (h : b.length = 128 * r) : (romix b n r).length = 128 * r :=
  romixMix_length n r _ n _ (romixFill_length r n (b, []) h)

@[simp] theorem scryptBlocks_length (password salt : Bytes) (r p : Nat) : (scryptBlocks password salt r p).length = p := by
  simp [scryptBlocks]

theorem scryptBlocks_block (password salt : Bytes) (r p : Nat) (b : Bytes) (h : b ∈ scryptBlocks password salt r p) :
    b.length = 128 * r :=
  splitBlocks_block_length _ _ _ (by rw [pbkdf2_length, Nat.mul_assoc]) b h

@[simp] theorem scrypt_length (password salt : Bytes) (n r p dkLen : Nat) :
    (scrypt password salt n r p dkLen).length = dkLen := by simp [scrypt]

@[simp] theorem Run.result_length (run : Run) : run.result.length = run.dkLen := by simp [Run.result]

/-! ### Padding and the codec -/

theorem padLen_pos (b len : Nat) (h : 0 < b) : 1 ≤ padLen b len ∧ padLen b len ≤ b := by
  have := Nat.mod_lt len h
  unfold padLen
  omega

/-- A padded message is N bytes longer (R67). -/
theorem padBytes_length (scheme : Scheme) (b : Nat) (fill : Nat → Byte) (m : Bytes) (h : 0 < b) :
    (padBytes scheme b fill m).length = m.length + padLen b m.length := by
  have := padLen_pos b m.length h
  cases scheme <;> simp [padBytes] <;> omega

/-- A padded message is a whole number of blocks (R67). -/
theorem padBytes_blocks (scheme : Scheme) (b : Nat) (fill : Nat → Byte) (m : Bytes) (h : 0 < b) :
    (padBytes scheme b fill m).length % b = 0 := by
  rw [padBytes_length scheme b fill m h]
  have h1 := Nat.mod_lt m.length h
  have h2 := Nat.div_add_mod m.length b
  have : m.length + padLen b m.length = b * (m.length / b + 1) := by
    unfold padLen
    rw [Nat.mul_add]
    omega
  rw [this, Nat.mul_mod_right]

theorem cipherBlockBytes_pos (alg : Cipher) : 0 < cipherBlockBytes alg := by cases alg <;> decide

@[simp] theorem blockEncrypt_length (alg : Cipher) (key x : Bytes) :
    (blockEncrypt alg key x).length = cipherBlockBytes alg := by
  cases alg <;> simp [blockEncrypt, cipherBlockBytes]

@[simp] theorem blockDecrypt_length (alg : Cipher) (key x : Bytes) :
    (blockDecrypt alg key x).length = cipherBlockBytes alg := by
  cases alg <;> simp [blockDecrypt, cipherBlockBytes]

theorem cipherBlocks_block (alg : Cipher) (x b : Bytes) (h : b ∈ cipherBlocks alg x) :
    b.length = cipherBlockBytes alg :=
  splitBlocks_block_length _ _ _ (Nat.div_mul_le_self ..) b h

/-- The outcome of a mode on full blocks: as many full blocks (R103). -/
theorem cbcEncrypt_blocks (alg : Cipher) (key prev : Bytes) (ps : List Bytes) :
    (cbcEncrypt alg key prev ps).length = ps.length
      ∧ ∀ c ∈ cbcEncrypt alg key prev ps, c.length = cipherBlockBytes alg := by
  induction ps generalizing prev with
  | nil => simp [cbcEncrypt]
  | cons p ps ih =>
    obtain ⟨h1, h2⟩ := ih (blockEncrypt alg key (xorBytes p prev))
    simp [cbcEncrypt, h1]
    exact h2

theorem cfbEncrypt_blocks (alg : Cipher) (key prev : Bytes) (ps : List Bytes)
    (h : ∀ p ∈ ps, p.length = cipherBlockBytes alg) :
    (cfbEncrypt alg key prev ps).length = ps.length
      ∧ ∀ c ∈ cfbEncrypt alg key prev ps, c.length = cipherBlockBytes alg := by
  induction ps generalizing prev with
  | nil => simp [cfbEncrypt]
  | cons p ps ih =>
    obtain ⟨h1, h2⟩ := ih (xorBytes p (blockEncrypt alg key prev)) fun q hq => h q (by simp [hq])
    simp [cfbEncrypt, h1, h p]
    exact h2

theorem ofbCrypt_blocks (alg : Cipher) (key prev : Bytes) (ps : List Bytes)
    (h : ∀ p ∈ ps, p.length = cipherBlockBytes alg) :
    (ofbCrypt alg key prev ps).length = ps.length
      ∧ ∀ c ∈ ofbCrypt alg key prev ps, c.length = cipherBlockBytes alg := by
  induction ps generalizing prev with
  | nil => simp [ofbCrypt]
  | cons p ps ih =>
    obtain ⟨h1, h2⟩ := ih (blockEncrypt alg key prev) fun q hq => h q (by simp [hq])
    simp [ofbCrypt, h1, h p]
    exact h2

/-- ModeEnc returns as many bytes as it takes, on whole blocks (R103). -/
theorem modeEncrypt_length (alg : Cipher) (mode : Mode) (key iv p : Bytes) (h : p.length % cipherBlockBytes alg = 0) :
    (modeEncrypt alg mode key iv p).length = p.length := by
  have hb := cipherBlocks_block alg p
  have hlen : (cipherBlocks alg p).length * cipherBlockBytes alg = p.length := by
    rw [cipherBlocks, splitBlocks_length]
    have := Nat.div_add_mod p.length (cipherBlockBytes alg)
    rw [h, Nat.mul_comm] at this
    simpa using this
  cases mode
  · obtain ⟨h1, h2⟩ := cbcEncrypt_blocks alg key iv (cipherBlocks alg p)
    rw [modeEncrypt, flatten_length _ _ h2, h1, hlen]
  · obtain ⟨h1, h2⟩ := cfbEncrypt_blocks alg key iv (cipherBlocks alg p) hb
    rw [modeEncrypt, flatten_length _ _ h2, h1, hlen]
  · obtain ⟨h1, h2⟩ := ofbCrypt_blocks alg key iv (cipherBlocks alg p) hb
    rw [modeEncrypt, flatten_length _ _ h2, h1, hlen]

/-- One encryption layer returns the salt and the padded length (R107). -/
theorem codecEncrypt_length (stretch : HashAlg) (alg : Cipher) (mode : Mode) (scheme : Scheme) (fill : Nat → Byte)
    (p k salt : Bytes) (rounds : Nat) :
    (codecEncrypt stretch alg mode scheme fill p k salt rounds).length
      = salt.length + (p.length + padLen (cipherBlockBytes alg) p.length) := by
  have hpos := cipherBlockBytes_pos alg
  rw [codecEncrypt, List.length_append, modeEncrypt_length _ _ _ _ _ (padBytes_blocks scheme _ fill p hpos),
    padBytes_length scheme _ fill p hpos]

@[simp] theorem codecIv_length (stretch : HashAlg) (alg : Cipher) (k salt : Bytes) (rounds : Nat) :
    (codecIv stretch alg k salt rounds).length = cipherBlockBytes alg := by
  simp [codecIv, codecMaterial]

@[simp] theorem codecKey_length (stretch : HashAlg) (alg : Cipher) (k salt : Bytes) (rounds : Nat) :
    (codecKey stretch alg k salt rounds).length = cipherKeyBytes alg := by
  simp [codecKey, codecMaterial]

@[simp] theorem State.drawBytes_length (s : State) (k n : Nat) : (s.drawBytes k n).length = n := by
  simp [State.drawBytes]

/-- CodecSalt always gives 8 bytes (R106). -/
theorem codecSalt_length (drawn c : Bytes) (h : drawn.length = 8) : (codecSalt drawn c).length = 8 := by
  unfold codecSalt
  split
  · exact h
  · split
    · assumption
    · simp

/-! ### The MAC -/

theorem spongeSqueeze_length (count : Nat) (a : List Lane) : (spongeSqueeze count a).length = count * 136 := by
  induction count generalizing a with
  | zero => simp [spongeSqueeze]
  | succ count ih =>
    have : (spongeOut a).length = 136 := by simp [spongeOut, List.length_flatMap]
    rw [spongeSqueeze, List.length_append, this, ih]
    omega

@[simp] theorem sponge_length (m : Bytes) (d : Byte) (l : Nat) : (sponge m d l).length = l := by
  unfold sponge
  simp only [List.length_take, spongeSqueeze_length, keccakRate]
  omega

/-- The MAC is 32 bytes (R117). -/
@[simp] theorem mac_length (k x : Bytes) : (mac k x).length = 32 := by
  unfold mac kmac256 cshake256
  split <;> simp

/-! ### Key agreement -/

@[simp] theorem x25519_length (k u : Bytes) : (x25519 k u).length = 32 := by rw [x25519, leBytes_length]

/-- A public key takes PUBLEN(t) bytes (R127). -/
@[simp] theorem publicKey_length (t : Tag) (priv : Nat) : (publicKey t priv).length = pubLen t := by
  have point : ∀ fb q, (encodePoint fb q).length = 1 + 2 * fb := by
    intro fb q
    cases q with
    | infinity => simp [encodePoint]
    | affine x y => simp only [encodePoint, List.length_append, beBytes_length, List.length_singleton]; omega
  unfold publicKey pubLen
  split <;> simp [point]

/-- A shared secret takes SECLEN(t) bytes (R127). -/
theorem sharedSecret_length (t : Tag) (priv : Nat) (v sec : Bytes) (h : sharedSecret t priv v = some sec) :
    sec.length = secLen t := by
  have point : ∀ fb q out, pointSecret fb q = some out → out.length = fb := by
    intro fb q out hq
    cases q with
    | infinity => simp [pointSecret] at hq
    | affine x y => rw [← Option.some.inj hq, beBytes_length]
  have curve : ∀ fb bound onCurve add d out, ecdhSecret fb bound onCurve add d v = some out → out.length = fb := by
    intro fb bound onCurve add d out ho
    simp only [ecdhSecret] at ho
    split at ho
    · contradiction
    · split at ho
      · contradiction
      · split at ho
        · contradiction
        · split at ho
          · contradiction
          · exact point _ _ _ ho
  cases ht : tagAlgorithm t with
  | dh b =>
    simp only [sharedSecret, ht, dhSecret] at h
    split at h
    · contradiction
    · split at h
      · contradiction
      · split at h
        · contradiction
        · rw [← Option.some.inj h, secLen, ht, beBytes_length]
  | x25519 =>
    simp only [sharedSecret, ht, x25519Secret] at h
    have hl := x25519_length (leBytes 32 priv) v
    generalize x25519 (leBytes 32 priv) v = out at h hl
    split at h
    · contradiction
    · split at h
      · contradiction
      · rw [← Option.some.inj h, secLen, ht, hl]
  | prime b =>
    rw [secLen, ht]
    exact curve _ _ _ _ _ _ (by simpa only [sharedSecret, ht] using h)
  | binary b =>
    rw [secLen, ht]
    exact curve _ _ _ _ _ _ (by simpa only [sharedSecret, ht] using h)

end Sys2Proof.Machine
end

