-- ==== Sys2Proof/Laws/Codec.lean ====
section
/-! SUPPORT. The laws of the OFB layer (spec/43_cipher.md R103 to R108): applied twice it is the identity, so what it
encrypts it decrypts, with no law of the block cipher. The tests build decryptable inputs with them, where the
layer's hash is the OPEN `Config.stretchHash` and no value can be computed. -/

namespace Sys2Proof.Machine

open Sys2Proof

theorem xorBytes_cancel (p o : Bytes) (h : p.length ≤ o.length) : xorBytes (xorBytes p o) o = p := by
  induction p generalizing o with
  | nil => simp [xorBytes]
  | cons a p ih =>
    cases o with
    | nil => simp at h
    | cons b o =>
      have ih := ih o (by simpa using h)
      simp only [xorBytes, List.zipWith_cons_cons] at ih ⊢
      rw [ih, BitVec.xor_assoc, BitVec.xor_self, BitVec.xor_zero]

/-- OFB undoes itself on full blocks (R103). -/
theorem ofbCrypt_twice (alg : Cipher) (key prev : Bytes) (ps : List Bytes)
    (h : ∀ p ∈ ps, p.length = cipherBlockBytes alg) : ofbCrypt alg key prev (ofbCrypt alg key prev ps) = ps := by
  induction ps generalizing prev with
  | nil => rfl
  | cons p ps ih =>
    simp only [ofbCrypt]
    rw [ih _ fun q hq => h q (by simp [hq]), xorBytes_cancel _ _ (by simp [h p])]

/-- Cutting joined cipher blocks gives them back (R103). -/
theorem cipherBlocks_flatten (alg : Cipher) (bs : List Bytes) (h : ∀ b ∈ bs, b.length = cipherBlockBytes alg) :
    cipherBlocks alg bs.flatten = bs := by
  rw [cipherBlocks, flatten_length _ _ h, Nat.mul_div_cancel _ (cipherBlockBytes_pos alg),
    splitBlocks_of_flatten _ _ h]

/-- OFB decryption undoes OFB encryption of whole blocks (R103). -/
theorem modeDecrypt_ofb (alg : Cipher) (key iv p : Bytes) (h : p.length % cipherBlockBytes alg = 0) :
    modeDecrypt alg .ofb key iv (modeEncrypt alg .ofb key iv p) = p := by
  have hb := cipherBlocks_block alg p
  rw [modeEncrypt, modeDecrypt, cipherBlocks_flatten alg _ (ofbCrypt_blocks alg key iv _ hb).2, ofbCrypt_twice _ _ _ _ hb]
  refine splitBlocks_flatten _ _ _ ?_
  have := Nat.div_add_mod p.length (cipherBlockBytes alg)
  rw [h, Nat.mul_comm] at this
  simpa using this.symm

/-- A PKCS7 pad is removed (40_padding.md R67, R68). -/
theorem unpadBytes_pkcs7 (b : Nat) (fill : Nat → Byte) (m : Bytes) (h : 1 ≤ b) (hb : b ≤ 255) :
    unpadBytes false .pkcs7 b (padBytes .pkcs7 b fill m) = .ok m := by
  obtain ⟨h1, h2⟩ := padLen_pos b m.length h
  obtain ⟨n, hn⟩ : ∃ n, padLen b m.length = n + 1 := ⟨padLen b m.length - 1, by omega⟩
  have hx : padBytes .pkcs7 b fill m = m ++ List.replicate n (BitVec.ofNat 8 (n + 1)) ++ [BitVec.ofNat 8 (n + 1)] := by
    rw [padBytes, hn, List.replicate_succ', List.append_assoc]
  have hl : (BitVec.ofNat 8 (n + 1)).toNat = n + 1 := by
    rw [BitVec.toNat_ofNat, Nat.mod_eq_of_lt]
    omega
  simp only [unpadBytes, unpadLength, hx, List.getLast?_append, List.getLast?_singleton, Option.some_or, hl]
  rw [if_neg (by simp; omega)]
  simp [List.append_assoc]

/-- An OFB layer with PKCS7 decrypts what it encrypted (R107, R108). -/
theorem codecDecrypt_ofb_pkcs7 (stretch : HashAlg) (alg : Cipher) (fill : Nat → Byte) (p k salt : Bytes) (rounds : Nat)
    (h : salt.length = 8) :
    codecDecrypt stretch false alg .ofb .pkcs7 (codecEncrypt stretch alg .ofb .pkcs7 fill p k salt rounds) k rounds
      = .ok p := by
  have hpos := cipherBlockBytes_pos alg
  have hlen := codecEncrypt_length stretch alg .ofb .pkcs7 fill p k salt rounds
  have hblocks := padBytes_blocks .pkcs7 (cipherBlockBytes alg) fill p hpos
  have hpad := padLen_pos (cipherBlockBytes alg) p.length hpos
  have hmod : (p.length + padLen (cipherBlockBytes alg) p.length) % cipherBlockBytes alg = 0 := by
    rwa [padBytes_length .pkcs7 _ fill p hpos] at hblocks
  have hge := Nat.le_of_dvd (by omega) (Nat.dvd_of_mod_eq_zero hmod)
  have hb : cipherBlockBytes alg ≤ 255 := by cases alg <;> decide
  rw [codecDecrypt, if_neg]
  · rw [codecEncrypt, List.take_left' h, List.drop_left' h, modeDecrypt_ofb _ _ _ _ hblocks]
    exact unpadBytes_pkcs7 _ fill p hpos hb
  · rw [hlen, h, Nat.add_sub_cancel_left]
    omega

end Sys2Proof.Machine
end

