-- ==== Sys2Proof/Laws/Memory.lean ====
section
/-! SUPPORT. The laws of DMEM (spec/20_memory.md R38): the canonical form is kept by every operation, a byte
reads back as written, and every other byte reads as before. -/

namespace Sys2Proof.Machine

open Sys2Proof

theorem Memory.wf_nil : Memory.wf [] = true := rfl

/-- The canonical form, entry by entry. -/
theorem Memory.wf_cons (k : Nat) (v : Byte) (m : Memory) :
    Memory.wf ((k, v) :: m) = true ↔ v ≠ 0 ∧ (∀ e ∈ m, k < e.1) ∧ Memory.wf m = true := by
  induction m generalizing k v with
  | nil => simp [Memory.wf, Memory.unlisted]
  | cons e m ih =>
    obtain ⟨k', v'⟩ := e
    have h := ih k' v'
    simp only [Memory.wf, Bool.and_eq_true, bne_iff_ne, decide_eq_true_eq, List.mem_cons, forall_eq_or_imp,
      Memory.unlisted] at *
    constructor
    · rintro ⟨⟨hv, hk⟩, hm⟩
      exact ⟨hv, ⟨hk, fun e he => lt_trans hk ((h.mp hm).2.1 e he)⟩, hm⟩
    · rintro ⟨hv, ⟨hk, -⟩, hm⟩
      exact ⟨⟨hv, hk⟩, hm⟩

/-- An address below every entry is not listed. -/
theorem Memory.read_below (m : Memory) (a : Nat) (h : ∀ e ∈ m, a < e.1) : Memory.read m a = 0 := by
  induction m with
  | nil => rfl
  | cons e m ih =>
    obtain ⟨k, v⟩ := e
    have hk : a < k := h (k, v) (by simp)
    rw [Memory.read, if_neg (by omega), ih fun e he => h e (by simp [he])]

/-- Every entry of a memory after a write is an old one or the written one. -/
theorem Memory.mem_write (m : Memory) (a : Nat) (b : Byte) (e : Host.Cell) (h : e ∈ Memory.write m a b) :
    e ∈ m ∨ e = (a, b) := by
  induction m with
  | nil => simp only [Memory.write] at h; split at h <;> simp_all
  | cons e' m ih =>
    obtain ⟨k, v⟩ := e'
    simp only [Memory.write] at h
    split at h
    · split at h <;> simp_all
      tauto
    · split at h
      · split at h <;> simp_all
        tauto
      · simp only [List.mem_cons] at h ⊢
        rcases h with h | h
        · simp [h]
        · rcases ih h with h | h <;> simp [h]

/-- A write below every entry. -/
theorem Memory.write_below (k : Nat) (v : Byte) (m : Memory) (a : Nat) (b : Byte) (h : a < k) :
    Memory.write ((k, v) :: m) a b = if b = 0 then (k, v) :: m else (a, b) :: (k, v) :: m := by
  simp only [Memory.write, if_pos h]
  rfl

/-- A write to the first entry. -/
theorem Memory.write_head (k : Nat) (v : Byte) (m : Memory) (b : Byte) :
    Memory.write ((k, v) :: m) k b = if b = 0 then m else (k, b) :: m := by
  simp only [Memory.write, if_neg (lt_irrefl k), if_true]
  rfl

/-- A write above the first entry. -/
theorem Memory.write_above (k : Nat) (v : Byte) (m : Memory) (a : Nat) (b : Byte) (h : k < a) :
    Memory.write ((k, v) :: m) a b = (k, v) :: Memory.write m a b := by
  simp only [Memory.write, if_neg (show ¬a < k by omega), if_neg (show ¬a = k by omega)]

/-- A write to an empty memory. -/
theorem Memory.write_nil (a : Nat) (b : Byte) : Memory.write [] a b = if b = 0 then [] else [(a, b)] := rfl

/-- A write keeps the canonical form. -/
theorem Memory.write_wf (m : Memory) (a : Nat) (b : Byte) (h : Memory.wf m = true) :
    Memory.wf (Memory.write m a b) = true := by
  induction m with
  | nil =>
    by_cases hb : b = 0
    · rw [Memory.write_nil, if_pos hb]; rfl
    · rw [Memory.write_nil, if_neg hb]; exact (Memory.wf_cons a b []).mpr ⟨hb, by simp, rfl⟩
  | cons e m ih =>
    obtain ⟨k, v⟩ := e
    obtain ⟨hv, hk, hm⟩ := (Memory.wf_cons k v m).mp h
    rcases lt_trichotomy a k with ha | rfl | ha
    · by_cases hb : b = 0
      · rw [Memory.write_below k v m a b ha, if_pos hb]; exact h
      · rw [Memory.write_below k v m a b ha, if_neg hb]
        refine (Memory.wf_cons a b _).mpr ⟨hb, fun e he => ?_, h⟩
        rcases List.mem_cons.mp he with rfl | he
        · exact ha
        · exact lt_trans ha (hk e he)
    · by_cases hb : b = 0
      · rw [Memory.write_head, if_pos hb]; exact hm
      · rw [Memory.write_head, if_neg hb]; exact (Memory.wf_cons a b m).mpr ⟨hb, hk, hm⟩
    · rw [Memory.write_above k v m a b ha]
      refine (Memory.wf_cons k v _).mpr ⟨hv, fun e he => ?_, ih hm⟩
      rcases Memory.mem_write m a b e he with he | rfl
      · exact hk e he
      · exact ha

/-- Writing a run of bytes keeps the canonical form. -/
theorem Memory.writeBytes_wf (m : Memory) (off : Nat) (y : Bytes) (h : Memory.wf m = true) :
    Memory.wf (Memory.writeBytes m off y) = true := by
  induction y generalizing m off with
  | nil => exact h
  | cons b y ih => exact ih _ _ (Memory.write_wf m off b h)

/-- A byte reads back as written, and every other byte reads as before. -/
theorem Memory.read_write (m : Memory) (a x : Nat) (b : Byte) (h : Memory.wf m = true) :
    Memory.read (Memory.write m a b) x = if x = a then b else Memory.read m x := by
  induction m with
  | nil =>
    by_cases hb : b = 0
    · rw [Memory.write_nil, if_pos hb, hb]; exact (ite_self (0 : Byte)).symm
    · rw [Memory.write_nil, if_neg hb]; exact if_congr eq_comm rfl rfl
  | cons e m ih =>
    obtain ⟨k, v⟩ := e
    obtain ⟨hv, hk, hm⟩ := (Memory.wf_cons k v m).mp h
    rcases lt_trichotomy a k with ha | rfl | ha
    · rw [Memory.write_below k v m a b ha]
      by_cases hb : b = 0
      · rw [if_pos hb]
        by_cases hx : x = a
        · rw [if_pos hx, hb, hx]
          refine Memory.read_below _ _ fun e he => ?_
          rcases List.mem_cons.mp he with rfl | he
          · exact ha
          · exact lt_trans ha (hk e he)
        · rw [if_neg hx]
      · rw [if_neg hb, Memory.read]
        exact if_congr eq_comm rfl rfl
    · rw [Memory.write_head]
      by_cases hb : b = 0
      · rw [if_pos hb, Memory.read]
        by_cases hx : x = a
        · rw [if_pos hx, hb, hx]; exact Memory.read_below m a hk
        · rw [if_neg hx, if_neg (Ne.symm hx)]
      · rw [if_neg hb, Memory.read, Memory.read]
        by_cases hx : x = a
        · rw [if_pos hx, if_pos hx.symm]
        · rw [if_neg hx, if_neg (Ne.symm hx), if_neg (Ne.symm hx)]
    · rw [Memory.write_above k v m a b ha, Memory.read, ih hm, Memory.read]
      by_cases hx : x = a
      · rw [if_pos hx, if_neg (by omega), if_pos hx]
      · rw [if_neg hx, if_neg hx]

/-- After a run of bytes is written, its bytes stand there and every other byte reads as before. -/
theorem Memory.read_writeBytes (m : Memory) (off x : Nat) (y : Bytes) (h : Memory.wf m = true) :
    Memory.read (Memory.writeBytes m off y) x
      = if off ≤ x ∧ x < off + y.length then y.getD (x - off) 0 else Memory.read m x := by
  induction y generalizing m off with
  | nil => simp [Memory.writeBytes, show ¬(off ≤ x ∧ x < off) by omega]
  | cons b y ih =>
    rw [Memory.writeBytes, ih _ _ (Memory.write_wf m off b h), Memory.read_write m off x b h]
    by_cases hx : x = off
    · subst hx
      simp
    · by_cases hr : off + 1 ≤ x ∧ x < off + 1 + y.length
      · rw [if_pos hr, if_pos (by simp only [List.length_cons]; omega), show x - off = (x - (off + 1)) + 1 by omega]
        simp
      · rw [if_neg hr, if_neg hx, if_neg (by simp only [List.length_cons]; omega)]

/-- The entries of a memory after a run of bytes is written lie where the old ones do or in the run. -/
theorem Memory.mem_writeBytes (m : Memory) (off : Nat) (y : Bytes) (e : Host.Cell)
    (h : e ∈ Memory.writeBytes m off y) : e ∈ m ∨ (off ≤ e.1 ∧ e.1 < off + y.length) := by
  induction y generalizing m off with
  | nil => exact Or.inl h
  | cons b y ih =>
    rcases ih _ _ h with h | h
    · rcases Memory.mem_write m off b e h with h | rfl
      · exact Or.inl h
      · right; simp
    · right
      simp only [List.length_cons]
      omega

@[simp] theorem Memory.readBytes_length (m : Memory) (off n : Nat) : (Memory.readBytes m off n).length = n := by
  simp [Memory.readBytes]

/-- Byte i of a read range. -/
theorem Memory.readBytes_getD (m : Memory) (off n i : Nat) (h : i < n) :
    (Memory.readBytes m off n).getD i 0 = Memory.read m (off + i) := by
  simp [Memory.readBytes, List.getD, h]

/-- A written run reads back whole. -/
theorem Memory.readBytes_writeBytes (m : Memory) (off : Nat) (y : Bytes) (h : Memory.wf m = true) :
    Memory.readBytes (Memory.writeBytes m off y) off y.length = y := by
  apply List.ext_getElem (by simp)
  intro i h1 h2
  have hr := Memory.read_writeBytes m off (off + i) y h
  rw [if_pos ⟨by omega, by omega⟩] at hr
  simp [Memory.readBytes, hr, List.getD, h2]

/-- A range apart from the written run reads as before. -/
theorem Memory.readBytes_writeBytes_apart (m : Memory) (off off' n : Nat) (y : Bytes) (h : Memory.wf m = true)
    (apart : ∀ a, off' ≤ a → a < off' + n → ¬(off ≤ a ∧ a < off + y.length)) :
    Memory.readBytes (Memory.writeBytes m off y) off' n = Memory.readBytes m off' n := by
  apply List.map_congr_left
  intro i hi
  rw [Memory.read_writeBytes m off (off' + i) y h, if_neg (apart _ (by omega) (by simp at hi; omega))]

end Sys2Proof.Machine
end

