-- ==== Sys2Proof/Laws/State.lean ====
section
/-! SUPPORT. The fields of a state after each shared update of Machine/Ops.lean and Machine/System.lean: one lemma per
field per update, so that no later proof unfolds a record update. -/

namespace Sys2Proof.Machine

open Sys2Proof

variable (s : State)


/-! ### The completion step (`State.finish`) -/

@[simp] theorem State.finish_ie (e : ErrorCode) (r : Results) : (s.finish e r).ie = s.ie := rfl
@[simp] theorem State.finish_doneFlag (e : ErrorCode) (r : Results) : (s.finish e r).doneFlag = true := rfl
@[simp] theorem State.finish_cmdOvr (e : ErrorCode) (r : Results) : (s.finish e r).cmdOvr = s.cmdOvr := rfl
@[simp] theorem State.finish_busErr (e : ErrorCode) (r : Results) : (s.finish e r).busErr = s.busErr := rfl
@[simp] theorem State.finish_err (e : ErrorCode) (r : Results) : (s.finish e r).err = e := rfl
@[simp] theorem State.finish_cmd (e : ErrorCode) (r : Results) : (s.finish e r).cmd = s.cmd := rfl
@[simp] theorem State.finish_irqStatus (e : ErrorCode) (r : Results) : (s.finish e r).irqStatus = s.irqStatus ||| irqCmdDone := rfl
@[simp] theorem State.finish_irqEnable (e : ErrorCode) (r : Results) : (s.finish e r).irqEnable = s.irqEnable := rfl
@[simp] theorem State.finish_args (e : ErrorCode) (r : Results) : (s.finish e r).args = s.args := rfl
@[simp] theorem State.finish_results (e : ErrorCode) (r : Results) : (s.finish e r).results = r := rfl
@[simp] theorem State.finish_kxPhase (e : ErrorCode) (r : Results) : (s.finish e r).kxPhase = s.kxPhase := rfl
@[simp] theorem State.finish_slotTag (e : ErrorCode) (r : Results) : (s.finish e r).slotTag = s.slotTag := rfl
@[simp] theorem State.finish_slotPriv (e : ErrorCode) (r : Results) : (s.finish e r).slotPriv = s.slotPriv := rfl
@[simp] theorem State.finish_ch0 (e : ErrorCode) (r : Results) : (s.finish e r).ch0 = s.ch0 := rfl
@[simp] theorem State.finish_ch1 (e : ErrorCode) (r : Results) : (s.finish e r).ch1 = s.ch1 := rfl
@[simp] theorem State.finish_dmem (e : ErrorCode) (r : Results) : (s.finish e r).dmem = s.dmem := rfl
@[simp] theorem State.finish_latch (e : ErrorCode) (r : Results) : (s.finish e r).latch = { s.latch with pending := false } := rfl
@[simp] theorem State.finish_turns (e : ErrorCode) (r : Results) : (s.finish e r).turns = s.turns := rfl
@[simp] theorem State.finish_clock (e : ErrorCode) (r : Results) : (s.finish e r).clock = s.clock := rfl
@[simp] theorem State.finish_draws (e : ErrorCode) (r : Results) : (s.finish e r).draws = s.draws.tail := rfl
@[simp] theorem State.finish_drawCount (e : ErrorCode) (r : Results) : (s.finish e r).drawCount = s.drawCount + 1 := rfl
@[simp] theorem State.finish_readData (e : ErrorCode) (r : Results) : (s.finish e r).readData = s.readData := rfl

/-! ### Storing a result (`State.storeBytes`) -/

@[simp] theorem State.storeBytes_ie (off : Nat) (y : Bytes) : (s.storeBytes off y).ie = s.ie := rfl
@[simp] theorem State.storeBytes_doneFlag (off : Nat) (y : Bytes) : (s.storeBytes off y).doneFlag = s.doneFlag := rfl
@[simp] theorem State.storeBytes_cmdOvr (off : Nat) (y : Bytes) : (s.storeBytes off y).cmdOvr = s.cmdOvr := rfl
@[simp] theorem State.storeBytes_busErr (off : Nat) (y : Bytes) : (s.storeBytes off y).busErr = s.busErr := rfl
@[simp] theorem State.storeBytes_err (off : Nat) (y : Bytes) : (s.storeBytes off y).err = s.err := rfl
@[simp] theorem State.storeBytes_cmd (off : Nat) (y : Bytes) : (s.storeBytes off y).cmd = s.cmd := rfl
@[simp] theorem State.storeBytes_irqStatus (off : Nat) (y : Bytes) : (s.storeBytes off y).irqStatus = s.irqStatus := rfl
@[simp] theorem State.storeBytes_irqEnable (off : Nat) (y : Bytes) : (s.storeBytes off y).irqEnable = s.irqEnable := rfl
@[simp] theorem State.storeBytes_args (off : Nat) (y : Bytes) : (s.storeBytes off y).args = s.args := rfl
@[simp] theorem State.storeBytes_results (off : Nat) (y : Bytes) : (s.storeBytes off y).results = s.results := rfl
@[simp] theorem State.storeBytes_kxPhase (off : Nat) (y : Bytes) : (s.storeBytes off y).kxPhase = s.kxPhase := rfl
@[simp] theorem State.storeBytes_slotTag (off : Nat) (y : Bytes) : (s.storeBytes off y).slotTag = s.slotTag := rfl
@[simp] theorem State.storeBytes_slotPriv (off : Nat) (y : Bytes) : (s.storeBytes off y).slotPriv = s.slotPriv := rfl
@[simp] theorem State.storeBytes_ch0 (off : Nat) (y : Bytes) : (s.storeBytes off y).ch0 = s.ch0 := rfl
@[simp] theorem State.storeBytes_ch1 (off : Nat) (y : Bytes) : (s.storeBytes off y).ch1 = s.ch1 := rfl
@[simp] theorem State.storeBytes_dmem (off : Nat) (y : Bytes) : (s.storeBytes off y).dmem = s.dmem.writeBytes off y := rfl
@[simp] theorem State.storeBytes_latch (off : Nat) (y : Bytes) : (s.storeBytes off y).latch = s.latch := rfl
@[simp] theorem State.storeBytes_turns (off : Nat) (y : Bytes) : (s.storeBytes off y).turns = s.turns := rfl
@[simp] theorem State.storeBytes_clock (off : Nat) (y : Bytes) : (s.storeBytes off y).clock = s.clock := rfl
@[simp] theorem State.storeBytes_draws (off : Nat) (y : Bytes) : (s.storeBytes off y).draws = s.draws := rfl
@[simp] theorem State.storeBytes_drawCount (off : Nat) (y : Bytes) : (s.storeBytes off y).drawCount = s.drawCount := rfl
@[simp] theorem State.storeBytes_readData (off : Nat) (y : Bytes) : (s.storeBytes off y).readData = s.readData := rfl

/-! ### Writing the key slot (`State.setSlot`) -/

@[simp] theorem State.setSlot_ie (ph : KxPhase) (tag : Option Tag) (k : Nat) : (s.setSlot ph tag k).ie = s.ie := rfl
@[simp] theorem State.setSlot_doneFlag (ph : KxPhase) (tag : Option Tag) (k : Nat) : (s.setSlot ph tag k).doneFlag = s.doneFlag := rfl
@[simp] theorem State.setSlot_cmdOvr (ph : KxPhase) (tag : Option Tag) (k : Nat) : (s.setSlot ph tag k).cmdOvr = s.cmdOvr := rfl
@[simp] theorem State.setSlot_busErr (ph : KxPhase) (tag : Option Tag) (k : Nat) : (s.setSlot ph tag k).busErr = s.busErr := rfl
@[simp] theorem State.setSlot_err (ph : KxPhase) (tag : Option Tag) (k : Nat) : (s.setSlot ph tag k).err = s.err := rfl
@[simp] theorem State.setSlot_cmd (ph : KxPhase) (tag : Option Tag) (k : Nat) : (s.setSlot ph tag k).cmd = s.cmd := rfl
@[simp] theorem State.setSlot_irqStatus (ph : KxPhase) (tag : Option Tag) (k : Nat) : (s.setSlot ph tag k).irqStatus = s.irqStatus := rfl
@[simp] theorem State.setSlot_irqEnable (ph : KxPhase) (tag : Option Tag) (k : Nat) : (s.setSlot ph tag k).irqEnable = s.irqEnable := rfl
@[simp] theorem State.setSlot_args (ph : KxPhase) (tag : Option Tag) (k : Nat) : (s.setSlot ph tag k).args = s.args := rfl
@[simp] theorem State.setSlot_results (ph : KxPhase) (tag : Option Tag) (k : Nat) : (s.setSlot ph tag k).results = s.results := rfl
@[simp] theorem State.setSlot_kxPhase (ph : KxPhase) (tag : Option Tag) (k : Nat) : (s.setSlot ph tag k).kxPhase = ph := rfl
@[simp] theorem State.setSlot_slotTag (ph : KxPhase) (tag : Option Tag) (k : Nat) : (s.setSlot ph tag k).slotTag = tag := rfl
@[simp] theorem State.setSlot_slotPriv (ph : KxPhase) (tag : Option Tag) (k : Nat) : (s.setSlot ph tag k).slotPriv = k := rfl
@[simp] theorem State.setSlot_ch0 (ph : KxPhase) (tag : Option Tag) (k : Nat) : (s.setSlot ph tag k).ch0 = s.ch0 := rfl
@[simp] theorem State.setSlot_ch1 (ph : KxPhase) (tag : Option Tag) (k : Nat) : (s.setSlot ph tag k).ch1 = s.ch1 := rfl
@[simp] theorem State.setSlot_dmem (ph : KxPhase) (tag : Option Tag) (k : Nat) : (s.setSlot ph tag k).dmem = s.dmem := rfl
@[simp] theorem State.setSlot_latch (ph : KxPhase) (tag : Option Tag) (k : Nat) : (s.setSlot ph tag k).latch = s.latch := rfl
@[simp] theorem State.setSlot_turns (ph : KxPhase) (tag : Option Tag) (k : Nat) : (s.setSlot ph tag k).turns = s.turns := rfl
@[simp] theorem State.setSlot_clock (ph : KxPhase) (tag : Option Tag) (k : Nat) : (s.setSlot ph tag k).clock = s.clock := rfl
@[simp] theorem State.setSlot_draws (ph : KxPhase) (tag : Option Tag) (k : Nat) : (s.setSlot ph tag k).draws = s.draws := rfl
@[simp] theorem State.setSlot_drawCount (ph : KxPhase) (tag : Option Tag) (k : Nat) : (s.setSlot ph tag k).drawCount = s.drawCount := rfl
@[simp] theorem State.setSlot_readData (ph : KxPhase) (tag : Option Tag) (k : Nat) : (s.setSlot ph tag k).readData = s.readData := rfl

/-! ### Replacing a channel (`State.setChannel`) -/

@[simp] theorem State.setChannel_ie (c : ChannelId) (ch : Channel) : (s.setChannel c ch).ie = s.ie := by
  cases c <;> rfl
@[simp] theorem State.setChannel_doneFlag (c : ChannelId) (ch : Channel) : (s.setChannel c ch).doneFlag = s.doneFlag := by
  cases c <;> rfl
@[simp] theorem State.setChannel_cmdOvr (c : ChannelId) (ch : Channel) : (s.setChannel c ch).cmdOvr = s.cmdOvr := by
  cases c <;> rfl
@[simp] theorem State.setChannel_busErr (c : ChannelId) (ch : Channel) : (s.setChannel c ch).busErr = s.busErr := by
  cases c <;> rfl
@[simp] theorem State.setChannel_err (c : ChannelId) (ch : Channel) : (s.setChannel c ch).err = s.err := by
  cases c <;> rfl
@[simp] theorem State.setChannel_cmd (c : ChannelId) (ch : Channel) : (s.setChannel c ch).cmd = s.cmd := by
  cases c <;> rfl
@[simp] theorem State.setChannel_irqStatus (c : ChannelId) (ch : Channel) : (s.setChannel c ch).irqStatus = s.irqStatus := by
  cases c <;> rfl
@[simp] theorem State.setChannel_irqEnable (c : ChannelId) (ch : Channel) : (s.setChannel c ch).irqEnable = s.irqEnable := by
  cases c <;> rfl
@[simp] theorem State.setChannel_args (c : ChannelId) (ch : Channel) : (s.setChannel c ch).args = s.args := by
  cases c <;> rfl
@[simp] theorem State.setChannel_results (c : ChannelId) (ch : Channel) : (s.setChannel c ch).results = s.results := by
  cases c <;> rfl
@[simp] theorem State.setChannel_kxPhase (c : ChannelId) (ch : Channel) : (s.setChannel c ch).kxPhase = s.kxPhase := by
  cases c <;> rfl
@[simp] theorem State.setChannel_slotTag (c : ChannelId) (ch : Channel) : (s.setChannel c ch).slotTag = s.slotTag := by
  cases c <;> rfl
@[simp] theorem State.setChannel_slotPriv (c : ChannelId) (ch : Channel) : (s.setChannel c ch).slotPriv = s.slotPriv := by
  cases c <;> rfl
@[simp] theorem State.setChannel_dmem (c : ChannelId) (ch : Channel) : (s.setChannel c ch).dmem = s.dmem := by
  cases c <;> rfl
@[simp] theorem State.setChannel_latch (c : ChannelId) (ch : Channel) : (s.setChannel c ch).latch = s.latch := by
  cases c <;> rfl
@[simp] theorem State.setChannel_turns (c : ChannelId) (ch : Channel) : (s.setChannel c ch).turns = s.turns := by
  cases c <;> rfl
@[simp] theorem State.setChannel_clock (c : ChannelId) (ch : Channel) : (s.setChannel c ch).clock = s.clock := by
  cases c <;> rfl
@[simp] theorem State.setChannel_draws (c : ChannelId) (ch : Channel) : (s.setChannel c ch).draws = s.draws := by
  cases c <;> rfl
@[simp] theorem State.setChannel_drawCount (c : ChannelId) (ch : Channel) : (s.setChannel c ch).drawCount = s.drawCount := by
  cases c <;> rfl
@[simp] theorem State.setChannel_readData (c : ChannelId) (ch : Channel) : (s.setChannel c ch).readData = s.readData := by
  cases c <;> rfl
@[simp] theorem State.setChannel_zero_ch0 (ch : Channel) : (s.setChannel .zero ch).ch0 = ch := rfl
@[simp] theorem State.setChannel_zero_ch1 (ch : Channel) : (s.setChannel .zero ch).ch1 = s.ch1 := rfl
@[simp] theorem State.setChannel_one_ch0 (ch : Channel) : (s.setChannel .one ch).ch0 = s.ch0 := rfl
@[simp] theorem State.setChannel_one_ch1 (ch : Channel) : (s.setChannel .one ch).ch1 = ch := rfl

/-! ### Raising an event (`State.raiseEvent`) -/

@[simp] theorem State.raiseEvent_ie (c : ChannelId) : (s.raiseEvent c).ie = s.ie := by
  cases c <;> rfl
@[simp] theorem State.raiseEvent_doneFlag (c : ChannelId) : (s.raiseEvent c).doneFlag = s.doneFlag := by
  cases c <;> rfl
@[simp] theorem State.raiseEvent_cmdOvr (c : ChannelId) : (s.raiseEvent c).cmdOvr = s.cmdOvr := by
  cases c <;> rfl
@[simp] theorem State.raiseEvent_busErr (c : ChannelId) : (s.raiseEvent c).busErr = s.busErr := by
  cases c <;> rfl
@[simp] theorem State.raiseEvent_err (c : ChannelId) : (s.raiseEvent c).err = s.err := by
  cases c <;> rfl
@[simp] theorem State.raiseEvent_cmd (c : ChannelId) : (s.raiseEvent c).cmd = s.cmd := by
  cases c <;> rfl
@[simp] theorem State.raiseEvent_irqStatus (c : ChannelId) : (s.raiseEvent c).irqStatus = s.irqStatus ||| irqEvent c := by
  cases c <;> rfl
@[simp] theorem State.raiseEvent_irqEnable (c : ChannelId) : (s.raiseEvent c).irqEnable = s.irqEnable := by
  cases c <;> rfl
@[simp] theorem State.raiseEvent_args (c : ChannelId) : (s.raiseEvent c).args = s.args := by
  cases c <;> rfl
@[simp] theorem State.raiseEvent_results (c : ChannelId) : (s.raiseEvent c).results = s.results := by
  cases c <;> rfl
@[simp] theorem State.raiseEvent_kxPhase (c : ChannelId) : (s.raiseEvent c).kxPhase = s.kxPhase := by
  cases c <;> rfl
@[simp] theorem State.raiseEvent_slotTag (c : ChannelId) : (s.raiseEvent c).slotTag = s.slotTag := by
  cases c <;> rfl
@[simp] theorem State.raiseEvent_slotPriv (c : ChannelId) : (s.raiseEvent c).slotPriv = s.slotPriv := by
  cases c <;> rfl
@[simp] theorem State.raiseEvent_dmem (c : ChannelId) : (s.raiseEvent c).dmem = s.dmem := by
  cases c <;> rfl
@[simp] theorem State.raiseEvent_latch (c : ChannelId) : (s.raiseEvent c).latch = s.latch := by
  cases c <;> rfl
@[simp] theorem State.raiseEvent_turns (c : ChannelId) : (s.raiseEvent c).turns = s.turns := by
  cases c <;> rfl
@[simp] theorem State.raiseEvent_clock (c : ChannelId) : (s.raiseEvent c).clock = s.clock := by
  cases c <;> rfl
@[simp] theorem State.raiseEvent_draws (c : ChannelId) : (s.raiseEvent c).draws = s.draws := by
  cases c <;> rfl
@[simp] theorem State.raiseEvent_drawCount (c : ChannelId) : (s.raiseEvent c).drawCount = s.drawCount := by
  cases c <;> rfl
@[simp] theorem State.raiseEvent_readData (c : ChannelId) : (s.raiseEvent c).readData = s.readData := by
  cases c <;> rfl

/-! ### The soft reset (`State.softReset`) -/

@[simp] theorem State.softReset_ie : s.softReset.ie = State.reset.ie := rfl
@[simp] theorem State.softReset_doneFlag : s.softReset.doneFlag = State.reset.doneFlag := rfl
@[simp] theorem State.softReset_cmdOvr : s.softReset.cmdOvr = State.reset.cmdOvr := rfl
@[simp] theorem State.softReset_busErr : s.softReset.busErr = State.reset.busErr := rfl
@[simp] theorem State.softReset_err : s.softReset.err = State.reset.err := rfl
@[simp] theorem State.softReset_cmd : s.softReset.cmd = State.reset.cmd := rfl
@[simp] theorem State.softReset_irqStatus : s.softReset.irqStatus = State.reset.irqStatus := rfl
@[simp] theorem State.softReset_irqEnable : s.softReset.irqEnable = State.reset.irqEnable := rfl
@[simp] theorem State.softReset_args : s.softReset.args = State.reset.args := rfl
@[simp] theorem State.softReset_results : s.softReset.results = State.reset.results := rfl
@[simp] theorem State.softReset_kxPhase : s.softReset.kxPhase = State.reset.kxPhase := rfl
@[simp] theorem State.softReset_slotTag : s.softReset.slotTag = State.reset.slotTag := rfl
@[simp] theorem State.softReset_slotPriv : s.softReset.slotPriv = State.reset.slotPriv := rfl
@[simp] theorem State.softReset_ch0 : s.softReset.ch0 = State.reset.ch0 := rfl
@[simp] theorem State.softReset_ch1 : s.softReset.ch1 = State.reset.ch1 := rfl
@[simp] theorem State.softReset_dmem : s.softReset.dmem = State.reset.dmem := rfl
@[simp] theorem State.softReset_latch : s.softReset.latch = State.reset.latch := rfl
@[simp] theorem State.softReset_turns : s.softReset.turns = s.turns := rfl
@[simp] theorem State.softReset_clock : s.softReset.clock = s.clock := rfl
@[simp] theorem State.softReset_draws : s.softReset.draws = s.draws := rfl
@[simp] theorem State.softReset_drawCount : s.softReset.drawCount = s.drawCount := rfl
@[simp] theorem State.softReset_readData : s.softReset.readData = s.readData := rfl

/-! ### Channels by their number -/

@[simp] theorem State.channel_zero : s.channel .zero = s.ch0 := rfl
@[simp] theorem State.channel_one : s.channel .one = s.ch1 := rfl
@[simp] theorem otherChannel_zero : otherChannel .zero = .one := rfl
@[simp] theorem otherChannel_one : otherChannel .one = .zero := rfl

@[simp] theorem otherChannel_ne (c : ChannelId) : otherChannel c ≠ c := by
  cases c <;> decide

/-- A channel is either of the two. -/
theorem channel_cases (c d : ChannelId) : d = c ∨ d = otherChannel c := by
  cases c <;> cases d <;> simp

@[simp] theorem State.channel_setChannel (c : ChannelId) (ch : Channel) : (s.setChannel c ch).channel c = ch := by
  cases c <;> rfl

@[simp] theorem State.channel_setChannel_other (c : ChannelId) (ch : Channel) :
    (s.setChannel c ch).channel (otherChannel c) = s.channel (otherChannel c) := by
  cases c <;> rfl

@[simp] theorem State.channel_raiseEvent (c : ChannelId) :
    (s.raiseEvent c).channel c
      = { s.channel c with
          eventsReg := (s.channel c).eventsReg + 1
          run := { (s.channel c).run with events := (s.channel c).run.events + 1 } } := by
  cases c <;> rfl

@[simp] theorem State.channel_raiseEvent_other (c : ChannelId) :
    (s.raiseEvent c).channel (otherChannel c) = s.channel (otherChannel c) := by
  cases c <;> rfl

@[simp] theorem State.channel_finish (c : ChannelId) (e : ErrorCode) (r : Results) :
    (s.finish e r).channel c = s.channel c := by
  cases c <;> rfl

@[simp] theorem State.channel_storeBytes (c : ChannelId) (off : Nat) (y : Bytes) :
    (s.storeBytes off y).channel c = s.channel c := by
  cases c <;> rfl

@[simp] theorem State.channel_setSlot (c : ChannelId) (ph : KxPhase) (tag : Option Tag) (k : Nat) :
    (s.setSlot ph tag k).channel c = s.channel c := by
  cases c <;> rfl

end Sys2Proof.Machine
end

