-- ==== Sys2Proof/Laws/Ops.lean ====
section
/-! SUPPORT. What each shared operation can do, said once: the completion step, the descriptor checks, and the
delivery of a result. The meanings of the commands are compositions of these. -/

namespace Sys2Proof.Machine

open Sys2Proof

/-! ### Ranges -/

/-- The overlap test is the spec's "shares a byte" (20_memory.md R44). -/
theorem overlaps_iff (d e : Descriptor) : d.overlaps e = true ↔ SharesByte d e := by
  simp only [Descriptor.overlaps, decide_eq_true_eq, SharesByte]
  constructor
  · intro h
    exact ⟨max d.off e.off, by omega, by omega, by omega, by omega⟩
  · rintro ⟨a, h1, h2, h3, h4⟩
    omega

theorem admitted_iff (d : Descriptor) : d.admitted = true ↔ d.off + d.len ≤ 65536 :=
  decide_eq_true_iff

theorem active_iff (s : State) (c : ChannelId) : (s.channel c).active = true ↔ ActiveChannel s c := by
  simp [Channel.active, ActiveChannel]

/-- The check against a channel's reserved range (20_memory.md R44). -/
theorem hitsChannel_iff (d : Descriptor) (s : State) (c : ChannelId) :
    d.hitsChannel (s.channel c) = true ↔ ActiveChannel s c ∧ SharesByte d (s.channel c).resultRange := by
  rw [Descriptor.hitsChannel, Bool.and_eq_true, active_iff, overlaps_iff]

/-! ### The descriptor checks -/

theorem insideDmem_iff (ds : List Descriptor) : ds.any (fun d => !d.admitted) = false ↔ InsideDmem ds := by
  rw [List.any_eq_false]
  simp only [InsideDmem, Bool.not_eq_true, Bool.not_eq_false', admitted_iff]

/-- The descriptor checks pass exactly when the operands are as R43 and R44 ask. -/
theorem operandError_eq_none (s : State) (ins : List Descriptor) :
    operandError s ins = none ↔ OperandsOk s ins := by
  have hits : ∀ c, s.latch.a.dst.hitsChannel (s.channel c) = false
      ↔ (ActiveChannel s c → ¬SharesByte s.latch.a.dst (s.channel c).resultRange) := by
    intro c
    rw [← Bool.not_eq_true, hitsChannel_iff]
    tauto
  have h0 := hits .zero
  have h1 := hits .one
  simp only [State.channel_zero, State.channel_one] at h0 h1
  have hin := insideDmem_iff (ins ++ [s.latch.a.dst])
  have hap : ins.any s.latch.a.dst.overlaps = false ↔ ∀ d ∈ ins, ¬SharesByte s.latch.a.dst d := by
    rw [List.any_eq_false]
    simp only [overlaps_iff]
  constructor
  · intro h
    simp only [operandError] at h
    split at h
    · simp at h
    · rename_i hr
      split at h
      · simp at h
      · rename_i ho
        simp only [Bool.not_eq_true, Bool.or_eq_false_iff] at hr ho
        refine ⟨hin.mp hr, hap.mp ho.1.1, fun c => ?_⟩
        cases c
        · exact h0.mp ho.1.2
        · exact h1.mp ho.2
  · intro h
    simp only [operandError, hin.mpr h.inside, hap.mpr h.apart, h0.mpr (h.unreserved .zero),
      h1.mpr (h.unreserved .one)]
    simp

/-- The descriptor checks raise ERR_RANGE or ERR_OVERLAP and nothing else. -/
theorem operandError_cases (s : State) (ins : List Descriptor) (e : ErrorCode) (h : operandError s ins = some e) :
    e = .range ∨ e = .overlap := by
  simp only [operandError] at h
  split at h
  · simp_all
  · split at h <;> simp_all

/-- A command with admitted operands runs on. -/
theorem withOperands_of_ok (s : State) (ins : List Descriptor) (k : Except ErrorCode Effect) (h : OperandsOk s ins) :
    withOperands s ins k = k := by
  rw [withOperands, (operandError_eq_none s ins).mpr h]

/-- What a command with operands can answer: its continuation's answer, or a descriptor error. -/
theorem withOperands_cases (s : State) (ins : List Descriptor) (k : Except ErrorCode Effect) :
    (OperandsOk s ins ∧ withOperands s ins k = k)
      ∨ withOperands s ins k = .error .range ∨ withOperands s ins k = .error .overlap := by
  cases h : operandError s ins with
  | none => exact .inl ⟨(operandError_eq_none s ins).mp h, by rw [withOperands, h]⟩
  | some e =>
    right
    rcases operandError_cases s ins e h with rfl | rfl <;> simp [withOperands, h]

/-- A command whose inputs are admitted runs on. -/
theorem withInputs_of_ok (ins : List Descriptor) (k : Except ErrorCode Effect) (h : InsideDmem ins) :
    withInputs ins k = k := by
  rw [withInputs, if_neg (by rw [(insideDmem_iff ins).mpr h]; simp)]

/-- What a command with inputs only can answer. -/
theorem withInputs_cases (ins : List Descriptor) (k : Except ErrorCode Effect) :
    (InsideDmem ins ∧ withInputs ins k = k) ∨ withInputs ins k = .error .range := by
  by_cases h : ins.any (fun d => !d.admitted) = true
  · exact .inr (by rw [withInputs, if_pos h])
  · have h' := (insideDmem_iff ins).mp (by simpa using h)
    exact .inl ⟨h', withInputs_of_ok ins k h'⟩

/-! ### Delivering a result -/

/-- The operands read as many bytes as their descriptor says. -/
@[simp] theorem State.operand_length (s : State) (d : Descriptor) : (s.operand d).length = d.len := by
  simp [State.operand]

/-- What the delivery of a result can answer (20_memory.md R45). -/
theorem deliver_cases (s : State) (y : Bytes) (r : Results) :
    (y.length ≤ s.latch.a.dst.len ∧ deliver s y r
        = .ok { state := s.storeBytes s.latch.a.dst.off y, results := { r with outLen := BitVec.ofNat 32 y.length } })
      ∨ (s.latch.a.dst.len < y.length ∧ deliver s y r = .error .capacity) := by
  by_cases h : s.latch.a.dst.len < y.length
  · exact .inr ⟨h, by rw [deliver, if_pos h]⟩
  · exact .inl ⟨by omega, by rw [deliver, if_neg h]⟩

/-- A result that fits is stored. -/
theorem deliver_of_fits (s : State) (y : Bytes) (r : Results) (h : y.length ≤ s.latch.a.dstCap.toNat) :
    deliver s y r
      = .ok { state := s.storeBytes s.latch.a.dstOff.toNat y, results := { r with outLen := BitVec.ofNat 32 y.length } } := by
  rw [deliver, if_neg (show ¬s.latch.a.dst.len < y.length by simpa [Args.dst] using h)]
  rfl

/-! ### Completion -/

theorem complete_ok (s : State) (effect : Effect) :
    complete s (.ok effect) = .next (effect.state.finish .ok effect.results) := rfl

theorem complete_error (s : State) (e : ErrorCode) : complete s (.error e) = .next (s.finish e {}) := rfl

/-- What a completion can answer: it always answers a next state (60_exceptions.md R159). -/
theorem complete_cases (s t : State) (o : Except ErrorCode Effect) (h : complete s o = .next t) :
    (∃ effect, o = .ok effect ∧ t = effect.state.finish .ok effect.results)
      ∨ (∃ e, o = .error e ∧ t = s.finish e {}) := by
  cases o with
  | ok effect => exact .inl ⟨effect, rfl, by simpa [complete] using h.symm⟩
  | error e => exact .inr ⟨e, rfl, by simpa [complete] using h.symm⟩

/-- The completion step's registers (10_state.md R33), for a state whose latch and draws are those of s. -/
theorem finish_completed (s u : State) (e : ErrorCode) (r : Results) (latch : u.latch = s.latch)
    (irq : u.irqStatus = s.irqStatus) (draws : u.draws = s.draws) (count : u.drawCount = s.drawCount) :
    Completed s (u.finish e r) e r where
  err := rfl
  results := rfl
  doneFlag := rfl
  pending := rfl
  latchFields := by simp [latch]
  irqStatus := by simp [irq, irqCmdDone]
  draws := by simp [draws, count]

/-- A command whose rule raises e fails with e and leaves the rest (60_exceptions.md R159, R160). -/
theorem fails_of_error (i : Instr) (s : State) (e : ErrorCode) (h : exec i s = complete s (.error e)) : Fails i s e :=
  ⟨s.finish e {}, h, finish_completed s s e {} rfl rfl rfl rfl, ⟨rfl, rfl, rfl, rfl, rfl, rfl, rfl, rfl, rfl⟩,
    ⟨rfl, rfl, rfl⟩, ⟨rfl, rfl⟩, rfl⟩

/-- A command whose rule only answers registers changes nothing else. -/
theorem answers_of_ok (i : Instr) (s : State) (r : Results)
    (h : exec i s = complete s (.ok { state := s, results := r })) : Answers i s r :=
  ⟨s.finish .ok r, h, finish_completed s s .ok r rfl rfl rfl rfl, ⟨rfl, rfl, rfl, rfl, rfl, rfl, rfl, rfl, rfl⟩,
    ⟨rfl, rfl, rfl⟩, ⟨rfl, rfl⟩, fun _ => rfl⟩

/-- A command whose rule delivers a result that fits stores it, and nothing else changes. -/
theorem stores_of_deliver (i : Instr) (s : State) (y : Bytes) (r : Results) (wf : s.dmem.wf = true)
    (fits : y.length ≤ s.latch.a.dstCap.toNat) (h : exec i s = complete s (deliver s y r)) : Stores i s y r := by
  rw [deliver_of_fits s y r fits, complete_ok] at h
  exact ⟨_, h, finish_completed s _ _ _ rfl rfl rfl rfl, ⟨rfl, rfl, rfl, rfl, rfl, rfl, rfl, rfl, rfl⟩,
    ⟨rfl, rfl, rfl⟩, ⟨rfl, rfl⟩, fun a => Memory.read_writeBytes s.dmem _ a y wf⟩

/-- A command whose rule only replaces a channel. -/
theorem movesChannel_of_ok (i : Instr) (s : State) (c : ChannelId) (ch : Channel)
    (h : exec i s = complete s (.ok { state := s.setChannel c ch })) : MovesChannel i s c ch := by
  rw [complete_ok] at h
  refine ⟨_, h, finish_completed s _ _ _ (by simp) (by simp) (by simp) (by simp), ?_, ?_, ?_, by simp, by simp⟩
  · constructor <;> simp
  · constructor <;> simp
  · intro a; simp

end Sys2Proof.Machine
end

