-- ==== Sys2Proof/Laws/Commands.lean ====
section
/-! SUPPORT. What a command can do, said once: every meaning is the completion of its rule, and a rule that succeeds
leaves the state as it was, stores a result in DST, moves a channel, or moves the key slot. -/

namespace Sys2Proof.Machine

open Sys2Proof

/-- The rule that a command's meaning completes. -/
def ruleOf (i : Instr) (s : State) : Except ErrorCode Effect :=
  match i with
  | .nop => .ok { state := s }
  | .pad c => padCommand c s
  | .unpad c => unpadCommand c s
  | .keyfit => keyfitCommand s
  | .hash a => hashCommand a s
  | .stretch a => stretchCommand a s
  | .scryptStart c => scryptStartCommand c s
  | .scryptAck c => scryptAckCommand c s
  | .scryptCancel c => scryptCancelCommand c s
  | .cipherEnc a m c => cipherEncCommand a m c s
  | .cipherDec a m c => cipherDecCommand a m c s
  | .macGen => macGenCommand s
  | .macVerify => macVerifyCommand s
  | .envEnc m c x => envEncCommand m c x s
  | .envDec m c x => envDecCommand m c x s
  | .kxGenerate x => kxGenerateCommand x s
  | .kxSerialize x => kxSerializeCommand x s
  | .kxParse => kxParseCommand s
  | .kxCompute => kxComputeCommand s
  | .kxNuke => .ok { state := s.setSlot .noKey none 0 }
  | .kxApplied => kxAppliedCommand s
  | .saltOrder => saltOrderCommand s

/-- Every meaning is the completion of its rule (10_state.md R33). -/
theorem exec_eq_complete (i : Instr) (s : State) : exec i s = complete s (ruleOf i s) := by
  cases i <;> rfl

/-- The result of a rule that stores y in DST. -/
def StoresResult (s : State) (e : Effect) : Prop :=
  ∃ ins y r, OperandsOk s ins ∧ y.length ≤ s.latch.a.dst.len
    ∧ e = { state := s.storeBytes s.latch.a.dst.off y, results := r }

/-- A delivery behind descriptor checks. -/
theorem storesResult_of_deliver (s : State) (ins : List Descriptor) (y : Bytes) (r : Results) (e : Effect)
    (h : withOperands s ins (deliver s y r) = .ok e) : StoresResult s e := by
  rcases withOperands_cases s ins (deliver s y r) with ⟨ok, hk⟩ | hk | hk
  · rw [hk] at h
    rcases deliver_cases s y r with ⟨hl, hd⟩ | ⟨-, hd⟩
    · rw [hd] at h
      exact ⟨ins, y, _, ok, hl, (Except.ok.inj h).symm⟩
    · rw [hd] at h; contradiction
  · rw [hk] at h; contradiction
  · rw [hk] at h; contradiction

/-- A fallible result delivered behind descriptor checks. -/
theorem storesResult_of_match (s : State) (ins : List Descriptor) (o : Except ErrorCode Bytes) (r : Results) (e : Effect)
    (h : withOperands s ins (match o with | .error c => .error c | .ok y => deliver s y r) = .ok e) :
    StoresResult s e := by
  cases o with
  | ok y => exact storesResult_of_deliver s ins y r e h
  | error c =>
    rcases withOperands_cases s ins (.error c) with ⟨-, hk⟩ | hk | hk <;> rw [hk] at h <;> contradiction

/-- What SCRYPT_START leaves when no check fails (42_scrypt.md R88). -/
structure StartsChannel (c : ChannelId) (s : State) (e : Effect) : Prop where
  config : scryptConfigOk s.latch.a.param0.toNat s.latch.a.param1.toNat s.latch.a.param2.toNat s.latch.a.param3.toNat = true
  memory : scryptMemoryOk s.latch.a.param0.toNat s.latch.a.param1.toNat s.latch.a.param2.toNat = true
  idle : ¬ActiveChannel s c
  inside : InsideDmem [s.latch.a.a, s.latch.a.b, s.latch.a.dst]
  apart : ActiveChannel s (otherChannel c) →
    ¬SharesByte ⟨s.latch.a.dstOff.toNat, s.latch.a.param3.toNat⟩ (s.channel (otherChannel c)).resultRange
  fits : s.latch.a.param3.toNat ≤ s.latch.a.dstCap.toNat
  effect : e =
    { state := s.setChannel c
        (startedChannel (s.operand s.latch.a.a) (s.operand s.latch.a.b) s.latch.a.param0.toNat s.latch.a.param1.toNat
          s.latch.a.param2.toNat s.latch.a.param3.toNat s.latch.a.dstOff.toNat) }

theorem scryptStartCommand_ok (c : ChannelId) (s : State) (e : Effect) (h : scryptStartCommand c s = .ok e) :
    StartsChannel c s e := by
  simp only [scryptStartCommand] at h
  split at h
  · contradiction
  rename_i hc
  split at h
  · contradiction
  rename_i hm
  split at h
  · contradiction
  rename_i ha
  split at h
  · contradiction
  rename_i hr
  split at h
  · contradiction
  rename_i ho
  split at h
  · contradiction
  rename_i hcap
  exact
    { config := by simpa using hc
      memory := by simpa using hm
      idle := fun hact => ha ((active_iff s c).mpr hact)
      inside := (insideDmem_iff _).mp (by simpa using hr)
      apart := fun hact hsh => ho ((hitsChannel_iff _ s _).mpr ⟨hact, hsh⟩)
      fits := by omega
      effect := (Except.ok.inj h).symm }

/-- What a rule that succeeds can do: the one inversion of every command. -/
theorem ruleOf_ok (i : Instr) (s : State) (e : Effect) (h : ruleOf i s = .ok e) :
    e.state = s
      ∨ StoresResult s e
      ∨ (∃ c, i = .scryptStart c ∧ StartsChannel c s e)
      ∨ (∃ c, i = .scryptAck c ∧ (s.channel c).phase = .waitAck
          ∧ e = { state := s.setChannel c { s.channel c with phase := .running } })
      ∨ (∃ c, i = .scryptCancel c ∧ ActiveChannel s c
          ∧ e = { state := s.setChannel c { s.channel c with
                    phase := .running, cancelReqBit := true, run := { (s.channel c).run with cancelReq := true } } })
      ∨ (∃ sel t, i = .kxGenerate sel ∧ tagOfNat sel.toNat = some t ∧ OperandsOk s [] ∧ pubLen t ≤ s.latch.a.dst.len
          ∧ e = { state := (s.setSlot .keyGenerated (some t) (generatePrivate t s)).storeBytes s.latch.a.dst.off
                    (publicKey t (generatePrivate t s))
                  results := { outLen := BitVec.ofNat 32 (pubLen t), out0 := tagResult t } })
      ∨ (∃ t sec, i = .kxCompute ∧ s.slotTag = some t ∧ OperandsOk s [s.latch.a.a] ∧ secLen t ≤ s.latch.a.dst.len
          ∧ sharedSecret t s.slotPriv (s.operand s.latch.a.a) = some sec
          ∧ e = { state := (s.storeBytes s.latch.a.dst.off sec).setSlot .secretComputed none 0
                  results := { outLen := BitVec.ofNat 32 (secLen t), out0 := tagResult t } })
      ∨ (i = .kxNuke ∧ e = { state := s.setSlot .noKey none 0 })
      ∨ (i = .kxApplied ∧ s.kxPhase = .secretComputed ∧ e = { state := { s with kxPhase := .passwordsApplied } }) := by
  cases i with
  | nop => exact .inl (by rw [← Except.ok.inj h])
  | pad c =>
    simp only [ruleOf, padCommand] at h
    split at h
    · contradiction
    split at h
    · contradiction
    exact .inr (.inl (storesResult_of_deliver _ _ _ _ _ h))
  | unpad c =>
    simp only [ruleOf, unpadCommand] at h
    split at h
    · contradiction
    split at h
    · contradiction
    exact .inr (.inl (storesResult_of_match _ _ _ _ _ h))
  | keyfit =>
    simp only [ruleOf, keyfitCommand] at h
    split at h
    · contradiction
    exact .inr (.inl (storesResult_of_deliver _ _ _ _ _ h))
  | hash a =>
    simp only [ruleOf, hashCommand] at h
    split at h
    · contradiction
    exact .inr (.inl (storesResult_of_deliver _ _ _ _ _ h))
  | stretch a =>
    simp only [ruleOf, stretchCommand] at h
    split at h
    · contradiction
    split at h
    · contradiction
    exact .inr (.inl (storesResult_of_deliver _ _ _ _ _ h))
  | scryptStart c => exact .inr (.inr (.inl ⟨c, rfl, scryptStartCommand_ok c s e h⟩))
  | scryptAck c =>
    simp only [ruleOf, scryptAckCommand] at h
    split at h
    · rename_i hp
      exact .inr (.inr (.inr (.inl ⟨c, rfl, hp, (Except.ok.inj h).symm⟩)))
    · contradiction
  | scryptCancel c =>
    simp only [ruleOf, scryptCancelCommand] at h
    split at h
    · rename_i hp
      exact .inr (.inr (.inr (.inr (.inl ⟨c, rfl, (active_iff s c).mp hp, (Except.ok.inj h).symm⟩))))
    · contradiction
  | cipherEnc a m c =>
    simp only [ruleOf, cipherEncCommand] at h
    split at h
    · exact .inr (.inl (storesResult_of_deliver _ _ _ _ _ h))
    · contradiction
  | cipherDec a m c =>
    simp only [ruleOf, cipherDecCommand] at h
    split at h
    · exact .inr (.inl (storesResult_of_match _ _ _ _ _ h))
    · contradiction
  | macGen => exact .inr (.inl (storesResult_of_deliver _ _ _ _ _ h))
  | macVerify =>
    simp only [ruleOf, macVerifyCommand] at h
    split at h
    · contradiction
    rcases withInputs_cases [s.latch.a.a, s.latch.a.b, s.latch.a.c] (if ctEqual (s.operand s.latch.a.c)
        (mac (s.operand s.latch.a.b) (s.operand s.latch.a.a)) then .ok { state := s, results := { out0 := 1 } }
        else .error .authFail) with ⟨-, hk⟩ | hk
    · rw [hk] at h
      split at h
      · exact .inl (by rw [← Except.ok.inj h])
      · contradiction
    · rw [hk] at h; contradiction
  | envEnc m c x =>
    simp only [ruleOf, envEncCommand] at h
    split at h
    · split at h
      · exact .inr (.inl (storesResult_of_deliver _ _ _ _ _ h))
      · contradiction
    · contradiction
  | envDec m c x =>
    simp only [ruleOf, envDecCommand] at h
    split at h
    · split at h
      · exact .inr (.inl (storesResult_of_match _ _ _ _ _ h))
      · contradiction
    · contradiction
  | kxGenerate x =>
    simp only [ruleOf, kxGenerateCommand] at h
    split at h
    · contradiction
    rename_i t ht
    rcases withOperands_cases s [] (if s.latch.a.dst.len < pubLen t then .error .capacity
        else .ok { state := (s.setSlot .keyGenerated (some t) (generatePrivate t s)).storeBytes s.latch.a.dst.off
                    (publicKey t (generatePrivate t s))
                   results := { outLen := BitVec.ofNat 32 (pubLen t), out0 := tagResult t } }) with ⟨ok, hk⟩ | hk | hk
    · rw [hk] at h
      split at h
      · contradiction
      · exact .inr (.inr (.inr (.inr (.inr (.inl ⟨x, t, rfl, ht, ok, by omega, (Except.ok.inj h).symm⟩)))))
    · rw [hk] at h; contradiction
    · rw [hk] at h; contradiction
  | kxSerialize x =>
    simp only [ruleOf, kxSerializeCommand] at h
    split at h
    · contradiction
    split at h
    · rcases withOperands_cases s [s.latch.a.a] (.error .length) with ⟨-, hk⟩ | hk | hk <;> rw [hk] at h <;> contradiction
    · exact .inr (.inl (storesResult_of_deliver _ _ _ _ _ h))
  | kxParse =>
    simp only [ruleOf, kxParseCommand] at h
    split at h
    · rcases withInputs_cases [s.latch.a.a] (.error .badBlob) with ⟨-, hk⟩ | hk <;> rw [hk] at h <;> contradiction
    · rename_i t n _
      rw [withInputs] at h
      split at h
      · contradiction
      · exact .inl (by rw [← Except.ok.inj h])
  | kxCompute =>
    simp only [ruleOf, kxComputeCommand] at h
    split at h
    · contradiction
    rename_i t ht
    split at h
    · rcases withOperands_cases s [s.latch.a.a] (.error .kxFail) with ⟨-, hk⟩ | hk | hk <;> rw [hk] at h <;> contradiction
    · rename_i sec hsec
      rcases withOperands_cases s [s.latch.a.a] (if s.latch.a.dst.len < secLen t then .error .capacity
          else .ok { state := (s.storeBytes s.latch.a.dst.off sec).setSlot .secretComputed none 0
                     results := { outLen := BitVec.ofNat 32 (secLen t), out0 := tagResult t } }) with ⟨ok, hk⟩ | hk | hk
      · rw [hk] at h
        split at h
        · contradiction
        · exact .inr (.inr (.inr (.inr (.inr (.inr (.inl ⟨t, sec, rfl, ht, ok, by omega, hsec, (Except.ok.inj h).symm⟩))))))
      · rw [hk] at h; contradiction
      · rw [hk] at h; contradiction
  | kxNuke => exact .inr (.inr (.inr (.inr (.inr (.inr (.inr (.inl ⟨rfl, (Except.ok.inj h).symm⟩)))))))
  | kxApplied =>
    simp only [ruleOf, kxAppliedCommand] at h
    split at h
    · rename_i hp
      exact .inr (.inr (.inr (.inr (.inr (.inr (.inr (.inr ⟨rfl, hp, (Except.ok.inj h).symm⟩)))))))
    · contradiction
  | saltOrder =>
    simp only [ruleOf, saltOrderCommand] at h
    split at h
    · rcases withInputs_cases [s.latch.a.a, s.latch.a.b] (.error .saltTie) with ⟨-, hk⟩ | hk <;> rw [hk] at h <;> contradiction
    · rw [withInputs] at h
      split at h
      · contradiction
      · exact .inl (by rw [← Except.ok.inj h])

end Sys2Proof.Machine
end

