-- ==== Sys2Proof/Laws/PerInstr.lean ====
section
/-! SUPPORT. Facts about every command as syntax, one lemma per constructor: the encoded word lies in the command's row
of the opcode map (spec/30_encoding.md R58). -/

namespace Sys2Proof.Laws.EncodeMatchesRow

open Sys2Proof

/-- The encoded word matches the command's row, and no other row of the opcode map. -/
def Statement (i : Instr) : Prop :=
  (rowOf i).accepts (encode i) = true ∧ ∀ r ∈ opcodeTable, r.accepts (encode i) = true → r = rowOf i

/-- The OP byte of a word. -/
theorem opcode_of_accepts (r : OpcodeRow) (w : Word) (h : r.accepts w = true) (hm : r.mask &&& 0xFF = 0xFF) :
    w &&& 0xFF = r.value &&& 0xFF := by
  have h' : w &&& r.mask = r.value := by simpa [OpcodeRow.accepts] using h
  rw [← h', BitVec.and_assoc, hm]

/-- Every row's mask covers OP, and the OP values of the rows are distinct. -/
theorem rows_distinct :
    (∀ r ∈ opcodeTable, r.mask &&& 0xFF = 0xFF)
      ∧ ∀ r ∈ opcodeTable, ∀ r' ∈ opcodeTable, r = r' ∨ r.value &&& 0xFF ≠ r'.value &&& 0xFF := by
  decide

/-- A word that matches a row of the table matches no other. -/
theorem unique_row (r : OpcodeRow) (w : Word) (hr : r ∈ opcodeTable) (hw : r.accepts w = true) :
    ∀ r' ∈ opcodeTable, r'.accepts w = true → r' = r := by
  intro r' hr' hw'
  have h := rows_distinct
  have h1 := opcode_of_accepts r w hw (h.1 r hr)
  have h2 := opcode_of_accepts r' w hw' (h.1 r' hr')
  rcases h.2 r' hr' r hr with h3 | h3
  · exact h3
  · exact absurd (h2.symm.trans h1) h3

/-- A mask over a word is a mask over each field (R55). -/
theorem encodeFields_and (f g : Fields) :
    encodeFields f &&& encodeFields g
      = encodeFields ⟨f.op &&& g.op, f.alg &&& g.alg, f.mode &&& g.mode, f.pad &&& g.pad, f.ch &&& g.ch, f.rsv &&& g.rsv,
          f.sel &&& g.sel⟩ := by
  apply BitVec.eq_of_getLsbD_eq
  intro i hi
  simp only [encodeFields, BitVec.getLsbD_and, BitVec.getLsbD_append]
  repeat' split
  all_goals rfl

/-- A word of fields matches a row whose mask and value are those fields'. -/
theorem accepts_of_fields (r : OpcodeRow) (f g : Fields) (hm : r.mask = encodeFields g)
    (hv : r.value = encodeFields ⟨f.op &&& g.op, f.alg &&& g.alg, f.mode &&& g.mode, f.pad &&& g.pad, f.ch &&& g.ch,
      f.rsv &&& g.rsv, f.sel &&& g.sel⟩) : r.accepts (encodeFields f) = true := by
  rw [OpcodeRow.accepts, hm, encodeFields_and, hv, beq_self_eq_true]

/-- The fields a row does not use are zero in the encoded word, so the word matches the row. -/
theorem of_accepts (i : Instr) (hr : rowOf i ∈ opcodeTable) (hw : (rowOf i).accepts (encode i) = true) : Statement i :=
  ⟨hw, unique_row _ _ hr hw⟩

theorem nop : Statement .nop := of_accepts _ (by simp [opcodeTable, rowOf]) (by decide)
theorem pad (c : BitVec 3) : Statement (.pad c) := of_accepts _ (by simp [opcodeTable, rowOf])
    (accepts_of_fields _ _ ⟨0xFF, 7, 7, 0, 1, 0x3F, 0xFF⟩ rfl (by simp [rowOf, fieldsOf, encodeFields]))
theorem unpad (c : BitVec 3) : Statement (.unpad c) := of_accepts _ (by simp [opcodeTable, rowOf])
    (accepts_of_fields _ _ ⟨0xFF, 7, 7, 0, 1, 0x3F, 0xFF⟩ rfl (by simp [rowOf, fieldsOf, encodeFields]))
theorem keyfit : Statement .keyfit := of_accepts _ (by simp [opcodeTable, rowOf]) (by decide)
theorem hash (a : BitVec 3) : Statement (.hash a) := of_accepts _ (by simp [opcodeTable, rowOf])
    (accepts_of_fields _ _ ⟨0xFF, 0, 7, 7, 1, 0x3F, 0xFF⟩ rfl (by simp [rowOf, fieldsOf, encodeFields]))
theorem stretch (a : BitVec 3) : Statement (.stretch a) := of_accepts _ (by simp [opcodeTable, rowOf])
    (accepts_of_fields _ _ ⟨0xFF, 0, 7, 7, 1, 0x3F, 0xFF⟩ rfl (by simp [rowOf, fieldsOf, encodeFields]))
theorem scryptStart (c : ChannelId) : Statement (.scryptStart c) := of_accepts _ (by simp [opcodeTable, rowOf]) (by cases c <;> decide)
theorem scryptAck (c : ChannelId) : Statement (.scryptAck c) := of_accepts _ (by simp [opcodeTable, rowOf]) (by cases c <;> decide)
theorem scryptCancel (c : ChannelId) : Statement (.scryptCancel c) := of_accepts _ (by simp [opcodeTable, rowOf]) (by cases c <;> decide)
theorem cipherEnc (a m c : BitVec 3) : Statement (.cipherEnc a m c) := of_accepts _ (by simp [opcodeTable, rowOf])
    (accepts_of_fields _ _ ⟨0xFF, 0, 0, 0, 1, 0x3F, 0xFF⟩ rfl (by simp [rowOf, fieldsOf, encodeFields]))
theorem cipherDec (a m c : BitVec 3) : Statement (.cipherDec a m c) := of_accepts _ (by simp [opcodeTable, rowOf])
    (accepts_of_fields _ _ ⟨0xFF, 0, 0, 0, 1, 0x3F, 0xFF⟩ rfl (by simp [rowOf, fieldsOf, encodeFields]))
theorem macGen : Statement .macGen := of_accepts _ (by simp [opcodeTable, rowOf]) (by decide)
theorem macVerify : Statement .macVerify := of_accepts _ (by simp [opcodeTable, rowOf]) (by decide)
theorem envEnc (m c : BitVec 3) (x : BitVec 8) : Statement (.envEnc m c x) := of_accepts _ (by simp [opcodeTable, rowOf])
    (accepts_of_fields _ _ ⟨0xFF, 7, 0, 0, 1, 0x3F, 0⟩ rfl (by simp [rowOf, fieldsOf, encodeFields]))
theorem envDec (m c : BitVec 3) (x : BitVec 8) : Statement (.envDec m c x) := of_accepts _ (by simp [opcodeTable, rowOf])
    (accepts_of_fields _ _ ⟨0xFF, 7, 0, 0, 1, 0x3F, 0⟩ rfl (by simp [rowOf, fieldsOf, encodeFields]))
theorem kxGenerate (x : BitVec 8) : Statement (.kxGenerate x) := of_accepts _ (by simp [opcodeTable, rowOf])
    (accepts_of_fields _ _ ⟨0xFF, 7, 7, 7, 1, 0x3F, 0⟩ rfl (by simp [rowOf, fieldsOf, encodeFields]))
theorem kxSerialize (x : BitVec 8) : Statement (.kxSerialize x) := of_accepts _ (by simp [opcodeTable, rowOf])
    (accepts_of_fields _ _ ⟨0xFF, 7, 7, 7, 1, 0x3F, 0⟩ rfl (by simp [rowOf, fieldsOf, encodeFields]))
theorem kxParse : Statement .kxParse := of_accepts _ (by simp [opcodeTable, rowOf]) (by decide)
theorem kxCompute : Statement .kxCompute := of_accepts _ (by simp [opcodeTable, rowOf]) (by decide)
theorem kxNuke : Statement .kxNuke := of_accepts _ (by simp [opcodeTable, rowOf]) (by decide)
theorem kxApplied : Statement .kxApplied := of_accepts _ (by simp [opcodeTable, rowOf]) (by decide)
theorem saltOrder : Statement .saltOrder := of_accepts _ (by simp [opcodeTable, rowOf]) (by decide)

end Sys2Proof.Laws.EncodeMatchesRow
end

