-- ==== Sys2Proof/Tests/Slice0.lean ====
section
/-! SUPPORT. Tests, and witnesses. A test's expected values come from spec/: the words from the encoding table of
30_encoding.md R58, the results from the vectors of 95_test_vectors.md, which each docstring names. A witness
shows a concrete state and operands that meet the hypotheses of the statement it is named after. -/

namespace Sys2Proof.Machine.Tests

open Sys2Proof Sys2Proof.Machine

set_option Elab.async false

/-! ### Well-formed commands (30_encoding.md R57) -/

theorem test_illFormed_hash_code : (Instr.hash 3).wellFormed = false := by decide
theorem test_illFormed_stretch_code : (Instr.stretch 7).wellFormed = false := by decide
theorem test_illFormed_pad_code : (Instr.pad 4).wellFormed = false ∧ (Instr.unpad 4).wellFormed = false := by decide
theorem test_illFormed_cipher_code : (Instr.cipherEnc 5 0 0).wellFormed = false ∧ (Instr.cipherDec 5 0 0).wellFormed = false := by
  decide
theorem test_illFormed_cipher_mode : (Instr.cipherEnc 0 3 0).wellFormed = false ∧ (Instr.cipherDec 0 3 0).wellFormed = false := by
  decide
theorem test_illFormed_cipher_scheme : (Instr.cipherEnc 0 0 4).wellFormed = false ∧ (Instr.cipherDec 0 0 4).wellFormed = false := by
  decide
theorem test_illFormed_envelope_mode : (Instr.envEnc 3 0 0).wellFormed = false ∧ (Instr.envDec 3 0 0).wellFormed = false := by
  decide
theorem test_illFormed_envelope_scheme : (Instr.envEnc 0 4 0).wellFormed = false ∧ (Instr.envDec 0 4 0).wellFormed = false := by
  decide
theorem test_illFormed_selector : (Instr.envEnc 0 0 25).wellFormed = false ∧ (Instr.envDec 0 0 25).wellFormed = false := by decide
theorem test_illFormed_tag : (Instr.kxGenerate 14).wellFormed = false ∧ (Instr.kxSerialize 14).wellFormed = false := by decide
theorem test_wellFormed_largest_codes :
    (Instr.hash 2).wellFormed = true ∧ (Instr.cipherEnc 4 2 3).wellFormed = true ∧ (Instr.envEnc 2 3 24).wellFormed = true
      ∧ (Instr.kxGenerate 13).wellFormed = true := by
  decide

/-! ### Decoding: words written from the match values and field places of 30_encoding.md R55 and R58 -/

theorem test_decode_nop : decodeWord 0b00000000_000000_0_000_000_000_00000000 = some .nop := by decide
theorem test_decode_pad : decodeWord 0b00000000_000000_0_011_000_000_00000001 = some (.pad 3) := by decide
theorem test_decode_unpad : decodeWord 0b00000000_000000_0_010_000_000_00000010 = some (.unpad 2) := by decide
theorem test_decode_keyfit : decodeWord 0b00000000_000000_0_000_000_000_00000011 = some .keyfit := by decide
theorem test_decode_hash : decodeWord 0b00000000_000000_0_000_000_010_00000100 = some (.hash 2) := by decide
theorem test_decode_stretch : decodeWord 0b00000000_000000_0_000_000_001_00000101 = some (.stretch 1) := by decide
theorem test_decode_scryptStart : decodeWord 0b00000000_000000_1_000_000_000_00000110 = some (.scryptStart .one) := by decide
theorem test_decode_scryptAck : decodeWord 0b00000000_000000_0_000_000_000_00000111 = some (.scryptAck .zero) := by decide
theorem test_decode_scryptCancel : decodeWord 0b00000000_000000_1_000_000_000_00001000 = some (.scryptCancel .one) := by decide
theorem test_decode_cipherEnc : decodeWord 0b00000000_000000_0_011_010_001_00001001 = some (.cipherEnc 1 2 3) := by decide
theorem test_decode_cipherDec : decodeWord 0b00000000_000000_0_001_010_100_00001010 = some (.cipherDec 4 2 1) := by decide
theorem test_decode_macGen : decodeWord 0b00000000_000000_0_000_000_000_00001011 = some .macGen := by decide
theorem test_decode_macVerify : decodeWord 0b00000000_000000_0_000_000_000_00001100 = some .macVerify := by decide
theorem test_decode_envEnc : decodeWord 0b00010111_000000_0_011_001_000_00001101 = some (.envEnc 1 3 23) := by decide
theorem test_decode_envDec : decodeWord 0b00000111_000000_0_001_010_000_00001110 = some (.envDec 2 1 7) := by decide
theorem test_decode_kxGenerate : decodeWord 0b00001001_000000_0_000_000_000_00001111 = some (.kxGenerate 9) := by decide
theorem test_decode_kxSerialize : decodeWord 0b00001101_000000_0_000_000_000_00010000 = some (.kxSerialize 13) := by decide
theorem test_decode_kxParse : decodeWord 0b00000000_000000_0_000_000_000_00010001 = some .kxParse := by decide
theorem test_decode_kxCompute : decodeWord 0b00000000_000000_0_000_000_000_00010010 = some .kxCompute := by decide
theorem test_decode_kxNuke : decodeWord 0b00000000_000000_0_000_000_000_00010011 = some .kxNuke := by decide
theorem test_decode_kxApplied : decodeWord 0b00000000_000000_0_000_000_000_00010100 = some .kxApplied := by decide
theorem test_decode_saltOrder : decodeWord 0b00000000_000000_0_000_000_000_00010101 = some .saltOrder := by decide

/-- Illegal words (vectors Y3, Y4, Y5, P13, SC19, E19, V9). -/
theorem test_decode_illegal :
    [(0x01000000 : Word), 0x00000016, 0x000000FF, 0x00040001, 0x00000101, 0x00000106, 0x01000109, 0x0700010D].map decodeWord
      = List.replicate 8 none := by
  decide

/-- No word matches two rows of the opcode map: two rows differ in a bit that both fix (R58). -/
theorem test_opcode_rows_disjoint :
    opcodeTable.Pairwise (fun p q => p.value &&& q.mask ≠ q.value &&& p.mask) := by
  decide

/-! ### One step each, on small states -/

/-- A state with a command pending, these argument registers, and these byte strings in DMEM. -/
def start (a : Args) (m : List (Nat × Bytes)) : State :=
  { State.reset with
    args := a
    latch := { pending := true, f := ⟨0, 0, 0, 0, 0, 0, 0⟩, a := a }
    dmem := m.foldl (fun d e => d.writeBytes e.1 e.2) [] }

/-- The state after a command. -/
def after (i : Instr) (s : State) : State :=
  match exec i s with
  | .next t => t
  | _ => s

/-- What a host sees of a completed command: ERR, OUT_LEN, OUT0, and n bytes of DMEM from `off`. -/
def shown (t : State) (off n : Nat) : ErrorCode × Word × Word × Bytes :=
  (t.err, t.results.outLen, t.results.out0, t.dmem.readBytes off n)

/-- ascii("Hello, World!"). -/
def hello : Bytes := beBytes 13 0x48656c6c6f2c20576f726c6421

/-- A at 0 and DST at 256, with these lengths and PARAM0. -/
def oneInput (len cap param0 : Word) : Args := { aLen := len, dstOff := 256, dstCap := cap, param0 := param0 }

/-- Y2. -/
theorem test_nop_status : statusWord (after .nop (start {} [])) = 0x00000002 ∧ (after .nop (start {} [])).irqStatus = 1 := by decide

/-- P5: ISO10126, with the drawn fill bytes. -/
theorem test_pad_iso10126 :
    shown (after (.pad 2) { start (oneInput 8 16 64) [(0, beBytes 8 0x6162636465666768)] with
        draws := [[0x11, 0x12, 0x13, 0x14, 0x15, 0x16, 0x17]] }) 256 16
      = (.ok, 16, 0, beBytes 16 0x61626364656667681112131415161708) := by
  decide +kernel

/-- P10: one byte of capacity missing; DMEM stays. -/
theorem test_pad_capacity : shown (after (.pad 0) (start (oneInput 13 15 128) [(0, hello)])) 256 16 = (.capacity, 0, 0, zeroBytes 16) := by
  decide +kernel

/-- U2: the fill bytes are not checked, since UNPAD_STRICT = 0. -/
theorem test_unpad_loose :
    shown (after (.unpad 0) (start (oneInput 4 4 32) [(0, beBytes 4 0x41414102)])) 256 4 = (.ok, 2, 0, beBytes 4 0x41410000) := by
  decide +kernel

/-- U13: the length byte 17 is above B = 16. -/
theorem test_unpad_above_block :
    (after (.unpad 0) (start (oneInput 17 32 128) [(0, List.replicate 16 0x41 ++ [0x11])])).err = .padding := by
  decide +kernel

/-- K7: a key of the asked size is kept. -/
theorem test_keyfit_keeps :
    shown (after .keyfit (start (oneInput 16 16 16) [(0, beBytes 16 0x000102030405060708090a0b0c0d0e0f)])) 256 16
      = (.ok, 16, 0, beBytes 16 0x000102030405060708090a0b0c0d0e0f) := by
  decide +kernel

/-- K9. -/
theorem test_keyfit_size : (after .keyfit (start (oneInput 16 16 12) [])).err = .config := by decide +kernel

/-- K1. -/
theorem test_hash_sha256 :
    shown (after (.hash 0) (start (oneInput 5 32 0) [(0, beBytes 5 0x7465737431)])) 256 32
      = (.ok, 32, 0, beBytes 32 0x1b4f0e9851971998e732078544c96b36c3d01cedf7caa332359d6f1d83567014) := by
  decide +kernel

/-- K3. -/
theorem test_hash_whirlpool : hash .whirlpool [] = beBytes 64
    0x19fa61d75522a4669b44e39c1d2e1726c530232130d407f89afee0964997f7a73e83be698b288febcf88e3e03c4f0757ea8964e59b63d93708b138cc42a66eb3 := by
  decide +kernel

/-- K2. -/
theorem test_hash_sha512 : hash .sha512 [] = beBytes 64
    0xcf83e1357eefb8bdf1542850d66d8007d620e4050b5715dc83f4a921d36ce9ce47d0d13c5d85f2b0ff8318d2877eec2f63b931bd47417a81a538327af927da3e := by
  decide +kernel

/-- S2, its first 32 bytes. -/
theorem test_stretch_sha256 :
    shown (after (.stretch 0) (start { aLen := 6, bOff := 16, bLen := 4, dstOff := 256, dstCap := 32, param0 := 1, param1 := 32 }
        [(0, beBytes 6 0x706173737764), (16, beBytes 4 0x73616c74)])) 256 32
      = (.ok, 32, 0, beBytes 32 0x55ac046e56e3089fec1691c22544b605f94185216dde0465e68b9d57c20dacbc) := by
  decide +kernel

/-- S4. -/
theorem test_stretch_no_rounds : (after (.stretch 0) (start { param0 := 0, param1 := 32, dstCap := 32 } [])).err = .config := by
  decide +kernel

/-- The operands of SC8. -/
def sc8 : State := start { dstOff := 256, dstCap := 16, param0 := 2, param1 := 1, param2 := 1, param3 := 16 } []

/-- SC8: T = 4. -/
theorem test_scryptStart_total :
    scStateWord (after (.scryptStart .zero) sc8).ch0 = 0x00000001 ∧ (after (.scryptStart .zero) sc8).ch0.totalOps = 4 := by
  decide +kernel

/-- SC13: V needs 16 MiB. -/
theorem test_scryptStart_resource :
    (after (.scryptStart .zero) (start { dstCap := 16, param0 := 131072, param1 := 1, param2 := 1, param3 := 16 } [])).err = .resource := by
  decide +kernel

/-- SC8: one chunk, one event, the result in DMEM. -/
theorem test_chunk_finishes :
    let t := chunk .zero (after (.scryptStart .zero) sc8)
    (scStateWord t.ch0, t.ch0.doneOps, t.ch0.eventsReg, t.irqStatus, t.dmem.readBytes 256 16)
      = (0x00000003, 4, 1, 3, beBytes 16 0xfa76e020d54d9e8aa24023c6baecdd46) := by
  decide +kernel

/-- A channel that waits after its first chunk of SC6 (the cancellation trace of 95_test_vectors.md, after chunk 1). -/
def waiting : State :=
  { start {} [] with
    ch0 :=
      { phase := .waitAck, doneOps := 1000, totalOps := 4096, eventsReg := 1, dstOffReg := 256, dkLenReg := 32,
        run := { n := 2048, r := 1, p := 1, dkLen := 32, dst := 256, done := 1000, events := 1 } } }

/-- The trace after SCRYPT_ACK. -/
theorem test_scryptAck_trace : scStateWord (after (.scryptAck .zero) waiting).ch0 = 0x00000001 ∧ (after (.scryptAck .zero) waiting).ch0.eventsReg = 1 := by
  decide +kernel

/-- SC15. -/
theorem test_scryptAck_idle : (after (.scryptAck .one) waiting).err = .state := by decide +kernel

/-- The trace after SCRYPT_CANCEL. -/
theorem test_scryptCancel_trace : scStateWord (after (.scryptCancel .zero) waiting).ch0 = 0x00000009 := by decide +kernel

/-- The trace after the cancelling chunk. -/
theorem test_chunk_cancels :
    let t := chunk .zero (after (.scryptCancel .zero) waiting)
    (scStateWord t.ch0, t.ch0.doneOps, t.ch0.eventsReg, t.dmem) = (0x0000170C, 1000, 2, []) := by
  decide +kernel

/-- E1. -/
theorem test_aes_block :
    blockEncrypt .aes (beBytes 32 0x000102030405060708090a0b0c0d0e0f101112131415161718191a1b1c1d1e1f)
        (beBytes 16 0x00112233445566778899aabbccddeeff) = beBytes 16 0x8ea2b7ca516745bfeafc49904b496089 := by
  decide +kernel

/-- E12, at the codec's level, where the hash is a parameter. -/
theorem test_codec_e12 :
    codecEncrypt .sha256 .aes .cbc .pkcs7 (fun _ => 0) [] (zeroBytes 32) (zeroBytes 8) 1
      = beBytes 24 0x45e57afd3958843091bcb8614367b4b3 := by
  decide +kernel

/-- E12's operands: A empty, B 32 zero bytes at 32, C 8 zero bytes at 64. -/
def e12 (code : BitVec 3) : Instr := .cipherEnc 1 0 code

/-- E12 with STRETCH_HASH = SHA-256. -/
theorem test_cipherEnc_e12 (h : Config.stretchHash = .sha256) :
    (after (e12 0) (start { bOff := 32, bLen := 32, cOff := 64, cLen := 8, dstOff := 256, dstCap := 24, param0 := 1 } [])).dmem.readBytes 256 24
      = beBytes 24 0x45e57afd3958843091bcb8614367b4b3 := by
  simp only [after, e12, exec, execCipherEnc, cipherEncCommand, h]
  decide +kernel

/-- E17: no ECB and no CTR. -/
theorem test_cipherEnc_mode : (after (.cipherEnc 1 3 0) (start { dstCap := 24 } [])).err = .config := by decide +kernel

/-- E11: 33 − 8 is not a multiple of 16. -/
theorem test_cipherDec_length : (after (.cipherDec 1 0 0) (start { aLen := 33, dstOff := 256, dstCap := 64 } [])).err = .length := by
  decide +kernel

/-- M6. -/
theorem test_macGen_empty :
    shown (after .macGen (start { dstOff := 256, dstCap := 32 } [])) 256 32
      = (.ok, 32, 0, beBytes 32 0x392e0a27d98c8b47d597714fbe13ceba3734eb71c4a6cd671d1e97e56146254c) := by
  decide +kernel

/-- M8, on the operands of M6. -/
theorem test_macVerify_accepts :
    shown (after .macVerify (start { cOff := 64, cLen := 32 }
        [(64, beBytes 32 0x392e0a27d98c8b47d597714fbe13ceba3734eb71c4a6cd671d1e97e56146254c)])) 256 1 = (.ok, 0, 1, [0]) := by
  decide +kernel

/-- M10. -/
theorem test_macVerify_tag_length : (after .macVerify (start { cOff := 64, cLen := 31 } [])).err = .config := by decide +kernel

/-- V7: the selector is checked before the mode. -/
theorem test_envEnc_selector_first : (after (.envEnc 3 0 25) (start {} [])).err = .badSelector := by decide +kernel

/-- V8. -/
theorem test_envEnc_mode : (after (.envEnc 3 0 7) (start {} [])).err = .config := by decide +kernel

/-- The last row of 1.1 but two: 39 bytes are below the least envelope. -/
theorem test_envDec_short : (after (.envDec 0 0 7) (start { aLen := 39, dstOff := 256, dstCap := 64 } [])).err = .decryptFail := by
  decide +kernel

/-- A 40-byte string of zeros carries no true tag (V5's outcome). -/
theorem test_envDec_tag : (after (.envDec 0 0 7) (start { aLen := 40, dstOff := 256, dstCap := 64 } [])).err = .authFail := by
  decide +kernel

/-- The key k of X2, as the draws of its 32 bytes. -/
def aliceKey : Bytes := beBytes 32 0x77076d0a7318a57d3c16c17251b26645df4c2f87ebc0992ab177fba51db92c2a

/-- The public key of X2. -/
def alicePublic : Bytes := beBytes 32 0x8520f0098930a754748b7ddcb43ef75a0dbf3a0d26381af4eba4a98eaa9b4e6a

/-- The public key of X3. -/
def bobPublic : Bytes := beBytes 32 0xde9edb7d7b7dc1b4d35b61c2ece435373f8343c85b78674dadfc7e146f882b4f

/-- The state after X2, with V at 0. -/
def withKey (len cap : Word) (v : Bytes) : State :=
  { start { aLen := len, dstOff := 256, dstCap := cap } [(0, v)] with
    kxPhase := .keyGenerated, slotTag := some .x25519, slotPriv := leNat aliceKey }

/-- X2. -/
theorem test_kxGenerate_x25519 :
    let t := after (.kxGenerate 9) { start { dstOff := 256, dstCap := 32 } [] with draws := [aliceKey.map BitVec.toNat] }
    shown t 256 32 = (.ok, 32, 9, alicePublic) ∧ kxStateWord t = 0x00000901 ∧ t.slotPriv = leNat aliceKey := by
  decide +kernel

/-- X11. -/
theorem test_kxGenerate_tag : (after (.kxGenerate 14) (start { dstCap := 64 } [])).err = .config := by decide +kernel

/-- X9. -/
theorem test_kxSerialize_blob :
    let t := after (.kxSerialize 9) { start { aLen := 32, dstOff := 64, dstCap := 64 } [(0, alicePublic)] with
        draws := [16 :: List.range 16] }
    shown t 64 50 = (.ok, 50, 16, [0x09, 0x10] ++ (List.range 16).map (BitVec.ofNat 8) ++ alicePublic) ∧ t.results.out1 = 66 := by
  decide +kernel

/-- X10. -/
theorem test_kxSerialize_length : (after (.kxSerialize 9) (start { aLen := 31, dstOff := 64, dstCap := 64 } [])).err = .length := by
  decide +kernel

/-- X12, at offset 256. -/
theorem test_kxParse_blob :
    (after .kxParse (start { aOff := 256, aLen := 50 } [(256, [0x09, 0x10] ++ zeroBytes 16 ++ alicePublic)])).results
      = { out0 := 9, out1 := 258, out2 := 16, out3 := 274, out4 := 32 } := by
  decide +kernel

/-- X14: n = 33. -/
theorem test_kxParse_salt_length :
    (after .kxParse (start { aLen := 67 } [(0, [0x09, 0x21] ++ zeroBytes 33 ++ alicePublic)])).err = .badBlob := by
  decide +kernel

/-- X4. -/
theorem test_kxCompute_x25519 :
    let t := after .kxCompute (withKey 32 32 bobPublic)
    shown t 256 32 = (.ok, 32, 9, beBytes 32 0x4a5d9d5ba4ce2de1728e3bf480350f25e07e21c947d19e3376f09b3c1e161742)
      ∧ kxStateWord t = 0x0000FF02 ∧ t.slotPriv = 0 := by
  decide +kernel

/-- X6: the key stays. -/
theorem test_kxCompute_zero :
    let t := after .kxCompute (withKey 32 32 (zeroBytes 32))
    t.err = .kxFail ∧ kxStateWord t = 0x00000901 ∧ t.slotPriv = leNat aliceKey := by
  decide +kernel

/-- X18. -/
theorem test_kxNuke_empties :
    let t := after .kxNuke (withKey 32 32 [])
    t.err = .ok ∧ kxStateWord t = 0x0000FF00 ∧ t.slotPriv = 0 := by
  decide +kernel

/-- X17, in KeyGenerated. -/
theorem test_kxApplied_early : (after .kxApplied (withKey 32 32 [])).err = .state := by decide +kernel

/-- X17, after the secret. -/
theorem test_kxApplied_after : kxStateWord (after .kxApplied { start {} [] with kxPhase := .secretComputed }) = 0x0000FF03 := by
  decide +kernel

/-- X22: the last chunk has one byte. -/
theorem test_saltOrder_last_byte :
    (after .saltOrder (start { aLen := 17, bOff := 32, bLen := 17 } [(16, [5]), (48, [4])])).results.out0 = 0 := by
  decide +kernel

/-- X21. -/
theorem test_saltOrder_remote :
    (after .saltOrder (start { aLen := 16, bOff := 32, bLen := 16 } [(3, [1]), (35, [2])])).results.out0 = 1 := by
  decide +kernel

/-- Y3: an illegal command completes with ERR_ILLEGAL. -/
theorem test_illegal_status :
    (match commandTurn ((start {} []).issue 0x01000000) with | .next t => t.err | _ => .ok) = .ok
      ∧ (match commandTurn (State.reset.issue 0x01000000) with | .next t => statusWord t | _ => 0) = 0x00001002 := by
  decide +kernel

/-- Y10: the window is little-endian. -/
theorem test_window_bytes :
    (hostRead 0x1001 .byte (hostWrite 0x1000 .word 0x64636261 State.reset)).readData = 0x00000062 := by
  decide +kernel

/-- Y9: a misaligned write is refused. -/
theorem test_window_misaligned :
    (hostWrite 0x1002 .word 0x64636261 State.reset).dmem = [] ∧ (hostWrite 0x1002 .word 0x64636261 State.reset).busErr = true := by
  decide +kernel

/-- Y8, and R150's last row: an aligned access at the reserved offset 0x018 sets no BUSERR, a byte write there sets it, and
so does a word write past the end of the DMEM window; none stores a byte. -/
theorem test_reserved_offset :
    (hostRead 0x018 .word State.reset).busErr = false ∧ (hostWrite 0x018 .byte 1 State.reset).busErr = true
      ∧ (hostWrite 0x10FFE .word 1 State.reset).busErr = true ∧ (hostWrite 0x10FFE .word 1 State.reset).dmem = [] := by
  decide +kernel

/-- Y14: the line rises with CMD_DONE and falls when it is cleared. -/
theorem test_irq_line :
    let s := hostWrite 0x004 .word 2 (hostWrite 0x014 .word 1 (start {} []))
    s.irq = false ∧ (after .nop s).irq = true ∧ (hostWrite 0x010 .word 1 (after .nop s)).irq = false := by
  decide +kernel

/-- The S-box table is the formula of 43_cipher.md R99: for x ≠ 0 the entry is affine(y) for the y with
gmul(x, y) = 1, and for 0 it is affine(0). -/
theorem test_aes_sbox_formula :
    aesSbox 0 = aesAffine 0 ∧ (List.range 255).all (fun i =>
      let x : Byte := BitVec.ofNat 8 (i + 1)
      let b := aesSbox x
      let y := b.rotateLeft 1 ^^^ b.rotateLeft 3 ^^^ b.rotateLeft 6 ^^^ 0x05
      aesAffine y == b && gfMul x y == 1) = true := by
  decide +kernel

/-! ### Witnesses: states and operands that meet the hypotheses of the statements -/

theorem operandsOk_of (s : State) (ins : List Descriptor) (h : operandError s ins = none) : OperandsOk s ins :=
  (operandError_eq_none s ins).mp h

theorem exec_after (i : Instr) (s : State) : exec i s = .next (after i s) := by
  rw [after, exec_eq_complete]
  cases ruleOf i s <;> rfl

theorem insideDmem_of (ds : List Descriptor) (h : ds.any (fun d => !d.admitted) = false) : InsideDmem ds :=
  (insideDmem_iff ds).mp h

/-- The least illegal opcode; then one word for each field that a row may leave unused, and RSV. -/
theorem witness_IllegalCommandCompletesWithErrIllegal :
    (∀ f ∈ [(⟨0x16, 0, 0, 0, 0, 0, 0⟩ : Fields), ⟨0x15, 1, 0, 0, 0, 0, 0⟩, ⟨0x04, 0, 1, 0, 0, 0, 0⟩, ⟨0x05, 0, 0, 1, 0, 0, 0⟩,
        ⟨0x09, 0, 0, 0, 1, 0, 0⟩, ⟨0x00, 0, 0, 0, 0, 1, 0⟩, ⟨0x08, 0, 0, 0, 0, 0, 1⟩], IllegalFields f)
      ∧ ∃ s : State, s.latch.pending = true ∧ IllegalFields s.latch.f := by
  refine ⟨?_, { State.reset with latch := { pending := true, f := ⟨0x16, 0, 0, 0, 0, 0, 0⟩ } }, rfl, ?_⟩
  all_goals simp only [IllegalFields]; decide

theorem witness_DecodedWordMatchesOpcodeRow :
    decodeWord 0x0700000D = some (.envEnc 0 0 7) ∧ ∃ r ∈ opcodeTable, (0x0700000D : Word) &&& r.mask = r.value := by decide

theorem witness_StepExecutesDecodedCommand :
    (∃ (s : State) (i : Instr) (w : Word) (rest : List Turn), s.turns = .commandUnit :: rest ∧ s.latch.pending = true
        ∧ s.latch.f = decodeFields w ∧ decodeWord w = some i)
      ∧ (∃ (i : Instr) (w : Word), decodeWord w = some i)
      ∧ ∃ (s : State) (i : Instr) (rest : List Turn), s.turns = regWrite .cmd (encode i) :: .commandUnit :: rest
        ∧ s.latch.pending = false :=
  ⟨⟨{ State.reset with turns := [.commandUnit], latch := { pending := true, f := decodeFields 0x00020006 } },
      .scryptStart .one, 0x00020006, [], rfl, rfl, rfl, by decide⟩,
    ⟨.nop, 0, by decide⟩,
    ⟨{ State.reset with turns := [regWrite .cmd (encode (.hash 2)), .commandUnit] }, .hash 2, [], rfl, rfl⟩⟩

/-- A channel 8 ops long that SCRYPT_START has just begun. -/
def running (c : ChannelId) : State := State.reset.setChannel c (startedChannel [] [] 4 1 1 16 256)

theorem witness_EnabledAgentsMakeProgress :
    (∃ s : State, s.latch.pending = true) ∧ ∀ c, ∃ s : State, (s.channel c).phase = .running :=
  ⟨⟨start {} [], rfl⟩, fun c => ⟨running c, by simp [running, startedChannel]⟩⟩

theorem witness_RegisterWritesReachOnlyTheirRegister :
    Reg.kxState ∈ [Reg.id, .status, .outLen, .out0, .out1, .out2, .out3, .out4, .kxState]
      ∧ ∃ c b, Reg.sc .one .dkLen = .sc c b :=
  ⟨by decide, .one, .dkLen, rfl⟩

/-- The first and the last access of each width. -/
theorem witness_DmemWindowIsLittleEndian :
    State.reset.dmem.wf = true ∧ State.reset.latch.pending = false
      ∧ ∀ e ∈ [(0, Width.byte), (65535, .byte), (0, .half), (65534, .half), (0, .word), (65532, .word)],
        e.1 % widthBytes e.2 = 0 ∧ e.1 + widthBytes e.2 ≤ 65536 := by
  decide

/-- Misaligned accesses at a register, at a reserved offset and across both ends of the DMEM window; narrow ones below and
above it; and a DMEM access at each end while BUSY = 1. -/
theorem witness_RefusedAccessSetsBusErr :
    (∀ e ∈ [(0x137, Width.word), (0x019, .half), (0xFFE, .word), (0x10FFE, .word), (0x1FFFF, .half)],
        e.1 < 131072 ∧ e.1 % widthBytes e.2 ≠ 0)
      ∧ (∀ e ∈ [(0x008, Width.half), (0x018, .byte), (0xFFF, .byte), (0x11000, .half), (0x1FFFF, .byte)],
        e.1 < 131072 ∧ ¬(0x1000 ≤ e.1 ∧ e.1 < 0x1000 + 65536) ∧ e.2 ≠ .word)
      ∧ ∀ o ∈ [0x1000, 0x10FFF], o < 131072 ∧ 0x1000 ≤ o ∧ o < 0x1000 + 65536 ∧ (start {} []).latch.pending = true := by
  decide

theorem reg_offset_cases (r : Reg) : r.offset % 4 = 0 ∧ (r.offset ≤ 0x014 ∨ (0x020 ≤ r.offset ∧ r.offset ≤ 0x064)
    ∨ r.offset = 0x080 ∨ (0x100 ≤ r.offset ∧ r.offset ≤ 0x114) ∨ (0x120 ≤ r.offset ∧ r.offset ≤ 0x134)) := by
  cases r with
  | arg r => cases r <;> decide
  | sc c r => cases c <;> cases r <;> decide
  | _ => decide

/-- The first reserved offset, the ones on both sides of the last bank, the first and the last above DMEM. -/
theorem witness_ReservedOffsetsReadZero :
    ∀ o ∈ [0x018, 0x118, 0x138, 0x0FFC, 0x11000, 0x1FFFC], o < 131072 ∧ o % 4 = 0 ∧ (∀ r : Reg, o ≠ r.offset)
      ∧ ¬(0x1000 ≤ o ∧ o < 0x1000 + 65536) := by
  intro o ho
  refine ⟨?_, ?_, fun r h => ?_, ?_⟩
  · revert o; decide
  · revert o; decide
  · have := reg_offset_cases r
    rw [← h] at this
    clear h
    revert this
    revert o
    decide
  · revert o; decide

theorem witness_ResetLeavesSpecifiedValues :
    ∃ (s : State) (v : Word) (u : State), s ≠ State.reset ∧ v.getLsbD 0 = true ∧ hostAccess 0x004 .word (.write v) s = .next u :=
  ⟨start {} [(7, [1])], 5, _, by decide, by decide, rfl⟩

theorem witness_CompletionAndEventsRaiseTheLine :
    (∃ (i : Instr) (s t : State), exec i s = .next t)
      ∧ ∀ c, ∃ s t : State, (s.channel c).phase = .running ∧ channelTurn c s = .next t :=
  ⟨⟨.nop, State.reset, _, rfl⟩, fun c => ⟨running c, _, by simp [running, startedChannel], rfl⟩⟩

/-- The smallest and the largest block, for each scheme: an empty message, padded by 1 and by 255 bytes. -/
theorem witness_PadAppendsSchemePadding (code : BitVec 3) (hc : code.toNat ≤ 3) : ∀ e ∈ [(1, (8 : Word)), (255, 2040)],
    ∃ (s : State) (b n : Nat) (m : Bytes),
      b = e.1 ∧ s.dmem.wf = true ∧ OperandsOk s [s.latch.a.a] ∧ s.latch.a.param0.toNat = 8 * b ∧ 1 ≤ b ∧ b ≤ 255
        ∧ m = s.operand s.latch.a.a ∧ n = b - m.length % b ∧ m.length + n ≤ s.latch.a.dstCap.toNat
        ∧ ∃ tail : Bytes, (code = 0 ∧ tail = List.replicate n (BitVec.ofNat 8 n)
          ∨ code = 1 ∧ tail = zeroBytes (n - 1) ++ [BitVec.ofNat 8 n]
          ∨ code = 2 ∧ tail = s.drawBytes 0 (n - 1) ++ [BitVec.ofNat 8 n]
          ∨ code = 3 ∧ tail = 0x80 :: zeroBytes (n - 1)) := by
  have codes : code = 0 ∨ code = 1 ∨ code = 2 ∨ code = 3 := by
    revert code
    decide
  have tails : ∀ (s : State) (n : Nat), ∃ tail : Bytes, (code = 0 ∧ tail = List.replicate n (BitVec.ofNat 8 n)
      ∨ code = 1 ∧ tail = zeroBytes (n - 1) ++ [BitVec.ofNat 8 n]
      ∨ code = 2 ∧ tail = s.drawBytes 0 (n - 1) ++ [BitVec.ofNat 8 n]
      ∨ code = 3 ∧ tail = 0x80 :: zeroBytes (n - 1)) := by
    intro s n
    rcases codes with h | h | h | h
    · exact ⟨_, .inl ⟨h, rfl⟩⟩
    · exact ⟨_, .inr (.inl ⟨h, rfl⟩)⟩
    · exact ⟨_, .inr (.inr (.inl ⟨h, rfl⟩))⟩
    · exact ⟨_, .inr (.inr (.inr ⟨h, rfl⟩))⟩
  intro e he
  have cases : e = (1, 8) ∨ e = (255, 2040) := by simpa using he
  rcases cases with rfl | rfl
  · exact ⟨start (oneInput 0 1 8) [], 1, 1, [], rfl, rfl, operandsOk_of _ _ (by decide), by decide, by decide, by decide, rfl,
      by decide, by decide, tails _ _⟩
  · exact ⟨start (oneInput 0 255 2040) [], 255, 255, [], rfl, rfl, operandsOk_of _ _ (by decide), by decide, by decide, by decide,
      rfl, by decide, by decide, tails _ _⟩

/-- U4's input under the length schemes and U6's, a lone marker, under ISO97971, with just enough capacity; and U4's
with one byte less. -/
theorem witness_UnpadRemovesPadding :
    (∀ cap ∈ [(3 : Word), 2], ∃ (s : State) (b : Nat) (m tail fill : Bytes) (n : Byte), s.dmem.wf = true
        ∧ OperandsOk s [s.latch.a.a] ∧ s.latch.a.param0.toNat = 8 * b ∧ 1 ≤ b ∧ b ≤ 255 ∧ s.operand s.latch.a.a = m ++ tail
        ∧ tail = fill ++ [n] ∧ n.toNat = fill.length + 1 ∧ n.toNat ≤ b ∧ s.latch.a.dstCap = cap ∧ m.length = 3)
      ∧ ∃ (s : State) (b : Nat) (m tail : Bytes) (k : Nat), s.dmem.wf = true ∧ OperandsOk s [s.latch.a.a]
        ∧ s.latch.a.param0.toNat = 8 * b ∧ 1 ≤ b ∧ b ≤ 255 ∧ s.operand s.latch.a.a = m ++ tail
        ∧ m.length ≤ s.latch.a.dstCap.toNat ∧ tail = 0x80 :: zeroBytes k := by
  refine ⟨fun cap hc => ?_, start (oneInput 1 0 64) [(0, [0x80])], 8, [], _, 0, by decide, operandsOk_of _ _ (by decide),
    by decide, by decide, by decide, by decide, by decide, rfl⟩
  have cases : cap = 3 ∨ cap = 2 := by simpa using hc
  rcases cases with rfl | rfl
  · exact ⟨start (oneInput 8 3 64) [(0, beBytes 8 0x6162630000000005)], 8, [0x61, 0x62, 0x63], _, zeroBytes 4, 5, by decide,
      operandsOk_of _ _ (by decide), by decide, by decide, by decide, by decide, rfl, by decide, by decide, rfl, rfl⟩
  · exact ⟨start (oneInput 8 2 64) [(0, beBytes 8 0x6162630000000005)], 8, [0x61, 0x62, 0x63], _, zeroBytes 4, 5, by decide,
      operandsOk_of _ _ (by decide), by decide, by decide, by decide, by decide, rfl, by decide, by decide, rfl, rfl⟩

/-- U10, U11, U12 and U13 (length bytes 0, above the length and above B), and U8, U9 and the empty input for ISO97971. -/
theorem witness_UnpadRefusesMalformedPadding :
    ∀ e ∈ [((0 : BitVec 3), (16 : Nat), (128 : Word), ([] : Bytes)), (1, 4, 32, [0x41, 0x41, 0x41, 0]), (2, 16, 128, [0x05]),
        (0, 16, 128, List.replicate 16 0x41 ++ [0x11]), (3, 4, 32, zeroBytes 4), (3, 4, 32, [0x61, 0x62, 0x63]), (3, 4, 32, [])],
      ∃ (s : State) (x : Bytes), OperandsOk s [s.latch.a.a] ∧ s.latch.a.param0.toNat = 8 * e.2.1 ∧ 1 ≤ e.2.1 ∧ e.2.1 ≤ 255
        ∧ x = s.operand s.latch.a.a
        ∧ (e.1.toNat ≤ 2 ∧ (x = [] ∨ ∃ rest : Bytes, ∃ n : Byte, x = rest ++ [n] ∧ (n = 0 ∨ e.2.1 < n.toNat ∨ x.length < n.toNat))
          ∨ e.1 = 3 ∧ ((∃ k, x = zeroBytes k)
            ∨ ∃ rest : Bytes, ∃ v : Byte, ∃ k, x = rest ++ v :: zeroBytes k ∧ v ≠ 0 ∧ v ≠ 0x80)) := by
  intro e he
  simp only [List.mem_cons, List.not_mem_nil, or_false] at he
  rcases he with rfl | rfl | rfl | rfl | rfl | rfl | rfl
  · exact ⟨start (oneInput 0 32 128) [], [], operandsOk_of _ _ (by decide), by decide, by decide, by decide, rfl,
      .inl ⟨by decide, .inl rfl⟩⟩
  · exact ⟨start (oneInput 4 32 32) [(0, [0x41, 0x41, 0x41, 0])], [0x41, 0x41, 0x41, 0], operandsOk_of _ _ (by decide), by decide,
      by decide, by decide, by decide, .inl ⟨by decide, .inr ⟨[0x41, 0x41, 0x41], 0, rfl, .inl rfl⟩⟩⟩
  · exact ⟨start (oneInput 1 32 128) [(0, [0x05])], [0x05], operandsOk_of _ _ (by decide), by decide, by decide, by decide,
      by decide, .inl ⟨by decide, .inr ⟨[], 5, rfl, .inr (.inr (by decide))⟩⟩⟩
  · exact ⟨start (oneInput 17 32 128) [(0, List.replicate 16 0x41 ++ [0x11])], List.replicate 16 0x41 ++ [0x11],
      operandsOk_of _ _ (by decide), by decide, by decide, by decide, by decide +kernel,
      .inl ⟨by decide, .inr ⟨List.replicate 16 0x41, 0x11, rfl, .inr (.inl (by decide))⟩⟩⟩
  · exact ⟨start (oneInput 4 32 32) [], zeroBytes 4, operandsOk_of _ _ (by decide), by decide, by decide, by decide, by decide,
      .inr ⟨rfl, .inl ⟨4, rfl⟩⟩⟩
  · exact ⟨start (oneInput 3 32 32) [(0, [0x61, 0x62, 0x63])], [0x61, 0x62, 0x63], operandsOk_of _ _ (by decide), by decide,
      by decide, by decide, by decide, .inr ⟨rfl, .inr ⟨[0x61, 0x62], 0x63, 0, rfl, by decide, by decide⟩⟩⟩
  · exact ⟨start (oneInput 0 32 32) [], [], operandsOk_of _ _ (by decide), by decide, by decide, by decide, rfl,
      .inr ⟨rfl, .inl ⟨0, rfl⟩⟩⟩

/-- The least and the greatest size, each at its least capacity; a key that fits and one that is hashed. -/
theorem witness_KeyfitStoresFittedKey : ∀ e ∈ [((8 : Word), (8 : Word)), (64, 64), (32, 5)],
    ∃ s : State, s.dmem.wf = true ∧ OperandsOk s [s.latch.a.a] ∧ s.latch.a.param0 = e.1 ∧ s.latch.a.aLen = e.2
      ∧ s.latch.a.param0.toNat ∈ [8, 16, 20, 24, 32, 64] ∧ s.latch.a.param0.toNat ≤ s.latch.a.dstCap.toNat := by
  intro e he
  refine ⟨start (oneInput e.2 e.1 e.1) [], rfl, operandsOk_of _ _ ?_, rfl, rfl, ?_⟩
  all_goals
    have cases : e = (8, 8) ∨ e = (64, 64) ∨ e = (32, 5) := by simpa using he
    rcases cases with rfl | rfl | rfl <;> decide

/-- Each hash at its least capacity. -/
theorem witness_HashStoresDigest : ∀ e ∈ [((0 : BitVec 3), HashAlg.sha256, 32), (1, .sha512, 64), (2, .whirlpool, 64)],
    ∃ s : State, s.dmem.wf = true ∧ OperandsOk s [s.latch.a.a]
      ∧ ((e.1 = 0 ∧ e.2.1 = .sha256 ∧ e.2.2 = 32) ∨ (e.1 = 1 ∧ e.2.1 = .sha512 ∧ e.2.2 = 64)
        ∨ (e.1 = 2 ∧ e.2.1 = .whirlpool ∧ e.2.2 = 64))
      ∧ e.2.2 ≤ s.latch.a.dstCap.toNat := by
  intro e he
  refine ⟨start (oneInput 5 (BitVec.ofNat 32 e.2.2) 0) [], rfl, operandsOk_of _ _ ?_, ?_⟩
  all_goals revert e; decide

/-- One byte of output after one round, at its least capacity, under each hash. -/
theorem witness_StretchStoresDerivedBytes : ∀ e ∈ [((0 : BitVec 3), HashAlg.sha256), (1, .sha512), (2, .whirlpool)],
    ∃ s : State, s.dmem.wf = true ∧ OperandsOk s [s.latch.a.a, s.latch.a.b]
      ∧ ((e.1 = 0 ∧ e.2 = .sha256) ∨ (e.1 = 1 ∧ e.2 = .sha512) ∨ (e.1 = 2 ∧ e.2 = .whirlpool))
      ∧ 1 ≤ s.latch.a.param0.toNat ∧ 1 ≤ s.latch.a.param1.toNat ∧ s.latch.a.param1.toNat ≤ s.latch.a.dstCap.toNat := by
  intro e he
  refine ⟨start { aLen := 2, bOff := 16, bLen := 4, dstOff := 256, dstCap := 1, param0 := 1, param1 := 1 } [], rfl,
    operandsOk_of _ _ ?_, ?_⟩
  all_goals revert e; decide

/-- N = 2 on channel 0, the result in the last 16 bytes of DMEM, beside channel 1's active range; with the capacity for
it, and with one byte less. -/
theorem witness_ScryptStartBeginsRun : ∀ cap ∈ [(16 : Word), 15],
    ∃ (s : State) (c : ChannelId) (n r p dkLen : Nat), n = s.latch.a.param0.toNat ∧ r = s.latch.a.param1.toNat
      ∧ p = s.latch.a.param2.toNat ∧ dkLen = s.latch.a.param3.toNat ∧ (∃ k, 1 ≤ k ∧ n = 2 ^ k) ∧ 1 ≤ dkLen ∧ dkLen ≤ 65535
      ∧ 1 ≤ r ∧ 1 ≤ p ∧ r * p < 2 ^ 30 ∧ 2 * n * p < 2 ^ 32 ∧ 128 * r * n ≤ 8388608 ∧ 128 * r * p ≤ 8388608
      ∧ ¬ActiveChannel s c ∧ InsideDmem [s.latch.a.a, s.latch.a.b, s.latch.a.dst] ∧ ActiveChannel s (otherChannel c)
      ∧ ¬SharesByte ⟨s.latch.a.dstOff.toNat, dkLen⟩ (s.channel (otherChannel c)).resultRange
      ∧ dkLen = 16 ∧ s.latch.a.dstCap = cap := by
  intro cap hc
  refine ⟨{ start { dstOff := 65520, dstCap := cap, param0 := 2, param1 := 1, param2 := 1, param3 := 16 } [] with
      ch1 := startedChannel [] [] 4 1 1 16 65504 }, .zero, 2, 1, 1, 16, rfl, rfl, rfl, rfl, ⟨1, by decide, rfl⟩, by decide,
    by decide, by decide, by decide, by decide, by decide, by decide, by decide, ?_, insideDmem_of _ ?_, .inl rfl, ?_, rfl, rfl⟩
  · rintro (h | h) <;> cases h
  · have cases : cap = 16 ∨ cap = 15 := by simpa using hc
    rcases cases with rfl | rfl <;> decide
  · rw [← overlaps_iff]
    show (Descriptor.mk 65520 16).overlaps ⟨65504, 16⟩ ≠ true
    decide

theorem witness_ScryptAckAndCancelAnswerEvents :
    (waiting.channel .zero).phase = .waitAck ∧ ActiveChannel waiting .zero ∧ (waiting.channel .one).phase ≠ .waitAck
      ∧ ¬ActiveChannel waiting .one := by
  refine ⟨by decide, .inr (by decide), by decide, ?_⟩
  rintro (h | h) <;> exact absurd h (by decide)

/-- The operands of CIPHER_ENC with a one-time salt of this length, and the least capacity for an empty message. -/
def cipherState (cLen : Word) : State := start { bOff := 32, cOff := 64, cLen := cLen, dstOff := 256, dstCap := 24, param0 := 1 } []

/-- An absent salt, an 8-byte one and one of another length. -/
theorem witness_CipherEncStoresLayer : ∀ e ∈ [(0 : Word), 8, 1],
    ∃ (s : State) (alg : Cipher) (mode : Mode) (scheme : Scheme) (p k c salt m y : Bytes) (rounds draws : Nat),
      s.dmem.wf = true ∧ cipherOfNat (1 : BitVec 3).toNat = some alg ∧ modeOfCode 2 = some mode ∧ schemeOfCode 3 = some scheme
        ∧ OperandsOk s [s.latch.a.a, s.latch.a.b, s.latch.a.c] ∧ p = s.operand s.latch.a.a ∧ k = s.operand s.latch.a.b
        ∧ c = s.operand s.latch.a.c ∧ c.length = e.toNat
        ∧ rounds = (if s.latch.a.param0 = 0 then 1000 else s.latch.a.param0.toNat)
        ∧ ((c.length = 0 ∧ salt = s.drawBytes 0 8 ∧ draws = 8) ∨ (c.length = 8 ∧ salt = c ∧ draws = 0)
          ∨ (c.length ≠ 0 ∧ c.length ≠ 8 ∧ salt = beBytes 8 (Config.keyfitHash 8 c).toNat ∧ draws = 0))
        ∧ m = pbkdf2 Config.stretchHash (keyfit k (cipherKeyBytes alg)) salt rounds (cipherBlockBytes alg + cipherKeyBytes alg)
        ∧ y = salt ++ modeEncrypt alg mode (m.drop (cipherBlockBytes alg)) (m.take (cipherBlockBytes alg))
          (padBytes scheme (cipherBlockBytes alg) (fun i => s.drawByte (draws + i)) p)
        ∧ y.length ≤ s.latch.a.dstCap.toNat := by
  have fits : ∀ (salt key iv : Bytes) (fill : Nat → Byte), salt.length = 8 →
      (salt ++ modeEncrypt .aes .ofb key iv (padBytes .iso97971 (cipherBlockBytes .aes) fill [])).length ≤ 24 := by
    intro salt key iv fill h
    rw [List.length_append, modeEncrypt_length .aes .ofb _ _ _ (padBytes_blocks _ _ _ _ (by decide)),
      padBytes_length _ _ _ _ (by decide), h]
    decide
  intro e he
  have cases : e = 0 ∨ e = 8 ∨ e = 1 := by simpa using he
  rcases cases with rfl | rfl | rfl
  · refine ⟨cipherState 0, .aes, .ofb, .iso97971, _, _, _, _, _, _, _, _, rfl, rfl, rfl, rfl, operandsOk_of _ _ (by decide), rfl, rfl,
      rfl, rfl, rfl, .inl ⟨rfl, rfl, rfl⟩, rfl, rfl, fits _ _ _ _ (by simp)⟩
  · refine ⟨cipherState 8, .aes, .ofb, .iso97971, _, _, _, _, _, _, _, _, rfl, rfl, rfl, rfl, operandsOk_of _ _ (by decide), rfl, rfl,
      rfl, rfl, rfl, .inr (.inl ⟨rfl, rfl, rfl⟩), rfl, rfl, fits _ _ _ _ rfl⟩
  · refine ⟨cipherState 1, .aes, .ofb, .iso97971, _, _, _, _, _, _, _, _, rfl, rfl, rfl, rfl, operandsOk_of _ _ (by decide), rfl, rfl,
      rfl, rfl, rfl, .inr (.inr ⟨by decide, by decide, rfl, rfl⟩), rfl, rfl, fits _ _ _ _ (by simp)⟩

/-- An OFB layer of this message under the empty key. -/
def layer (p : Bytes) : Bytes := codecEncrypt Config.stretchHash .aes .ofb .pkcs7 (fun _ => 0) p [] (zeroBytes 8) 1

/-- An OFB layer whose decryption ends in a zero byte, which PKCS7 refuses. -/
def badLayer : Bytes :=
  zeroBytes 8 ++ modeEncrypt .aes .ofb (codecKey Config.stretchHash .aes [] (zeroBytes 8) 1)
    (codecIv Config.stretchHash .aes [] (zeroBytes 8) 1) (zeroBytes 16)

theorem layer_length (p : Bytes) (h : p.length < 16) : (layer p).length = 24 := by
  rw [layer, codecEncrypt_length, zeroBytes_length, padLen, show cipherBlockBytes .aes = 16 from rfl]
  omega

theorem badLayer_length : badLayer.length = 24 := by
  rw [badLayer, List.length_append, modeEncrypt_length .aes .ofb _ _ _ (by decide)]
  decide

/-- A state whose A is this string, at 0. -/
def holding (x : Bytes) (param0 : Word) : State := start (oneInput (BitVec.ofNat 32 x.length) 0 param0) [(0, x)]

theorem holding_operand (x : Bytes) (param0 : Word) (h : x.length < 256) :
    (holding x param0).operand (holding x param0).latch.a.a = x := by
  have hx : (BitVec.ofNat 32 x.length).toNat = x.length := by
    rw [BitVec.toNat_ofNat, Nat.mod_eq_of_lt]
    omega
  show Memory.readBytes (Memory.writeBytes [] 0 x) 0 (BitVec.ofNat 32 x.length).toNat = x
  rw [hx, Memory.readBytes_writeBytes _ _ _ rfl]

theorem holding_wf (x : Bytes) (param0 : Word) : (holding x param0).dmem.wf = true := Memory.writeBytes_wf [] 0 x rfl

theorem holding_ok (x : Bytes) (param0 : Word) (n : Nat) (h : x.length = n) (hn : n < 256) (ins : List Descriptor)
    (hi : ∀ d ∈ ins, d = ⟨0, n⟩ ∨ d = ⟨0, 0⟩) : OperandsOk (holding x param0) ins := by
  have dst : (holding x param0).latch.a.dst = ⟨256, 0⟩ := rfl
  constructor
  · intro d hd
    rw [List.mem_append, dst, List.mem_singleton] at hd
    rcases hd with hd | rfl
    · rcases hi d hd with rfl | rfl
      · show 0 + n ≤ 65536
        omega
      · decide
    · decide
  · rintro d hd ⟨a, h1, h2, -, -⟩
    rw [dst] at h1 h2
    dsimp only at h1 h2
    omega
  · rintro c hc ⟨a, h1, h2, -, -⟩
    rw [dst] at h1 h2
    dsimp only at h1 h2
    omega

/-- The descriptors of a held layer are good. -/
theorem held_layer_ok (x : Bytes) (h : x.length = 24) :
    OperandsOk (holding x 1) [(holding x 1).latch.a.a, (holding x 1).latch.a.b] := by
  refine holding_ok _ _ 24 h (by decide) _ ?_
  intro d hd
  simp only [List.mem_cons, List.not_mem_nil, or_false] at hd
  rcases hd with rfl | rfl
  · left
    show Descriptor.mk 0 (BitVec.ofNat 32 x.length).toNat = _
    rw [h]
    rfl
  · exact .inr rfl

/-- Layers of the empty message and of one byte, which fit a capacity of 0 and do not; a layer with a bad pad; and inputs
one byte short of the least layer and one byte above it. -/
theorem witness_CipherDecStoresPlaintext :
    (∀ p ∈ [[], [(0x41 : Byte)]],
      ∃ (s : State) (alg : Cipher) (mode : Mode) (scheme : Scheme) (x k m padded y : Bytes) (rounds : Nat),
      s.dmem.wf = true ∧ cipherOfNat (1 : BitVec 3).toNat = some alg ∧ modeOfCode 2 = some mode ∧ schemeOfCode 0 = some scheme
        ∧ OperandsOk s [s.latch.a.a, s.latch.a.b] ∧ x = s.operand s.latch.a.a ∧ k = s.operand s.latch.a.b
        ∧ rounds = (if s.latch.a.param0 = 0 then 1000 else s.latch.a.param0.toNat)
        ∧ m = pbkdf2 Config.stretchHash (keyfit k (cipherKeyBytes alg)) (x.take 8) rounds
          (cipherBlockBytes alg + cipherKeyBytes alg)
        ∧ 8 + cipherBlockBytes alg ≤ x.length ∧ (x.length - 8) % cipherBlockBytes alg = 0
        ∧ padded = modeDecrypt alg mode (m.drop (cipherBlockBytes alg)) (m.take (cipherBlockBytes alg)) (x.drop 8)
        ∧ unpadBytes false scheme (cipherBlockBytes alg) padded = .ok y ∧ y = p ∧ s.latch.a.dstCap = 0)
      ∧ (∃ (s : State) (alg : Cipher) (mode : Mode) (scheme : Scheme) (x k m padded : Bytes) (rounds : Nat) (e : ErrorCode),
      s.dmem.wf = true ∧ cipherOfNat (1 : BitVec 3).toNat = some alg ∧ modeOfCode 2 = some mode ∧ schemeOfCode 0 = some scheme
        ∧ OperandsOk s [s.latch.a.a, s.latch.a.b] ∧ x = s.operand s.latch.a.a ∧ k = s.operand s.latch.a.b
        ∧ rounds = (if s.latch.a.param0 = 0 then 1000 else s.latch.a.param0.toNat)
        ∧ m = pbkdf2 Config.stretchHash (keyfit k (cipherKeyBytes alg)) (x.take 8) rounds
          (cipherBlockBytes alg + cipherKeyBytes alg)
        ∧ 8 + cipherBlockBytes alg ≤ x.length ∧ (x.length - 8) % cipherBlockBytes alg = 0
        ∧ padded = modeDecrypt alg mode (m.drop (cipherBlockBytes alg)) (m.take (cipherBlockBytes alg)) (x.drop 8)
        ∧ unpadBytes false scheme (cipherBlockBytes alg) padded = .error e)
      ∧ ∀ n ∈ [23, 25], ∃ (s : State) (x : Bytes), s.dmem.wf = true ∧ OperandsOk s [s.latch.a.a, s.latch.a.b]
        ∧ x = s.operand s.latch.a.a ∧ x.length = n
        ∧ (x.length < 8 + cipherBlockBytes .aes ∨ (x.length - 8) % cipherBlockBytes .aes ≠ 0) := by
  refine ⟨fun p hp => ?_, ?_, fun n hn => ?_⟩
  · have cases : p = [] ∨ p = [0x41] := by simpa using hp
    have hl := layer_length p (by rcases cases with rfl | rfl <;> decide)
    have hd := codecDecrypt_ofb_pkcs7 Config.stretchHash .aes (fun _ => 0) p [] (zeroBytes 8) 1 rfl
    rw [show codecEncrypt Config.stretchHash .aes .ofb .pkcs7 (fun _ => 0) p [] (zeroBytes 8) 1 = layer p from rfl, codecDecrypt,
      if_neg (by rw [hl]; decide)] at hd
    exact ⟨holding (layer p) 1, .aes, .ofb, .pkcs7, layer p, [], _, _, p, 1, holding_wf _ _, rfl, rfl, rfl,
      held_layer_ok _ hl, (holding_operand _ _ (by rw [hl]; decide)).symm, rfl, rfl, rfl, by rw [hl]; decide,
      by rw [hl]; decide, rfl, hd, rfl, rfl⟩
  · have hl := badLayer_length
    refine ⟨holding badLayer 1, .aes, .ofb, .pkcs7, badLayer, [], _, _, 1, .padding, holding_wf _ _, rfl, rfl, rfl,
      held_layer_ok _ hl, (holding_operand _ _ (by rw [hl]; decide)).symm, rfl, rfl, rfl, by rw [hl]; decide,
      by rw [hl]; decide, rfl, ?_⟩
    rw [badLayer, List.take_left' (zeroBytes_length 8), List.drop_left' (zeroBytes_length 8)]
    refine (congrArg (unpadBytes false .pkcs7 16) (modeDecrypt_ofb .aes _ _ _ (by decide))).trans ?_
    decide
  · refine ⟨start (oneInput (BitVec.ofNat 32 n) 0 1) [], zeroBytes n, rfl, operandsOk_of _ _ ?_, ?_, zeroBytes_length n, ?_⟩
    all_goals revert n; decide

theorem witness_MacGenStoresTag :
    ∃ s : State, s.dmem.wf = true ∧ OperandsOk s [s.latch.a.a, s.latch.a.b] ∧ 32 ≤ s.latch.a.dstCap.toNat :=
  ⟨start { dstOff := 256, dstCap := 32 } [], rfl, operandsOk_of _ _ (by decide), by decide⟩

/-- The operands of M8 and M9, with the tag as a value. -/
def tagged (x : Bytes) : State := start { cOff := 64, cLen := 32 } [(64, x)]

theorem tagged_operand (x : Bytes) (h : x.length = 32) : (tagged x).operand (tagged x).latch.a.c = x := by
  show Memory.readBytes (Memory.writeBytes [] 64 x) 64 32 = x
  rw [← h, Memory.readBytes_writeBytes _ _ _ rfl]

/-- A true tag; a false one, since not both all-zero and all-one tags are true; and a tag of 31 bytes. -/
theorem witness_MacVerifyComparesWholeTag :
    (∃ s : State, s.latch.a.cLen ≠ 32)
      ∧ (∃ s : State, s.latch.a.cLen = 32 ∧ InsideDmem [s.latch.a.a, s.latch.a.b, s.latch.a.c]
        ∧ s.operand s.latch.a.c = mac (s.operand s.latch.a.b) (s.operand s.latch.a.a))
      ∧ ∃ s : State, s.latch.a.cLen = 32 ∧ InsideDmem [s.latch.a.a, s.latch.a.b, s.latch.a.c]
        ∧ s.operand s.latch.a.c ≠ mac (s.operand s.latch.a.b) (s.operand s.latch.a.a) := by
  refine ⟨⟨start { cLen := 31 } [], by decide⟩, ⟨tagged (mac [] []), rfl, insideDmem_of _ (by decide), ?_⟩, ?_⟩
  · exact tagged_operand _ (mac_length [] [])
  · by_cases h : zeroBytes 32 = mac [] []
    · refine ⟨tagged (List.replicate 32 1), rfl, insideDmem_of _ (by decide), ?_⟩
      rw [tagged_operand _ rfl]
      show List.replicate 32 1 ≠ mac [] []
      rw [← h]
      decide
    · exact ⟨tagged (zeroBytes 32), rfl, insideDmem_of _ (by decide), by rw [tagged_operand _ rfl]; exact h⟩

/-- The least and the greatest selector, at the least capacity for an empty plaintext. -/
theorem witness_EnvEncStoresEnvelope : ∀ e ∈ [((0 : BitVec 8), (56 : Word)), (6, 72), (24, 56)],
    ∃ (s : State) (primary secondary : Cipher) (mode : Mode) (scheme : Scheme) (p k1 k2 s1 s2 l1 l2 : Bytes) (fill : Nat),
      s.dmem.wf = true ∧ e.1.toNat ≤ 24 ∧ cipherOfNat (e.1.toNat % 5) = some primary
        ∧ cipherOfNat (e.1.toNat / 5) = some secondary ∧ modeOfCode 1 = some mode ∧ schemeOfCode 2 = some scheme
        ∧ OperandsOk s [s.latch.a.a, s.latch.a.b, s.latch.a.c] ∧ p = s.operand s.latch.a.a ∧ k1 = s.operand s.latch.a.b
        ∧ k2 = s.operand s.latch.a.c
        ∧ fill = (if scheme = .iso10126 then padLen (cipherBlockBytes primary) p.length - 1 else 0)
        ∧ s1 = s.drawBytes 0 8 ∧ s2 = s.drawBytes (8 + fill) 8
        ∧ l1 = codecEncrypt Config.stretchHash primary mode scheme (fun i => s.drawByte (8 + i)) p k1 s1 1000
        ∧ l2 = codecEncrypt Config.stretchHash secondary mode scheme (fun i => s.drawByte (16 + fill + i)) l1 k2 s2 1000
        ∧ 32 + l2.length ≤ s.latch.a.dstCap.toNat := by
  have fits : ∀ (s : State) (f : Nat) (l1 : Bytes) (alg : Cipher) (n : Nat), l1.length = n →
      (codecEncrypt Config.stretchHash alg .cfb .iso10126 (fun i => s.drawByte (16 + f + i)) l1 [] (s.drawBytes (8 + f) 8) 1000).length
        = 8 + (n + padLen (cipherBlockBytes alg) n) := by
    intro s f l1 alg n h
    rw [codecEncrypt_length, State.drawBytes_length, h]
  have first : ∀ (s : State) (alg : Cipher),
      (codecEncrypt Config.stretchHash alg .cfb .iso10126 (fun i => s.drawByte (8 + i)) [] [] (s.drawBytes 0 8) 1000).length
        = 8 + padLen (cipherBlockBytes alg) 0 := by
    intro s alg
    rw [codecEncrypt_length, State.drawBytes_length]
    simp
  intro e he
  have cases : e = (0, 56) ∨ e = (6, 72) ∨ e = (24, 56) := by simpa using he
  rcases cases with rfl | rfl | rfl
  · refine ⟨start { dstOff := 256, dstCap := 64 } [], .blowfish, .blowfish, .cfb, .iso10126, [], [], [], _, _, _, _, _, rfl, by decide, rfl, rfl,
      rfl, rfl, operandsOk_of _ _ (by decide), rfl, rfl, rfl, rfl, rfl, rfl, rfl, rfl, ?_⟩
    rw [fits _ _ _ _ _ (first _ _)]
    decide
  · refine ⟨start { dstOff := 256, dstCap := 72 } [], .aes, .aes, .cfb, .iso10126, [], [], [], _, _, _, _, _, rfl, by decide, rfl, rfl,
      rfl, rfl, operandsOk_of _ _ (by decide), rfl, rfl, rfl, rfl, rfl, rfl, rfl, rfl, ?_⟩
    rw [fits _ _ _ _ _ (first _ _)]
    decide
  · refine ⟨start { dstOff := 256, dstCap := 64 } [], .tripleDes, .tripleDes, .cfb, .iso10126, [], [], [], _, _, _, _, _, rfl, by decide, rfl, rfl,
      rfl, rfl, operandsOk_of _ _ (by decide), rfl, rfl, rfl, rfl, rfl, rfl, rfl, rfl, ?_⟩
    rw [fits _ _ _ _ _ (first _ _)]
    decide

/-- The inner layer of the envelope below. -/
def inner (p : Bytes) : Bytes := codecEncrypt Config.stretchHash .aes .ofb .pkcs7 (fun _ => 0) p [] (zeroBytes 8) 1000

/-- Its outer layer. -/
def outer (p : Bytes) : Bytes := codecEncrypt Config.stretchHash .aes .ofb .pkcs7 (fun _ => 0) (inner p) [] (zeroBytes 8) 1000

/-- The envelope of a plaintext under two empty keys, SEL = 6, OFB, PKCS7. -/
def envelope (p : Bytes) : Bytes := mac ([] ++ []) (outer p) ++ outer p

theorem envelope_length (p : Bytes) (h : p.length < 16) : (envelope p).length = 72 := by
  have block : cipherBlockBytes .aes = 16 := rfl
  rw [envelope, List.length_append, mac_length, outer, codecEncrypt_length, inner, codecEncrypt_length, zeroBytes_length,
    block, padLen, padLen]
  omega

theorem envelope_ok (p : Bytes) (h : p.length < 16) : OperandsOk (holding (envelope p) 0)
    [(holding (envelope p) 0).latch.a.a, (holding (envelope p) 0).latch.a.b, (holding (envelope p) 0).latch.a.c] := by
  refine holding_ok _ _ 72 (envelope_length p h) (by decide) _ ?_
  intro d hd
  simp only [List.mem_cons, List.not_mem_nil, or_false] at hd
  rcases hd with rfl | rfl | rfl
  · left
    show Descriptor.mk 0 (BitVec.ofNat 32 (envelope p).length).toNat = _
    rw [envelope_length p h]
    rfl
  · exact .inr rfl
  · exact .inr rfl

theorem envelope_operand (p : Bytes) (h : p.length < 16) :
    (holding (envelope p) 0).operand (holding (envelope p) 0).latch.a.a = envelope p :=
  holding_operand _ _ (by rw [envelope_length p h]; decide)

/-- The empty plaintext fits a capacity of 0, and one byte does not. -/
theorem witness_EnvDecStoresPlaintext : ∀ q ∈ [[], [(0x41 : Byte)]],
    ∃ (s : State) (sel : BitVec 8) (primary secondary : Cipher) (mode : Mode) (scheme : Scheme) (w k1 k2 l1 p : Bytes),
      s.dmem.wf = true ∧ sel.toNat ≤ 24 ∧ cipherOfNat (sel.toNat % 5) = some primary
        ∧ cipherOfNat (sel.toNat / 5) = some secondary ∧ modeOfCode 2 = some mode ∧ schemeOfCode 0 = some scheme
        ∧ OperandsOk s [s.latch.a.a, s.latch.a.b, s.latch.a.c] ∧ w = s.operand s.latch.a.a ∧ k1 = s.operand s.latch.a.b
        ∧ k2 = s.operand s.latch.a.c ∧ 40 ≤ w.length ∧ w.take 32 = mac (k1 ++ k2) (w.drop 32)
        ∧ codecDecrypt Config.stretchHash false secondary mode scheme (w.drop 32) k2 1000 = .ok l1
        ∧ codecDecrypt Config.stretchHash false primary mode scheme l1 k1 1000 = .ok p ∧ p = q ∧ s.latch.a.dstCap = 0 := by
  intro q hq
  have cases : q = [] ∨ q = [0x41] := by simpa using hq
  have hs : q.length < 16 := by rcases cases with rfl | rfl <;> decide
  have hm : (mac ([] ++ []) (outer q)).length = 32 := mac_length _ _
  have hd : (envelope q).drop 32 = outer q := by rw [envelope, List.drop_left' hm]
  refine ⟨holding (envelope q) 0, 6, .aes, .aes, .ofb, .pkcs7, envelope q, [], [], inner q, q, holding_wf _ _, by decide, rfl, rfl,
    rfl, rfl, envelope_ok q hs, (envelope_operand q hs).symm, rfl, rfl, by rw [envelope_length q hs]; decide, ?_, ?_, ?_, rfl, rfl⟩
  · rw [hd, envelope, List.take_left' hm]
  · rw [hd]
    exact codecDecrypt_ofb_pkcs7 _ _ _ _ _ _ _ rfl
  · exact codecDecrypt_ofb_pkcs7 _ _ _ _ _ _ _ rfl

theorem witness_EnvelopeRoundTrip :
    ∃ (s : State) (sel : BitVec 8) (primary secondary : Cipher) (mode : Mode) (scheme : Scheme) (fill1 fill2 : Nat → Byte)
      (p s1 s2 : Bytes),
      s.dmem.wf = true ∧ sel.toNat ≤ 24 ∧ cipherOfNat (sel.toNat % 5) = some primary
        ∧ cipherOfNat (sel.toNat / 5) = some secondary ∧ modeOfCode 2 = some mode ∧ schemeOfCode 0 = some scheme
        ∧ OperandsOk s [s.latch.a.a, s.latch.a.b, s.latch.a.c] ∧ s1.length = 8 ∧ s2.length = 8
        ∧ s.operand s.latch.a.a = envEncrypt Config.stretchHash primary secondary mode scheme fill1 fill2 p
          (s.operand s.latch.a.b) (s.operand s.latch.a.c) s1 s2
        ∧ p.length ≤ s.latch.a.dstCap.toNat :=
  ⟨holding (envelope []) 0, 6, .aes, .aes, .ofb, .pkcs7, fun _ => 0, fun _ => 0, [], zeroBytes 8, zeroBytes 8, holding_wf _ _, by decide, rfl,
    rfl, rfl, rfl, envelope_ok [] (by decide), rfl, rfl, envelope_operand [] (by decide), by decide⟩

/-- 39 bytes; 40 bytes with a false tag; and V4's case, a true tag over an 8-byte layer that is too short. -/
theorem witness_EnvDecRefusesBadEnvelopes :
    ∃ (primary secondary : Cipher) (mode : Mode) (scheme : Scheme), (6 : BitVec 8).toNat ≤ 24
      ∧ cipherOfNat ((6 : BitVec 8).toNat % 5) = some primary ∧ cipherOfNat ((6 : BitVec 8).toNat / 5) = some secondary
      ∧ modeOfCode 0 = some mode ∧ schemeOfCode 0 = some scheme
      ∧ (∃ s : State, OperandsOk s [s.latch.a.a, s.latch.a.b, s.latch.a.c] ∧ (s.operand s.latch.a.a).length = 39)
      ∧ (∃ s : State, OperandsOk s [s.latch.a.a, s.latch.a.b, s.latch.a.c] ∧ (s.operand s.latch.a.a).length = 40
        ∧ (s.operand s.latch.a.a).take 32
          ≠ mac (s.operand s.latch.a.b ++ s.operand s.latch.a.c) ((s.operand s.latch.a.a).drop 32))
      ∧ ∃ s : State, OperandsOk s [s.latch.a.a, s.latch.a.b, s.latch.a.c] ∧ (s.operand s.latch.a.a).length = 40
        ∧ (s.operand s.latch.a.a).take 32 = mac (s.operand s.latch.a.b ++ s.operand s.latch.a.c) ((s.operand s.latch.a.a).drop 32)
        ∧ ∀ l1 p, codecDecrypt Config.stretchHash false secondary mode scheme ((s.operand s.latch.a.a).drop 32)
            (s.operand s.latch.a.c) 1000 = .ok l1 →
          codecDecrypt Config.stretchHash false primary mode scheme l1 (s.operand s.latch.a.b) 1000 ≠ .ok p := by
  have opsOk : ∀ x : Bytes, x.length = 40 →
      OperandsOk (holding x 0) [(holding x 0).latch.a.a, (holding x 0).latch.a.b, (holding x 0).latch.a.c] := by
    intro x hx
    refine holding_ok _ _ 40 hx (by decide) _ ?_
    intro d hd
    simp only [List.mem_cons, List.not_mem_nil, or_false] at hd
    rcases hd with rfl | rfl | rfl
    · left
      show Descriptor.mk 0 (BitVec.ofNat 32 x.length).toNat = _
      rw [hx]
      rfl
    · exact .inr rfl
    · exact .inr rfl
  have hm : (mac [] (zeroBytes 8)).length = 32 := mac_length _ _
  have bad : ∀ t : Bytes, t.length = 32 → t ≠ mac [] (zeroBytes 8) →
      ∃ s : State, OperandsOk s [s.latch.a.a, s.latch.a.b, s.latch.a.c] ∧ (s.operand s.latch.a.a).length = 40
        ∧ (s.operand s.latch.a.a).take 32
          ≠ mac (s.operand s.latch.a.b ++ s.operand s.latch.a.c) ((s.operand s.latch.a.a).drop 32) := by
    intro t ht hne
    have hl : (t ++ zeroBytes 8).length = 40 := by rw [List.length_append, ht]; rfl
    refine ⟨holding (t ++ zeroBytes 8) 0, opsOk _ hl, ?_⟩
    rw [holding_operand _ _ (by rw [hl]; decide), List.take_left' ht, List.drop_left' ht]
    exact ⟨hl, hne⟩
  refine ⟨.aes, .aes, .cbc, .pkcs7, by decide, rfl, rfl, rfl, rfl,
    ⟨start (oneInput 39 64 0) [], operandsOk_of _ _ (by decide), by simp [start, Args.a, oneInput]⟩, ?_, ?_⟩
  · by_cases h : zeroBytes 32 = mac [] (zeroBytes 8)
    · exact bad (List.replicate 32 1) rfl (by rw [← h]; decide)
    · exact bad (zeroBytes 32) rfl h
  · have hl : (mac [] (zeroBytes 8) ++ zeroBytes 8).length = 40 := by rw [List.length_append, hm]; rfl
    refine ⟨holding (mac [] (zeroBytes 8) ++ zeroBytes 8) 0, opsOk _ hl, ?_⟩
    rw [holding_operand _ _ (by rw [hl]; decide), List.take_left' hm, List.drop_left' hm]
    refine ⟨hl, rfl, fun l1 p h => ?_⟩
    rw [codecDecrypt, if_pos (by decide)] at h
    contradiction

/-- Each kind of tag at its least capacity; a draw's range of one value and of more. -/
theorem witness_KxGenerateFillsSlot : ∀ e ∈ [(0 : BitVec 8), 8, 9, 13],
    ∃ (s : State) (t : Tag) (priv : Nat), s.dmem.wf = true ∧ tagOfNat e.toNat = some t ∧ OperandsOk s []
      ∧ s.latch.a.dstCap.toNat = pubLen t
      ∧ (match tagAlgorithm t with
        | .dh b => priv = s.drawInt 0 2 ((Config.dhGroup b).p - 2)
        | .x25519 => priv = leNat (s.drawBytes 0 32)
        | .prime b => priv = s.drawInt 0 1 ((Config.primeCurve b).n - 1)
        | .binary b => priv = s.drawInt 0 1 ((Config.binaryCurve b).n - 1)) := by
  intro e he
  have cases : e = 0 ∨ e = 8 ∨ e = 9 ∨ e = 13 := by simpa using he
  rcases cases with rfl | rfl | rfl | rfl
  · exact ⟨start { dstCap := 96 } [], .dh768, _, rfl, rfl, operandsOk_of _ _ (by decide), rfl, rfl⟩
  · exact ⟨start { dstCap := 57 } [], .ecdh224, _, rfl, rfl, operandsOk_of _ _ (by decide), rfl, rfl⟩
  · exact ⟨start { dstCap := 32 } [], .x25519, _, rfl, rfl, operandsOk_of _ _ (by decide), rfl, rfl⟩
  · exact ⟨start { dstCap := 145 } [], .ecdh571, _, rfl, rfl, operandsOk_of _ _ (by decide), rfl, rfl⟩

/-- A good key with the longest drawn salt, at its least capacity; and a key one byte short. -/
theorem witness_KxSerializeStoresBlob :
    (∃ (s : State) (t : Tag) (n : Nat), s.dmem.wf = true ∧ tagOfNat (9 : BitVec 8).toNat = some t ∧ OperandsOk s [s.latch.a.a]
        ∧ n = s.drawInt 0 16 31 ∧ s.latch.a.aLen.toNat = pubLen t ∧ 2 + n + pubLen t ≤ s.latch.a.dstCap.toNat)
      ∧ ∃ (s : State) (t : Tag) (n : Nat), s.dmem.wf = true ∧ tagOfNat (9 : BitVec 8).toNat = some t ∧ OperandsOk s [s.latch.a.a]
        ∧ n = s.drawInt 0 16 31 ∧ s.latch.a.aLen.toNat ≠ pubLen t :=
  ⟨⟨{ start (oneInput 32 65 0) [] with draws := [[31]] }, .x25519, 31, rfl, rfl, operandsOk_of _ _ (by decide), by decide, by decide,
      by decide⟩,
    ⟨start (oneInput 31 65 0) [], .x25519, _, rfl, rfl, operandsOk_of _ _ (by decide), rfl, by decide⟩⟩

/-- Blobs with the shortest and the longest salt that R141 accepts; and no blob. -/
theorem witness_KxParseLocatesSaltAndKey :
    (∀ n ∈ [(16 : Byte), 32], ∃ (s : State) (t : Tag) (tb : Byte) (salt key : Bytes), InsideDmem [s.latch.a.a]
        ∧ s.operand s.latch.a.a = tb :: n :: (salt ++ key) ∧ tagOfNat tb.toNat = some t ∧ 16 ≤ n.toNat ∧ n.toNat ≤ 32
        ∧ salt.length = n.toNat ∧ key.length = pubLen t)
      ∧ ∃ s : State, InsideDmem [s.latch.a.a]
        ∧ ¬∃ (t : Tag) (tb n : Byte) (salt key : Bytes), s.operand s.latch.a.a = tb :: n :: (salt ++ key)
          ∧ tagOfNat tb.toNat = some t ∧ 16 ≤ n.toNat ∧ n.toNat ≤ 32 ∧ salt.length = n.toNat ∧ key.length = pubLen t := by
  constructor
  · intro n hn
    have cases : n = 16 ∨ n = 32 := by simpa using hn
    rcases cases with rfl | rfl
    · exact ⟨start (oneInput 50 0 0) [(0, [9, 16])], .x25519, 9, zeroBytes 16, zeroBytes 32, insideDmem_of _ (by decide), by decide, rfl,
        by decide, by decide, rfl, rfl⟩
    · exact ⟨start (oneInput 66 0 0) [(0, [9, 32])], .x25519, 9, zeroBytes 32, zeroBytes 32, insideDmem_of _ (by decide), by decide, rfl,
        by decide, by decide, rfl, rfl⟩
  · refine ⟨start (oneInput 1 0 0) [], insideDmem_of _ (by decide), ?_⟩
    rintro ⟨t, tb, n, salt, key, h, -⟩
    have := congrArg List.length h
    simp [start, oneInput, Args.a] at this

/-- The secret of X4. -/
def x4Secret : Bytes := beBytes 32 0x4a5d9d5ba4ce2de1728e3bf480350f25e07e21c947d19e3376f09b3c1e161742

/-- An empty slot; X4's key and value; and X6's value, which is refused. -/
theorem witness_KxComputeStoresSecretOnce :
    (∃ s : State, s.slotTag = none)
      ∧ (∃ (s : State) (t : Tag) (sec : Bytes), s.slotTag = some t ∧ OperandsOk s [s.latch.a.a]
        ∧ sharedSecret t s.slotPriv (s.operand s.latch.a.a) = some sec ∧ s.dmem.wf = true ∧ secLen t ≤ s.latch.a.dstCap.toNat)
      ∧ (∃ (s : State) (t : Tag) (sec : Bytes), s.slotTag = some t ∧ OperandsOk s [s.latch.a.a]
        ∧ sharedSecret t s.slotPriv (s.operand s.latch.a.a) = some sec ∧ s.latch.a.dstCap.toNat < secLen t)
      ∧ ∃ (s : State) (t : Tag), s.slotTag = some t ∧ OperandsOk s [s.latch.a.a]
        ∧ sharedSecret t s.slotPriv (s.operand s.latch.a.a) = none := by
  have secret : sharedSecret .x25519 (leNat aliceKey) bobPublic = some x4Secret := by decide +kernel
  have operand : ∀ cap, (withKey 32 cap bobPublic).operand (withKey 32 cap bobPublic).latch.a.a = bobPublic :=
    fun _ => (by decide +kernel : Memory.readBytes (Memory.writeBytes [] 0 bobPublic) 0 32 = bobPublic)
  refine ⟨⟨State.reset, rfl⟩, ⟨withKey 32 32 bobPublic, .x25519, x4Secret, rfl, operandsOk_of _ _ (by decide), ?_, by decide +kernel, by decide⟩,
    ⟨withKey 32 31 bobPublic, .x25519, x4Secret, rfl, operandsOk_of _ _ (by decide), ?_, by decide⟩,
    ⟨withKey 31 32 [], .x25519, rfl, operandsOk_of _ _ (by decide), ?_⟩⟩
  · rw [operand]
    exact secret
  · rw [operand]
    exact secret
  · show x25519Secret (leNat aliceKey) (State.operand (withKey 31 32 []) ⟨0, 31⟩) = none
    rw [x25519Secret, if_pos (by rw [State.operand_length]; decide)]

theorem witness_KxNukeAndAppliedMoveEngine :
    (∃ s : State, s.kxPhase = .secretComputed) ∧ ∃ s : State, s.kxPhase ≠ .secretComputed :=
  ⟨⟨{ State.reset with kxPhase := .secretComputed }, rfl⟩, State.reset, by decide⟩

/-- X19, X20, X22 and X23. -/
theorem witness_SaltOrderPicksLargerSalt :
    ∀ e ∈ [((16 : Word), (17 : Word)), (17, 16), (0, 0)], ∃ (s : State) (l r : Bytes), InsideDmem [s.latch.a.a, s.latch.a.b]
      ∧ l = s.operand s.latch.a.a ∧ r = s.operand s.latch.a.b ∧ l.length = e.1.toNat ∧ r.length = e.2.toNat := by
  intro e he
  refine ⟨start { aLen := e.1, bLen := e.2 } [], _, _, insideDmem_of _ ?_, rfl, rfl, ?_, ?_⟩
  · have cases : e = (16, 17) ∨ e = (17, 16) ∨ e = (0, 0) := by simpa using he
    rcases cases with rfl | rfl | rfl <;> decide
  · simp [start, Args.a]
  · simp [start, Args.b]

theorem witness_SaltOrderPicksLargerSalt_byte :
    ∃ (s : State) (l r same restL restR : Bytes) (x y : Byte), InsideDmem [s.latch.a.a, s.latch.a.b]
      ∧ l = s.operand s.latch.a.a ∧ r = s.operand s.latch.a.b ∧ l = same ++ x :: restL ∧ r = same ++ y :: restR
      ∧ restL.length = restR.length ∧ x ≠ y :=
  ⟨start { aLen := 17, bOff := 32, bLen := 17 } [(16, [5]), (48, [4])], _, _, zeroBytes 16, [], [], 5, 4, insideDmem_of _ (by decide),
    rfl, rfl, by decide, by decide, rfl, by decide⟩

theorem witness_ErrorsArePrecise : ∃ (i : Instr) (s t : State), exec i s = .next t ∧ t.err ≠ .ok :=
  ⟨.kxApplied, State.reset, _, rfl, by decide⟩

/-- N is no power of two from 2 on when it is odd or 0. -/
theorem odd_not_power (n : Nat) (h : n % 2 = 1 ∨ n = 0) : ∀ k, 1 ≤ k → n ≠ 2 ^ k := by
  rintro k hk rfl
  obtain ⟨j, rfl⟩ : ∃ j, k = j + 1 := ⟨k - 1, by omega⟩
  rw [pow_succ] at h
  have := Nat.two_pow_pos j
  omega

/-- A command that reaches the overlap check and fails it. -/
def MeetsOverlap (i : Instr) (s : State) : Prop :=
  (fieldError i = none ∧ paramError i s.latch.a = none ∧ resourceError i s.latch.a = none ∧ engineError i s = none
    ∧ usesDst i = true ∧ s.latch.a.dstOff.toNat + s.latch.a.dstCap.toNat ≤ 65536)
    ∧ (∀ d ∈ inputsOf i s.latch.a, d.off + d.len ≤ 65536) ∧ ForbiddenOverlap i s

/-- N = 4, r = p = 1 and dkLen = 16. -/
def smallRun : Args := { dstOff := 256, dstCap := 16, param0 := 4, param1 := 1, param2 := 1, param3 := 16 }

/-- For each item of R161 a command that it stops, and one that none of them stops; field codes and parameters just
outside their ranges; runs just outside theirs, just above the memory, and on a busy channel; a range one byte too
long, for an input and for DST; and each forbidden overlap, in one byte. -/
theorem witness_FirstFailingCheckIsReported :
    (firstError (.envEnc 3 0 25) State.reset = some .badSelector ∧ firstError (.envEnc 3 0 24) State.reset = some .config
      ∧ firstError (.pad 0) State.reset = some .config
      ∧ firstError (.scryptStart .zero) (start { param0 := 131072, param1 := 1, param2 := 1, param3 := 16 } []) = some .resource
      ∧ firstError .kxCompute State.reset = some .kxNoKey
      ∧ firstError (.hash 0) (start { aOff := 1, aLen := 65536 } []) = some .range
      ∧ firstError (.hash 0) (start { aLen := 1, dstCap := 1 } []) = some .overlap
      ∧ firstError .nop State.reset = none ∧ ∃ t, exec .nop State.reset = .next t)
      ∧ (3 ≤ (3 : BitVec 3).toNat ∧ 4 ≤ (4 : BitVec 3).toNat ∧ 5 ≤ (5 : BitVec 3).toNat ∧ 25 ≤ (25 : BitVec 8).toNat
        ∧ (24 : BitVec 8).toNat ≤ 24 ∧ 14 ≤ (14 : BitVec 8).toNat)
      ∧ (9 % 8 ≠ 0 ∧ 0 < 8 ∧ 2040 < 2048 ∧ 12 ∉ [8, 16, 20, 24, 32, 64])
      ∧ (ScryptOutOfRange 3 1 1 16 ∧ ScryptOutOfRange 1 1 1 16 ∧ ScryptOutOfRange 0 1 1 16 ∧ ScryptOutOfRange 2 1 1 65536
        ∧ ScryptOutOfRange 2 (2 ^ 30) 1 16 ∧ ScryptOutOfRange 2 1 (2 ^ 30) 16 ∧ ¬ScryptOutOfRange 131072 1 1 16
        ∧ 8388608 < 128 * 1 * 131072
        ∧ ∃ s : State, ¬ScryptOutOfRange s.latch.a.param0.toNat s.latch.a.param1.toNat s.latch.a.param2.toNat
            s.latch.a.param3.toNat ∧ ActiveChannel s .zero)
      ∧ (∀ e ∈ [({ aOff := 1, aLen := 65536 } : Args), { dstOff := 65536, dstCap := 1 }],
        fieldError (.hash 0) = none ∧ paramError (.hash 0) e = none ∧ resourceError (.hash 0) e = none
          ∧ engineError (.hash 0) (start e []) = none
          ∧ ((∃ d ∈ inputsOf (.hash 0) e, 65536 < d.off + d.len)
            ∨ (usesDst (.hash 0) = true ∧ 65536 < e.dstOff.toNat + e.dstCap.toNat)))
      ∧ MeetsOverlap (.hash 0) (start { aOff := 8, aLen := 1, dstOff := 8, dstCap := 1 } [])
      ∧ MeetsOverlap (.hash 0) { start { dstOff := 256, dstCap := 1 } [] with ch0 := startedChannel [] [] 4 1 1 16 256 }
      ∧ MeetsOverlap (.scryptStart .zero) { start smallRun [] with ch1 := startedChannel [] [] 4 1 1 16 271 } := by
  have inRange : ∀ k, 1 ≤ k → k ≤ 17 → ¬ScryptOutOfRange (2 ^ k) 1 1 16 := by
    rintro k h1 h17 (h | h | h | h | h | h | h)
    · exact h k h1 rfl
    all_goals try omega
    have := Nat.pow_le_pow_right (show 1 ≤ 2 by decide) h17
    omega
  refine ⟨⟨by decide, by decide, by decide, by decide, by decide, by decide, by decide, by decide, _, rfl⟩, by decide, by decide,
    ⟨.inl (odd_not_power 3 (by decide)), .inl (odd_not_power 1 (by decide)), .inl (odd_not_power 0 (by decide)),
      .inr (.inr (.inl (by decide))), .inr (.inr (.inr (.inr (.inr (.inl (by decide)))))),
      .inr (.inr (.inr (.inr (.inr (.inl (by decide)))))), inRange 17 (by decide) (by decide), by decide,
      { start smallRun [] with ch0 := startedChannel [] [] 4 1 1 16 256 }, inRange 2 (by decide) (by decide), .inl rfl⟩, fun e he => ?_, ?_, ?_, ?_⟩
  · have cases : e = { aOff := 1, aLen := 65536 } ∨ e = { dstOff := 65536, dstCap := 1 } := by simpa using he
    rcases cases with rfl | rfl
    · exact ⟨by decide, by decide, by decide, by decide, .inl ⟨_, List.mem_singleton_self _, by decide⟩⟩
    · exact ⟨by decide, by decide, by decide, by decide, .inr (by decide)⟩
  · exact ⟨by decide, by decide, .inl ⟨_, List.mem_singleton_self _, 8, by decide, by decide, by decide, by decide⟩⟩
  · exact ⟨by decide, by decide, .inr ⟨.zero, .inl rfl, 256, by decide, by decide, by decide, by decide⟩⟩
  · exact ⟨by decide, by decide, .inl rfl, 271, by decide, by decide, by decide, by decide⟩

/-- HASH SHA-256 with a capacity of 31 and of 32 bytes (K5). -/
theorem witness_CapacityDecidesKnownLengthResults : ∀ cap ∈ [(31 : Word), 32],
    firstError (.hash 0) (start (oneInput 5 cap 0) []) = none ∧ resultLength (.hash 0) (start (oneInput 5 cap 0) []) = some 32 := by
  intro cap h
  have cases : cap = 31 ∨ cap = 32 := by simpa using h
  rcases cases with rfl | rfl <;> decide

/-! Invariants -/

/-- The reset state meets the invariant, and so does a state with a run in progress. -/
theorem running_inv (c : ChannelId) : Inv (running c) := by
  have run : ActiveRun (startedChannel [] [] 4 1 1 16 256) := by
    refine ⟨by decide, by decide, by decide, scryptBlocks_length .., fun b hb => scryptBlocks_block _ _ _ _ b hb, by decide, rfl, ?_, rfl⟩
    constructor <;> rfl
  constructor
  · cases c <;> rfl
  · cases c <;> simp [running, State.reset]
  · cases c <;> decide
  · cases c <;> decide
  · cases c <;> decide
  · cases c <;> decide
  · intro d
    cases c <;> cases d <;> first | exact run | rfl
  · rintro ⟨h0, h1⟩
    cases c
    · rcases h1 with h | h <;> exact absurd h (by decide)
    · rcases h0 with h | h <;> exact absurd h (by decide)

theorem witness_EveryStepKeepsInvariant : ∃ s t : State, Inv s ∧ step s = .next t ∧ t.turns ≠ s.turns := by
  have h := running_inv .zero
  refine ⟨{ running .zero with turns := [.commandUnit] }, running .zero, ?_, rfl, by decide⟩
  exact ⟨h.memory, h.memoryBound, h.errCode, h.busyNotDone, h.keyPhase, h.keyZeroed, h.channels, h.apart⟩

theorem witness_ChannelPhasesFollowTable (c : ChannelId) :
    ∃ s t : State, Inv s ∧ (s.channel c).phase = .running ∧ takeTurn (.channel c) s = .next t :=
  ⟨running c, _, running_inv c, by simp [running, startedChannel], rfl⟩

theorem witness_KeyExchangeFollowsTable : ∃ s t : State, s.slotTag = some .x25519 ∧ takeTurn .commandUnit s = .next t :=
  ⟨{ State.reset with slotTag := some .x25519, latch := { pending := true, f := fieldsOf .kxNuke } }, _, rfl, rfl⟩

theorem witness_PrivateKeyIsReadOnlyByKxCompute :
    ∃ s t : State, s.slotPriv = 77 ∧ ¬Executes .commandUnit s .kxCompute ∧ takeTurn .commandUnit s = .next t := by
  refine ⟨{ State.reset with slotPriv := 77, latch := { pending := true, f := fieldsOf .kxNuke } }, _, rfl, ?_, rfl⟩
  rintro ⟨-, -, h⟩
  exact absurd h (by decide)

/-- A command that stores, beside an active result range. -/
theorem witness_CommandsSpareActiveResultRanges (c : ChannelId) :
    ∃ (i : Instr) (s t : State) (a : Nat), s.dmem.wf = true ∧ exec i s = .next t ∧ t.err = .ok ∧ ActiveChannel s c
      ∧ (s.channel c).resultRange.off ≤ a ∧ a < (s.channel c).resultRange.off + (s.channel c).resultRange.len := by
  refine ⟨.pad 0, (start { dstCap := 1, param0 := 8 } []).setChannel c { phase := .running, dstOffReg := 1, dkLenReg := 1 }, _, 1, ?_,
    exec_after _ _, ?_, .inl ?_, ?_⟩
  all_goals cases c <;> decide +kernel

theorem witness_ChannelStepIsConfined (c : ChannelId) : (running c).dmem.wf = true ∧ ((running c).channel c).phase = .running := by
  cases c <;> decide

theorem witness_CancelledRunDeliversNothing (c : ChannelId) :
    ∃ s : State, (s.channel c).phase = .running ∧ (s.channel c).run.cancelReq = true :=
  ⟨State.reset.setChannel c { phase := .running, run := { cancelReq := true } }, by simp, by simp⟩

/-- A run of 1024 ops, k ops in. -/
def midRun (c : ChannelId) (k : Nat) : State :=
  State.reset.setChannel c
    { startedChannel [1] [2] 512 1 1 32 256 with run := scryptOps k (startedChannel [1] [2] 512 1 1 32 256).run }

theorem midRun_at (c : ChannelId) (k : Nat) (h : (scryptOps k (startedChannel [1] [2] 512 1 1 32 256).run).events = 0) :
    RunAt ((midRun c k).channel c) [1] [2] 512 1 1 32 256 k 0 := by
  rw [RunAt, midRun, State.channel_setChannel]
  rw [← h]

theorem scryptOps_events (k : Nat) (run : Run) : (scryptOps k run).events = run.events := by
  induction k generalizing run with
  | zero => rfl
  | succ k ih =>
    rw [scryptOps, ih, scryptOp]
    dsimp only
    split <;> rfl

/-- Not the last chunk: at least one op is left after it. -/
theorem witness_WorkingChunkRunsThousandOps (c : ChannelId) :
    ((midRun c 23).channel c).phase = .running ∧ RunAt ((midRun c 23).channel c) [1] [2] 512 1 1 32 256 23 0
      ∧ 23 + 1000 < 2 * 512 * 1 :=
  ⟨by simp [midRun, startedChannel], midRun_at c 23 (scryptOps_events _ _), by decide⟩

/-- The last chunk: exactly 1000 ops are left, and one. -/
theorem witness_FinishedRunDeliversScrypt (c : ChannelId) (k : Nat) (h : k = 24 ∨ k = 1023) :
    (midRun c k).dmem.wf = true ∧ ((midRun c k).channel c).phase = .running
      ∧ RunAt ((midRun c k).channel c) [1] [2] 512 1 1 32 256 k 0 ∧ k < 2 * 512 * 1 ∧ 2 * 512 * 1 ≤ k + 1000 :=
  ⟨by cases c <;> rfl, by simp [midRun, startedChannel], midRun_at c k (scryptOps_events _ _), by omega, by omega⟩

theorem witness_UnpadInvertsPad : ∀ b ∈ [1, 255], 1 ≤ b ∧ b ≤ 255 := by decide

theorem witness_BlockDecryptionInvertsEncryption (alg : Cipher) :
    (zeroBytes (cipherKeyBytes alg)).length = cipherKeyBytes alg ∧ (zeroBytes (cipherBlockBytes alg)).length = cipherBlockBytes alg := by
  simp

theorem witness_CodecRoundTrip : (zeroBytes 8).length = 8 ∧ 1 ≤ 1 := by decide

/-- p = 23, g = 5, with the private keys 6 and 15. -/
theorem witness_DhPartiesAgree :
    ∃ (group : DhGroup) (sx sy : Bytes), 8 % 8 = 0 ∧ group.p ≤ 2 ^ 8
      ∧ dhSecret group 8 6 (beBytes (8 / 8) (powMod group.p group.g 15)) = some sx
      ∧ dhSecret group 8 15 (beBytes (8 / 8) (powMod group.p group.g 6)) = some sy :=
  ⟨⟨23, 5⟩, [2], [2], by decide +kernel⟩

theorem witness_SelectorsNameAllCipherPairs : ∀ sel ∈ [(0 : BitVec 8), 24], sel.toNat ≤ 24 := by decide

theorem witness_SaltOrderIsAntisymmetric : remoteIsPrimary [0, 0] [0, 1] = some true ∧ remoteIsPrimary [1] [1] = none := by
  decide +kernel

end Sys2Proof.Machine.Tests
end

/-! KX_GENERATE (spec/45_keyexchange.md R139) fills the key slot: what an integer draw and a byte string's value are
bounded by, the laws of the group or curve that a tag names, and the command's rule on admitted operands. -/

namespace Sys2Proof.Machine

open Sys2Proof

/-! ### Draws and byte strings -/

/-- An integer draw from a nonempty range lies in it, scripted value or folded one (00_scope.md R11). -/
theorem State.drawInt_mem (s : State) (k lo hi : Nat) (h : lo ≤ hi) :
    lo ≤ s.drawInt k lo hi ∧ s.drawInt k lo hi ≤ hi := by
  unfold State.drawInt
  split
  · assumption
  · have folded := Nat.mod_lt (s.draw k) (show 0 < hi + 1 - lo by omega)
    omega

/-- The little-endian value of n bytes is below 256^n (R10). -/
theorem leNat_lt (x : Bytes) : leNat x < 256 ^ x.length := by
  induction x with
  | nil => simp [leNat]
  | cons b bs ih =>
    have hb : b.toNat < 256 := b.isLt
    rw [leNat, List.length_cons, pow_succ]
    omega

/-! ### Tags -/

/-- The number of a tag is the code that selects it (45_keyexchange.md R127). -/
theorem tagCode_of_tagOfNat (c : BitVec 8) (t : Tag) (h : tagOfNat c.toNat = some t) : tagCode t = c := by
  apply BitVec.eq_of_toNat_eq
  revert h
  generalize c.toNat = n
  unfold tagOfNat
  split <;> rintro ⟨⟩ <;> rfl

/-- No DH group and no curve of a tag has fewer than 224 bits (R127). -/
theorem size_ge_of_tagAlgorithm {t : Tag} {b : Nat}
    (h : tagAlgorithm t = .dh b ∨ tagAlgorithm t = .prime b ∨ tagAlgorithm t = .binary b) : 224 ≤ b := by
  cases t <;> simp [tagAlgorithm] at h <;> omega

/-- The DH group of a tag obeys its laws (00_scope.md R7). -/
theorem dhGroup_lawful_of_tag {t : Tag} {b : Nat} (h : tagAlgorithm t = .dh b) : (Config.dhGroup b).Lawful b :=
  Config.dhGroup_lawful b (le_trans (by decide) (size_ge_of_tagAlgorithm (.inl h)))

/-- The prime-field curve of a tag obeys its laws (00_scope.md R7). -/
theorem primeCurve_lawful_of_tag {t : Tag} {b : Nat} (h : tagAlgorithm t = .prime b) :
    (Config.primeCurve b).Lawful b :=
  Config.primeCurve_lawful b (le_trans (by decide) (size_ge_of_tagAlgorithm (.inr (.inl h))))

/-- The binary-field curve of a tag obeys its laws (00_scope.md R7). -/
theorem binaryCurve_lawful_of_tag {t : Tag} {b : Nat} (h : tagAlgorithm t = .binary b) :
    (Config.binaryCurve b).Lawful b :=
  Config.binaryCurve_lawful b (le_trans (by decide) (size_ge_of_tagAlgorithm (.inr (.inr h))))

/-! ### The ranges of the drawn keys -/

/-- The range 2 .. p − 2 of a DH key is not empty: p has at least 3 bits (R134). -/
theorem dhKeyRange_nonempty {d : DhGroup} {b : Nat} (hb : 3 ≤ b) (law : d.Lawful b) : 2 ≤ d.p - 2 := by
  have four : 2 ^ 2 ≤ 2 ^ (b - 1) := Nat.pow_le_pow_right (by decide) (by omega)
  have low := law.bitLength.1
  omega

/-- A DH key drawn for a tag lies in 2 .. p − 2 (R134). -/
theorem drawInt_dhKey {t : Tag} {b : Nat} (h : tagAlgorithm t = .dh b) (s : State) (k : Nat) :
    2 ≤ s.drawInt k 2 ((Config.dhGroup b).p - 2)
      ∧ s.drawInt k 2 ((Config.dhGroup b).p - 2) ≤ (Config.dhGroup b).p - 2 :=
  s.drawInt_mem k _ _
    (dhKeyRange_nonempty (le_trans (by decide) (size_ge_of_tagAlgorithm (.inl h))) (dhGroup_lawful_of_tag h))

/-- An ECDH key drawn below a prime order n lies in 1 .. n − 1 (R135). -/
theorem drawInt_below_prime {n : Nat} (hn : n.Prime) (s : State) (k : Nat) :
    1 ≤ s.drawInt k 1 (n - 1) ∧ s.drawInt k 1 (n - 1) ≤ n - 1 :=
  s.drawInt_mem k _ _ (Nat.le_sub_one_of_lt hn.one_lt)

/-- 32 drawn bytes, an X25519 key, have a value below 2^256 (R136). -/
theorem leNat_drawBytes_lt (s : State) (k : Nat) : leNat (s.drawBytes k 32) < 2 ^ 256 := by
  have bound := leNat_lt (s.drawBytes k 32)
  rw [State.drawBytes_length] at bound
  exact lt_of_lt_of_eq bound (by norm_num)

/-! ### The command -/

/-- A command whose rule writes the slot and stores a result changes nothing else. -/
theorem storesAndMovesSlot_of_ok (i : Instr) (s : State) (y : Bytes) (r : Results) (phase : KxPhase) (tag : Option Tag)
    (priv : Nat) (wf : s.dmem.wf = true)
    (h : exec i s = complete s (.ok
      { state := (s.setSlot phase tag priv).storeBytes s.latch.a.dst.off y
        results := { r with outLen := BitVec.ofNat 32 y.length } })) :
    StoresAndMovesSlot i s y r phase tag priv :=
  ⟨_, h.trans (complete_ok ..), finish_completed s _ _ _ rfl rfl rfl rfl, ⟨rfl, rfl, rfl, rfl, rfl, rfl, rfl, rfl, rfl⟩,
    ⟨rfl, rfl, rfl⟩, ⟨rfl, rfl⟩, fun a => Memory.read_writeBytes s.dmem _ a y wf⟩

/-- The rule of KX_GENERATE for a tag, with an admitted DST that holds the public key (R139). -/
theorem kxGenerateCommand_of_fits (s : State) (sel : BitVec 8) (t : Tag) (tag : tagOfNat sel.toNat = some t)
    (ok : OperandsOk s []) (fits : pubLen t ≤ s.latch.a.dst.len) :
    kxGenerateCommand sel s = .ok
      { state := (s.setSlot .keyGenerated (some t) (generatePrivate t s)).storeBytes s.latch.a.dst.off
          (publicKey t (generatePrivate t s))
        results := { out0 := sel.setWidth 32, outLen := BitVec.ofNat 32 (pubLen t) } } := by
  simp only [kxGenerateCommand, tag]
  rw [withOperands_of_ok s [] _ ok, if_neg (Nat.not_lt.mpr fits), tagResult, tagCode_of_tagOfNat sel t tag]

/-- KX_GENERATE puts the drawn key into the slot and stores its public key (R139). -/
theorem kxGenerate_storesAndMovesSlot (s : State) (sel : BitVec 8) (t : Tag) (wf : s.dmem.wf = true)
    (tag : tagOfNat sel.toNat = some t) (ok : OperandsOk s []) (fits : pubLen t ≤ s.latch.a.dst.len) :
    StoresAndMovesSlot (.kxGenerate sel) s (publicKey t (generatePrivate t s)) { out0 := sel.setWidth 32 } .keyGenerated
      (some t) (generatePrivate t s) := by
  refine storesAndMovesSlot_of_ok _ s _ _ _ _ _ wf ?_
  rw [exec_eq_complete, ruleOf, kxGenerateCommand_of_fits s sel t tag ok fits, publicKey_length]

/-- Settles O33: the rule of KX_GENERATE gives the completion, and the laws of the tag's group or curve make the range
that its key is drawn from nonempty, so that the key lies in it. -/
theorem kxGenerateFillsSlot : Obligations.KxGenerateFillsSlot := by
  intro s sel t priv wf tag ok fits drawn
  have key : priv = generatePrivate t s := by
    unfold generatePrivate
    cases h : tagAlgorithm t <;> simpa only [h] using drawn
  refine ⟨publicKey_length t priv, key ▸ kxGenerate_storesAndMovesSlot s sel t wf tag ok fits, ?_⟩
  cases h : tagAlgorithm t with
  | dh b =>
    simp only [h] at drawn
    exact ⟨dhGroup_lawful_of_tag h, drawn ▸ drawInt_dhKey h s 0⟩
  | x25519 =>
    simp only [h] at drawn
    exact drawn ▸ leNat_drawBytes_lt s 0
  | prime b =>
    simp only [h] at drawn
    have law := primeCurve_lawful_of_tag h
    exact ⟨law, drawn ▸ drawInt_below_prime law.orderPrime s 0⟩
  | binary b =>
    simp only [h] at drawn
    have law := binaryCurve_lawful_of_tag h
    exact ⟨law, drawn ▸ drawInt_below_prime law.orderPrime s 0⟩

end Sys2Proof.Machine

/-! What the agents' steps can do, said once each: a channel's chunk, which of its run's fields an op keeps, the host
accesses, and the registers and the errors of a command's rule. -/

namespace Sys2Proof.Machine

open Sys2Proof

/-! ### The ops of a Scrypt run (42_scrypt.md R86) -/

/-- Two runs that differ in their working values X, V and Bv and in the count of ops at most. -/
structure SameInputs (old new : Run) : Prop where
  cancelReq : new.cancelReq = old.cancelReq
  password : new.password = old.password
  salt : new.salt = old.salt
  n : new.n = old.n
  r : new.r = old.r
  p : new.p = old.p
  dkLen : new.dkLen = old.dkLen
  dst : new.dst = old.dst
  events : new.events = old.events

theorem SameInputs.trans {a b c : Run} (h : SameInputs a b) (k : SameInputs b c) : SameInputs a c :=
  ⟨k.cancelReq.trans h.cancelReq, k.password.trans h.password, k.salt.trans h.salt, k.n.trans h.n, k.r.trans h.r,
    k.p.trans h.p, k.dkLen.trans h.dkLen, k.dst.trans h.dst, k.events.trans h.events⟩

theorem SameInputs.total {old new : Run} (h : SameInputs old new) : new.total = old.total := by
  rw [Run.total, Run.total, h.n, h.p]

/-- One op: the storing half of a block's ops leaves Bv, the mixing half may replace one block of it. -/
theorem scryptOp_cases (run : Run) : SameInputs run (scryptOp run) ∧ (scryptOp run).done = run.done + 1
    ∧ ((scryptOp run).blocks = run.blocks
      ∨ ∃ i x, (scryptOp run).blocks = run.blocks.set i (blockMix x run.r)) := by
  simp only [scryptOp]
  generalize (if run.done % (2 * run.n) = 0 then run.blocks.getD (run.done / (2 * run.n)) [] else run.x) = x
  split
  · exact ⟨⟨rfl, rfl, rfl, rfl, rfl, rfl, rfl, rfl, rfl⟩, rfl, .inl rfl⟩
  · refine ⟨⟨rfl, rfl, rfl, rfl, rfl, rfl, rfl, rfl, rfl⟩, rfl, ?_⟩
    dsimp only
    split
    · exact .inr ⟨_, _, rfl⟩
    · exact .inl rfl

/-- Bv holds p blocks of 128·r bytes (R83, R86). -/
def BlocksFit (run : Run) : Prop := run.blocks.length = run.p ∧ ∀ b ∈ run.blocks, b.length = 128 * run.r

theorem scryptOp_blocksFit (run : Run) (h : BlocksFit run) : BlocksFit (scryptOp run) := by
  obtain ⟨same, -, kept | ⟨i, x, replaced⟩⟩ := scryptOp_cases run
  · simpa only [BlocksFit, kept, same.p, same.r] using h
  · simp only [BlocksFit, replaced, same.p, same.r, List.length_set]
    refine ⟨h.1, fun b hb => ?_⟩
    rcases List.mem_or_eq_of_mem_set hb with old | rfl
    · exact h.2 b old
    · exact blockMix_length x run.r

theorem scryptOps_sameInputs (k : Nat) (run : Run) : SameInputs run (scryptOps k run) := by
  induction k generalizing run with
  | zero => exact ⟨rfl, rfl, rfl, rfl, rfl, rfl, rfl, rfl, rfl⟩
  | succ k ih => exact (scryptOp_cases run).1.trans (ih (scryptOp run))

theorem scryptOps_done (k : Nat) (run : Run) : (scryptOps k run).done = run.done + k := by
  induction k generalizing run with
  | zero => rfl
  | succ k ih =>
    rw [scryptOps, ih, (scryptOp_cases run).2.1]
    omega

theorem scryptOps_blocksFit (k : Nat) (run : Run) (h : BlocksFit run) : BlocksFit (scryptOps k run) := by
  induction k generalizing run with
  | zero => exact h
  | succ k ih => exact ih _ (scryptOp_blocksFit run h)

/-! ### A channel's chunk (42_scrypt.md R89, R92) -/

/-- The interrupt bit of channel c's event set (R92). -/
def State.markEvent (s : State) (c : ChannelId) : State := { s with irqStatus := s.irqStatus ||| irqEvent c }

/-- The run after the ops of one working chunk. -/
def Run.worked (run : Run) : Run := scryptOps (min Config.scryptChunk (run.total - run.done)) run

/-- The channel after its cancelling chunk. -/
def Channel.cancelled (ch : Channel) : Channel :=
  { ch with phase := .cancelled, cancelReqBit := true, scErr := .cancelled, eventsReg := ch.eventsReg + 1, run := {} }

/-- The channel after its last working chunk. -/
def Channel.finished (ch : Channel) : Channel :=
  { ch with
    phase := .done
    doneOps := BitVec.ofNat 32 ch.run.worked.done
    eventsReg := ch.eventsReg + 1
    run := { ch.run.worked.scrub with events := ch.run.worked.events + 1 } }

/-- The channel after a working chunk that is not the last. -/
def Channel.waiting (ch : Channel) : Channel :=
  { ch with
    phase := .waitAck
    doneOps := BitVec.ofNat 32 ch.run.worked.done
    eventsReg := ch.eventsReg + 1
    run := { ch.run.worked with events := ch.run.worked.events + 1 } }

@[simp] theorem Channel.cancelled_phase (ch : Channel) : ch.cancelled.phase = .cancelled := rfl
@[simp] theorem Channel.finished_phase (ch : Channel) : ch.finished.phase = .done := rfl
@[simp] theorem Channel.waiting_phase (ch : Channel) : ch.waiting.phase = .waitAck := rfl

/-- What a chunk can do: cancel the run, deliver its result, or wait for an acknowledgement. -/
theorem chunk_cases (c : ChannelId) (s : State) :
    ((s.channel c).run.cancelReq = true ∧ chunk c s = (s.markEvent c).setChannel c (s.channel c).cancelled)
      ∨ ((s.channel c).run.cancelReq = false ∧ (s.channel c).run.worked.done = (s.channel c).run.worked.total
          ∧ chunk c s = ((s.storeBytes (s.channel c).run.worked.dst (s.channel c).run.worked.result).markEvent c).setChannel
              c (s.channel c).finished)
      ∨ ((s.channel c).run.cancelReq = false ∧ (s.channel c).run.worked.done ≠ (s.channel c).run.worked.total
          ∧ chunk c s = (s.markEvent c).setChannel c (s.channel c).waiting) := by
  cases hc : (s.channel c).run.cancelReq with
  | true => exact .inl ⟨rfl, by rw [chunk, if_pos hc]; cases c <;> rfl⟩
  | false =>
    have work : chunk c s = workChannel c s := by rw [chunk, if_neg (by simp [hc])]
    rw [work, workChannel, ← Run.worked]
    right
    split
    · rename_i last
      exact .inl ⟨rfl, last, by cases c <;> rfl⟩
    · rename_i more
      exact .inr ⟨rfl, more, by cases c <;> rfl⟩

/-! ### Host accesses (46_system.md R149, R150) -/

/-- An access that reaches DMEM lies in it (20_memory.md R39). -/
theorem target_eq_dmem {o i : Nat} {w : Width} (h : target o w = .dmem i) : i + widthBytes w ≤ 65536 := by
  simp only [target] at h
  split at h
  · rename_i inside
    have start := Target.dmem.inj h
    rw [← start]
    exact inside.2
  · split at h <;> contradiction

/-- What a host access can do: show a value and set BUSERR at most, write a register, or, while BUSY = 0, store bytes
inside DMEM. -/
theorem hostAccess_next {o : Nat} {w : Width} {op : BusOp} {s t : State} (h : hostAccess o w op s = .next t) :
    (∃ b d, t = { s with busErr := b, readData := d })
      ∨ (∃ r v, t = s.writeReg r v)
      ∨ ∃ i y, s.busy = false ∧ i + y.length ≤ 65536 ∧ t = s.storeBytes i y := by
  simp only [hostAccess] at h
  split at h
  swap
  · contradiction
  cases op with
  | read =>
    obtain rfl := Host.Outcome.next.inj h
    simp only [hostRead]
    split
    · exact .inl ⟨true, 0, rfl⟩
    · exact .inl ⟨s.busErr, _, rfl⟩
  | write v =>
    obtain rfl := Host.Outcome.next.inj h
    simp only [hostWrite]
    split
    · exact .inl ⟨true, s.readData, rfl⟩
    rename_i allowed
    cases hit : target o w with
    | register r => exact .inr (.inl ⟨r, v, rfl⟩)
    | dmem i =>
      have idle : s.busy = false := by
        rw [accessRefused, hit, Bool.or_eq_true, not_or] at allowed
        simpa [Target.refuses] using allowed.2
      refine .inr (.inr ⟨i, _, idle, ?_, rfl⟩)
      rw [leBytes_length]
      exact target_eq_dmem hit
    | reserved => exact .inl ⟨s.busErr, s.readData, rfl⟩

/-! ### The registers of a command's rule -/

/-- A rule that succeeds leaves every register but KX_STATE and the banks to the completion (10_state.md R33). -/
theorem ruleOf_ok_registers {i : Instr} {s : State} {e : Effect} (h : ruleOf i s = .ok e) :
    SameRegisters s e.state ∧ e.state.irqStatus = s.irqStatus := by
  rcases ruleOf_ok i s e h with same | ⟨ins, y, r, -, -, rfl⟩ | ⟨c, -, ⟨-, -, -, -, -, -, rfl⟩⟩
    | ⟨c, -, -, rfl⟩ | ⟨c, -, -, rfl⟩ | ⟨sel, tag, -, -, -, -, rfl⟩ | ⟨tag, sec, -, -, -, -, -, rfl⟩ | ⟨-, rfl⟩ | ⟨-, -, rfl⟩
  · rw [same]
    exact ⟨⟨rfl, rfl, rfl, rfl, rfl, rfl, rfl, rfl, rfl⟩, rfl⟩
  all_goals
    refine ⟨?_, by simp⟩
    constructor <;> simp

/-! ### The errors of a command's rule (60_exceptions.md R158) -/

/-- The outcome is not ERR_CANCELLED, which SC_ERR alone shows (R158). -/
def NotCancelled {α : Type} (o : Except ErrorCode α) : Prop := o ≠ .error .cancelled

theorem notCancelled_ok {α : Type} (a : α) : NotCancelled (.ok a : Except ErrorCode α) := nofun

theorem notCancelled_error {α : Type} {e : ErrorCode} (h : e ≠ .cancelled) :
    NotCancelled (.error e : Except ErrorCode α) :=
  fun same => h (Except.error.inj same)

theorem notCancelled_withOperands {s : State} {ins : List Descriptor} {k : Except ErrorCode Effect}
    (h : NotCancelled k) : NotCancelled (withOperands s ins k) := by
  rcases withOperands_cases s ins k with ⟨-, same⟩ | range | overlap
  · rwa [same]
  · rw [range]; exact notCancelled_error (by decide)
  · rw [overlap]; exact notCancelled_error (by decide)

theorem notCancelled_withInputs {ins : List Descriptor} {k : Except ErrorCode Effect} (h : NotCancelled k) :
    NotCancelled (withInputs ins k) := by
  rcases withInputs_cases ins k with ⟨-, same⟩ | range
  · rwa [same]
  · rw [range]; exact notCancelled_error (by decide)

theorem notCancelled_deliver {s : State} {y : Bytes} {r : Results} : NotCancelled (deliver s y r) := by
  rcases deliver_cases s y r with ⟨-, stored⟩ | ⟨-, full⟩
  · rw [stored]; exact notCancelled_ok _
  · rw [full]; exact notCancelled_error (by decide)

/-- A result that is delivered unless its computation fails. -/
theorem notCancelled_match {s : State} {o : Except ErrorCode Bytes} {r : Results} (h : NotCancelled o) :
    NotCancelled (match o with | .error e => .error e | .ok y => deliver s y r) := by
  cases o with
  | error e => exact fun same => h (congrArg Except.error (Except.error.inj same))
  | ok y => exact notCancelled_deliver

theorem notCancelled_unpadBytes {strict : Bool} {scheme : Scheme} {b : Nat} {x : Bytes} :
    NotCancelled (unpadBytes strict scheme b x) := by
  have byLength : NotCancelled (unpadLength strict scheme b x) := by
    unfold unpadLength NotCancelled
    split
    · nofun
    · dsimp only; split_ifs <;> nofun
  have byMarker : NotCancelled (unpadMarker strict b x) := by
    unfold unpadMarker NotCancelled
    split
    · nofun
    · split_ifs <;> nofun
  cases scheme with
  | iso97971 => exact byMarker
  | pkcs7 | ansix923 | iso10126 => exact byLength

theorem notCancelled_codecDecrypt {stretch : HashAlg} {strict : Bool} {alg : Cipher} {mode : Mode} {scheme : Scheme}
    {x k : Bytes} {rounds : Nat} : NotCancelled (codecDecrypt stretch strict alg mode scheme x k rounds) := by
  simp only [codecDecrypt]
  split
  · exact notCancelled_error (by decide)
  · exact notCancelled_unpadBytes

theorem notCancelled_envDecrypt {stretch : HashAlg} {strict : Bool} {primary secondary : Cipher} {mode : Mode}
    {scheme : Scheme} {w k1 k2 : Bytes} :
    NotCancelled (envDecrypt stretch strict primary secondary mode scheme w k1 k2) := by
  simp only [envDecrypt]
  split
  · exact notCancelled_error (by decide)
  split
  · exact notCancelled_error (by decide)
  split
  · exact notCancelled_error (by decide)
  split
  · exact notCancelled_error (by decide)
  · exact notCancelled_ok _

/-- No command raises ERR_CANCELLED (R158). -/
theorem notCancelled_ruleOf (i : Instr) (s : State) : NotCancelled (ruleOf i s) := by
  cases i with
  | nop => exact notCancelled_ok _
  | pad c =>
    simp only [ruleOf, padCommand]
    split
    · exact notCancelled_error (by decide)
    split
    · exact notCancelled_error (by decide)
    · exact notCancelled_withOperands notCancelled_deliver
  | unpad c =>
    simp only [ruleOf, unpadCommand]
    split
    · exact notCancelled_error (by decide)
    split
    · exact notCancelled_error (by decide)
    · exact notCancelled_withOperands (notCancelled_match notCancelled_unpadBytes)
  | keyfit =>
    simp only [ruleOf, keyfitCommand]
    split
    · exact notCancelled_error (by decide)
    · exact notCancelled_withOperands notCancelled_deliver
  | hash a =>
    simp only [ruleOf, hashCommand]
    split
    · exact notCancelled_error (by decide)
    · exact notCancelled_withOperands notCancelled_deliver
  | stretch a =>
    simp only [ruleOf, stretchCommand]
    split
    · exact notCancelled_error (by decide)
    split
    · exact notCancelled_error (by decide)
    · exact notCancelled_withOperands notCancelled_deliver
  | scryptStart c =>
    simp only [ruleOf, scryptStartCommand, NotCancelled]
    split_ifs <;> nofun
  | scryptAck c =>
    simp only [ruleOf, scryptAckCommand, NotCancelled]
    split_ifs <;> nofun
  | scryptCancel c =>
    simp only [ruleOf, scryptCancelCommand, NotCancelled]
    split_ifs <;> nofun
  | cipherEnc a m c =>
    simp only [ruleOf, cipherEncCommand]
    split
    · exact notCancelled_withOperands notCancelled_deliver
    · exact notCancelled_error (by decide)
  | cipherDec a m c =>
    simp only [ruleOf, cipherDecCommand]
    split
    · exact notCancelled_withOperands (notCancelled_match notCancelled_codecDecrypt)
    · exact notCancelled_error (by decide)
  | macGen => exact notCancelled_withOperands notCancelled_deliver
  | macVerify =>
    simp only [ruleOf, macVerifyCommand]
    split
    · exact notCancelled_error (by decide)
    refine notCancelled_withInputs ?_
    split
    · exact notCancelled_ok _
    · exact notCancelled_error (by decide)
  | envEnc m c x =>
    simp only [ruleOf, envEncCommand]
    split
    · split
      · exact notCancelled_withOperands notCancelled_deliver
      · exact notCancelled_error (by decide)
    · exact notCancelled_error (by decide)
  | envDec m c x =>
    simp only [ruleOf, envDecCommand]
    split
    · split
      · exact notCancelled_withOperands (notCancelled_match notCancelled_envDecrypt)
      · exact notCancelled_error (by decide)
    · exact notCancelled_error (by decide)
  | kxGenerate x =>
    simp only [ruleOf, kxGenerateCommand]
    split
    · exact notCancelled_error (by decide)
    refine notCancelled_withOperands ?_
    split
    · exact notCancelled_error (by decide)
    · exact notCancelled_ok _
  | kxSerialize x =>
    simp only [ruleOf, kxSerializeCommand]
    split
    · exact notCancelled_error (by decide)
    refine notCancelled_withOperands ?_
    split
    · exact notCancelled_error (by decide)
    · exact notCancelled_deliver
  | kxParse =>
    refine notCancelled_withInputs ?_
    split
    · exact notCancelled_error (by decide)
    · exact notCancelled_ok _
  | kxCompute =>
    simp only [ruleOf, kxComputeCommand]
    split
    · exact notCancelled_error (by decide)
    refine notCancelled_withOperands ?_
    split
    · exact notCancelled_error (by decide)
    split
    · exact notCancelled_error (by decide)
    · exact notCancelled_ok _
  | kxNuke => exact notCancelled_ok _
  | kxApplied =>
    simp only [ruleOf, kxAppliedCommand, NotCancelled]
    split_ifs <;> nofun
  | saltOrder =>
    refine notCancelled_withInputs ?_
    split
    · exact notCancelled_error (by decide)
    · exact notCancelled_ok _

end Sys2Proof.Machine

/-! The invariant (O43): which updates of the state keep it, what a run's chunk keeps of its channel, and every agent's
step as a sequence of such updates. -/

namespace Sys2Proof.Machine

open Sys2Proof

/-! ### The invariant under each update of the state -/

theorem sharesByte_comm (d e : Descriptor) : SharesByte d e ↔ SharesByte e d := by
  simp only [SharesByte]
  constructor
  all_goals
    rintro ⟨a, h1, h2, h3, h4⟩
    exact ⟨a, h3, h4, h1, h2⟩

/-- The result ranges of two active channels are apart, whichever is named first. -/
theorem Inv.apart_other {s : State} (h : Inv s) (c : ChannelId) (this : ActiveChannel s c)
    (that : ActiveChannel s (otherChannel c)) :
    ¬SharesByte (s.channel c).resultRange (s.channel (otherChannel c)).resultRange := by
  cases c with
  | zero => exact h.apart ⟨this, that⟩
  | one => exact fun shared => h.apart ⟨that, this⟩ ((sharesByte_comm _ _).mp shared)

/-- The invariant speaks of DMEM, ERR, BUSY and DONE, the slot and the channels alone. -/
theorem Inv.of_same {s t : State} (h : Inv s) (dmem : t.dmem = s.dmem) (err : t.err = s.err)
    (busy : t.latch.pending = true → t.doneFlag = false) (slot : SameSlot s t) (channels : SameChannels s t) : Inv t := by
  obtain ⟨phase, tag, priv⟩ := slot
  obtain ⟨zero, one⟩ := channels
  have same : ∀ c, t.channel c = s.channel c := fun c => by cases c <;> assumption
  exact
    { memory := dmem ▸ h.memory
      memoryBound := dmem ▸ h.memoryBound
      errCode := err ▸ h.errCode
      busyNotDone := busy
      keyPhase := by rw [phase, tag]; exact h.keyPhase
      keyZeroed := by rw [priv, tag]; exact h.keyZeroed
      channels := fun c => same c ▸ h.channels c
      apart := by simpa only [ActiveChannel, same, zero, one] using h.apart }

/-- Bytes stored inside DMEM. -/
theorem Inv.storeBytes {s : State} (h : Inv s) {off : Nat} {y : Bytes} (fits : off + y.length ≤ 65536) :
    Inv (s.storeBytes off y) where
  memory := Memory.writeBytes_wf _ _ _ h.memory
  memoryBound e he := by
    rcases Memory.mem_writeBytes _ _ _ e he with old | written
    · exact h.memoryBound e old
    · omega
  errCode := h.errCode
  busyNotDone := h.busyNotDone
  keyPhase := h.keyPhase
  keyZeroed := h.keyZeroed
  channels c := by simpa using h.channels c
  apart := h.apart

/-- A slot written with a key in KeyGenerated, or emptied in another state. -/
theorem Inv.setSlot {s : State} (h : Inv s) {phase : KxPhase} {tag : Option Tag} {priv : Nat}
    (key : tag.isSome = true ↔ phase = .keyGenerated) (zeroed : tag = none → priv = 0) :
    Inv (s.setSlot phase tag priv) where
  memory := h.memory
  memoryBound := h.memoryBound
  errCode := h.errCode
  busyNotDone := h.busyNotDone
  keyPhase := key
  keyZeroed := zeroed
  channels c := by simpa using h.channels c
  apart := h.apart

/-- The completion of a command (10_state.md R33). -/
theorem Inv.finish {s : State} (h : Inv s) {e : ErrorCode} (r : Results) (he : e ≠ .cancelled) : Inv (s.finish e r) where
  memory := h.memory
  memoryBound := h.memoryBound
  errCode := he
  busyNotDone := nofun
  keyPhase := h.keyPhase
  keyZeroed := h.keyZeroed
  channels c := by simpa using h.channels c
  apart := h.apart

/-- A channel replaced by one that fits its phase and whose result range is apart from the other's. -/
theorem Inv.setChannel {s : State} (h : Inv s) {c : ChannelId} {ch : Channel} (fits : ChannelInv ch)
    (apart : ActiveChannel s (otherChannel c) → ch.active = true →
      ¬SharesByte ch.resultRange (s.channel (otherChannel c)).resultRange) : Inv (s.setChannel c ch) where
  memory := by simpa using h.memory
  memoryBound := by simpa using h.memoryBound
  errCode := by simpa using h.errCode
  busyNotDone := by simpa using h.busyNotDone
  keyPhase := by simpa using h.keyPhase
  keyZeroed := by simpa using h.keyZeroed
  channels d := by
    rcases channel_cases c d with rfl | rfl
    · simpa using fits
    · simpa using h.channels _
  apart := by
    rintro ⟨zero, one⟩
    rw [← active_iff] at zero one
    cases c with
    | zero => exact apart ((active_iff s .one).mp one) zero
    | one => exact fun shared => apart ((active_iff s .zero).mp zero) one ((sharesByte_comm _ _).mp shared)

/-- An active channel replaced by one with the same result range. -/
theorem Inv.updateChannel {s : State} (h : Inv s) {c : ChannelId} {ch : Channel} (active : ActiveChannel s c)
    (fits : ChannelInv ch) (range : ch.resultRange = (s.channel c).resultRange) : Inv (s.setChannel c ch) :=
  h.setChannel fits fun other _ => range ▸ h.apart_other c active other

/-! ### A run and its channel (42_scrypt.md R87 to R91) -/

/-- An active channel's run is one between its START and its last chunk. -/
theorem Inv.activeRun {s : State} (h : Inv s) {c : ChannelId} (active : ActiveChannel s c) : ActiveRun (s.channel c) := by
  have fits := h.channels c
  rcases active with running | waiting
  · simpa only [ChannelInv, running] using fits
  · rw [ChannelInv, waiting] at fits
    exact fits.1

/-- Running on, after SCRYPT_ACK, changes the phase alone. -/
theorem ActiveRun.running {ch : Channel} (h : ActiveRun ch) : ActiveRun { ch with phase := .running } :=
  ⟨h.config, h.memory, h.fits, h.blocks, h.blockBytes, h.unfinished, h.wholeChunks,
    ⟨h.bank.doneOps, h.bank.totalOps, h.bank.events, h.bank.dstOff, h.bank.dkLen, h.bank.cancelReq⟩, h.noError⟩

/-- SCRYPT_CANCEL sets the request in the bank and in the run. -/
theorem ActiveRun.cancelRequested {ch : Channel} (h : ActiveRun ch) :
    ActiveRun { ch with phase := .running, cancelReqBit := true, run := { ch.run with cancelReq := true } } :=
  ⟨h.config, h.memory, h.fits, h.blocks, h.blockBytes, h.unfinished, h.wholeChunks,
    ⟨h.bank.doneOps, h.bank.totalOps, h.bank.events, h.bank.dstOff, h.bank.dkLen, rfl⟩, h.noError⟩

/-- A number of 32 bits shown in a register (10_state.md R29). -/
theorem toNat_word {n : Nat} (h : n < 2 ^ 32) : (BitVec.ofNat 32 n).toNat = n := by
  rw [BitVec.toNat_ofNat, Nat.mod_eq_of_lt h]

/-- The checks of R85 bound the ops of a run, and make its work positive. -/
theorem scryptConfigOk_bounds {n r p dkLen : Nat} (h : scryptConfigOk n r p dkLen = true) :
    0 < 2 * n * p ∧ 2 * n * p < 2 ^ 32 ∧ dkLen < 2 ^ 32 := by
  simp only [scryptConfigOk, scryptCostOk, Bool.and_eq_true, decide_eq_true_eq] at h
  obtain ⟨⟨⟨⟨⟨⟨⟨hn, -⟩, -⟩, hdk⟩, -⟩, hp⟩, -⟩, htotal⟩ := h
  exact ⟨Nat.mul_pos (by omega) (by omega), htotal, by omega⟩

/-- The channel that SCRYPT_START leaves (R88). -/
theorem activeRun_startedChannel (password salt : Bytes) {n r p dkLen dst : Nat}
    (config : scryptConfigOk n r p dkLen = true) (memory : scryptMemoryOk n r p = true)
    (fits : dst + dkLen ≤ 65536) : ActiveRun (startedChannel password salt n r p dkLen dst) := by
  obtain ⟨work, total, len⟩ := scryptConfigOk_bounds config
  exact
    { config, memory, fits
      blocks := scryptBlocks_length password salt r p
      blockBytes := fun b hb => scryptBlocks_block password salt r p b hb
      unfinished := work
      wholeChunks := rfl
      bank :=
        { doneOps := rfl
          totalOps := toNat_word total
          events := rfl
          dstOff := toNat_word (by omega)
          dkLen := toNat_word len
          cancelReq := rfl }
      noError := rfl }

theorem Run.worked_sameInputs (run : Run) : SameInputs run run.worked := scryptOps_sameInputs _ run

/-- A chunk does 1000 ops, or the fewer that are left. -/
theorem Run.worked_done (run : Run) : run.worked.done = run.done + min 1000 (run.total - run.done) :=
  scryptOps_done _ run

/-- One more event still fits its register: there are at most as many as ops. -/
theorem ActiveRun.nextEvent {ch : Channel} (h : ActiveRun ch) : (ch.eventsReg + 1).toNat = ch.run.worked.events + 1 := by
  have total := (scryptConfigOk_bounds h.config).2.1
  have unfinished := h.unfinished
  have chunks := h.wholeChunks
  rw [Run.total] at unfinished
  rw [ch.run.worked_sameInputs.events, BitVec.toNat_add_of_lt, h.bank.events]
  · rfl
  · rw [h.bank.events]
    simp only [BitVec.reduceToNat]
    omega

/-- The bank shows the run after a working chunk. -/
theorem ActiveRun.bankShows_worked {ch : Channel} (h : ActiveRun ch) : BankShows ch.waiting := by
  have same := ch.run.worked_sameInputs
  have total := (scryptConfigOk_bounds h.config).2.1
  have done := ch.run.worked_done
  have unfinished := h.unfinished
  rw [Run.total] at done unfinished
  exact
    { doneOps := toNat_word (by omega)
      totalOps := h.bank.totalOps.trans same.total.symm
      events := h.nextEvent
      dstOff := h.bank.dstOff.trans same.dst.symm
      dkLen := h.bank.dkLen.trans same.dkLen.symm
      cancelReq := h.bank.cancelReq.trans same.cancelReq.symm }

/-- A working chunk that leaves ops to do leaves the run active. -/
theorem ActiveRun.waiting {ch : Channel} (h : ActiveRun ch) (more : ch.run.worked.done ≠ ch.run.worked.total) :
    ActiveRun ch.waiting := by
  have same := ch.run.worked_sameInputs
  have done := ch.run.worked_done
  have unfinished := h.unfinished
  have chunks := h.wholeChunks
  have blocks : BlocksFit ch.run.worked := scryptOps_blocksFit _ _ ⟨h.blocks, h.blockBytes⟩
  rw [same.total] at more
  exact
    { config := by simpa only [Channel.waiting, same.n, same.r, same.p, same.dkLen] using h.config
      memory := by simpa only [Channel.waiting, same.n, same.r, same.p] using h.memory
      fits := by simpa only [Channel.waiting, same.dst, same.dkLen] using h.fits
      blocks := blocks.1
      blockBytes := blocks.2
      unfinished := show ch.run.worked.done < ch.run.worked.total by rw [same.total]; omega
      wholeChunks := show ch.run.worked.done = 1000 * (ch.run.worked.events + 1) by rw [same.events]; omega
      bank := h.bankShows_worked
      noError := h.noError }

/-! ### The three outcomes of a chunk -/

theorem channelInv_cancelled (ch : Channel) : ChannelInv ch.cancelled := ⟨rfl, rfl, rfl⟩

theorem channelInv_finished {ch : Channel} (h : ActiveRun ch) (working : ch.run.cancelReq = false)
    (last : ch.run.worked.done = ch.run.worked.total) : ChannelInv ch.finished := by
  have bank := h.bankShows_worked
  exact ⟨⟨rfl, rfl, rfl, rfl, rfl⟩,
    ⟨bank.doneOps, bank.totalOps, bank.events, bank.dstOff, bank.dkLen, bank.cancelReq⟩, last,
    ch.run.worked_sameInputs.cancelReq.trans working, h.noError⟩

theorem channelInv_waiting {ch : Channel} (h : ActiveRun ch) (working : ch.run.cancelReq = false)
    (more : ch.run.worked.done ≠ ch.run.worked.total) : ChannelInv ch.waiting :=
  ⟨h.waiting more, ch.run.worked_sameInputs.cancelReq.trans working, Nat.le_add_left 1 _⟩

theorem Inv.markEvent {s : State} (h : Inv s) (c : ChannelId) : Inv (s.markEvent c) :=
  h.of_same rfl rfl h.busyNotDone ⟨rfl, rfl, rfl⟩ ⟨rfl, rfl⟩

theorem State.channel_markEvent (s : State) (c d : ChannelId) : (s.markEvent c).channel d = s.channel d := by
  cases d <;> rfl

/-- A RUNNING channel's chunk keeps the invariant (42_scrypt.md R89). -/
theorem Inv.chunk {s : State} (h : Inv s) {c : ChannelId} (running : (s.channel c).phase = .running) :
    Inv (chunk c s) := by
  have active : ActiveRun (s.channel c) := h.activeRun (.inl running)
  rcases chunk_cases c s with ⟨-, after⟩ | ⟨working, last, after⟩ | ⟨working, more, after⟩
  · rw [after]
    refine (h.markEvent c).updateChannel ?_ (channelInv_cancelled _) ?_
    · exact .inl (by rwa [State.channel_markEvent])
    · rw [State.channel_markEvent]; rfl
  · have fits : (s.channel c).run.worked.dst + (s.channel c).run.worked.result.length ≤ 65536 := by
      have same := (s.channel c).run.worked_sameInputs
      rw [Run.result_length, same.dst, same.dkLen]
      exact active.fits
    rw [after]
    refine ((h.storeBytes fits).markEvent c).updateChannel ?_ (channelInv_finished active working last) ?_
    · exact .inl (by rwa [State.channel_markEvent, State.channel_storeBytes])
    · rw [State.channel_markEvent, State.channel_storeBytes]; rfl
  · rw [after]
    refine (h.markEvent c).updateChannel ?_ (channelInv_waiting active working more) ?_
    · exact .inl (by rwa [State.channel_markEvent])
    · rw [State.channel_markEvent]; rfl

/-! ### Commands -/

/-- A rule that succeeds keeps the invariant: it stores inside DST, moves a channel, or moves the key slot. -/
theorem Inv.ruleOf_ok {i : Instr} {s : State} {e : Effect} (h : Inv s) (ok : ruleOf i s = .ok e) : Inv e.state := by
  have dstFits : ∀ {ins}, OperandsOk s ins → s.latch.a.dst.off + s.latch.a.dst.len ≤ 65536 :=
    fun operands => operands.inside _ (by simp)
  rcases Machine.ruleOf_ok i s e ok with same | stores | ⟨c, -, start⟩ | ⟨c, -, waiting, rfl⟩ | ⟨c, -, active, rfl⟩
    | ⟨sel, tag, -, -, operands, len, rfl⟩ | ⟨tag, sec, -, -, operands, len, secret, rfl⟩ | ⟨-, rfl⟩ | ⟨-, phase, rfl⟩
  · rwa [same]
  · obtain ⟨ins, y, r, operands, len, rfl⟩ := stores
    have fits := dstFits operands
    exact h.storeBytes (by omega)
  · have inside := start.inside s.latch.a.dst (by simp)
    have len := start.fits
    have fits : s.latch.a.dstOff.toNat + s.latch.a.param3.toNat ≤ 65536 := by
      simp only [Args.dst] at inside
      omega
    rw [start.effect]
    refine h.setChannel (activeRun_startedChannel _ _ start.config start.memory fits) fun other _ => ?_
    simpa [Channel.resultRange, startedChannel] using start.apart other
  · exact h.updateChannel (.inr waiting) (h.activeRun (.inr waiting)).running rfl
  · exact h.updateChannel active (h.activeRun active).cancelRequested rfl
  · have fits := dstFits operands
    have length := publicKey_length tag (generatePrivate tag s)
    exact (h.setSlot (by simp) (by simp)).storeBytes (by omega)
  · have fits := dstFits operands
    have length := sharedSecret_length _ _ _ _ secret
    exact (h.storeBytes (by omega)).setSlot (by simp) fun _ => rfl
  · exact h.setSlot (by simp) fun _ => rfl
  · have empty : s.slotTag = none := by
      have key := h.keyPhase
      rw [phase] at key
      simpa using key
    exact h.setSlot (phase := .passwordsApplied) (by simp [empty]) h.keyZeroed

/-- The completion of an outcome keeps the invariant when its effect does and its error is a command's. -/
theorem Inv.complete {s t : State} {o : Except ErrorCode Effect} (h : Inv s) (effect : ∀ e, o = .ok e → Inv e.state)
    (error : NotCancelled o) (next : complete s o = .next t) : Inv t := by
  rcases complete_cases s t o next with ⟨e, ok, rfl⟩ | ⟨e, err, rfl⟩
  · exact (effect e ok).finish _ (by decide)
  · exact h.finish _ fun cancelled => error (by rw [err, cancelled])

/-! ### The agents' steps -/

theorem Inv.commandTurn {s t : State} (h : Inv s) (next : commandTurn s = .next t) : Inv t := by
  simp only [Machine.commandTurn, runLatched] at next
  split at next
  · split at next
    · rename_i i _
      rw [exec_eq_complete] at next
      exact h.complete (fun e ok => h.ruleOf_ok ok) (notCancelled_ruleOf i s) next
    · exact h.complete (by simp) (notCancelled_error (by decide)) next
  · cases next
    exact h

theorem Inv.channelTurn {s t : State} (h : Inv s) {c : ChannelId} (next : channelTurn c s = .next t) : Inv t := by
  obtain rfl := Host.Outcome.next.inj next
  split
  · rename_i running
    exact h.chunk running
  · exact h

/-- The soft reset (70_reset_and_hazards.md R179). -/
theorem inv_softReset (s : State) : Inv s.softReset where
  memory := rfl
  memoryBound := nofun
  errCode := nofun
  busyNotDone := nofun
  keyPhase := by simp [State.reset]
  keyZeroed _ := rfl
  channels c := by cases c <;> rfl
  apart := fun ⟨zero, _⟩ => absurd ((active_iff _ _).mpr zero) (by simp [State.reset, Channel.active])

/-- A CMD write makes BUSY 1 and DONE 0, or changes neither (46_system.md R151). -/
theorem Inv.issue {s : State} (h : Inv s) (w : Word) : Inv (s.issue w) := by
  simp only [State.issue]
  split
  · exact h.of_same rfl rfl h.busyNotDone ⟨rfl, rfl, rfl⟩ ⟨rfl, rfl⟩
  · exact h.of_same rfl rfl (fun _ => rfl) ⟨rfl, rfl, rfl⟩ ⟨rfl, rfl⟩

theorem Inv.writeReg {s : State} (h : Inv s) (r : Reg) (v : Word) : Inv (s.writeReg r v) := by
  cases r with
  | ctrl =>
    simp only [State.writeReg, State.writeCtrl]
    split
    · exact inv_softReset s
    · exact h.of_same rfl rfl h.busyNotDone ⟨rfl, rfl, rfl⟩ ⟨rfl, rfl⟩
  | cmd => exact h.issue v
  | irqStatus | irqEnable | arg => exact h.of_same rfl rfl h.busyNotDone ⟨rfl, rfl, rfl⟩ ⟨rfl, rfl⟩
  | id | status | outLen | out0 | out1 | out2 | out3 | out4 | kxState | sc => exact h

theorem Inv.hostAccess {s t : State} (h : Inv s) {o : Nat} {w : Width} {op : BusOp}
    (next : hostAccess o w op s = .next t) : Inv t := by
  rcases hostAccess_next next with ⟨b, d, rfl⟩ | ⟨r, v, rfl⟩ | ⟨i, y, -, fits, rfl⟩
  · exact h.of_same rfl rfl h.busyNotDone ⟨rfl, rfl, rfl⟩ ⟨rfl, rfl⟩
  · exact h.writeReg r v
  · exact h.storeBytes fits

theorem Inv.takeTurn {s t : State} (h : Inv s) (turn : Turn) (next : takeTurn turn s = .next t) : Inv t := by
  cases turn with
  | host o w op => exact h.hostAccess next
  | platform a w op =>
    simp only [Machine.takeTurn, platformAccess] at next
    split at next
    · exact h.hostAccess next
    · contradiction
  | commandUnit => exact h.commandTurn next
  | channel c => exact h.channelTurn next

/-- Settles O43: every agent's step is a sequence of updates that each keep the invariant. -/
theorem everyStepKeepsInvariant : Obligations.EveryStepKeepsInvariant := by
  intro s t h next
  simp only [step] at next
  split at next
  all_goals
    refine Inv.takeTurn ?_ _ next
    exact h.of_same rfl rfl h.busyNotDone ⟨rfl, rfl, rfl⟩ ⟨rfl, rfl⟩

end Sys2Proof.Machine

/-! Host accesses to the registers (spec/46_system.md R149 to R152): the register map is one to one, so an aligned word
access reaches the register whose offset it names, or nothing; and what each status word and written register holds. -/

namespace Sys2Proof.Machine

open Sys2Proof

/-! ### The register map (10_state.md R18) -/

theorem regAt_offset (r : Reg) : regAt r.offset = some r := by
  cases r with
  | arg r => cases r <;> rfl
  | sc c r => cases c <;> cases r <;> rfl
  | _ => rfl

/-- An offset at which the map has a register is that register's. -/
theorem offset_of_regAt {o : Nat} {r : Reg} (h : regAt o = some r) : o = r.offset := by
  unfold regAt at h
  split at h <;> cases h <;> rfl

/-- Every register lies below the DMEM window, at a word's address. -/
theorem Reg.offset_aligned (r : Reg) : r.offset % 4 = 0 ∧ r.offset < 0x1000 := by
  cases r with
  | arg r => cases r <;> decide
  | sc c r => cases c <;> cases r <;> decide
  | _ => decide

theorem target_register (r : Reg) : target r.offset .word = .register r := by
  have below : ¬Config.dmemWindow ≤ r.offset := Nat.not_le.mpr r.offset_aligned.2
  rw [target, if_neg fun h => below h.1, regAt_offset]

/-- An offset that no register has and that lies outside the DMEM window is reserved (R30). -/
theorem target_reserved {o : Nat} (unlisted : ∀ r : Reg, o ≠ r.offset) (outside : ¬(0x1000 ≤ o ∧ o < 0x1000 + 65536)) :
    target o .word = .reserved := by
  have noDmem : ¬(Config.dmemWindow ≤ o ∧ o - Config.dmemWindow + widthBytes .word ≤ Config.dmemBytes) := by
    simp only [Config.dmemWindow, Config.dmemBytes, widthBytes]
    omega
  have noReg : regAt o = none := Option.eq_none_iff_forall_ne_some.mpr fun r h => unlisted r (offset_of_regAt h)
  rw [target, if_neg noDmem, noReg]

/-! ### Aligned word accesses -/

/-- An aligned word access outside the DMEM window is not refused: it reads or writes its target. -/
theorem hostAccess_word {o : Nat} {g : Target} (hit : target o .word = g) (noDmem : ∀ i, g ≠ .dmem i)
    (inside : o < 131072) (aligned : o % 4 = 0) (op : BusOp) (s : State) :
    hostAccess o .word op s = .next
      (match op with
        | .read => { s with readData := s.readTarget .word g }
        | .write v => s.writeTarget .word v g) := by
  have allowed : accessRefused s o .word = false := by
    rw [accessRefused, hit, widthBytes, aligned]
    cases g with
    | dmem i => exact absurd rfl (noDmem i)
    | register | reserved => rfl
  unfold hostAccess
  rw [if_pos (by simpa only [Config.windowBytes] using inside)]
  cases op <;> simp only [hostRead, hostWrite, allowed, hit, Bool.false_eq_true, if_false]

/-- A host read of a register shows its value and changes nothing else (R149). -/
theorem hostAccess_readReg (r : Reg) (s : State) :
    hostAccess r.offset .word .read s = .next { s with readData := s.readReg r } :=
  hostAccess_word (target_register r) nofun (r.offset_aligned.2.trans (by decide)) r.offset_aligned.1 .read s

/-- A host write to a register is that register's write (R150). -/
theorem hostAccess_writeReg (r : Reg) (v : Word) (s : State) :
    hostAccess r.offset .word (.write v) s = .next (s.writeReg r v) :=
  hostAccess_word (target_register r) nofun (r.offset_aligned.2.trans (by decide)) r.offset_aligned.1 (.write v) s

/-- Settles O14: such an access is not refused, and its target is no register and no byte of DMEM. -/
theorem reservedOffsetsReadZero : Obligations.ReservedOffsetsReadZero := by
  intro s o op inside aligned unlisted outside
  rw [hostAccess_word (target_reserved unlisted outside) nofun inside aligned op s]
  cases op <;> rfl

/-! ### The status words (10_state.md R20 to R29) -/

/-- A word made of two fields is the upper one shifted past the lower one. -/
theorem toNat_append_add {n m : Nat} (x : BitVec n) (y : BitVec m) : (x ++ y).toNat = x.toNat * 2 ^ m + y.toNat := by
  rw [BitVec.toNat_append, ← Nat.shiftLeft_add_eq_or_of_lt y.isLt, Nat.shiftLeft_eq]

theorem toNat_bit (b : Bool) : (bit b).toNat = b.toNat := BitVec.toNat_ofBool b

/-- CTRL reads as IE in bit 1 (R20). -/
theorem toNat_ctrlWord (s : State) : (ctrlWord s).toNat = 2 * s.ie.toNat := by
  simp only [ctrlWord, toNat_append_add, toNat_bit, BitVec.toNat_ofNat]
  omega

/-- STATUS has ERR in 15:8, BUSERR, CMD_OVR, DONE and BUSY in bits 3 to 0 (R21). -/
theorem toNat_statusWord (s : State) : (statusWord s).toNat
    = s.latch.pending.toNat + 2 * s.doneFlag.toNat + 4 * s.cmdOvr.toNat + 8 * s.busErr.toNat
      + 256 * s.err.toByte.toNat := by
  simp only [statusWord, State.busy, toNat_append_add, toNat_bit, BitVec.toNat_ofNat]
  omega

/-- KX_STATE has TAG in 15:8 and STATE in 1:0 (R28). -/
theorem toNat_kxStateWord (s : State) : (kxStateWord s).toNat
    = s.kxPhase.code.toNat + 256 * (slotTagByte s.slotTag).toNat := by
  simp only [kxStateWord, toNat_append_add, BitVec.toNat_ofNat]
  omega

/-- SC_STATE has SC_ERR in 15:8, CANCEL_REQ in bit 3 and STATE in 2:0 (R29). -/
theorem toNat_scStateWord (ch : Channel) : (scStateWord ch).toNat
    = ch.phase.code.toNat + 8 * ch.cancelReqBit.toNat + 256 * ch.scErr.toByte.toNat := by
  simp only [scStateWord, toNat_append_add, toNat_bit, BitVec.toNat_ofNat]
  omega

/-- IRQ_STATUS and IRQ_ENABLE read as their three bits (R23, R24). -/
theorem irqWord_eq_setWidth (b : BitVec 3) : irqWord b = b.setWidth 32 := by
  apply BitVec.eq_of_toNat_eq
  rw [irqWord, toNat_append_add, BitVec.toNat_setWidth, Nat.mod_eq_of_lt (b.isLt.trans (by decide))]
  simp

/-! ### Reads (R149) -/

/-- The registers in the order of their offsets (R18). -/
def registerMap : List Reg :=
  [.id, .ctrl, .status, .cmd, .irqStatus, .irqEnable, .arg .aOff, .arg .aLen, .arg .bOff, .arg .bLen, .arg .cOff,
    .arg .cLen, .arg .dstOff, .arg .dstCap, .arg .param0, .arg .param1, .arg .param2, .arg .param3, .outLen, .out0,
    .out1, .out2, .out3, .out4, .kxState, .sc .zero .state, .sc .zero .doneOps, .sc .zero .totalOps, .sc .zero .events,
    .sc .zero .dstOff, .sc .zero .dkLen, .sc .one .state, .sc .one .doneOps, .sc .one .totalOps, .sc .one .events,
    .sc .one .dstOff, .sc .one .dkLen]

/-- Settles O10: the listed pairs are the registers' offsets and values, and each status word is the sum of its
shifted fields. -/
theorem registerReadsReturnTheirFields : Obligations.RegisterReadsReturnTheirFields := by
  refine ⟨fun s r => hostAccess_readReg r s, fun s e listed => ?_, fun s => ?_, toNat_scStateWord⟩
  · rw [← irqWord_eq_setWidth, ← irqWord_eq_setWidth] at listed
    have mapped : e ∈ registerMap.map fun r => (r.offset, s.readReg r) := listed
    obtain ⟨r, -, rfl⟩ := List.mem_map.mp mapped
    exact hostAccess_readReg r s
  · refine ⟨toNat_ctrlWord s, toNat_statusWord s, (toNat_kxStateWord s).trans ?_⟩
    cases s.slotTag <;> rfl

/-! ### Writes (R150 to R152) -/

/-- An argument register takes the written value; the others keep theirs. -/
theorem Args.get_set (a : Args) (r q : ArgReg) (v : Word) : (a.set r v).get q = if q = r then v else a.get q := by
  cases r <;> cases q <;> rfl

/-- Settles O11: each register's write is read off its case of R150. -/
theorem registerWritesReachOnlyTheirRegister : Obligations.RegisterWritesReachOnlyTheirRegister := by
  refine ⟨fun s v r readOnly => ?_, fun s v r => ?_, fun s v => ?_⟩
  · rw [hostAccess_writeReg]
    rcases readOnly with listed | ⟨c, b, rfl⟩
    · simp only [List.mem_cons, List.not_mem_nil, or_false] at listed
      rcases listed with rfl | rfl | rfl | rfl | rfl | rfl | rfl | rfl | rfl <;> rfl
    · rfl
  · exact ⟨s.args.set r v, hostAccess_writeReg (.arg r) v s, fun q => s.args.get_set r q v⟩
  · refine ⟨v.extractLsb' 0 3, hostAccess_writeReg .irqEnable v s, ?_⟩
    rw [BitVec.extractLsb'_toNat]
    rfl

/-- Settles O8: SRST decides between the soft reset and the write of IE, which CLRERR extends. -/
theorem ctrlWriteResetsOrSetsEnable : Obligations.CtrlWriteResetsOrSetsEnable := by
  refine ⟨fun s v => ?_, fun s => ⟨_, hostAccess_readReg .ctrl s, toNat_ctrlWord s⟩⟩
  refine (hostAccess_writeReg .ctrl v s).trans (congrArg _ ?_)
  rw [State.writeReg, State.writeCtrl]
  split
  · rfl
  · cases v.getLsbD 2 <;> simp

end Sys2Proof.Machine

/-! The command unit, the channels and the interrupt line (spec/10_state.md R33, spec/60_exceptions.md R164, R165, R173):
decoding inverts encoding, a pending command runs and completes, and what its completion or a channel's event does to the
line. -/

namespace Sys2Proof.Machine

open Sys2Proof

/-! ### Decoding an encoded command (30_encoding.md R55 to R58) -/

/-- The fields of a command are read back as the command. -/
theorem instrOf_fieldsOf (i : Instr) : instrOf (fieldsOf i) = some i := by
  cases i with
  | scryptStart c | scryptAck c | scryptCancel c => cases c <;> rfl
  | _ => rfl

/-- The fields laid out in a word are read back from it (R55, R56). -/
theorem decodeFields_encodeFields (f : Fields) : decodeFields (encodeFields f) = f := by
  obtain ⟨op, alg, mode, pad, ch, rsv, sel⟩ := f
  have := op.isLt
  have := alg.isLt
  have := mode.isLt
  have := pad.isLt
  have := ch.isLt
  have := rsv.isLt
  have := sel.isLt
  simp only [decodeFields, encodeFields, Fields.mk.injEq]
  refine ⟨?_, ?_, ?_, ?_, ?_, ?_, ?_⟩
  all_goals
    apply BitVec.eq_of_toNat_eq
    simp only [BitVec.extractLsb'_toNat, toNat_append_add, Nat.shiftRight_eq_div_pow]
    omega

/-! ### A step of the command unit (10_state.md R33, 46_system.md R151) -/

theorem step_of_turns {s : State} {turn : Turn} {rest : List Turn} (h : s.turns = turn :: rest) :
    step s = takeTurn turn { s with turns := rest } := by
  rw [step, h]

/-- A pending command's fields decide what the command unit executes. -/
theorem takeTurn_commandUnit {s : State} {i : Instr} (pending : s.latch.pending = true)
    (decoded : instrOf s.latch.f = some i) : takeTurn .commandUnit s = exec i s := by
  rw [takeTurn, commandTurn, if_pos pending, runLatched, decoded]

/-- An accepted CMD write latches the word's fields and the argument registers (R151). -/
theorem issue_of_idle {s : State} (idle : s.latch.pending = false) (w : Word) : s.issue w =
    { s with cmd := w, latch := { pending := true, f := decodeFields w, a := s.args }, doneFlag := false } := by
  rw [State.issue, if_neg (by simp [State.busy, idle])]

/-- Settles O5: the first turn of the script is the command unit's, and the latch decodes to the command. -/
theorem stepExecutesDecodedCommand : Obligations.StepExecutesDecodedCommand := by
  refine ⟨fun s i w rest turns pending fields decoded => ?_, fun s i w decoded => ?_, fun s i rest turns idle => ?_⟩
  · rw [step_of_turns turns]
    exact takeTurn_commandUnit pending (fields ▸ decoded)
  · have word : BitVec.ofNat 32 (w.toNat % 2 ^ 32) = w := by
      rw [Nat.mod_eq_of_lt w.isLt, BitVec.ofNat_toNat, BitVec.setWidth_eq]
    rw [State.withFetchWord, word]
    exact (step_of_turns rfl).trans (takeTurn_commandUnit rfl decoded)
  · refine ⟨_, (step_of_turns turns).trans (hostAccess_writeReg .cmd (encode i) _), ?_⟩
    rw [State.writeReg, issue_of_idle (s := { s with turns := .commandUnit :: rest }) idle, encode, decodeFields_encodeFields]
    exact (step_of_turns rfl).trans (takeTurn_commandUnit rfl (instrOf_fieldsOf i))

/-- Settles O17: the rule of NOP answers the state as it is. -/
theorem nopOnlyCompletes : Obligations.NopOnlyCompletes :=
  fun s => answers_of_ok .nop s {} rfl

/-! ### Progress (60_exceptions.md R173) -/

/-- The command unit's step on any latched fields is a completion: of the command's rule, or with ERR_ILLEGAL. -/
theorem runLatched_eq_complete (s : State) : ∃ o, runLatched s = complete s o := by
  rw [runLatched]
  split
  · exact ⟨_, exec_eq_complete _ s⟩
  · exact ⟨_, rfl⟩

/-- A completion clears BUSY and sets DONE and CMD_DONE, whatever the outcome (R33). -/
theorem complete_completes (s : State) (o : Except ErrorCode Effect) :
    ∃ t, complete s o = .next t ∧ t.latch.pending = false ∧ t.doneFlag = true ∧ t.irqStatus.getLsbD 0 = true := by
  cases o with
  | ok effect => exact ⟨_, complete_ok s effect, by simp [irqCmdDone]⟩
  | error e => exact ⟨_, complete_error s e, by simp [irqCmdDone]⟩

/-- Settles O6: a completion and a chunk each end what enabled them. -/
theorem enabledAgentsMakeProgress : Obligations.EnabledAgentsMakeProgress := by
  refine ⟨fun s pending => ?_, fun s c running => ⟨chunk c s, by rw [channelTurn, if_pos running], ?_⟩⟩
  · obtain ⟨o, latched⟩ := runLatched_eq_complete s
    rw [commandTurn, if_pos pending, latched]
    exact complete_completes s o
  · rcases chunk_cases c s with ⟨-, after⟩ | ⟨-, -, after⟩ | ⟨-, -, after⟩
    · exact .inr (.inr (by simp [after]))
    · exact .inr (.inl (by simp [after]))
    · exact .inl (by simp [after])

/-! ### The interrupt line (60_exceptions.md R164, R165) -/

/-- The line is high exactly while IE = 1 and a pending source is enabled (R165). -/
theorem irq_iff (s : State) :
    s.irq = true ↔ s.ie = true ∧ ∃ i < 3, s.irqStatus.getLsbD i = true ∧ s.irqEnable.getLsbD i = true := by
  simp only [State.irq, Bool.and_eq_true, Bool.or_eq_true, Nat.exists_lt_succ_right, Nat.not_lt_zero, false_and,
    exists_false, false_or]

/-- Setting the bit of one source raises the line when that source is enabled, and leaves it as it was otherwise. -/
theorem irq_of_raised {s t : State} {mask : BitVec 3} {k : Nat} (hk : k < 3)
    (bits : ∀ i < 3, mask.getLsbD i = decide (i = k)) (ie : t.ie = s.ie) (enable : t.irqEnable = s.irqEnable)
    (status : t.irqStatus = s.irqStatus ||| mask) : t.irq = (s.irq || (s.ie && s.irqEnable.getLsbD k)) := by
  rw [Bool.eq_iff_iff, Bool.or_eq_true, Bool.and_eq_true, irq_iff, irq_iff, ie, enable, status]
  have raised : ∀ i < 3, (s.irqStatus ||| mask).getLsbD i = true ↔ s.irqStatus.getLsbD i = true ∨ i = k := by
    intro i hi
    rw [BitVec.getLsbD_or, bits i hi, Bool.or_eq_true, decide_eq_true_eq]
  constructor
  · rintro ⟨high, i, hi, pending, enabled⟩
    rcases (raised i hi).mp pending with old | rfl
    · exact .inl ⟨high, i, hi, old, enabled⟩
    · exact .inr ⟨high, enabled⟩
  · rintro (⟨high, i, hi, old, enabled⟩ | ⟨high, enabled⟩)
    · exact ⟨high, i, hi, (raised i hi).mpr (.inl old), enabled⟩
    · exact ⟨high, k, hk, (raised k hk).mpr (.inr rfl), enabled⟩

/-- A chunk leaves every register but IRQ_STATUS, where it sets its channel's bit (42_scrypt.md R92, R93). -/
theorem chunk_registers (c : ChannelId) (s : State) :
    SameRegisters s (chunk c s) ∧ (chunk c s).irqStatus = s.irqStatus ||| irqEvent c := by
  rcases chunk_cases c s with ⟨-, after⟩ | ⟨-, -, after⟩ | ⟨-, -, after⟩
  all_goals
    rw [after]
    refine ⟨?_, by simp [State.markEvent]⟩
    constructor <;> simp [State.markEvent]

/-- Settles O16: a completion sets bit 0 of IRQ_STATUS and a channel's chunk its event bit, and neither changes IE or
IRQ_ENABLE. -/
theorem completionAndEventsRaiseTheLine : Obligations.CompletionAndEventsRaiseTheLine := by
  refine ⟨irq_iff, fun i s t next => ?_, fun s t c running next => ?_⟩
  · rw [exec_eq_complete] at next
    have bits : ∀ i < 3, irqCmdDone.getLsbD i = decide (i = 0) := by decide
    rcases complete_cases s t _ next with ⟨e, ok, rfl⟩ | ⟨e, -, rfl⟩
    · obtain ⟨same, status⟩ := ruleOf_ok_registers ok
      exact irq_of_raised (by decide) bits same.ie same.irqEnable (by rw [State.finish_irqStatus, status])
    · exact irq_of_raised (by decide) bits rfl rfl rfl
  · rw [channelTurn, if_pos running] at next
    obtain rfl := Host.Outcome.next.inj next
    obtain ⟨same, status⟩ := chunk_registers c s
    cases c with
    | zero => exact irq_of_raised (by decide) (by decide) same.ie same.irqEnable status
    | one => exact irq_of_raised (by decide) (by decide) same.ie same.irqEnable status

end Sys2Proof.Machine

/-! Accesses of DMEM (spec/20_memory.md R38 to R44, R54): the window's target and little-endian values, which accesses
are refused, and which bytes a command or a channel's step can reach. -/

namespace Sys2Proof.Machine

open Sys2Proof

/-! ### Little-endian byte strings (00_scope.md R10) -/

/-- Byte k of le_n(v). -/
theorem leBytes_getD {n k : Nat} (v : Nat) (h : k < n) : (leBytes n v).getD k 0 = BitVec.ofNat 8 (v / 256 ^ k) := by
  induction n generalizing k v with
  | zero => omega
  | succ n ih =>
    cases k with
    | zero => simp [leBytes]
    | succ k => rw [leBytes, List.getD_cons_succ, ih _ (by omega), Nat.div_div_eq_div_mul, pow_succ']

/-- The bytes of le_n(v) read as v modulo 256^n. -/
theorem leNat_leBytes (n v : Nat) : leNat (leBytes n v) = v % 256 ^ n := by
  induction n generalizing v with
  | zero => simp [leBytes, leNat, Nat.mod_one]
  | succ n ih => simp only [leBytes, leNat, ih, BitVec.toNat_ofNat, pow_succ' 256 n, Nat.mod_mul, Nat.reducePow]

/-- le_n takes nothing of v but its n low bytes. -/
theorem leBytes_mod (n v : Nat) : leBytes n (v % 2 ^ (8 * n)) = leBytes n v := by
  induction n generalizing v with
  | zero => rfl
  | succ n ih =>
    have split : 2 ^ (8 * (n + 1)) = 256 * 2 ^ (8 * n) := by rw [Nat.mul_succ, pow_add, Nat.mul_comm]; rfl
    have low : BitVec.ofNat 8 (v % 2 ^ (8 * (n + 1))) = BitVec.ofNat 8 v := by
      apply BitVec.eq_of_toNat_eq
      rw [BitVec.toNat_ofNat, BitVec.toNat_ofNat, split, Nat.mod_mul_right_mod]
    rw [leBytes, leBytes, low, ← ih (v / 256), split, Nat.mod_mul_right_div_self]

/-! ### The DMEM window (R39 to R42) -/

/-- An access reaches DMEM exactly when all its bytes lie in the window (R39). -/
theorem target_dmem {i : Nat} {w : Width} (inside : i + widthBytes w ≤ 65536) : target (0x1000 + i) w = .dmem i := by
  have start : 0x1000 + i - Config.dmemWindow = i := Nat.add_sub_cancel_left 0x1000 i
  rw [target, start, if_pos ⟨Nat.le_add_right 0x1000 i, inside⟩]

/-- An access that does not reach DMEM is refused by its target when it is not 4 bytes wide (R41). -/
theorem target_refuses_narrow {o : Nat} {w : Width} (outside : ¬(0x1000 ≤ o ∧ o - 0x1000 + widthBytes w ≤ 65536))
    (narrow : w ≠ .word) (s : State) : (target o w).refuses s w = true := by
  have noDmem : ¬(Config.dmemWindow ≤ o ∧ o - Config.dmemWindow + widthBytes w ≤ Config.dmemBytes) := outside
  rw [target, if_neg noDmem]
  cases regAt o <;> simpa [Target.refuses] using narrow

/-- An aligned access that starts in the window ends in it. -/
theorem aligned_fits {i : Nat} {w : Width} (aligned : i % widthBytes w = 0) (inside : i < 65536) :
    i + widthBytes w ≤ 65536 := by
  cases w <;> simp only [widthBytes] at aligned ⊢ <;> omega

/-- The window starts at a multiple of every width. -/
theorem window_aligned (i : Nat) (w : Width) : (0x1000 + i) % widthBytes w = i % widthBytes w := by
  cases w <;> simp only [widthBytes] <;> omega

/-- An aligned access of DMEM while BUSY = 0 is not refused (R41, R42). -/
theorem accessRefused_dmem {s : State} {i : Nat} {w : Width} (idle : s.latch.pending = false)
    (aligned : i % widthBytes w = 0) (inside : i + widthBytes w ≤ 65536) : accessRefused s (0x1000 + i) w = false := by
  rw [accessRefused, window_aligned, aligned, target_dmem inside]
  exact idle

/-- A misaligned access, a narrow one outside the DMEM window, and one of the window while BUSY = 1 are refused (R41,
R42): an aligned access that starts in the window reaches DMEM. -/
theorem accessRefused_of {s : State} {o : Nat} {w : Width}
    (bad : o % widthBytes w ≠ 0 ∨ (¬(0x1000 ≤ o ∧ o < 0x1000 + 65536) ∧ w ≠ .word)
      ∨ (0x1000 ≤ o ∧ o < 0x1000 + 65536 ∧ s.latch.pending = true)) : accessRefused s o w = true := by
  rw [accessRefused, Bool.or_eq_true, bne_iff_ne]
  by_cases aligned : o % widthBytes w = 0
  swap
  · exact .inl aligned
  right
  rcases bad with misaligned | ⟨outside, narrow⟩ | ⟨low, high, busy⟩
  · exact absurd aligned misaligned
  · have someByte : 1 ≤ widthBytes w := by cases w <;> decide
    exact target_refuses_narrow (by omega) narrow s
  · obtain ⟨i, rfl⟩ := Nat.exists_eq_add_of_le low
    rw [window_aligned] at aligned
    rw [target_dmem (aligned_fits aligned (by omega))]
    exact busy

/-- Settles O13: a refused access of the window changes nothing but BUSERR and the value read. -/
theorem refusedAccessSetsBusErr : Obligations.RefusedAccessSetsBusErr := by
  intro s o w op inside bad
  unfold hostAccess
  rw [if_pos (show o < Config.windowBytes from inside)]
  cases op with
  | read => simp only [hostRead, if_pos (accessRefused_of bad)]
  | write v => simp only [hostWrite, if_pos (accessRefused_of bad)]

/-- A host write to DMEM stores the value's low bytes (R40). -/
theorem hostAccess_writeDmem {s : State} {i : Nat} {w : Width} (idle : s.latch.pending = false)
    (aligned : i % widthBytes w = 0) (inside : i + widthBytes w ≤ 65536) (v : Word) :
    hostAccess (0x1000 + i) w (.write v) s = .next (s.storeBytes i (leBytes (widthBytes w) v.toNat)) := by
  have window : 0x1000 + i < Config.windowBytes := by simp only [Config.windowBytes]; omega
  rw [hostAccess, if_pos window, hostWrite, accessRefused_dmem idle aligned inside, target_dmem inside]
  simp only [Bool.false_eq_true, if_false, State.writeTarget, leBytes_mod]

/-- A host read of DMEM returns the little-endian value of the bytes there (R40). -/
theorem hostAccess_readDmem {s : State} {i : Nat} {w : Width} (idle : s.latch.pending = false)
    (aligned : i % widthBytes w = 0) (inside : i + widthBytes w ≤ 65536) :
    hostAccess (0x1000 + i) w .read s
      = .next { s with readData := BitVec.ofNat 32 (leNat (s.dmem.readBytes i (widthBytes w))) } := by
  have window : 0x1000 + i < Config.windowBytes := by simp only [Config.windowBytes]; omega
  rw [hostAccess, if_pos window, hostRead, accessRefused_dmem idle aligned inside, target_dmem inside]
  simp only [Bool.false_eq_true, if_false, State.readTarget]

/-- Settles O12: the stored bytes are those of le_w(v), and they read back as v modulo 256^w. -/
theorem dmemWindowIsLittleEndian : Obligations.DmemWindowIsLittleEndian := by
  intro s i w v wf idle aligned inside
  refine ⟨_, hostAccess_writeDmem idle aligned inside v, rfl, fun a => ?_, _,
    hostAccess_readDmem idle aligned inside, rfl, ?_⟩
  · rw [State.storeBytes_dmem, Memory.read_writeBytes _ _ _ _ wf, leBytes_length]
    split
    · exact leBytes_getD _ (by omega)
    · rfl
  · have back := Memory.readBytes_writeBytes s.dmem i (leBytes (widthBytes w) v.toNat) wf
    rw [leBytes_length] at back
    rw [State.storeBytes_dmem, back, leNat_leBytes]
    exact toNat_word (lt_of_le_of_lt (Nat.mod_le _ _) v.isLt)

/-! ### Active result ranges (R44, R54) -/

/-- A result stored behind the descriptor checks leaves every byte of an active channel's result range. -/
theorem read_storeBytes_of_unreserved {s : State} {ins : List Descriptor} {y : Bytes} {c : ChannelId} {a : Nat}
    (wf : s.dmem.wf = true) (operands : OperandsOk s ins) (fits : y.length ≤ s.latch.a.dst.len)
    (active : ActiveChannel s c) (low : (s.channel c).resultRange.off ≤ a)
    (high : a < (s.channel c).resultRange.off + (s.channel c).resultRange.len) :
    (s.dmem.writeBytes s.latch.a.dst.off y).read a = s.dmem.read a := by
  have apart : ¬(s.latch.a.dst.off ≤ a ∧ a < s.latch.a.dst.off + y.length) := fun ⟨start, stop⟩ =>
    operands.unreserved c active ⟨a, start, by omega, low, high⟩
  rw [Memory.read_writeBytes _ _ _ _ wf, if_neg apart]

/-- Settles O47: a rule that succeeds stores nothing or a result inside DST, which is apart from the range. -/
theorem commandsSpareActiveResultRanges : Obligations.CommandsSpareActiveResultRanges := by
  intro i s t c a wf next active low high
  rw [exec_eq_complete] at next
  rcases complete_cases s t _ next with ⟨e, ok, rfl⟩ | ⟨e, -, rfl⟩
  swap
  · rfl
  rw [State.finish_dmem]
  rcases ruleOf_ok i s e ok with same | ⟨ins, y, r, operands, fits, rfl⟩ | ⟨d, -, start⟩ | ⟨d, -, -, rfl⟩
    | ⟨d, -, -, rfl⟩ | ⟨sel, tag, -, -, operands, fits, rfl⟩ | ⟨tag, sec, -, -, operands, fits, secret, rfl⟩ | ⟨-, rfl⟩ | ⟨-, -, rfl⟩
  · rw [same]
  · exact read_storeBytes_of_unreserved wf operands fits active low high
  · rw [start.effect, State.setChannel_dmem]
  · rw [State.setChannel_dmem]
  · rw [State.setChannel_dmem]
  · rw [← publicKey_length tag (generatePrivate tag s)] at fits
    simpa using read_storeBytes_of_unreserved wf operands fits active low high
  · rw [← sharedSecret_length _ _ _ _ secret] at fits
    exact read_storeBytes_of_unreserved wf operands fits active low high
  · rfl
  · rfl

/-! ### A channel's step (42_scrypt.md R89, R93) -/

/-- A chunk reads nothing of the other channel and leaves it: replacing that channel before or after is the same. -/
theorem chunk_setChannel_other (c : ChannelId) (s : State) (ch : Channel) :
    chunk c (s.setChannel (otherChannel c) ch) = (chunk c s).setChannel (otherChannel c) ch := by
  have own : (s.setChannel (otherChannel c) ch).channel c = s.channel c := by cases c <;> rfl
  rw [chunk, chunk, own]
  split
  · cases c <;> rfl
  · rw [workChannel, workChannel, own]
    split
    · cases c <;> rfl
    · cases c <;> rfl

/-- A chunk changes IRQ_STATUS, its own channel and DMEM at most. -/
theorem chunk_frame (c : ChannelId) (s : State) :
    chunk c s = { s with
        irqStatus := s.irqStatus ||| irqEvent c
        ch0 := (chunk c s).ch0
        ch1 := (chunk c s).ch1
        dmem := (chunk c s).dmem }
      ∧ (chunk c s).channel (otherChannel c) = s.channel (otherChannel c) := by
  rcases chunk_cases c s with ⟨-, after⟩ | ⟨-, -, after⟩ | ⟨-, -, after⟩
  all_goals
    rw [after]
    cases c <;> exact ⟨rfl, rfl⟩

/-- A chunk that does not end in DONE leaves DMEM. -/
theorem chunk_dmem_of_not_done {c : ChannelId} {s : State} (more : ((chunk c s).channel c).phase ≠ .done) :
    (chunk c s).dmem = s.dmem := by
  rcases chunk_cases c s with ⟨-, after⟩ | ⟨-, -, after⟩ | ⟨-, -, after⟩
  · rw [after, State.setChannel_dmem]; rfl
  · exact absurd (by simp [after]) more
  · rw [after, State.setChannel_dmem]; rfl

/-- A chunk writes no byte outside its run's result range. -/
theorem chunk_read_outside {c : ChannelId} {s : State} (wf : s.dmem.wf = true) {a : Nat}
    (outside : ¬((s.channel c).run.dst ≤ a ∧ a < (s.channel c).run.dst + (s.channel c).run.dkLen)) :
    (chunk c s).dmem.read a = s.dmem.read a := by
  by_cases done : ((chunk c s).channel c).phase = .done
  swap
  · rw [chunk_dmem_of_not_done done]
  rcases chunk_cases c s with ⟨-, after⟩ | ⟨-, -, after⟩ | ⟨-, -, after⟩
  · simp [after] at done
  · have same := (s.channel c).run.worked_sameInputs
    have stored : (chunk c s).dmem
        = s.dmem.writeBytes (s.channel c).run.worked.dst (s.channel c).run.worked.result := by
      rw [after, State.setChannel_dmem]; rfl
    rw [stored, Memory.read_writeBytes _ _ _ _ wf, Run.result_length, same.dst, same.dkLen, if_neg outside]
  · simp [after] at done

/-- Settles O48: a RUNNING channel's step is a chunk. -/
theorem channelStepIsConfined : Obligations.ChannelStepIsConfined := by
  intro s c wf running
  obtain ⟨frame, other⟩ := chunk_frame c s
  refine ⟨chunk c s, by rw [channelTurn, if_pos running], frame, other, fun ch => ?_, fun more a => ?_,
    fun a outside => chunk_read_outside wf outside⟩
  · have running' : ((s.setChannel (otherChannel c) ch).channel c).phase = .running := by cases c <;> exact running
    rw [channelTurn, if_pos running', chunk_setChannel_other]
  · rw [chunk_dmem_of_not_done more]

end Sys2Proof.Machine

/-! The order of a command's checks (spec/60_exceptions.md R161): every rule is the field codes, the parameters, the
engine states and the descriptors, checked in that order, and then an outcome that only the data or DST_CAP can refuse. -/

namespace Sys2Proof.Machine

open Sys2Proof

/-! ### Field codes (30_encoding.md R57) -/

theorem cipherOfNat_isSome (n : Nat) : (cipherOfNat n).isSome = decide (n ≤ 4) := by
  match n with
  | 0 | 1 | 2 | 3 | 4 => rfl
  | n + 5 => simp [cipherOfNat]

theorem tagOfNat_isSome (n : Nat) : (tagOfNat n).isSome = decide (n ≤ 13) := by
  match n with
  | 0 | 1 | 2 | 3 | 4 | 5 | 6 | 7 | 8 | 9 | 10 | 11 | 12 | 13 => rfl
  | n + 14 => simp [tagOfNat]

theorem hashCodeOk_eq (c : BitVec 3) : hashCodeOk c = (hashOfCode c).isSome := by
  revert c; decide

theorem modeCodeOk_eq (c : BitVec 3) : modeCodeOk c = (modeOfCode c).isSome := by
  revert c; decide

theorem schemeCodeOk_eq (c : BitVec 3) : schemeCodeOk c = (schemeOfCode c).isSome := by
  revert c; decide

theorem cipherCodeOk_eq (c : BitVec 3) : cipherCodeOk c = (cipherOfNat c.toNat).isSome :=
  (cipherOfNat_isSome _).symm

theorem tagCodeOk_eq (sel : BitVec 8) : tagCodeOk sel = (tagOfNat sel.toNat).isSome :=
  (tagOfNat_isSome _).symm

/-- A selector names two ciphers, or is refused and names none (44_mac_envelope.md R121). -/
theorem selector_cases (sel : BitVec 8) :
    (selectorOk sel = true
        ∧ ∃ primary secondary, selectorPrimary sel = some primary ∧ selectorSecondary sel = some secondary)
      ∨ (selectorOk sel = false ∧ selectorPrimary sel = none) := by
  by_cases ok : sel.toNat ≤ 24
  · have primary := cipherOfNat_isSome (sel.toNat % 5)
    have secondary := cipherOfNat_isSome (sel.toNat / 5)
    rw [decide_eq_true (by omega), Option.isSome_iff_exists] at primary secondary
    obtain ⟨p, hp⟩ := primary
    obtain ⟨q, hq⟩ := secondary
    exact .inl ⟨decide_eq_true ok, p, q, by rw [selectorPrimary, if_pos ok, hp],
      by rw [selectorSecondary, if_pos ok, hq]⟩
  · exact .inr ⟨decide_eq_false ok, by rw [selectorPrimary, if_neg ok]⟩

/-! ### Checks before an outcome -/

/-- The outcome is the check's error when the check fails, and otherwise it is as P says. -/
def Guarded (check : Option ErrorCode) (P : Except ErrorCode Effect → Prop) (o : Except ErrorCode Effect) : Prop :=
  (∃ e, check = some e ∧ o = .error e) ∨ (check = none ∧ P o)

section
variable {c d : Option ErrorCode} {P : Except ErrorCode Effect → Prop} {e : ErrorCode} {o : Except ErrorCode Effect}

theorem guarded_of_none (pass : c = none) (h : P o) : Guarded c P o := .inr ⟨pass, h⟩

theorem Guarded.eq_error (h : Guarded c P o) (fail : c = some e) : o = .error e := by
  rcases h with ⟨e', raised, same⟩ | ⟨pass, -⟩
  · rw [same, Option.some.inj (raised.symm.trans fail)]
  · rw [pass] at fail; contradiction

theorem Guarded.of_none (h : Guarded c P o) (pass : c = none) : P o := by
  rcases h with ⟨e', raised, -⟩ | ⟨-, h⟩
  · rw [raised] at pass; contradiction
  · exact h

/-- A first check that fails. -/
theorem guarded_fail (fail : c = some e) : Guarded (c <|> d) P (.error e) := .inl ⟨e, by rw [fail]; rfl, rfl⟩

/-- A first check that passes. -/
theorem guarded_pass (pass : c = none) (h : Guarded d P o) : Guarded (c <|> d) P o := by
  rw [pass]
  exact h

/-- A first check that raises e when the condition holds. -/
theorem guarded_when {p : Prop} [Decidable p] (h : Guarded d P o) :
    Guarded ((if p then some e else none) <|> d) P (if p then .error e else o) := by
  by_cases hp : p
  · rw [if_pos hp, if_pos hp]; exact guarded_fail rfl
  · rw [if_neg hp, if_neg hp]; exact guarded_pass rfl h

/-- The last check, which raises e when the condition holds. -/
theorem guarded_last {p : Prop} [Decidable p] (h : P o) :
    Guarded (if p then some e else none) P (if p then .error e else o) := by
  by_cases hp : p
  · rw [if_pos hp, if_pos hp]; exact .inl ⟨e, rfl, rfl⟩
  · rw [if_neg hp, if_neg hp]; exact guarded_of_none rfl h

/-- A first check that raises e unless the condition holds. -/
theorem guarded_unlessNot {p : Prop} [Decidable p] (h : Guarded d P o) :
    Guarded ((if p then none else some e) <|> d) P (if ¬p then .error e else o) := by
  by_cases hp : p
  · rw [if_pos hp, if_neg (not_not.mpr hp)]; exact guarded_pass rfl h
  · rw [if_neg hp, if_pos hp]; exact guarded_fail rfl

/-- The same for a Bool, which the outcome may rest on. -/
theorem guarded_unless {b : Bool} (h : b = true → Guarded d P o) :
    Guarded ((if b then none else some e) <|> d) P (if !b then .error e else o) := by
  cases b with
  | false => exact guarded_fail rfl
  | true => exact guarded_pass rfl (h rfl)

end

/-! ### The descriptor checks (20_memory.md R43, R44) -/

/-- Item 6 passes exactly when every descriptor that the command uses lies in DMEM. -/
theorem rangeError_eq (i : Instr) (a : Args) : rangeError i a
    = if (inputsOf i a ++ if usesDst i then [a.dst] else []).any (fun d => !d.admitted) then some .range else none := by
  rw [rangeError, ← List.not_all_eq_any_not]
  generalize List.all _ _ = inside
  cases inside <;> rfl

/-- Item 7 for every command but SCRYPT_START. -/
theorem overlapError_of_ne {i : Instr} (other : ∀ c, i ≠ .scryptStart c) (s : State) :
    overlapError i s = if usesDst i && ((inputsOf i s.latch.a).any s.latch.a.dst.overlaps
      || s.latch.a.dst.hitsChannel s.ch0 || s.latch.a.dst.hitsChannel s.ch1) then some .overlap else none := by
  cases i with
  | scryptStart c => exact absurd rfl (other c)
  | _ => rfl

/-- Items 6 and 7 of a command with DST are the model's descriptor checks. -/
theorem guarded_operands {i : Instr} {s : State} {P : Except ErrorCode Effect → Prop} {k : Except ErrorCode Effect}
    (dst : usesDst i = true) (other : ∀ c, i ≠ .scryptStart c) (h : P k) :
    Guarded (rangeError i s.latch.a <|> overlapError i s) P (withOperands s (inputsOf i s.latch.a) k) := by
  have same : (rangeError i s.latch.a <|> overlapError i s) = operandError s (inputsOf i s.latch.a) := by
    rw [rangeError_eq, overlapError_of_ne other, dst, operandError]
    simp only [if_true, Bool.true_and]
    split_ifs <;> rfl
  rw [same, withOperands]
  cases operandError s (inputsOf i s.latch.a) with
  | some e => exact .inl ⟨e, rfl, rfl⟩
  | none => exact guarded_of_none rfl h

/-- Items 6 and 7 of a command without DST are the check of its inputs. -/
theorem guarded_inputs {i : Instr} {s : State} {P : Except ErrorCode Effect → Prop} {k : Except ErrorCode Effect}
    (noDst : usesDst i = false) (h : P k) :
    Guarded (rangeError i s.latch.a <|> overlapError i s) P (withInputs (inputsOf i s.latch.a) k) := by
  have other : ∀ c, i ≠ .scryptStart c := by rintro c rfl; contradiction
  rw [rangeError_eq, overlapError_of_ne other, noDst, withInputs]
  simp only [Bool.false_eq_true, if_false, List.append_nil, Bool.false_and]
  exact guarded_when (guarded_of_none rfl h)

/-! ### The outcomes behind the checks -/

/-- The errors that no check of items 2 to 7 raises: those of the data, and of DST_CAP. -/
def dataErrors : List ErrorCode :=
  [.length, .padding, .badBlob, .kxFail, .saltTie, .authFail, .decryptFail, .capacity]

/-- What a command answers once the checks have passed: only the data and the capacity refuse it, and where the length
of the result is known, the capacity alone does. -/
structure AfterChecks (i : Instr) (s : State) (o : Except ErrorCode Effect) : Prop where
  errors : ∀ e, o = .error e → e ∈ dataErrors
  length : ∀ n, resultLength i s = some n →
    (s.latch.a.dstCap.toNat < n ∧ o = .error .capacity)
      ∨ (n ≤ s.latch.a.dstCap.toNat ∧ ∃ effect, o = .ok effect ∧ effect.results.outLen = BitVec.ofNat 32 n)

section
variable {i : Instr} {s : State}

/-- A result whose length is not known before it. -/
theorem afterChecks_of_unknown {o : Except ErrorCode Effect} (unknown : resultLength i s = none)
    (errors : ∀ e, o = .error e → e ∈ dataErrors) : AfterChecks i s o where
  errors := errors
  length n known := by rw [unknown] at known; contradiction

theorem afterChecks_ok (unknown : resultLength i s = none) (effect : Effect) : AfterChecks i s (.ok effect) :=
  afterChecks_of_unknown unknown nofun

theorem afterChecks_error (unknown : resultLength i s = none) {e : ErrorCode} (data : e ∈ dataErrors) :
    AfterChecks i s (.error e) :=
  afterChecks_of_unknown unknown fun _ same => Except.error.inj same ▸ data

/-- A result that is stored unless it is longer than DST_CAP. -/
theorem afterChecks_capacity {len : Nat} {effect : Effect} (known : ∀ n, resultLength i s = some n → len = n)
    (outLen : effect.results.outLen = BitVec.ofNat 32 len) :
    AfterChecks i s (if s.latch.a.dstCap.toNat < len then .error .capacity else .ok effect) := by
  by_cases full : s.latch.a.dstCap.toNat < len
  · rw [if_pos full]
    exact ⟨fun e same => Except.error.inj same ▸ by decide, fun n h => .inl ⟨known n h ▸ full, rfl⟩⟩
  · rw [if_neg full]
    exact ⟨nofun, fun n h => .inr ⟨known n h ▸ Nat.not_lt.mp full, effect, rfl, known n h ▸ outLen⟩⟩

theorem afterChecks_deliver {y : Bytes} {r : Results} (known : ∀ n, resultLength i s = some n → y.length = n) :
    AfterChecks i s (deliver s y r) :=
  afterChecks_capacity known rfl

/-- A result that is delivered unless its computation fails. -/
theorem afterChecks_match {o : Except ErrorCode Bytes} {r : Results} (unknown : resultLength i s = none)
    (errors : ∀ e, o = .error e → e ∈ dataErrors) :
    AfterChecks i s (match (generalizing := false) o with | .error e => .error e | .ok y => deliver s y r) := by
  cases o with
  | error e => exact afterChecks_error unknown (errors e rfl)
  | ok y => exact afterChecks_deliver fun n known => by rw [unknown] at known; contradiction

end

/-! ### The errors of the data -/

/-- UNPAD fails with ERR_PADDING only (40_padding.md R68). -/
theorem unpadBytes_error {strict : Bool} {scheme : Scheme} {b : Nat} {x : Bytes} {e : ErrorCode}
    (h : unpadBytes strict scheme b x = .error e) : e = .padding := by
  have byLength : unpadLength strict scheme b x = .error e → e = .padding := by
    intro h
    simp only [unpadLength] at h
    split at h
    · exact (Except.error.inj h).symm
    · split_ifs at h <;> exact (Except.error.inj h).symm
  have byMarker : unpadMarker strict b x = .error e → e = .padding := by
    intro h
    simp only [unpadMarker] at h
    split at h
    · exact (Except.error.inj h).symm
    · split_ifs at h <;> exact (Except.error.inj h).symm
  cases scheme with
  | iso97971 => exact byMarker h
  | pkcs7 | ansix923 | iso10126 => exact byLength h

/-- A layer fails with ERR_LENGTH or ERR_PADDING (43_cipher.md R108). -/
theorem codecDecrypt_error {stretch : HashAlg} {strict : Bool} {alg : Cipher} {mode : Mode} {scheme : Scheme}
    {x k : Bytes} {rounds : Nat} {e : ErrorCode}
    (h : codecDecrypt stretch strict alg mode scheme x k rounds = .error e) : e = .length ∨ e = .padding := by
  simp only [codecDecrypt] at h
  split at h
  · exact .inl (Except.error.inj h).symm
  · exact .inr (unpadBytes_error h)

/-- An envelope fails with ERR_DECRYPT_FAIL or ERR_AUTH_FAIL (44_mac_envelope.md R124). -/
theorem envDecrypt_error {stretch : HashAlg} {strict : Bool} {primary secondary : Cipher} {mode : Mode}
    {scheme : Scheme} {w k1 k2 : Bytes} {e : ErrorCode}
    (h : envDecrypt stretch strict primary secondary mode scheme w k1 k2 = .error e) :
    e = .decryptFail ∨ e = .authFail := by
  simp only [envDecrypt] at h
  split at h
  · exact .inl (Except.error.inj h).symm
  split at h
  · exact .inr (Except.error.inj h).symm
  split at h
  · exact .inl (Except.error.inj h).symm
  split at h
  · exact .inl (Except.error.inj h).symm
  · contradiction

/-! ### Every rule in the order of R161 -/

/-- The command's rule raises the first failing check, and when none fails it answers as `AfterChecks` says. -/
def ChecksFirst (i : Instr) (s : State) : Prop := Guarded (firstError i s) (AfterChecks i s) (ruleOf i s)

/-- The blob is its two header bytes, the salt and the key. -/
theorem publicKeyBlob_length (t : Tag) (salt key : Bytes) :
    (publicKeyBlob t salt key).length = 2 + (salt.length + key.length) := by
  simp only [publicKeyBlob, List.length_append, List.length_cons, List.length_nil]
  omega

/-! ### Commands by their field codes and operands -/

section
variable {i : Instr} {s : State} {k : Except ErrorCode Effect}

/-- A command with one code inside its set. -/
theorem fieldError_of_some {α : Type} {ok : Bool} {code : Option α} {x : α} (same : ok = code.isSome)
    (field : fieldError i = if ok then none else some .config) (known : code = some x) : fieldError i = none := by
  rw [field, same, known]
  rfl

/-- A command with one code outside its set. -/
theorem fieldError_of_none {α : Type} {ok : Bool} {code : Option α} (same : ok = code.isSome)
    (field : fieldError i = if ok then none else some .config) (absent : code = none) :
    fieldError i = some .config := by
  rw [field, same, absent]
  rfl

/-- A command of one layer: cipher, mode and scheme, each of them ERR_CONFIG outside its set. -/
theorem guarded_layer {a m c : BitVec 3} {d : Option ErrorCode} {P : Except ErrorCode Effect → Prop}
    {rule : Cipher → Mode → Scheme → Except ErrorCode Effect}
    (field : fieldError i = if cipherCodeOk a && modeCodeOk m && schemeCodeOk c then none else some .config)
    (h : ∀ alg mode scheme, cipherOfNat a.toNat = some alg → Guarded d P (rule alg mode scheme)) :
    Guarded (fieldError i <|> d) P
      (match cipherOfNat a.toNat, modeOfCode m, schemeOfCode c with
        | some alg, some mode, some scheme => rule alg mode scheme
        | _, _, _ => .error .config) := by
  rw [cipherCodeOk_eq, modeCodeOk_eq, schemeCodeOk_eq] at field
  cases ha : cipherOfNat a.toNat with
  | none => exact guarded_fail (by simp [field, ha])
  | some alg =>
  cases hm : modeOfCode m with
  | none => exact guarded_fail (by simp [field, hm])
  | some mode =>
  cases hc : schemeOfCode c with
  | none => exact guarded_fail (by simp [field, hc])
  | some scheme => exact guarded_pass (by simp [field, ha, hm, hc]) (h alg mode scheme ha)

/-- An envelope command: the selector first, ERR_BAD_SELECTOR, then mode and scheme. -/
theorem guarded_envelope {m c : BitVec 3} {x : BitVec 8} {d : Option ErrorCode} {P : Except ErrorCode Effect → Prop}
    {rule : Cipher → Cipher → Mode → Scheme → Except ErrorCode Effect}
    (field : fieldError i = if !selectorOk x then some .badSelector
      else if modeCodeOk m && schemeCodeOk c then none else some .config)
    (h : ∀ primary secondary mode scheme, selectorPrimary x = some primary → selectorSecondary x = some secondary →
      Guarded d P (rule primary secondary mode scheme)) :
    Guarded (fieldError i <|> d) P
      (match selectorPrimary x, selectorSecondary x with
        | some primary, some secondary =>
          match modeOfCode m, schemeOfCode c with
          | some mode, some scheme => rule primary secondary mode scheme
          | _, _ => .error .config
        | _, _ => .error .badSelector) := by
  rw [modeCodeOk_eq, schemeCodeOk_eq] at field
  rcases selector_cases x with ⟨ok, primary, secondary, hp, hq⟩ | ⟨bad, absent⟩
  swap
  · rw [absent]
    exact guarded_fail (by simp [field, bad])
  rw [hp, hq]
  cases hm : modeOfCode m with
  | none => exact guarded_fail (by simp [field, ok, hm])
  | some mode =>
  cases hc : schemeOfCode c with
  | none => exact guarded_fail (by simp [field, ok, hc])
  | some scheme => exact guarded_pass (by simp [field, ok, hm, hc]) (h primary secondary mode scheme hp hq)

/-- A command with DST, and no resource and no engine to check. -/
theorem guarded_plain (dst : usesDst i = true) (other : ∀ c, i ≠ .scryptStart c)
    (resource : resourceError i s.latch.a = none) (engine : engineError i s = none) (after : AfterChecks i s k) :
    Guarded (resourceError i s.latch.a <|> engineError i s <|> rangeError i s.latch.a <|> overlapError i s)
      (AfterChecks i s) (withOperands s (inputsOf i s.latch.a) k) :=
  guarded_pass resource (guarded_pass engine (guarded_operands dst other after))

/-- A command without DST, and no resource and no engine to check. -/
theorem guarded_noDst (noDst : usesDst i = false)
    (resource : resourceError i s.latch.a = none) (engine : engineError i s = none) (after : AfterChecks i s k) :
    Guarded (resourceError i s.latch.a <|> engineError i s <|> rangeError i s.latch.a <|> overlapError i s)
      (AfterChecks i s) (withInputs (inputsOf i s.latch.a) k) :=
  guarded_pass resource (guarded_pass engine (guarded_inputs noDst after))

/-- A command that uses no descriptor passes items 6 and 7. -/
theorem guarded_noOperands (noDst : usesDst i = false) (noInputs : inputsOf i s.latch.a = [])
    (after : AfterChecks i s k) :
    Guarded (rangeError i s.latch.a <|> overlapError i s) (AfterChecks i s) k := by
  have bare := guarded_inputs (s := s) noDst after
  rwa [noInputs] at bare

end

/-! ### The padding aligner and the KDF unit -/

theorem checksFirst_pad (c : BitVec 3) (s : State) : ChecksFirst (.pad c) s := by
  rw [ChecksFirst, ruleOf, padCommand]
  cases code : schemeOfCode c with
  | none => exact guarded_fail (fieldError_of_none (schemeCodeOk_eq c) rfl code)
  | some scheme =>
    refine guarded_pass (fieldError_of_some (schemeCodeOk_eq c) rfl code) (guarded_unless fun bits => ?_)
    refine guarded_plain (i := .pad c) rfl nofun rfl rfl (afterChecks_deliver ?_)
    rintro n ⟨⟩
    have block : 0 < s.latch.a.param0.toNat / 8 := by
      simp only [blockBitsOk, Bool.and_eq_true, decide_eq_true_eq] at bits
      omega
    rw [padBytes_length scheme _ _ _ block, State.operand_length]
    rfl

theorem checksFirst_unpad (c : BitVec 3) (s : State) : ChecksFirst (.unpad c) s := by
  rw [ChecksFirst, ruleOf, unpadCommand]
  cases code : schemeOfCode c with
  | none => exact guarded_fail (fieldError_of_none (schemeCodeOk_eq c) rfl code)
  | some scheme =>
    refine guarded_pass (fieldError_of_some (schemeCodeOk_eq c) rfl code) (guarded_unless fun _ => ?_)
    refine guarded_plain (i := .unpad c) rfl nofun rfl rfl (afterChecks_match rfl fun e he => ?_)
    rw [unpadBytes_error he]
    decide

theorem checksFirst_keyfit (s : State) : ChecksFirst .keyfit s := by
  rw [ChecksFirst, ruleOf, keyfitCommand]
  refine guarded_pass rfl (guarded_unless fun _ => ?_)
  refine guarded_plain (i := .keyfit) rfl nofun rfl rfl (afterChecks_deliver ?_)
  rintro n ⟨⟩
  exact keyfit_length _ _

theorem checksFirst_hash (c : BitVec 3) (s : State) : ChecksFirst (.hash c) s := by
  rw [ChecksFirst, ruleOf, hashCommand]
  cases code : hashOfCode c with
  | none => exact guarded_fail (fieldError_of_none (hashCodeOk_eq c) rfl code)
  | some alg =>
    refine guarded_pass (fieldError_of_some (hashCodeOk_eq c) rfl code) (guarded_pass rfl ?_)
    refine guarded_plain (i := .hash c) rfl nofun rfl rfl (afterChecks_deliver fun n known => ?_)
    rw [hash_length]
    simpa [resultLength, code] using known

theorem checksFirst_stretch (c : BitVec 3) (s : State) : ChecksFirst (.stretch c) s := by
  rw [ChecksFirst, ruleOf, stretchCommand]
  cases code : hashOfCode c with
  | none => exact guarded_fail (fieldError_of_none (hashCodeOk_eq c) rfl code)
  | some alg =>
    refine guarded_pass (fieldError_of_some (hashCodeOk_eq c) rfl code) (guarded_when ?_)
    refine guarded_plain (i := .stretch c) rfl nofun rfl rfl (afterChecks_deliver ?_)
    rintro n ⟨⟩
    exact pbkdf2_length ..

/-! ### The Scrypt engine -/

theorem checksFirst_scryptStart (c : ChannelId) (s : State) : ChecksFirst (.scryptStart c) s := by
  rw [ChecksFirst, ruleOf, scryptStartCommand]
  refine guarded_pass rfl (guarded_unless fun _ => guarded_unless fun _ => guarded_when ?_)
  rw [rangeError_eq]
  refine guarded_when (guarded_last ?_)
  refine afterChecks_of_unknown rfl fun e refused => ?_
  split_ifs at refused
  rw [← Except.error.inj refused]
  decide

theorem checksFirst_scryptAck (c : ChannelId) (s : State) : ChecksFirst (.scryptAck c) s := by
  rw [ChecksFirst, ruleOf, scryptAckCommand]
  refine guarded_pass rfl (guarded_pass rfl (guarded_pass rfl ?_))
  rw [engineError]
  split
  · exact guarded_pass rfl (guarded_noOperands (i := .scryptAck c) rfl rfl (afterChecks_ok rfl _))
  · exact guarded_fail rfl

theorem checksFirst_scryptCancel (c : ChannelId) (s : State) : ChecksFirst (.scryptCancel c) s := by
  rw [ChecksFirst, ruleOf, scryptCancelCommand]
  refine guarded_pass rfl (guarded_pass rfl (guarded_pass rfl ?_))
  rw [engineError]
  split
  · exact guarded_pass rfl (guarded_noOperands (i := .scryptCancel c) rfl rfl (afterChecks_ok rfl _))
  · exact guarded_fail rfl

/-! ### The cipher-mode unit, the MAC unit and the envelope sequencer -/

theorem checksFirst_cipherEnc (a m c : BitVec 3) (s : State) : ChecksFirst (.cipherEnc a m c) s := by
  rw [ChecksFirst, ruleOf, cipherEncCommand]
  refine guarded_layer rfl fun alg mode scheme code => guarded_pass rfl ?_
  refine guarded_plain (i := .cipherEnc a m c) rfl nofun rfl rfl (afterChecks_deliver fun n known => ?_)
  simp only [resultLength, code, Option.map_some, Option.some.injEq] at known
  rw [codecEncrypt_length, codecSalt_length _ _ (State.drawBytes_length ..), State.operand_length, ← known]
  rfl

theorem checksFirst_cipherDec (a m c : BitVec 3) (s : State) : ChecksFirst (.cipherDec a m c) s := by
  rw [ChecksFirst, ruleOf, cipherDecCommand]
  refine guarded_layer rfl fun alg mode scheme _ => guarded_pass rfl ?_
  refine guarded_plain (i := .cipherDec a m c) rfl nofun rfl rfl (afterChecks_match rfl fun e he => ?_)
  rcases codecDecrypt_error he with rfl | rfl <;> decide

theorem checksFirst_macGen (s : State) : ChecksFirst .macGen s := by
  refine guarded_pass rfl (guarded_pass rfl (guarded_plain (i := .macGen) rfl nofun rfl rfl (afterChecks_deliver ?_)))
  rintro n ⟨⟩
  exact mac_length _ _

theorem checksFirst_macVerify (s : State) : ChecksFirst .macVerify s := by
  rw [ChecksFirst, ruleOf, macVerifyCommand]
  refine guarded_pass rfl (guarded_unlessNot ?_)
  refine guarded_noDst (i := .macVerify) rfl rfl rfl ?_
  split
  · exact afterChecks_ok rfl _
  · exact afterChecks_error rfl (by decide)

theorem checksFirst_envEnc (m c : BitVec 3) (x : BitVec 8) (s : State) : ChecksFirst (.envEnc m c x) s := by
  rw [ChecksFirst, ruleOf, envEncCommand]
  refine guarded_envelope rfl fun primary secondary mode scheme hp hq => guarded_pass rfl ?_
  refine guarded_plain (i := .envEnc m c x) rfl nofun rfl rfl (afterChecks_deliver fun n known => ?_)
  simp only [resultLength, hp, hq, Option.some.injEq] at known
  rw [envEncrypt, List.length_append, mac_length, codecEncrypt_length, codecEncrypt_length, State.drawBytes_length,
    State.drawBytes_length, State.operand_length, ← known]
  rfl

theorem checksFirst_envDec (m c : BitVec 3) (x : BitVec 8) (s : State) : ChecksFirst (.envDec m c x) s := by
  rw [ChecksFirst, ruleOf, envDecCommand]
  refine guarded_envelope rfl fun primary secondary mode scheme _ _ => guarded_pass rfl ?_
  refine guarded_plain (i := .envDec m c x) rfl nofun rfl rfl (afterChecks_match rfl fun e he => ?_)
  rcases envDecrypt_error he with rfl | rfl <;> decide

/-! ### The key-agreement unit -/

theorem checksFirst_kxGenerate (x : BitVec 8) (s : State) : ChecksFirst (.kxGenerate x) s := by
  rw [ChecksFirst, ruleOf, kxGenerateCommand]
  cases tag : tagOfNat x.toNat with
  | none => exact guarded_fail (fieldError_of_none (tagCodeOk_eq x) rfl tag)
  | some t =>
    refine guarded_pass (fieldError_of_some (tagCodeOk_eq x) rfl tag) (guarded_pass rfl ?_)
    refine guarded_plain (i := .kxGenerate x) rfl nofun rfl rfl (afterChecks_capacity (fun n known => ?_) rfl)
    simpa [resultLength, tag] using known

theorem checksFirst_kxSerialize (x : BitVec 8) (s : State) : ChecksFirst (.kxSerialize x) s := by
  rw [ChecksFirst, ruleOf, kxSerializeCommand]
  cases tag : tagOfNat x.toNat with
  | none => exact guarded_fail (fieldError_of_none (tagCodeOk_eq x) rfl tag)
  | some t =>
    refine guarded_pass (fieldError_of_some (tagCodeOk_eq x) rfl tag) (guarded_pass rfl ?_)
    refine guarded_plain (i := .kxSerialize x) rfl nofun rfl rfl ?_
    split
    · rename_i wrong
      have wrong : s.latch.a.aLen.toNat ≠ pubLen t := wrong
      exact afterChecks_error (by simp only [resultLength, tag, if_neg wrong]) (by decide)
    · rename_i right
      have right : s.latch.a.aLen.toNat = pubLen t := not_not.mp right
      refine afterChecks_deliver fun n known => ?_
      simp only [resultLength, tag, if_pos right, Option.some.injEq] at known
      rw [publicKeyBlob_length, State.drawBytes_length, State.operand_length, ← known, ← right]
      rfl

theorem checksFirst_kxParse (s : State) : ChecksFirst .kxParse s := by
  refine guarded_pass rfl (guarded_pass rfl (guarded_noDst (i := .kxParse) rfl rfl rfl ?_))
  split
  · exact afterChecks_error rfl (by decide)
  · exact afterChecks_ok rfl _

theorem checksFirst_kxCompute (s : State) : ChecksFirst .kxCompute s := by
  rw [ChecksFirst, ruleOf, kxComputeCommand]
  refine guarded_pass rfl (guarded_pass rfl (guarded_pass rfl ?_))
  cases tag : s.slotTag with
  | none => exact guarded_fail (by simp [engineError, tag])
  | some t =>
    refine guarded_pass (by simp [engineError, tag]) (guarded_operands (i := .kxCompute) rfl nofun ?_)
    split
    · exact afterChecks_error rfl (by decide)
    · exact afterChecks_capacity nofun rfl

theorem checksFirst_kxApplied (s : State) : ChecksFirst .kxApplied s := by
  rw [ChecksFirst, ruleOf, kxAppliedCommand]
  refine guarded_pass rfl (guarded_pass rfl (guarded_pass rfl ?_))
  rw [engineError]
  split
  · exact guarded_pass rfl (guarded_noOperands (i := .kxApplied) rfl rfl (afterChecks_ok rfl _))
  · exact guarded_fail rfl

theorem checksFirst_saltOrder (s : State) : ChecksFirst .saltOrder s := by
  refine guarded_pass rfl (guarded_pass rfl (guarded_noDst (i := .saltOrder) rfl rfl rfl ?_))
  split
  · exact afterChecks_error rfl (by decide)
  · exact afterChecks_ok rfl _

/-- Every command's rule is the checks of R161 in their order, and then its result. -/
theorem checksFirst (i : Instr) (s : State) : ChecksFirst i s := by
  cases i with
  | nop => exact guarded_of_none rfl (afterChecks_ok rfl _)
  | pad c => exact checksFirst_pad c s
  | unpad c => exact checksFirst_unpad c s
  | keyfit => exact checksFirst_keyfit s
  | hash c => exact checksFirst_hash c s
  | stretch c => exact checksFirst_stretch c s
  | scryptStart c => exact checksFirst_scryptStart c s
  | scryptAck c => exact checksFirst_scryptAck c s
  | scryptCancel c => exact checksFirst_scryptCancel c s
  | cipherEnc a m c => exact checksFirst_cipherEnc a m c s
  | cipherDec a m c => exact checksFirst_cipherDec a m c s
  | macGen => exact checksFirst_macGen s
  | macVerify => exact checksFirst_macVerify s
  | envEnc m c x => exact checksFirst_envEnc m c x s
  | envDec m c x => exact checksFirst_envDec m c x s
  | kxGenerate x => exact checksFirst_kxGenerate x s
  | kxSerialize x => exact checksFirst_kxSerialize x s
  | kxParse => exact checksFirst_kxParse s
  | kxCompute => exact checksFirst_kxCompute s
  | kxNuke => exact guarded_of_none rfl (afterChecks_ok rfl _)
  | kxApplied => exact checksFirst_kxApplied s
  | saltOrder => exact checksFirst_saltOrder s

end Sys2Proof.Machine

/-! The errors of R161 as they are spelled out: field codes, parameters, the ranges of a Scrypt run, descriptors and
overlaps; and the capacity of a result whose length is known (spec/20_memory.md R43 to R45). -/

namespace Sys2Proof.Machine

open Sys2Proof

/-! ### What the checks refuse -/

/-- A command whose rule raises e fails with e. -/
theorem fails_of_rule {i : Instr} {s : State} {e : ErrorCode} (rule : ruleOf i s = .error e) : Fails i s e :=
  fails_of_error i s e (by rw [exec_eq_complete, rule])

/-- A command's first failing check is its error (R161). -/
theorem fails_of_firstError {i : Instr} {s : State} {e : ErrorCode} (h : firstError i s = some e) : Fails i s e :=
  fails_of_rule ((checksFirst i s).eq_error h)

theorem fails_of_fieldError {i : Instr} {s : State} {e : ErrorCode} (field : fieldError i = some e) : Fails i s e :=
  fails_of_firstError (by rw [firstError, field]; rfl)

section
variable {i : Instr} {s : State} (codes : fieldError i = if i.wellFormed then none else some .config)
include codes

/-- A field code outside its set is ERR_CONFIG, for every command but those with a selector (R57). -/
theorem fails_of_illFormed (bad : i.wellFormed = false) : Fails i s .config :=
  fails_of_fieldError (by rw [codes, bad]; rfl)

/-- A refused parameter is ERR_CONFIG, as a refused field code is. -/
theorem fails_of_paramError (param : paramError i s.latch.a = some .config) : Fails i s .config := by
  by_cases form : i.wellFormed = true
  · exact fails_of_firstError (by rw [firstError, codes, if_pos form, param]; rfl)
  · exact fails_of_illFormed codes (by simpa using form)

end

/-- Past the field codes and the parameters come the resources, the engines and the descriptors. -/
theorem firstError_of_param {i : Instr} {s : State} (field : fieldError i = none)
    (param : paramError i s.latch.a = none) : firstError i s
      = (resourceError i s.latch.a <|> engineError i s <|> rangeError i s.latch.a <|> overlapError i s) := by
  rw [firstError, field, param]
  rfl

/-! ### The ranges of a Scrypt run (42_scrypt.md R85) -/

theorem scryptCostOk_iff (n : Nat) : scryptCostOk n = true ↔ ∃ k, 1 ≤ k ∧ n = 2 ^ k := by
  simp only [scryptCostOk, Bool.and_eq_true, decide_eq_true_eq, beq_iff_eq]
  constructor
  · rintro ⟨two, power⟩
    refine ⟨n.log2, ?_, power.symm⟩
    rw [Nat.le_log2 (by omega)]
    exact two
  · rintro ⟨k, one, rfl⟩
    exact ⟨Nat.pow_le_pow_right (n := 2) (by decide) one, by rw [Nat.log2_two_pow]⟩

theorem scryptConfigOk_iff (n r p dkLen : Nat) : scryptConfigOk n r p dkLen = true ↔ ¬ScryptOutOfRange n r p dkLen := by
  have power : (¬∀ k, 1 ≤ k → n ≠ 2 ^ k) ↔ ∃ k, 1 ≤ k ∧ n = 2 ^ k := by simp only [not_forall, not_not, exists_prop]
  simp only [scryptConfigOk, Bool.and_eq_true, decide_eq_true_eq, scryptCostOk_iff, ScryptOutOfRange, not_or, power,
    and_assoc]
  exact and_congr_right fun _ => by omega

theorem scryptMemoryOk_iff (n r p : Nat) :
    scryptMemoryOk n r p = true ↔ 128 * r * n ≤ 8388608 ∧ 128 * r * p ≤ 8388608 := by
  rw [scryptMemoryOk, Bool.and_eq_true, decide_eq_true_eq, decide_eq_true_eq]
  rfl

/-! ### Descriptors -/

theorem rangeError_of_outside {i : Instr} {a : Args}
    (h : (∃ d ∈ inputsOf i a, 65536 < d.off + d.len) ∨ (usesDst i = true ∧ 65536 < a.dstOff.toNat + a.dstCap.toNat)) :
    rangeError i a = some .range := by
  have refused : ∀ d : Descriptor, 65536 < d.off + d.len → (!d.admitted) = true := fun d far => by
    rw [Bool.not_eq_true', ← Bool.not_eq_true, admitted_iff]
    omega
  rw [rangeError_eq, if_pos]
  rw [List.any_append, Bool.or_eq_true, List.any_eq_true]
  rcases h with ⟨d, used, far⟩ | ⟨dst, far⟩
  · exact .inl ⟨d, used, refused d far⟩
  · rw [dst, if_pos rfl, List.any_cons, refused a.dst far]
    exact .inr rfl

theorem rangeError_of_inside {i : Instr} {a : Args} (inputs : ∀ d ∈ inputsOf i a, d.off + d.len ≤ 65536)
    (dst : a.dstOff.toNat + a.dstCap.toNat ≤ 65536) : rangeError i a = none := by
  rw [rangeError_eq, (insideDmem_iff _).mpr]
  · rfl
  · intro d used
    rcases List.mem_append.mp used with input | output
    · exact inputs d input
    · split_ifs at output
      · rw [List.mem_singleton.mp output]
        exact dst
      · contradiction

theorem overlapError_of_forbidden {i : Instr} {s : State} (dst : usesDst i = true) (h : ForbiddenOverlap i s) :
    overlapError i s = some .overlap := by
  by_cases start : ∃ c, i = .scryptStart c
  · obtain ⟨c, rfl⟩ := start
    exact if_pos ((hitsChannel_iff _ s _).mpr h)
  · have other : ∀ c, i ≠ .scryptStart c := fun c same => start ⟨c, same⟩
    have forbidden : (∃ d ∈ inputsOf i s.latch.a, SharesByte s.latch.a.dst d)
        ∨ ∃ c, ActiveChannel s c ∧ SharesByte s.latch.a.dst (s.channel c).resultRange := by
      cases i with
      | scryptStart c => exact absurd rfl (other c)
      | _ => exact h
    rw [overlapError_of_ne other, dst, Bool.true_and, if_pos]
    rw [Bool.or_eq_true, Bool.or_eq_true, List.any_eq_true]
    rcases forbidden with ⟨d, used, shared⟩ | ⟨c, hit⟩
    · exact .inl (.inl ⟨d, used, (overlaps_iff _ _).mpr shared⟩)
    · have hits := (hitsChannel_iff s.latch.a.dst s c).mpr hit
      cases c with
      | zero => exact .inl (.inr hits)
      | one => exact .inr hits

/-! ### The clauses of R161 -/

/-- The clauses on field codes (R57). -/
theorem fails_of_fieldCodes (s : State) (alg mode pad : BitVec 3) (sel : BitVec 8) :
    (3 ≤ alg.toNat → Fails (.hash alg) s .config ∧ Fails (.stretch alg) s .config)
      ∧ (4 ≤ pad.toNat → Fails (.pad pad) s .config ∧ Fails (.unpad pad) s .config)
      ∧ (5 ≤ alg.toNat ∨ 3 ≤ mode.toNat ∨ 4 ≤ pad.toNat →
        Fails (.cipherEnc alg mode pad) s .config ∧ Fails (.cipherDec alg mode pad) s .config)
      ∧ (25 ≤ sel.toNat → Fails (.envEnc mode pad sel) s .badSelector ∧ Fails (.envDec mode pad sel) s .badSelector)
      ∧ (sel.toNat ≤ 24 → 3 ≤ mode.toNat ∨ 4 ≤ pad.toNat →
        Fails (.envEnc mode pad sel) s .config ∧ Fails (.envDec mode pad sel) s .config)
      ∧ (14 ≤ sel.toNat → Fails (.kxGenerate sel) s .config ∧ Fails (.kxSerialize sel) s .config) := by
  have bad : ∀ {n k : Nat}, k + 1 ≤ n → decide (n ≤ k) = false := fun h => decide_eq_false (by omega)
  refine ⟨fun h => ?_, fun h => ?_, fun h => ?_, fun h => ?_, fun ok h => ?_, fun h => ?_⟩
  · exact ⟨fails_of_illFormed rfl (bad h), fails_of_illFormed rfl (bad h)⟩
  · exact ⟨fails_of_illFormed rfl (bad h), fails_of_illFormed rfl (bad h)⟩
  · have codes : (cipherCodeOk alg && modeCodeOk mode && schemeCodeOk pad) = false := by
      rcases h with h | h | h <;> simp [cipherCodeOk, modeCodeOk, schemeCodeOk, bad h]
    exact ⟨fails_of_illFormed rfl codes, fails_of_illFormed rfl codes⟩
  · have refused : selectorOk sel = false := bad h
    exact ⟨fails_of_fieldError (by simp [fieldError, refused]), fails_of_fieldError (by simp [fieldError, refused])⟩
  · have named : selectorOk sel = true := decide_eq_true ok
    have codes : (modeCodeOk mode && schemeCodeOk pad) = false := by
      rcases h with h | h <;> simp [modeCodeOk, schemeCodeOk, bad h]
    exact ⟨fails_of_fieldError (by simp [fieldError, named, codes]),
      fails_of_fieldError (by simp [fieldError, named, codes])⟩
  · exact ⟨fails_of_illFormed rfl (bad h), fails_of_illFormed rfl (bad h)⟩

/-- The clauses on PARAM0 and PARAM1 (R70, R71, R77, R79). -/
theorem fails_of_params (s : State) (code : BitVec 3) (v : Nat) (hv : v = s.latch.a.param0.toNat) :
    (v % 8 ≠ 0 ∨ v < 8 ∨ 2040 < v → Fails (.pad code) s .config ∧ Fails (.unpad code) s .config)
      ∧ (v ∉ [8, 16, 20, 24, 32, 64] → Fails .keyfit s .config)
      ∧ (v = 0 ∨ s.latch.a.param1 = 0 → Fails (.stretch code) s .config) := by
  subst hv
  refine ⟨fun h => ?_, fun h => ?_, fun h => ?_⟩
  · have bits : blockBitsOk s.latch.a.param0.toNat = false := by
      simp only [blockBitsOk, Bool.and_eq_false_iff, beq_eq_false_iff_ne, decide_eq_false_iff_not]
      omega
    exact ⟨fails_of_paramError rfl (by simp [paramError, bits]), fails_of_paramError rfl (by simp [paramError, bits])⟩
  · refine fails_of_paramError rfl (if_neg fun listed => h ?_)
    simpa [keyfitSizes] using listed
  · refine fails_of_paramError rfl (if_pos ?_)
    exact h.imp_left fun zero => BitVec.eq_of_toNat_eq zero

/-- The clauses on a Scrypt run (R85, R88). -/
theorem fails_of_scryptParams (s : State) (c : ChannelId) (n r p dkLen : Nat) (hn : n = s.latch.a.param0.toNat)
    (hr : r = s.latch.a.param1.toNat) (hp : p = s.latch.a.param2.toNat) (hk : dkLen = s.latch.a.param3.toNat) :
    (ScryptOutOfRange n r p dkLen → Fails (.scryptStart c) s .config)
      ∧ (¬ScryptOutOfRange n r p dkLen → 8388608 < 128 * r * n ∨ 8388608 < 128 * r * p →
        Fails (.scryptStart c) s .resource)
      ∧ (¬ScryptOutOfRange n r p dkLen → 128 * r * n ≤ 8388608 → 128 * r * p ≤ 8388608 → ActiveChannel s c →
        Fails (.scryptStart c) s .chBusy) := by
  subst hn hr hp hk
  have config := scryptConfigOk_iff s.latch.a.param0.toNat s.latch.a.param1.toNat s.latch.a.param2.toNat
    s.latch.a.param3.toNat
  have memory := scryptMemoryOk_iff s.latch.a.param0.toNat s.latch.a.param1.toNat s.latch.a.param2.toNat
  have passed (inside) := firstError_of_param (i := .scryptStart c) (s := s) rfl (if_pos (config.mpr inside))
  refine ⟨fun out => ?_, fun inside large => ?_, fun inside small1 small2 active => ?_⟩
  · exact fails_of_paramError rfl (if_neg fun ok => config.mp ok out)
  · have resource : resourceError (.scryptStart c) s.latch.a = some .resource :=
      if_neg fun ok => by have := memory.mp ok; omega
    exact fails_of_firstError (by rw [passed inside, resource]; rfl)
  · have resource : resourceError (.scryptStart c) s.latch.a = none := if_pos (memory.mpr ⟨small1, small2⟩)
    have engine : engineError (.scryptStart c) s = some .chBusy := if_pos ((active_iff s c).mpr active)
    exact fails_of_firstError (by rw [passed inside, resource, engine]; rfl)

/-- The clauses on descriptors (R43, R44). -/
theorem fails_of_descriptors (i : Instr) (s : State) (field : fieldError i = none)
    (param : paramError i s.latch.a = none) (resource : resourceError i s.latch.a = none)
    (engine : engineError i s = none) :
    ((∃ d ∈ inputsOf i s.latch.a, 65536 < d.off + d.len)
        ∨ (usesDst i = true ∧ 65536 < s.latch.a.dstOff.toNat + s.latch.a.dstCap.toNat) → Fails i s .range)
      ∧ ((∀ d ∈ inputsOf i s.latch.a, d.off + d.len ≤ 65536) → usesDst i = true →
        s.latch.a.dstOff.toNat + s.latch.a.dstCap.toNat ≤ 65536 → ForbiddenOverlap i s → Fails i s .overlap) := by
  have first : firstError i s = (rangeError i s.latch.a <|> overlapError i s) := by
    rw [firstError_of_param field param, resource, engine]
    rfl
  refine ⟨fun outside => ?_, fun inputs dst inside forbidden => ?_⟩
  · exact fails_of_firstError (by rw [first, rangeError_of_outside outside]; rfl)
  · exact fails_of_firstError (by
      rw [first, rangeError_of_inside inputs inside, overlapError_of_forbidden dst forbidden]; rfl)

/-- Settles O40: every rule is the checks in their order (`checksFirst`), and each refused value fails its check. -/
theorem firstFailingCheckIsReported : Obligations.FirstFailingCheckIsReported := by
  refine ⟨fun i s e => fails_of_firstError, fun i s t pass next => ?_, fails_of_fieldCodes, fails_of_params,
    fails_of_scryptParams, fails_of_descriptors⟩
  rw [exec_eq_complete] at next
  rcases complete_cases s t _ next with ⟨effect, -, rfl⟩ | ⟨e, raised, rfl⟩
  · exact List.mem_cons_self
  · exact List.mem_cons_of_mem _ (((checksFirst i s).of_none pass).errors e raised)

/-- Settles O41: behind the checks, the result of a known length is stored unless DST_CAP is smaller. -/
theorem capacityDecidesKnownLengthResults : Obligations.CapacityDecidesKnownLengthResults := by
  intro i s n pass known
  rcases ((checksFirst i s).of_none pass).length n known with ⟨full, rule⟩ | ⟨fits, effect, rule, outLen⟩
  · exact ⟨fun _ => fails_of_rule rule, fun fits => by omega⟩
  · refine ⟨fun full => by omega, fun _ => ⟨_, by rw [exec_eq_complete, rule, complete_ok], rfl, ?_⟩⟩
    rw [State.finish_results, outLen]
    exact toNat_word (lt_of_le_of_lt fits s.latch.a.dstCap.isLt)

end Sys2Proof.Machine

/-! Results whose length depends on the data (UNPAD, CIPHER_DEC, ENV_DEC), and SCRYPT_START: what the rule answers on
admitted operands, and the capacity. -/

namespace Sys2Proof.Machine

open Sys2Proof

/-- A result that a rule delivers is stored when it fits DST, and is ERR_CAPACITY otherwise (20_memory.md R45). -/
theorem stores_or_fails_of_deliver {i : Instr} {s : State} {y : Bytes} {r : Results} (wf : s.dmem.wf = true)
    (rule : ruleOf i s = deliver s y r) :
    (y.length ≤ s.latch.a.dstCap.toNat → Stores i s y r)
      ∧ (s.latch.a.dstCap.toNat < y.length → Fails i s .capacity) := by
  refine ⟨fun fits => stores_of_deliver i s y r wf fits (by rw [exec_eq_complete, rule]), fun full => fails_of_rule ?_⟩
  rw [rule, deliver, if_pos (show s.latch.a.dst.len < y.length from full)]

/-! ### UNPAD (40_padding.md R68, R71) -/

/-- A trailing length byte n in 1 .. B removes itself and the n − 1 bytes before it. -/
theorem unpadLength_of_pad {scheme : Scheme} {b : Nat} {m fill : Bytes} {n : Byte} (len : n.toNat = fill.length + 1)
    (block : n.toNat ≤ b) : unpadLength false scheme b (m ++ (fill ++ [n])) = .ok m := by
  have total : (m ++ (fill ++ [n])).length = m.length + n.toNat := by simp [len]
  have last : (m ++ (fill ++ [n])).getLast? = some n := by simp
  simp only [unpadLength, last]
  rw [if_neg (by omega), if_neg (by simp), total, Nat.add_sub_cancel, List.take_left]

/-- The marker 0x80 and the zero bytes after it are removed. -/
theorem unpadMarker_of_pad {b : Nat} (m : Bytes) (k : Nat) :
    unpadMarker false b (m ++ 0x80 :: zeroBytes k) = .ok m := by
  have scanned : (m ++ 0x80 :: zeroBytes k).reverse.dropWhile (· == 0) = 0x80 :: m.reverse := by
    simp [zeroBytes]
  simp only [unpadMarker, scanned]
  simp

/-- The rule of UNPAD on admitted operands delivers what UNPAD answers. -/
theorem unpadCommand_of_ok {s : State} {code : BitVec 3} {scheme : Scheme} {b : Nat} {m : Bytes}
    (known : schemeOfCode code = some scheme) (operands : OperandsOk s [s.latch.a.a])
    (bits : s.latch.a.param0.toNat = 8 * b) (low : 1 ≤ b) (high : b ≤ 255)
    (unpadded : unpadBytes false scheme b (s.operand s.latch.a.a) = .ok m) : unpadCommand code s = deliver s m {} := by
  have bitsOk : blockBitsOk (8 * b) = true := by
    simp only [blockBitsOk, Bool.and_eq_true, beq_iff_eq, decide_eq_true_eq]
    omega
  have bytes : 8 * b / 8 = b := Nat.mul_div_cancel_left b (by decide)
  simp only [unpadCommand, known, bits, bitsOk, bytes, withOperands_of_ok s _ _ operands, Config.unpadStrict, unpadded]
  rfl

/-- Settles O19: the scheme of the code accepts the pad, and the rule delivers the message. -/
theorem unpadRemovesPadding : Obligations.UnpadRemovesPadding := by
  intro s code b m tail wf operands bits low high input pad
  have byLength : ∀ code : BitVec 3, code.toNat ≤ 2 →
      schemeOfCode code = some .pkcs7 ∨ schemeOfCode code = some .ansix923 ∨ schemeOfCode code = some .iso10126 := by
    decide
  have accepted : ∃ scheme, schemeOfCode code = some scheme ∧ unpadBytes false scheme b (m ++ tail) = .ok m := by
    rcases pad with ⟨small, fill, n, rfl, len, block⟩ | ⟨rfl, k, rfl⟩
    · rcases byLength code small with known | known | known
      · exact ⟨_, known, unpadLength_of_pad len block⟩
      · exact ⟨_, known, unpadLength_of_pad len block⟩
      · exact ⟨_, known, unpadLength_of_pad len block⟩
    · exact ⟨.iso97971, rfl, unpadMarker_of_pad m k⟩
  obtain ⟨scheme, known, unpadded⟩ := accepted
  exact stores_or_fails_of_deliver wf (unpadCommand_of_ok known operands bits low high (input ▸ unpadded))

/-! ### SCRYPT_START (42_scrypt.md R88) -/

/-- Settles O24: with the checks of R85, R88, R43 and R44 passed, the capacity alone is left to refuse the run. -/
theorem scryptStartBeginsRun : Obligations.ScryptStartBeginsRun := by
  rintro s c n r p dkLen rfl rfl rfl rfl power dkLow dkHigh rLow pLow product total mem1 mem2 idle inside apart
  have config : scryptConfigOk s.latch.a.param0.toNat s.latch.a.param1.toNat s.latch.a.param2.toNat
      s.latch.a.param3.toNat = true := by
    simp only [scryptConfigOk, Bool.and_eq_true, decide_eq_true_eq, scryptCostOk_iff]
    exact ⟨⟨⟨⟨⟨⟨power, dkLow⟩, dkHigh⟩, rLow⟩, pLow⟩, product⟩, total⟩
  have memory : scryptMemoryOk s.latch.a.param0.toNat s.latch.a.param1.toNat s.latch.a.param2.toNat = true :=
    (scryptMemoryOk_iff _ _ _).mpr ⟨mem1, mem2⟩
  have notBusy : (s.channel c).active = false := by
    rw [← Bool.not_eq_true, active_iff]
    exact idle
  have admitted := (insideDmem_iff _).mpr inside
  have free : (Descriptor.mk s.latch.a.dstOff.toNat s.latch.a.param3.toNat).hitsChannel (s.channel (otherChannel c))
      = false := by
    rw [← Bool.not_eq_true, hitsChannel_iff]
    exact fun ⟨active, shared⟩ => apart active shared
  have rule : ruleOf (.scryptStart c) s = if s.latch.a.dstCap.toNat < s.latch.a.param3.toNat then .error .capacity
      else .ok { state := s.setChannel c (startedChannel (s.operand s.latch.a.a) (s.operand s.latch.a.b)
        s.latch.a.param0.toNat s.latch.a.param1.toNat s.latch.a.param2.toNat s.latch.a.param3.toNat
        s.latch.a.dstOff.toNat) } := by
    simp only [ruleOf, scryptStartCommand, config, memory, notBusy, admitted, free, Bool.not_true, Bool.false_eq_true,
      if_false]
  refine ⟨fun full => fails_of_rule (by rw [rule, if_pos full]), fun fits => ?_⟩
  have moves := movesChannel_of_ok (.scryptStart c) s c _ (by rw [exec_eq_complete, rule, if_neg (Nat.not_lt.mpr fits)])
  simpa only [startedChannel, scryptBlocks, BitVec.ofNat_toNat, BitVec.setWidth_eq] using moves

/-! ### CIPHER_DEC (43_cipher.md R108, R110) -/

/-- A ciphertext too short for a block, or not of whole blocks, is ERR_LENGTH. -/
theorem codecDecrypt_of_badLength {stretch : HashAlg} {strict : Bool} {alg : Cipher} {mode : Mode} {scheme : Scheme}
    {x k : Bytes} {rounds : Nat}
    (bad : x.length < 8 + cipherBlockBytes alg ∨ (x.length - 8) % cipherBlockBytes alg ≠ 0) :
    codecDecrypt stretch strict alg mode scheme x k rounds = .error .length := by
  simp only [codecDecrypt, if_pos bad]

/-- A ciphertext of whole blocks is decrypted and unpadded. -/
theorem codecDecrypt_of_blocks {stretch : HashAlg} {strict : Bool} {alg : Cipher} {mode : Mode} {scheme : Scheme}
    {x k : Bytes} {rounds : Nat} (long : 8 + cipherBlockBytes alg ≤ x.length)
    (blocks : (x.length - 8) % cipherBlockBytes alg = 0) :
    codecDecrypt stretch strict alg mode scheme x k rounds
      = unpadBytes strict scheme (cipherBlockBytes alg)
        (modeDecrypt alg mode (codecKey stretch alg k (x.take 8) rounds) (codecIv stretch alg k (x.take 8) rounds)
          (x.drop 8)) := by
  simp only [codecDecrypt]
  rw [if_neg (by omega)]

/-- The rule of CIPHER_DEC on admitted operands: the layer's error, or the delivery of its plaintext. -/
theorem cipherDecCommand_of_ok {s : State} {acode mcode pcode : BitVec 3} {alg : Cipher} {mode : Mode} {scheme : Scheme}
    (ha : cipherOfNat acode.toNat = some alg) (hm : modeOfCode mcode = some mode)
    (hp : schemeOfCode pcode = some scheme) (operands : OperandsOk s [s.latch.a.a, s.latch.a.b])
    {o : Except ErrorCode Bytes}
    (layer : codecDecrypt Config.stretchHash false alg mode scheme (s.operand s.latch.a.a) (s.operand s.latch.a.b)
      (kdfRounds s.latch.a.param0) = o) :
    (∀ e, o = .error e → ruleOf (.cipherDec acode mcode pcode) s = .error e)
      ∧ ∀ y, o = .ok y → ruleOf (.cipherDec acode mcode pcode) s = deliver s y {} := by
  subst layer
  simp only [ruleOf, cipherDecCommand, ha, hm, hp, withOperands_of_ok s _ _ operands, Config.unpadStrict]
  exact ⟨fun e he => by rw [he], fun y hy => by rw [hy]⟩

/-- Settles O27: the layer is refused for its length, or decrypted and unpadded, and UNPAD refuses with ERR_PADDING. -/
theorem cipherDecStoresPlaintext : Obligations.CipherDecStoresPlaintext := by
  rintro s acode mcode pcode alg mode scheme x k m rounds wf ha hm hp operands rfl rfl rfl rfl
  refine ⟨fun bad => ?_, fun long blocks padded hpadded => ⟨fun e refused => ?_, fun y unpadded => ?_⟩⟩
  · exact fails_of_rule ((cipherDecCommand_of_ok ha hm hp operands (codecDecrypt_of_badLength bad)).1 _ rfl)
  · obtain ⟨error, -⟩ := cipherDecCommand_of_ok ha hm hp operands (codecDecrypt_of_blocks long blocks)
    subst hpadded
    rw [unpadBytes_error refused] at refused
    exact fails_of_rule (error _ refused)
  · obtain ⟨-, ok⟩ := cipherDecCommand_of_ok ha hm hp operands (codecDecrypt_of_blocks long blocks)
    subst hpadded
    exact stores_or_fails_of_deliver wf (ok y unpadded)

/-! ### ENV_DEC (44_mac_envelope.md R118, R124) -/

/-- The constant-time comparison accepts equal strings (R118). -/
theorem ctEqual_self (x : Bytes) : ctEqual x x = true := by
  simp [ctEqual, ctDifference]

/-- An authentic envelope whose layers decrypt gives the inner layer's plaintext. -/
theorem envDecrypt_of_authentic {stretch : HashAlg} {strict : Bool} {primary secondary : Cipher} {mode : Mode}
    {scheme : Scheme} {w k1 k2 l1 p : Bytes} (long : 40 ≤ w.length) (tag : w.take 32 = mac (k1 ++ k2) (w.drop 32))
    (outer : codecDecrypt stretch strict secondary mode scheme (w.drop 32) k2 1000 = .ok l1)
    (inner : codecDecrypt stretch strict primary mode scheme l1 k1 1000 = .ok p) :
    envDecrypt stretch strict primary secondary mode scheme w k1 k2 = .ok p := by
  simp only [envDecrypt, tag, ctEqual_self, Config.defaultRounds, outer, inner]
  rw [if_neg (by omega)]
  rfl

/-- Settles O31: the selector names the two ciphers, and the rule delivers the envelope's plaintext. -/
theorem envDecStoresPlaintext : Obligations.EnvDecStoresPlaintext := by
  rintro s mcode pcode sel primary secondary mode scheme w k1 k2 l1 p wf named hp hq hm hc operands rfl rfl rfl long tag
    outer inner
  refine stores_or_fails_of_deliver wf ?_
  have first : selectorPrimary sel = some primary := by rw [selectorPrimary, if_pos named, hp]
  have second : selectorSecondary sel = some secondary := by rw [selectorSecondary, if_pos named, hq]
  simp only [ruleOf, envDecCommand, first, second, hm, hc, withOperands_of_ok s _ _ operands, Config.unpadStrict,
    envDecrypt_of_authentic long tag outer inner]
  rfl

end Sys2Proof.Machine

/-! The command word (spec/30_encoding.md R55 to R60): the fields of a word and the opcode map, which words are commands,
and that an illegal one completes with ERR_ILLEGAL. -/

namespace Sys2Proof.Machine

open Sys2Proof

/-! ### Words and fields (R55, R56) -/

/-- A word is the layout of its fields: the seven fields cover it. -/
theorem encodeFields_decodeFields (w : Word) : encodeFields (decodeFields w) = w := by
  have := w.isLt
  apply BitVec.eq_of_toNat_eq
  simp only [decodeFields, encodeFields, toNat_append_add, BitVec.extractLsb'_toNat, Nat.shiftRight_eq_div_pow]
  omega

/-- A mask over a word is a mask over each of its fields. -/
theorem decodeFields_and (w m : Word) :
    decodeFields (w &&& m) =
      { op := (decodeFields w).op &&& (decodeFields m).op
        alg := (decodeFields w).alg &&& (decodeFields m).alg
        mode := (decodeFields w).mode &&& (decodeFields m).mode
        pad := (decodeFields w).pad &&& (decodeFields m).pad
        ch := (decodeFields w).ch &&& (decodeFields m).ch
        rsv := (decodeFields w).rsv &&& (decodeFields m).rsv
        sel := (decodeFields w).sel &&& (decodeFields m).sel } := by
  simp only [decodeFields, BitVec.extractLsb'_and]

/-! ### Fields and commands (R58, R60) -/

theorem legalWhen_eq_some {unusedZero : Bool} {i j : Instr} :
    legalWhen unusedZero i = some j ↔ unusedZero = true ∧ i = j := by
  cases unusedZero <;> simp [legalWhen]

theorem channelBit_channelOfBit (b : BitVec 1) : channelBit (channelOfBit b) = b := by
  revert b
  decide

/-- A command holds the fields its row uses, and the row leaves every other field zero. -/
theorem fieldsOf_of_instrOf {f : Fields} {i : Instr} (decoded : instrOf f = some i) : fieldsOf i = f := by
  obtain ⟨op, alg, mode, pad, ch, rsv, sel⟩ := f
  simp only [instrOf] at decoded
  split at decoded
  case h_23 => contradiction
  all_goals
    rename_i opcode
    simp only [legalWhen_eq_some, Bool.and_eq_true, beq_iff_eq] at decoded
    obtain ⟨unused, rfl⟩ := decoded
    simp [fieldsOf, channelBit_channelOfBit, unused, ← BitVec.toNat_inj, opcode]

/-- A field tuple is illegal or meets every condition of its row. -/
theorem not_illegalFields_iff (f : Fields) : ¬IllegalFields f ↔
    f.op.toNat < 0x16 ∧ f.rsv = 0 ∧ (f.op.toNat ∈ usesAlg ∨ f.alg = 0) ∧ (f.op.toNat ∈ usesMode ∨ f.mode = 0)
      ∧ (f.op.toNat ∈ usesPad ∨ f.pad = 0) ∧ (f.op.toNat ∈ usesCh ∨ f.ch = 0) ∧ (f.op.toNat ∈ usesSel ∨ f.sel = 0) := by
  simp only [IllegalFields, not_or, not_and_or, not_not, not_le, ne_eq]

/-- The fields of a command leave everything zero that its row does not use. -/
theorem fieldsOf_legal (i : Instr) : ¬IllegalFields (fieldsOf i) := by
  rw [not_illegalFields_iff]
  cases i <;> simp [fieldsOf, usesAlg, usesMode, usesPad, usesCh, usesSel]

/-- Fields that meet the conditions of their opcode's row are a command. -/
theorem instrOf_of_legal {f : Fields} (legal : ¬IllegalFields f) : ∃ i, instrOf f = some i := by
  obtain ⟨known, rsv, alg, mode, pad, ch, sel⟩ := (not_illegalFields_iff f).mp legal
  rw [instrOf]
  interval_cases f.op.toNat
  all_goals simp_all [legalWhen_eq_some, usesAlg, usesMode, usesPad, usesCh, usesSel]

/-- The illegal field tuples are those of no command (R60). -/
theorem instrOf_eq_none_iff (f : Fields) : instrOf f = none ↔ IllegalFields f := by
  constructor
  · intro undecoded
    by_contra legal
    obtain ⟨i, decoded⟩ := instrOf_of_legal legal
    simp [decoded] at undecoded
  · intro illegal
    by_contra command
    obtain ⟨i, decoded⟩ := Option.ne_none_iff_exists'.mp command
    exact fieldsOf_legal i (fieldsOf_of_instrOf decoded ▸ illegal)

/-! ### Words and commands -/

/-- Decoding inverts encoding. -/
theorem decodeWord_encode (i : Instr) : decodeWord (encode i) = some i := by
  rw [decodeWord, encode, decodeFields_encodeFields, instrOf_fieldsOf]

/-- A word that decodes is the encoding of its command. -/
theorem encode_of_decodeWord {w : Word} {i : Instr} (decoded : decodeWord w = some i) : encode i = w := by
  rw [encode, fieldsOf_of_instrOf decoded, encodeFields_decodeFields]

/-- A command is one 32-bit word, so its low 32 bits are all of it (R62). -/
theorem decodeTableWord_toNat (w : Word) : decodeTableWord 32 w.toNat = decodeWord w := by
  rw [decodeTableWord, Nat.mod_eq_of_lt w.isLt, BitVec.ofNat_toNat, BitVec.setWidth_eq]

/-- Settles O1: the fields come back from the word, and the command from its fields. -/
theorem decodeOfEncodeGivesCommand : Obligations.DecodeOfEncodeGivesCommand :=
  fun i => ⟨decodeWord_encode i, (decodeTableWord_toNat _).trans (decodeWord_encode i)⟩

/-- Settles O4: each legal word is the encoding of its command, and an illegal one has an illegal field. -/
theorem specWordsDecode : Obligations.SpecWordsDecode := by
  have legal : ∀ (w : Word) (i : Instr), encode i = w → decodeWord w = some i := fun w i h => h ▸ decodeWord_encode i
  have illegal : ∀ w : Word, IllegalFields (decodeFields w) → decodeWord w = none := fun w => (instrOf_eq_none_iff _).mpr
  have unusedSel : IllegalFields (decodeFields 0x01000000) := by simp only [IllegalFields]; decide
  have reservedOp : IllegalFields (decodeFields 0x00000016) := .inl (by decide)
  exact ⟨legal _ _ rfl, illegal _ unusedSel, legal _ _ rfl, legal _ _ rfl, legal _ _ rfl, legal _ _ rfl,
    illegal _ reservedOp⟩

/-! ### The opcode map (R58) -/

theorem rowOf_mem_opcodeTable (i : Instr) : rowOf i ∈ opcodeTable := by
  cases i <;> simp [opcodeTable, rowOf]

/-- Every command's encoded word matches its own row and no other. -/
theorem encodeMatchesRow (i : Instr) : Laws.EncodeMatchesRow.Statement i := by
  cases i with
  | nop => exact Laws.EncodeMatchesRow.nop
  | pad c => exact Laws.EncodeMatchesRow.pad c
  | unpad c => exact Laws.EncodeMatchesRow.unpad c
  | keyfit => exact Laws.EncodeMatchesRow.keyfit
  | hash a => exact Laws.EncodeMatchesRow.hash a
  | stretch a => exact Laws.EncodeMatchesRow.stretch a
  | scryptStart c => exact Laws.EncodeMatchesRow.scryptStart c
  | scryptAck c => exact Laws.EncodeMatchesRow.scryptAck c
  | scryptCancel c => exact Laws.EncodeMatchesRow.scryptCancel c
  | cipherEnc a m c => exact Laws.EncodeMatchesRow.cipherEnc a m c
  | cipherDec a m c => exact Laws.EncodeMatchesRow.cipherDec a m c
  | macGen => exact Laws.EncodeMatchesRow.macGen
  | macVerify => exact Laws.EncodeMatchesRow.macVerify
  | envEnc m c x => exact Laws.EncodeMatchesRow.envEnc m c x
  | envDec m c x => exact Laws.EncodeMatchesRow.envDec m c x
  | kxGenerate x => exact Laws.EncodeMatchesRow.kxGenerate x
  | kxSerialize x => exact Laws.EncodeMatchesRow.kxSerialize x
  | kxParse => exact Laws.EncodeMatchesRow.kxParse
  | kxCompute => exact Laws.EncodeMatchesRow.kxCompute
  | kxNuke => exact Laws.EncodeMatchesRow.kxNuke
  | kxApplied => exact Laws.EncodeMatchesRow.kxApplied
  | saltOrder => exact Laws.EncodeMatchesRow.saltOrder

theorem encode_and_rowOf (i : Instr) : encode i &&& (rowOf i).mask = (rowOf i).value := by
  obtain ⟨accepted, -⟩ := encodeMatchesRow i
  exact beq_iff_eq.mp accepted

/-- A row fixes OP and RSV, to a known opcode and to zero, and fixes to zero each field that its opcode does not use. -/
def RowFixesUnused (mask value : Fields) : Prop :=
  mask.op = BitVec.allOnes 8 ∧ value.op.toNat < 0x16 ∧ (mask.rsv = BitVec.allOnes 6 ∧ value.rsv = 0)
    ∧ (value.op.toNat ∈ usesAlg ∨ mask.alg = BitVec.allOnes 3 ∧ value.alg = 0)
    ∧ (value.op.toNat ∈ usesMode ∨ mask.mode = BitVec.allOnes 3 ∧ value.mode = 0)
    ∧ (value.op.toNat ∈ usesPad ∨ mask.pad = BitVec.allOnes 3 ∧ value.pad = 0)
    ∧ (value.op.toNat ∈ usesCh ∨ mask.ch = BitVec.allOnes 1 ∧ value.ch = 0)
    ∧ (value.op.toNat ∈ usesSel ∨ mask.sel = BitVec.allOnes 8 ∧ value.sel = 0)

theorem opcodeTable_fixesUnused : ∀ r ∈ opcodeTable, RowFixesUnused (decodeFields r.mask) (decodeFields r.value) := by
  simp only [RowFixesUnused]
  decide

/-- A field under a full mask is the row's value of it. -/
theorem eq_of_and_allOnes {n : Nat} {x m v : BitVec n} (masked : v = x &&& m) (full : m = BitVec.allOnes n) : x = v := by
  rw [masked, full, BitVec.and_allOnes]

/-- A field that is used or fixed to zero is used or zero in every word of the row. -/
theorem zero_of_fixed {n : Nat} {used : Prop} {x m v : BitVec n} (masked : v = x &&& m)
    (fixed : used ∨ m = BitVec.allOnes n ∧ v = 0) : used ∨ x = 0 :=
  fixed.imp_right fun ⟨full, zero⟩ => (eq_of_and_allOnes masked full).trans zero

/-- A word that matches a row is legal: the row fixes what its opcode must leave zero. -/
theorem legal_of_row {w : Word} {r : OpcodeRow} (listed : r ∈ opcodeTable) (row : w &&& r.mask = r.value) :
    ¬IllegalFields (decodeFields w) := by
  obtain ⟨op, known, ⟨rsv, rsvZero⟩, alg, mode, pad, ch, sel⟩ := opcodeTable_fixesUnused r listed
  have masked : decodeFields r.value = _ := row ▸ decodeFields_and w r.mask
  rw [not_illegalFields_iff, eq_of_and_allOnes (congrArg Fields.op masked) op]
  exact ⟨known, (eq_of_and_allOnes (congrArg Fields.rsv masked) rsv).trans rsvZero,
    zero_of_fixed (congrArg Fields.alg masked) alg, zero_of_fixed (congrArg Fields.mode masked) mode,
    zero_of_fixed (congrArg Fields.pad masked) pad, zero_of_fixed (congrArg Fields.ch masked) ch,
    zero_of_fixed (congrArg Fields.sel masked) sel⟩

/-- Settles O2: a command's encoding lies in its row, and a row's words have no illegal field. -/
theorem decodedWordMatchesOpcodeRow : Obligations.DecodedWordMatchesOpcodeRow := by
  have row : ∀ (w : Word) (i : Instr), decodeWord w = some i → encode i = w ∧ w &&& (rowOf i).mask = (rowOf i).value := by
    intro w i decoded
    obtain rfl := encode_of_decodeWord decoded
    exact ⟨rfl, encode_and_rowOf i⟩
  refine fun w => ⟨⟨fun command => ?_, fun ⟨r, listed, matched⟩ => ?_⟩, row w⟩
  · obtain ⟨i, decoded⟩ := Option.isSome_iff_exists.mp command
    obtain ⟨-, matched⟩ := row w i decoded
    exact ⟨rowOf i, rowOf_mem_opcodeTable i, matched⟩
  · exact Option.isSome_iff_exists.mpr (instrOf_of_legal (legal_of_row listed matched))

/-! ### Illegal commands (R60) -/

/-- The command unit completes latched fields of no command with ERR_ILLEGAL, and changes nothing else. -/
theorem commandTurn_of_illegal {s : State} (pending : s.latch.pending = true) (illegal : IllegalFields s.latch.f) :
    commandTurn s = .next (s.finish .illegal {}) := by
  rw [commandTurn, if_pos pending, runLatched, (instrOf_eq_none_iff _).mpr illegal, complete_error]

/-- Settles O3: no command has these fields, so the command unit completes with the error alone. -/
theorem illegalCommandCompletesWithErrIllegal : Obligations.IllegalCommandCompletesWithErrIllegal := by
  refine ⟨instrOf_eq_none_iff, fun s pending illegal => ⟨_, commandTurn_of_illegal pending illegal,
    finish_completed s s _ _ rfl rfl rfl rfl, ?_, ?_, ?_, rfl⟩⟩
  · constructor <;> rfl
  · constructor <;> rfl
  · constructor <;> rfl

end Sys2Proof.Machine

/-! CIPHER_ENC (spec/43_cipher.md R105 to R109): the layer that its rule delivers. -/

namespace Sys2Proof.Machine

open Sys2Proof

/-- The one-time salt of C and the values drawn for it: drawn when C is empty, C when it has 8 bytes, its 8-byte hash
otherwise (R106). -/
theorem codecSalt_eq {drawn c salt : Bytes} {draws : Nat}
    (h : (c.length = 0 ∧ salt = drawn ∧ draws = 8) ∨ (c.length = 8 ∧ salt = c ∧ draws = 0)
      ∨ (c.length ≠ 0 ∧ c.length ≠ 8 ∧ salt = beBytes 8 (Config.keyfitHash 8 c).toNat ∧ draws = 0)) :
    codecSalt drawn c = salt ∧ cipherSaltDraws c = draws := by
  rcases h with ⟨empty, rfl, rfl⟩ | ⟨eight, rfl, rfl⟩ | ⟨nonempty, other, rfl, rfl⟩
  · exact ⟨if_pos empty, if_pos empty⟩
  · simp [codecSalt, cipherSaltDraws, eight]
  · simp [codecSalt, cipherSaltDraws, keyfitHash, nonempty, other]

/-- The rule of CIPHER_ENC on admitted operands delivers one encryption layer (R107). -/
theorem cipherEncCommand_of_ok {s : State} {acode mcode pcode : BitVec 3} {alg : Cipher} {mode : Mode} {scheme : Scheme}
    (ha : cipherOfNat acode.toNat = some alg) (hm : modeOfCode mcode = some mode)
    (hp : schemeOfCode pcode = some scheme) (operands : OperandsOk s [s.latch.a.a, s.latch.a.b, s.latch.a.c]) :
    ruleOf (.cipherEnc acode mcode pcode) s = deliver s
      (codecEncrypt Config.stretchHash alg mode scheme
        (fun i => s.drawByte (cipherSaltDraws (s.operand s.latch.a.c) + i)) (s.operand s.latch.a.a)
        (s.operand s.latch.a.b) (codecSalt (s.drawBytes 0 8) (s.operand s.latch.a.c)) (kdfRounds s.latch.a.param0)) {} := by
  simp only [ruleOf, cipherEncCommand, ha, hm, hp, withOperands_of_ok s _ _ operands]

/-- Settles O26: the result is the salt and one encryption layer, delivered behind the checks. -/
theorem cipherEncStoresLayer : Obligations.CipherEncStoresLayer := by
  rintro s acode mcode pcode alg mode scheme p k c salt m y rounds draws wf ha hm hp operands rfl rfl rfl rfl chosen rfl rfl
    fits
  obtain ⟨rfl, rfl⟩ := codecSalt_eq chosen
  have rule := cipherEncCommand_of_ok ha hm hp operands
  refine ⟨(codecEncrypt_length Config.stretchHash alg mode scheme _ _ _ _ _).trans ?_,
    (stores_or_fails_of_deliver wf rule).1 fits⟩
  rw [codecSalt_length _ _ (s.drawBytes_length 0 8), Nat.add_assoc]

end Sys2Proof.Machine

/-! The padding aligner (spec/40_padding.md): PAD as the message and a tail, UNPAD of that tail under both values of
UNPAD_STRICT, and the inputs that UNPAD refuses. -/

namespace Sys2Proof.Machine

open Sys2Proof

/-- A blockSizeBits of whole bytes, 1 to 255 of them, is accepted (R70, R71). -/
theorem blockBitsOk_of_bytes {b : Nat} (low : 1 ≤ b) (high : b ≤ 255) : blockBitsOk (8 * b) = true := by
  simp only [blockBitsOk, Bool.and_eq_true, beq_iff_eq, decide_eq_true_eq]
  omega

/-- The codes of the schemes that end in a length byte (R57). -/
theorem schemeOfCode_of_le_two : ∀ {code : BitVec 3}, code.toNat ≤ 2 →
    schemeOfCode code = some .pkcs7 ∨ schemeOfCode code = some .ansix923 ∨ schemeOfCode code = some .iso10126 := by
  decide

/-! ### PAD (R66, R67, R70) -/

/-- The n bytes that PAD appends (R67). -/
def padTail (scheme : Scheme) (fill : Nat → Byte) (n : Nat) : Bytes :=
  match scheme with
  | .pkcs7 => List.replicate n (BitVec.ofNat 8 n)
  | .ansix923 => zeroBytes (n - 1) ++ [BitVec.ofNat 8 n]
  | .iso10126 => (List.range (n - 1)).map fill ++ [BitVec.ofNat 8 n]
  | .iso97971 => 0x80 :: zeroBytes (n - 1)

theorem padBytes_eq_append (scheme : Scheme) (b : Nat) (fill : Nat → Byte) (m : Bytes) :
    padBytes scheme b fill m = m ++ padTail scheme fill (padLen b m.length) := by
  cases scheme with
  | pkcs7 => rfl
  | ansix923 => exact List.append_assoc ..
  | iso10126 => exact List.append_assoc ..
  | iso97971 => exact List.append_assoc ..

/-- The rule of PAD on admitted operands delivers the padded message. -/
theorem padCommand_of_ok {s : State} {code : BitVec 3} {scheme : Scheme} {b : Nat}
    (known : schemeOfCode code = some scheme) (operands : OperandsOk s [s.latch.a.a])
    (bits : s.latch.a.param0.toNat = 8 * b) (low : 1 ≤ b) (high : b ≤ 255) :
    padCommand code s = deliver s (padBytes scheme b s.drawByte (s.operand s.latch.a.a)) {} := by
  have bytes : 8 * b / 8 = b := Nat.mul_div_cancel_left b (by decide)
  simp only [padCommand, known, bits, blockBitsOk_of_bytes low high, bytes, withOperands_of_ok s _ _ operands]
  rfl

/-- The drawn fill of ISO10126 is that of the command's first draws. -/
theorem drawBytes_zero (s : State) (n : Nat) : s.drawBytes 0 n = (List.range n).map s.drawByte := by
  simp only [State.drawBytes, Nat.zero_add]

/-- Settles O18: the tail of each code is `padTail` of its scheme, and the rule delivers the padded message. -/
theorem padAppendsSchemePadding : Obligations.PadAppendsSchemePadding := by
  rintro s code b n m tail wf operands bits low high rfl rfl fits tails
  have appended : ∃ scheme, schemeOfCode code = some scheme
      ∧ tail = padTail scheme s.drawByte (padLen b (s.operand s.latch.a.a).length) := by
    rcases tails with ⟨rfl, rfl⟩ | ⟨rfl, rfl⟩ | ⟨rfl, rfl⟩ | ⟨rfl, rfl⟩
    · exact ⟨.pkcs7, rfl, rfl⟩
    · exact ⟨.ansix923, rfl, rfl⟩
    · exact ⟨.iso10126, rfl, by rw [drawBytes_zero]; rfl⟩
    · exact ⟨.iso97971, rfl, rfl⟩
  obtain ⟨scheme, known, rfl⟩ := appended
  have rule := padCommand_of_ok known operands bits low high
  rw [← padBytes_eq_append]
  refine (stores_or_fails_of_deliver wf (i := .pad code) rule).1 ?_
  rwa [padBytes_length scheme b _ _ low]

/-! ### UNPAD of PAD (R68, R69, R72) -/

/-- A trailing length byte n in 1 .. B removes itself and the n − 1 bytes before it, which UNPAD_STRICT = 1 checks. -/
theorem unpadLength_of_fill {strict : Bool} {scheme : Scheme} {b : Nat} {m fill : Bytes} {n : Byte}
    (len : n.toNat = fill.length + 1) (block : n.toNat ≤ b)
    (checked : strictFillOk scheme (m ++ (fill ++ [n])) n.toNat = true) :
    unpadLength strict scheme b (m ++ (fill ++ [n])) = .ok m := by
  have loose := unpadLength_of_pad (scheme := scheme) (m := m) len block
  have last : (m ++ (fill ++ [n])).getLast? = some n := by simp
  simpa only [unpadLength, last, checked, Bool.not_true, Bool.and_false] using loose

/-- A length byte that counts itself and the fill covers the whole pad. -/
theorem drop_pad {m fill : Bytes} {n : Byte} (len : n.toNat = fill.length + 1) :
    (m ++ (fill ++ [n])).drop ((m ++ (fill ++ [n])).length - n.toNat) = fill ++ [n] := by
  have total : (m ++ (fill ++ [n])).length = m.length + n.toNat := by simp [len]
  rw [total, Nat.add_sub_cancel, List.drop_left]

/-- PKCS7's fill, copies of the length byte, passes the check of UNPAD_STRICT = 1. -/
theorem strictFillOk_pkcs7 {m : Bytes} {k : Nat} {n : Byte} (len : n.toNat = k + 1) :
    strictFillOk .pkcs7 (m ++ (List.replicate k n ++ [n])) n.toNat = true := by
  simp only [strictFillOk, drop_pad (fill := List.replicate k n) (by rwa [List.length_replicate]), BitVec.ofNat_toNat,
    BitVec.setWidth_eq]
  simp

/-- ANSIX923's zero fill passes the check of UNPAD_STRICT = 1. -/
theorem strictFillOk_ansix923 {m : Bytes} {k : Nat} {n : Byte} (len : n.toNat = k + 1) :
    strictFillOk .ansix923 (m ++ (zeroBytes k ++ [n])) n.toNat = true := by
  have fill : (zeroBytes k ++ [n]).take (n.toNat - 1) = zeroBytes k :=
    List.take_left' (by rw [zeroBytes_length, len, Nat.add_sub_cancel])
  simp only [strictFillOk, drop_pad (fill := zeroBytes k) (by rwa [zeroBytes_length]), fill]
  simp [zeroBytes]

/-- The marker 0x80 and at most B − 1 zero bytes after it are removed. -/
theorem unpadMarker_of_fill {strict : Bool} {b : Nat} (m : Bytes) {k : Nat} (block : k + 1 ≤ b) :
    unpadMarker strict b (m ++ 0x80 :: zeroBytes k) = .ok m := by
  have scanned : (m ++ 0x80 :: zeroBytes k).reverse.dropWhile (· == 0) = 0x80 :: m.reverse := by
    simp [zeroBytes]
  have covered : (m ++ 0x80 :: zeroBytes k).length - m.reverse.length = k + 1 := by simp
  simp only [unpadMarker, scanned, covered, Nat.not_lt.mpr block]
  simp

/-- UNPAD removes the tail of a pad length n in 1 .. B, under both values of UNPAD_STRICT. -/
theorem unpadBytes_padTail {strict : Bool} {scheme : Scheme} {b n : Nat} (fill : Nat → Byte) (m : Bytes)
    (high : b ≤ 255) (positive : 1 ≤ n) (block : n ≤ b) :
    unpadBytes strict scheme b (m ++ padTail scheme fill n) = .ok m := by
  obtain ⟨k, rfl⟩ := Nat.exists_eq_add_of_le' positive
  have byte : (BitVec.ofNat 8 (k + 1)).toNat = k + 1 := Nat.mod_eq_of_lt (by omega)
  have inside : (BitVec.ofNat 8 (k + 1)).toNat ≤ b := byte.le.trans block
  cases scheme with
  | pkcs7 =>
    rw [padTail, List.replicate_succ']
    exact unpadLength_of_fill (by rwa [List.length_replicate]) inside (strictFillOk_pkcs7 byte)
  | ansix923 => exact unpadLength_of_fill (by rwa [zeroBytes_length]) inside (strictFillOk_ansix923 byte)
  | iso10126 => exact unpadLength_of_fill (by rwa [List.length_map, List.length_range]) inside rfl
  | iso97971 => exact unpadMarker_of_fill m block

/-- Settles O53: PAD appends the tail of a pad length in 1 .. B, and UNPAD removes it. -/
theorem unpadInvertsPad : Obligations.UnpadInvertsPad := by
  intro strict scheme b fill m low high
  obtain ⟨positive, block⟩ := padLen_pos b m.length low
  rw [padBytes_eq_append]
  exact unpadBytes_padTail fill m high positive block

/-! ### Malformed padding (R68, R71) -/

theorem unpadLength_of_nil (strict : Bool) (scheme : Scheme) (b : Nat) :
    unpadLength strict scheme b [] = .error .padding := rfl

/-- A length byte that is 0, above B or above the input's length is refused. -/
theorem unpadLength_of_badByte {strict : Bool} {scheme : Scheme} {b : Nat} {rest : Bytes} {n : Byte}
    (bad : n = 0 ∨ b < n.toNat ∨ (rest ++ [n]).length < n.toNat) :
    unpadLength strict scheme b (rest ++ [n]) = .error .padding := by
  have last : (rest ++ [n]).getLast? = some n := by simp
  have out : n.toNat = 0 ∨ b < n.toNat ∨ (rest ++ [n]).length < n.toNat := bad.imp_left (congrArg BitVec.toNat)
  simp only [unpadLength, last, if_pos out]

/-- An input of zero bytes has no marker. -/
theorem unpadMarker_of_zeroBytes (strict : Bool) (b k : Nat) : unpadMarker strict b (zeroBytes k) = .error .padding := by
  have scanned : (zeroBytes k).reverse.dropWhile (· == 0) = [] := by simp [zeroBytes]
  simp only [unpadMarker, scanned]

/-- A last nonzero byte other than 0x80 is refused. -/
theorem unpadMarker_of_badMarker {strict : Bool} {b k : Nat} {rest : Bytes} {v : Byte} (nonzero : v ≠ 0)
    (other : v ≠ 0x80) : unpadMarker strict b (rest ++ v :: zeroBytes k) = .error .padding := by
  have scanned : (rest ++ v :: zeroBytes k).reverse.dropWhile (· == 0) = v :: rest.reverse := by
    simp [zeroBytes, show ¬v = 0#8 from nonzero]
  simp only [unpadMarker, scanned, if_pos other]

/-- The rule of UNPAD on admitted operands fails as UNPAD does. -/
theorem unpadCommand_of_error {s : State} {code : BitVec 3} {scheme : Scheme} {b : Nat} {e : ErrorCode}
    (known : schemeOfCode code = some scheme) (operands : OperandsOk s [s.latch.a.a])
    (bits : s.latch.a.param0.toNat = 8 * b) (low : 1 ≤ b) (high : b ≤ 255)
    (refused : unpadBytes false scheme b (s.operand s.latch.a.a) = .error e) : unpadCommand code s = .error e := by
  have bytes : 8 * b / 8 = b := Nat.mul_div_cancel_left b (by decide)
  simp only [unpadCommand, known, bits, blockBitsOk_of_bytes low high, bytes, withOperands_of_ok s _ _ operands,
    Config.unpadStrict, refused]
  rfl

/-- Settles O20: the scheme of the code refuses the input, behind the checks on the operands. -/
theorem unpadRefusesMalformedPadding : Obligations.UnpadRefusesMalformedPadding := by
  rintro s code b x operands bits low high input malformed
  have refused : ∃ scheme, schemeOfCode code = some scheme ∧ unpadBytes false scheme b x = .error .padding := by
    rcases malformed with ⟨small, bad⟩ | ⟨rfl, bad⟩
    · have refusedByLength (scheme : Scheme) : unpadLength false scheme b x = .error .padding := by
        rcases bad with rfl | ⟨rest, n, rfl, bad⟩
        · exact unpadLength_of_nil false scheme b
        · exact unpadLength_of_badByte bad
      rcases schemeOfCode_of_le_two small with known | known | known
      · exact ⟨_, known, refusedByLength .pkcs7⟩
      · exact ⟨_, known, refusedByLength .ansix923⟩
      · exact ⟨_, known, refusedByLength .iso10126⟩
    · refine ⟨.iso97971, rfl, ?_⟩
      rcases bad with ⟨k, rfl⟩ | ⟨rest, v, k, rfl, nonzero, other⟩
      · exact unpadMarker_of_zeroBytes false b k
      · exact unpadMarker_of_badMarker nonzero other
  obtain ⟨scheme, known, refused⟩ := refused
  exact fails_of_rule (i := .unpad code) (unpadCommand_of_error known operands bits low high (input ▸ refused))

end Sys2Proof.Machine

/-! The KDF unit (spec/41_kdf.md): what the rules of KEYFIT, HASH and STRETCH deliver on admitted operands. -/

namespace Sys2Proof.Machine

open Sys2Proof

/-- The fitted key written out: the key itself when it has the asked size, its hash of that size otherwise (R76). -/
theorem keyfit_eq (k : Bytes) (size : Nat) : keyfit k size
    = if k.length = size then k
      else if size = 32 then hash .sha256 k else beBytes size (Config.keyfitHash size k).toNat := rfl

/-- The rule of KEYFIT on admitted operands delivers the fitted key (R77). -/
theorem keyfitCommand_of_ok {s : State} (operands : OperandsOk s [s.latch.a.a])
    (listed : s.latch.a.param0.toNat ∈ keyfitSizes) :
    keyfitCommand s = deliver s (keyfit (s.operand s.latch.a.a) s.latch.a.param0.toNat) {} := by
  rw [keyfitCommand, if_neg (by simpa using listed), withOperands_of_ok s _ _ operands]

/-- Settles O21: the rule of KEYFIT delivers the fitted key, which has the asked size. -/
theorem keyfitStoresFittedKey : Obligations.KeyfitStoresFittedKey := by
  rintro s size k y wf operands rfl listed fits rfl rfl
  rw [← keyfit_eq]
  have length := keyfit_length (s.operand s.latch.a.a) s.latch.a.param0.toNat
  have rule := keyfitCommand_of_ok operands listed
  exact ⟨length, (stores_or_fails_of_deliver wf (i := .keyfit) rule).1 (length.trans_le fits)⟩

/-- The rule of HASH on admitted operands delivers the digest under the hash of its code (R78). -/
theorem hashCommand_of_ok {s : State} {code : BitVec 3} {alg : HashAlg} (known : hashOfCode code = some alg)
    (operands : OperandsOk s [s.latch.a.a]) :
    hashCommand code s = deliver s (hash alg (s.operand s.latch.a.a)) {} := by
  simp only [hashCommand, known, withOperands_of_ok s _ _ operands]

/-- Settles O22: the code names a hash, and the rule of HASH delivers its digest of hLen bytes. -/
theorem hashStoresDigest : Obligations.HashStoresDigest := by
  intro s code alg len wf operands named fits
  have known : hashOfCode code = some alg ∧ hashLen alg = len := by
    rcases named with ⟨rfl, rfl, rfl⟩ | ⟨rfl, rfl, rfl⟩ | ⟨rfl, rfl, rfl⟩
    · exact ⟨rfl, rfl⟩
    · exact ⟨rfl, rfl⟩
    · exact ⟨rfl, rfl⟩
  obtain ⟨known, rfl⟩ := known
  have length := hash_length alg (s.operand s.latch.a.a)
  have rule := hashCommand_of_ok known operands
  exact ⟨length, (stores_or_fails_of_deliver wf (i := .hash code) rule).1 (length.trans_le fits)⟩

/-- The rule of STRETCH on admitted operands, with a round and an output byte at least, delivers the bytes that PBKDF2
derives (R79). -/
theorem stretchCommand_of_ok {s : State} {code : BitVec 3} {alg : HashAlg} (known : hashOfCode code = some alg)
    (operands : OperandsOk s [s.latch.a.a, s.latch.a.b]) (rounds : 1 ≤ s.latch.a.param0.toNat)
    (bytes : 1 ≤ s.latch.a.param1.toNat) :
    stretchCommand code s = deliver s
      (pbkdf2 alg (s.operand s.latch.a.a) (s.operand s.latch.a.b) s.latch.a.param0.toNat s.latch.a.param1.toNat) {} := by
  have inRange : ¬(s.latch.a.param0 = 0 ∨ s.latch.a.param1 = 0) := by
    rintro (zero | zero)
    · simp [zero] at rounds
    · simp [zero] at bytes
  simp only [stretchCommand, known, if_neg inRange, withOperands_of_ok s _ _ operands]

/-- Settles O23: the code names a hash, and the rule of STRETCH delivers as many bytes of PBKDF2 as are asked. -/
theorem stretchStoresDerivedBytes : Obligations.StretchStoresDerivedBytes := by
  intro s code alg wf operands named rounds bytes fits
  have known : hashOfCode code = some alg := by
    rcases named with ⟨rfl, rfl⟩ | ⟨rfl, rfl⟩ | ⟨rfl, rfl⟩
    · rfl
    · rfl
    · rfl
  have length := pbkdf2_length alg (s.operand s.latch.a.a) (s.operand s.latch.a.b) s.latch.a.param0.toNat
    s.latch.a.param1.toNat
  have rule := stretchCommand_of_ok known operands rounds bytes
  exact ⟨length, (stores_or_fails_of_deliver wf (i := .stretch code) rule).1 (length.trans_le fits)⟩

end Sys2Proof.Machine

/-! The transitions of the Scrypt channels (spec/42_scrypt.md R87, R94): which row of the table each agent's turn
follows. -/

namespace Sys2Proof.Machine

open Sys2Proof

/-! ### A channel's own turn (R89) -/

/-- The chunk of a RUNNING channel ends in CANCELLED, DONE or WAIT_ACK, and leaves the other channel. -/
theorem phaseRule_chunk {s : State} (h : Inv s) {c : ChannelId} (running : (s.channel c).phase = .running)
    (d : ChannelId) : PhaseRule (.channel c) s (chunk c s) d := by
  rcases channel_cases c d with rfl | rfl
  swap
  · exact .inl (chunk_frame c s).2
  rcases chunk_cases d s with ⟨request, after⟩ | ⟨working, last, after⟩ | ⟨working, more, after⟩
  · refine .inr (.inr (.inr (.inr (.inl ⟨rfl, running, request, ?_⟩))))
    rw [after, State.channel_setChannel, Channel.cancelled_phase]
  · refine .inr (.inr (.inr (.inl ⟨rfl, running, working, ?_⟩)))
    rw [after, State.channel_setChannel]
    exact ⟨rfl, last⟩
  · refine .inr (.inr (.inl ⟨rfl, running, working, ?_⟩))
    rw [after, State.channel_setChannel]
    exact ⟨rfl, ((h.activeRun (.inl running)).waiting more).unfinished⟩

theorem phaseRule_channelTurn {s t : State} (h : Inv s) {c : ChannelId} (next : channelTurn c s = .next t)
    (d : ChannelId) : PhaseRule (.channel c) s t d := by
  obtain rfl := Host.Outcome.next.inj next
  split
  · rename_i running
    exact phaseRule_chunk h running d
  · exact .inl rfl

/-! ### The command unit's turn (R87, R88, R90, R91) -/

/-- Of the commands that succeed, SCRYPT_START, SCRYPT_ACK and SCRYPT_CANCEL alone change a channel, the one that they
name. -/
theorem phaseRule_ruleOf {turn : Turn} {i : Instr} {s : State} {e : Effect} (executes : Executes turn s i)
    (ok : ruleOf i s = .ok e) (d : ChannelId) : PhaseRule turn s (e.state.finish .ok e.results) d := by
  have other {c : ChannelId} {ch : Channel} : ((s.setChannel c ch).finish .ok {}).channel (otherChannel c)
      = s.channel (otherChannel c) := by rw [State.channel_finish, State.channel_setChannel_other]
  have own {c : ChannelId} {ch : Channel} : ((s.setChannel c ch).finish .ok {}).channel c = ch := by
    rw [State.channel_finish, State.channel_setChannel]
  rcases ruleOf_ok i s e ok with same | ⟨ins, y, r, -, -, rfl⟩ | ⟨c, rfl, start⟩ | ⟨c, rfl, waiting, rfl⟩
    | ⟨c, rfl, active, rfl⟩ | ⟨sel, tag, -, -, -, -, rfl⟩ | ⟨tag, sec, -, -, -, -, -, rfl⟩ | ⟨-, rfl⟩ | ⟨-, -, rfl⟩
  · exact .inl (by rw [same, State.channel_finish])
  · exact .inl (by simp)
  · rw [start.effect]
    rcases channel_cases c d with rfl | rfl
    · exact .inr (.inl ⟨executes, start.idle, by rw [own]; rfl, rfl⟩)
    · exact .inl other
  · rcases channel_cases c d with rfl | rfl
    · exact .inr (.inr (.inr (.inr (.inr (.inl ⟨executes, waiting, own⟩)))))
    · exact .inl other
  · rcases channel_cases c d with rfl | rfl
    · exact .inr (.inr (.inr (.inr (.inr (.inr (.inl ⟨executes, active, own⟩))))))
    · exact .inl other
  · exact .inl (by simp)
  · exact .inl (by simp)
  · exact .inl (by simp)
  · exact .inl (by cases d <;> rfl)

/-- A command that fails, and fields that are no command, leave both channels (60_exceptions.md R159). -/
theorem phaseRule_commandTurn {s t : State} (next : commandTurn s = .next t) (d : ChannelId) :
    PhaseRule .commandUnit s t d := by
  simp only [commandTurn, runLatched] at next
  split at next
  · rename_i pending
    split at next
    · rename_i i decoded
      rw [exec_eq_complete] at next
      rcases complete_cases s t _ next with ⟨e, ok, rfl⟩ | ⟨e, -, rfl⟩
      · exact phaseRule_ruleOf ⟨rfl, pending, decoded⟩ ok d
      · exact .inl (State.channel_finish s d e {})
    · cases next
      exact .inl (State.channel_finish s d .illegal {})
  · cases next
    exact .inl rfl

/-! ### The host's turn (R87, 46_system.md R150, R152) -/

/-- A register write leaves the channels, but for the soft reset. -/
theorem State.writeReg_channel_cases (s : State) (r : Reg) (v : Word) (d : ChannelId) :
    (s.writeReg r v).channel d = s.channel d
      ∨ (r = .ctrl ∧ v.getLsbD 0 = true ∧ (s.writeReg r v).channel d = {}) := by
  cases r with
  | ctrl =>
    rw [State.writeReg, State.writeCtrl]
    split
    · rename_i srst
      exact .inr ⟨rfl, srst, by cases d <;> rfl⟩
    · exact .inl (by cases d <;> rfl)
  | cmd =>
    simp only [State.writeReg, State.issue]
    split
    · exact .inl (by cases d <;> rfl)
    · exact .inl (by cases d <;> rfl)
  | irqStatus | irqEnable | arg => exact .inl (by cases d <;> rfl)
  | id | status | outLen | out0 | out1 | out2 | out3 | out4 | kxState | sc => exact .inl rfl

/-- An access whose target is a register names the register's offset (10_state.md R18). -/
theorem offset_of_target {o : Nat} {w : Width} {r : Reg} (hit : target o w = .register r) : o = r.offset := by
  simp only [target] at hit
  split at hit
  · contradiction
  split at hit
  · rename_i listed
    cases hit
    exact offset_of_regAt listed
  · contradiction

/-- A host access leaves the channels, but for an aligned 4-byte write to CTRL with bit 0 set. -/
theorem hostAccess_channel_cases {o : Nat} {w : Width} {op : BusOp} {s t : State} (next : hostAccess o w op s = .next t)
    (d : ChannelId) : t.channel d = s.channel d
      ∨ (∃ v : Word, v.getLsbD 0 = true ∧ o = 0x004 ∧ w = .word ∧ op = .write v) ∧ t.channel d = {} := by
  simp only [hostAccess] at next
  split at next
  swap
  · contradiction
  cases op with
  | read =>
    obtain rfl := Host.Outcome.next.inj next
    simp only [hostRead]
    split
    · exact .inl (by cases d <;> rfl)
    · exact .inl (by cases d <;> rfl)
  | write v =>
    obtain rfl := Host.Outcome.next.inj next
    simp only [hostWrite]
    split
    · exact .inl (by cases d <;> rfl)
    rename_i allowed
    cases hit : target o w with
    | register r =>
      rcases s.writeReg_channel_cases r v d with same | ⟨rfl, srst, reset⟩
      · exact .inl same
      · have wide : w = .word := by
          rw [accessRefused, hit, Bool.or_eq_true, not_or] at allowed
          simpa [Target.refuses] using allowed.2
        exact .inr ⟨⟨v, srst, offset_of_target hit, wide, rfl⟩, reset⟩
    | dmem i => exact .inl (State.channel_storeBytes s d i _)
    | reserved => exact .inl rfl

theorem phaseRule_of_softReset {turn : Turn} {s t : State} {d : ChannelId} (resets : SoftResets turn)
    (reset : t.channel d = {}) : PhaseRule turn s t d :=
  .inr (.inr (.inr (.inr (.inr (.inr (.inr ⟨resets, reset⟩))))))

/-! ### Every turn -/

/-- Settles O44: the chunk of a channel, the command of the command unit and the access of the host each follow the
table. -/
theorem channelPhasesFollowTable : Obligations.ChannelPhasesFollowTable := by
  intro turn s t d h next
  cases turn with
  | host o w op =>
    rcases hostAccess_channel_cases next d with same | ⟨⟨v, srst, rfl, rfl, rfl⟩, reset⟩
    · exact .inl same
    · exact phaseRule_of_softReset ⟨v, srst, .inl rfl⟩ reset
  | platform a w op =>
    simp only [takeTurn, platformAccess] at next
    split at next
    · rename_i window
      rcases hostAccess_channel_cases next d with same | ⟨⟨v, srst, offset, rfl, rfl⟩, reset⟩
      · exact .inl same
      · obtain rfl : a = Config.base + 0x004 := by omega
        exact phaseRule_of_softReset ⟨v, srst, .inr rfl⟩ reset
    · contradiction
  | commandUnit => exact phaseRule_commandTurn next d
  | channel c => exact phaseRule_channelTurn h next d

/-! ### SCRYPT_ACK and SCRYPT_CANCEL (R90, R91) -/

/-- Settles O25: the phase of the channel decides between the moved channel and ERR_STATE. -/
theorem scryptAckAndCancelAnswerEvents : Obligations.ScryptAckAndCancelAnswerEvents := by
  intro s c
  refine ⟨fun waiting => movesChannel_of_ok _ s c _ ?_, fun other => fails_of_rule ?_,
    fun active => movesChannel_of_ok _ s c _ ?_, fun other => fails_of_rule ?_⟩
  · rw [exec_eq_complete, ruleOf, scryptAckCommand, if_pos waiting]
  · rw [ruleOf, scryptAckCommand, if_neg other]
  · rw [exec_eq_complete, ruleOf, scryptCancelCommand, if_pos ((active_iff s c).mpr active)]
  · rw [ruleOf, scryptCancelCommand, if_neg (mt (active_iff s c).mp other)]

end Sys2Proof.Machine

/-! The Scrypt engine (spec/42_scrypt.md R83 to R95): the ops of a run are the loops of ROMix on each of its blocks, and
what a cancelling, a waiting and a last chunk leave. -/

namespace Sys2Proof.Machine

open Sys2Proof

/-! ### One op of a block's 2·N ops (R86) -/

/-- The X that the next op takes: the block itself at the block's first op, the working value at every other. -/
def Run.input (run : Run) : Bytes :=
  if run.done % (2 * run.n) = 0 then run.blocks.getD (run.done / (2 * run.n)) [] else run.x

/-- The X that a mixing op makes of its own. -/
def Run.mixed (run : Run) : Bytes :=
  blockMix (xorBytes run.input (run.v.getD (integerify run.input run.r % run.n) [])) run.r

/-- The run is at op j of block b. -/
structure Run.AtOp (run : Run) (b j : Nat) : Prop where
  done : run.done = 2 * run.n * b + j
  inBlock : j < 2 * run.n

theorem Run.AtOp.block {run : Run} {b j : Nat} (h : run.AtOp b j) : run.done / (2 * run.n) = b := by
  rw [h.done, Nat.mul_add_div (Nat.zero_lt_of_lt h.inBlock), Nat.div_eq_of_lt h.inBlock, Nat.add_zero]

theorem Run.AtOp.op {run : Run} {b j : Nat} (h : run.AtOp b j) : run.done % (2 * run.n) = j := by
  rw [h.done, Nat.mul_add_mod, Nat.mod_eq_of_lt h.inBlock]

theorem Run.AtOp.next {run : Run} {b j : Nat} (h : run.AtOp b j) (more : j + 1 < 2 * run.n) :
    (scryptOp run).AtOp b (j + 1) := by
  obtain ⟨same, done, -⟩ := scryptOp_cases run
  exact ⟨by rw [done, same.n, h.done, Nat.add_assoc], by rwa [same.n]⟩

/-- At a block's first op the input is the block. -/
theorem Run.AtOp.input_first {run : Run} {b : Nat} (h : run.AtOp b 0) : run.input = run.blocks.getD b [] := by
  rw [Run.input, h.op, if_pos rfl, h.block]

/-- At every later op the input is X. -/
theorem Run.AtOp.input_later {run : Run} {b j : Nat} (h : run.AtOp b (j + 1)) : run.input = run.x := by
  rw [Run.input, h.op, if_neg (Nat.succ_ne_zero j)]

/-- A filling op stores its input in V and mixes it. -/
theorem scryptOp_fill {run : Run} {b j : Nat} (h : run.AtOp b j) (low : j < run.n) : scryptOp run =
    { run with v := storeEntry run.v j run.input, x := blockMix run.input run.r, done := run.done + 1 } := by
  rw [scryptOp, ← Run.input, h.op]
  exact if_pos low

/-- A mixing op mixes its input with an entry of V, and the last one of the block replaces the block. -/
theorem scryptOp_mix {run : Run} {b j : Nat} (h : run.AtOp b j) (high : run.n ≤ j) : scryptOp run =
    { run with
      x := run.mixed
      blocks := if j = 2 * run.n - 1 then run.blocks.set b run.mixed else run.blocks
      done := run.done + 1 } := by
  rw [scryptOp, ← Run.input, h.op, h.block]
  exact if_neg (Nat.not_lt.mpr high)

/-- The entry stored at j stands behind the entries below j. -/
theorem take_storeEntry {v : List Bytes} {j : Nat} (x : Bytes) (reached : j ≤ v.length) :
    (storeEntry v j x).take (j + 1) = v.take j ++ [x] := by
  have room : j < (v ++ List.replicate (j + 1 - v.length) []).length := by
    rw [List.length_append, List.length_replicate]
    omega
  rw [storeEntry, List.take_succ_eq_append_getElem (by rwa [List.length_set]), List.getElem_set_self,
    List.take_set_of_le (Nat.le_refl j), List.take_append_of_le_length reached]

/-! ### The two loops of ROMix (R83) -/

/-- The mixing loop reads the first N entries of V alone. -/
theorem romixMix_take {n : Nat} (positive : 0 < n) (r : Nat) (v : List Bytes) (count : Nat) (x : Bytes) :
    romixMix n r (v.take n) count x = romixMix n r v count x := by
  induction count generalizing x with
  | zero => rfl
  | succ count ih =>
    have entry : (v.take n).getD (integerify x r % n) [] = v.getD (integerify x r % n) [] := by
      rw [List.getD_eq_getElem?_getD, List.getD_eq_getElem?_getD, List.getElem?_take_of_lt (Nat.mod_lt _ positive)]
    rw [romixMix, romixMix, entry, ih]

/-- The ops from j to N run the filling loop, and leave Bv. -/
theorem scryptOps_fill {count : Nat} {run : Run} {b j : Nat} (h : run.AtOp b j) (rest : j + count = run.n)
    (reached : j ≤ run.v.length) :
    ((scryptOps count run).input, (scryptOps count run).v.take run.n)
        = romixFill run.r count (run.input, run.v.take j)
      ∧ (scryptOps count run).blocks = run.blocks := by
  induction count generalizing run j with
  | zero => exact ⟨by rw [← rest]; rfl, rfl⟩
  | succ count ih =>
    have op := scryptOp_fill h (by omega)
    have next := h.next (by omega)
    have stored := take_storeEntry run.input reached
    have same := (scryptOp_cases run).1
    have grown : j + 1 ≤ (scryptOp run).v.length := by
      rw [op]
      simp only [storeEntry, List.length_set, List.length_append, List.length_replicate]
      omega
    obtain ⟨loop, kept⟩ := ih next (by rw [same.n]; omega) grown
    rw [same.n, same.r, next.input_later] at loop
    rw [scryptOps, romixFill, ← stored, loop, kept, op]
    exact ⟨rfl, rfl⟩

/-- The ops from j ≥ N to the block's last run the mixing loop, and put its value in the block's place. -/
theorem scryptOps_mix {count : Nat} {run : Run} {b j : Nat} (h : run.AtOp b j) (high : run.n ≤ j)
    (rest : j + (count + 1) = 2 * run.n) :
    (scryptOps (count + 1) run).blocks
      = run.blocks.set b (romixMix run.n run.r run.v (count + 1) run.input) := by
  induction count generalizing run j with
  | zero =>
    rw [scryptOps, scryptOps, scryptOp_mix h high]
    exact if_pos (by omega)
  | succ count ih =>
    have op : scryptOp run = { run with x := run.mixed, done := run.done + 1 } := by
      rw [scryptOp_mix h high, if_neg (by omega)]
    have next := h.next (by omega)
    have same := (scryptOp_cases run).1
    rw [scryptOps, ih next (by rw [same.n]; omega) (by rw [same.n]; omega), next.input_later, op]
    rfl

theorem scryptOps_add (j k : Nat) (run : Run) : scryptOps (j + k) run = scryptOps k (scryptOps j run) := by
  induction j generalizing run with
  | zero => rw [Nat.zero_add, scryptOps]
  | succ j ih => rw [Nat.succ_add, scryptOps, scryptOps, ih]

/-! ### The blocks of a run (R84, R86) -/

/-- The 2·N ops of block b replace it by its ROMix. -/
theorem scryptOps_block {run : Run} {b : Nat} (h : run.AtOp b 0) :
    (scryptOps (2 * run.n) run).blocks = run.blocks.set b (romix (run.blocks.getD b []) run.n run.r) := by
  have positive : 0 < run.n := by have := h.inBlock; omega
  obtain ⟨loop, kept⟩ := scryptOps_fill (count := run.n) h (Nat.zero_add _) (Nat.zero_le _)
  have same := scryptOps_sameInputs run.n run
  have half : (scryptOps run.n run).AtOp b run.n :=
    ⟨by rw [scryptOps_done, same.n, h.done, Nat.add_zero], by rw [same.n]; omega⟩
  obtain ⟨count, succ⟩ := Nat.exists_eq_succ_of_ne_zero positive.ne'
  have mix := scryptOps_mix (count := count) half (by rw [same.n]) (by rw [same.n]; omega)
  rw [List.take_zero, h.input_first] at loop
  rw [Nat.succ_eq_add_one] at succ
  rw [← succ, same.n, same.r, kept, ← scryptOps_add, ← Nat.two_mul, ← romixMix_take positive] at mix
  rw [mix, romix, ← loop]

/-- The ops of the blocks from b on replace each of them by its ROMix, and leave the blocks below b. -/
theorem scryptOps_blocks {m : Nat} {run : Run} {b : Nat} (positive : 0 < run.n) (start : run.done = 2 * run.n * b)
    (rest : b + m = run.blocks.length) :
    (scryptOps (2 * run.n * m) run).blocks
      = run.blocks.take b ++ (run.blocks.drop b).map fun x => romix x run.n run.r := by
  induction m generalizing run b with
  | zero =>
    have all : run.blocks.length ≤ b := by omega
    rw [List.take_of_length_le all, List.drop_of_length_le all, List.map_nil, List.append_nil]
    rfl
  | succ m ih =>
    have first : run.AtOp b 0 := ⟨start, by omega⟩
    have inside : b < run.blocks.length := by omega
    have done := scryptOps_block first
    rw [← List.getElem_eq_getD (h := inside)] at done
    have same := scryptOps_sameInputs (2 * run.n) run
    have others := ih (run := scryptOps (2 * run.n) run) (b := b + 1) (by rwa [same.n])
      (by rw [scryptOps_done, same.n, start]; rfl) (by rw [done, List.length_set]; omega)
    rw [same.n, same.r, done, ← scryptOps_add] at others
    have below : (run.blocks.set b (romix run.blocks[b] run.n run.r)).take (b + 1)
        = run.blocks.take b ++ [romix run.blocks[b] run.n run.r] := by
      rw [List.take_succ_eq_append_getElem (by rwa [List.length_set]), List.getElem_set_self,
        List.take_set_of_le (Nat.le_refl b)]
    rw [Nat.mul_succ, Nat.add_comm (2 * run.n * m), others, below, List.drop_set_of_lt (Nat.lt_succ_self b),
      List.drop_eq_getElem_cons inside, List.map_cons, List.append_assoc]
    rfl

/-- Settles O51: each block's ops are the two loops of ROMix on it. -/
theorem scryptOpsComputeRomix : Obligations.ScryptOpsComputeRomix := by
  intro password salt n r p dkLen dst
  rcases Nat.eq_zero_or_pos n with rfl | positive
  · simp [scryptOps, startedChannel]
  · have blocks := scryptOps_blocks (run := (startedChannel password salt n r p dkLen dst).run) (b := 0) (m := p)
      positive rfl (by rw [Nat.zero_add]; exact (scryptBlocks_length password salt r p).symm)
    simp only [if_neg positive.ne']
    exact blocks

/-! ### A working chunk of a run (R86, R89, R94) -/

/-- An op neither reads nor writes the count of events. -/
theorem scryptOps_withEvents (k : Nat) (run : Run) (events : Nat) :
    scryptOps k { run with events := events } = { scryptOps k run with events := events } := by
  induction k generalizing run with
  | zero => rfl
  | succ k ih =>
    have op : scryptOp { run with events := events } = { scryptOp run with events := events } := by
      simp only [scryptOp]
      split
      · rfl
      · rfl
    rw [scryptOps, scryptOps, op, ih]

section RunAt

variable {ch : Channel} {password salt : Bytes} {n r p dkLen dst k events : Nat}

/-- The ops keep the inputs that SCRYPT_START took. -/
theorem RunAt.sameInputs (h : RunAt ch password salt n r p dkLen dst k events) :
    SameInputs { (startedChannel password salt n r p dkLen dst).run with events := events } ch.run := by
  rw [h, ← scryptOps_withEvents]
  exact scryptOps_sameInputs k _

theorem RunAt.done (h : RunAt ch password salt n r p dkLen dst k events) : ch.run.done = k := by
  rw [h]
  exact (scryptOps_done k _).trans (Nat.zero_add k)

theorem RunAt.total (h : RunAt ch password salt n r p dkLen dst k events) : ch.run.total = 2 * n * p :=
  h.sameInputs.total

/-- No cancel request is in a run that only ops have changed since SCRYPT_START. -/
theorem RunAt.working (h : RunAt ch password salt n r p dkLen dst k events) : ch.run.cancelReq = false :=
  h.sameInputs.cancelReq

/-- A working chunk carries the run min(1000, T − k) ops further. -/
theorem RunAt.worked (h : RunAt ch password salt n r p dkLen dst k events) : ch.run.worked =
    { scryptOps (k + min 1000 (2 * n * p - k)) (startedChannel password salt n r p dkLen dst).run with
      events := events } := by
  rw [Run.worked, h.total, h.done, h, scryptOps_withEvents, scryptOps_add]
  rfl

theorem RunAt.worked_done (h : RunAt ch password salt n r p dkLen dst k events) :
    ch.run.worked.done = k + min 1000 (2 * n * p - k) := by
  rw [Run.worked_done, h.total, h.done]

theorem RunAt.worked_total (h : RunAt ch password salt n r p dkLen dst k events) : ch.run.worked.total = 2 * n * p :=
  ch.run.worked_sameInputs.total.trans h.total

/-- The result of the run after its T ops is Scrypt of the inputs of SCRYPT_START (R84). -/
theorem result_of_ops (positive : n ≠ 0) :
    Run.result { scryptOps (2 * n * p) (startedChannel password salt n r p dkLen dst).run with events := events }
      = scrypt password salt n r p dkLen := by
  have same := scryptOps_sameInputs (2 * n * p) (startedChannel password salt n r p dkLen dst).run
  have blocks := scryptOpsComputeRomix password salt n r p dkLen dst
  simp only [if_neg positive] at blocks
  simp only [Run.result, same.password, same.dkLen, blocks]
  rfl

end RunAt

/-! ### The three chunks (R89) -/

/-- A chunk that samples a cancel request ends the run (R95). -/
theorem chunk_of_request {c : ChannelId} {s : State} (request : (s.channel c).run.cancelReq = true) :
    chunk c s = (s.markEvent c).setChannel c (s.channel c).cancelled := by
  rcases chunk_cases c s with ⟨-, after⟩ | ⟨working, -⟩ | ⟨working, -⟩
  · exact after
  · exact absurd (request.symm.trans working) (by decide)
  · exact absurd (request.symm.trans working) (by decide)

/-- A working chunk that does the run's last op stores the result (R94). -/
theorem chunk_of_last {c : ChannelId} {s : State} (working : (s.channel c).run.cancelReq = false)
    (last : (s.channel c).run.worked.done = (s.channel c).run.worked.total) :
    chunk c s = ((s.storeBytes (s.channel c).run.worked.dst (s.channel c).run.worked.result).markEvent c).setChannel c
      (s.channel c).finished := by
  rcases chunk_cases c s with ⟨request, -⟩ | ⟨-, -, after⟩ | ⟨-, more, -⟩
  · exact absurd (request.symm.trans working) (by decide)
  · exact after
  · exact absurd last more

/-- A working chunk that leaves ops to do waits for SCRYPT_ACK (R89). -/
theorem chunk_of_more {c : ChannelId} {s : State} (working : (s.channel c).run.cancelReq = false)
    (more : (s.channel c).run.worked.done ≠ (s.channel c).run.worked.total) :
    chunk c s = (s.markEvent c).setChannel c (s.channel c).waiting := by
  rcases chunk_cases c s with ⟨request, -⟩ | ⟨-, last, -⟩ | ⟨-, -, after⟩
  · exact absurd (request.symm.trans working) (by decide)
  · exact absurd last more
  · exact after

theorem channelTurn_of_running {c : ChannelId} {s : State} (running : (s.channel c).phase = .running) :
    channelTurn c s = .next (chunk c s) := by
  rw [channelTurn, if_pos running]

/-- Settles O49: the cancelling chunk replaces its channel alone, with an empty run. -/
theorem cancelledRunDeliversNothing : Obligations.CancelledRunDeliversNothing := by
  intro s c running request
  have other : (chunk c s).channel (otherChannel c) = s.channel (otherChannel c) := (chunk_frame c s).2
  have irq := (chunk_registers c s).2
  refine ⟨chunk c s, channelTurn_of_running running, ?_⟩
  rw [chunk_of_request request] at other irq ⊢
  rw [State.channel_setChannel]
  refine ⟨fun a => by rw [State.setChannel_dmem]; rfl, ?_, other, irq, rfl, rfl, rfl, rfl, rfl, rfl,
    ⟨rfl, rfl, rfl, rfl, rfl⟩⟩
  exact ⟨State.setChannel_kxPhase .., State.setChannel_slotTag .., State.setChannel_slotPriv ..⟩

/-- Settles O50: with more than 1000 ops left the chunk does 1000 of them and waits. -/
theorem workingChunkRunsThousandOps : Obligations.WorkingChunkRunsThousandOps := by
  intro s c password salt n r p dkLen dst k events running run more
  have ops : min 1000 (2 * n * p - k) = 1000 := by omega
  have worked := run.worked
  have done := run.worked_done
  rw [ops] at worked done
  have unfinished : (s.channel c).run.worked.done ≠ (s.channel c).run.worked.total := by
    rw [done, run.worked_total]
    omega
  refine ⟨chunk c s, channelTurn_of_running running, ?_⟩
  rw [chunk_of_more run.working unfinished, State.channel_setChannel]
  refine ⟨rfl, ?_, congrArg (BitVec.ofNat 32) done, rfl, rfl, fun a => by rw [State.setChannel_dmem]; rfl⟩
  rw [RunAt, Channel.waiting, worked]

/-- Settles O52: the chunk does the ops that are left, and with all of them done the run's result is Scrypt. -/
theorem finishedRunDeliversScrypt : Obligations.FinishedRunDeliversScrypt := by
  intro s c password salt n r p dkLen dst k events wf running run unfinished lastChunk
  have positive : n ≠ 0 := by rintro rfl; simp at unfinished
  have ops : k + min 1000 (2 * n * p - k) = 2 * n * p := by omega
  have worked := run.worked
  have done := run.worked_done
  rw [ops] at worked done
  have result : (s.channel c).run.worked.result = scrypt password salt n r p dkLen := by
    rw [worked, result_of_ops positive]
  have target : (s.channel c).run.worked.dst = dst :=
    (s.channel c).run.worked_sameInputs.dst.trans run.sameInputs.dst
  refine ⟨chunk c s, channelTurn_of_running running, ?_⟩
  rw [chunk_of_last run.working (done.trans run.worked_total.symm), target, result, State.channel_setChannel]
  refine ⟨rfl, congrArg (BitVec.ofNat 32) done, rfl, ⟨rfl, rfl, rfl, rfl, rfl⟩, fun a => ?_⟩
  rw [State.setChannel_dmem]
  exact Memory.read_writeBytes s.dmem dst a _ wf

end Sys2Proof.Machine

/-! The five block ciphers (spec/43_cipher.md R98 to R102): each decryption undoes its encryption, in the order of the
models: bytes and vectors, rounds undone in reverse order, Camellia, TripleDES, IDEA, AES. -/

namespace Sys2Proof.Machine

open Sys2Proof

/-! ### Integers and byte strings (00_scope.md R10) -/

theorem leBytes_leNat (x : Bytes) : leBytes x.length (leNat x) = x := by
  induction x with
  | nil => rfl
  | cons b bs ih =>
    have low : BitVec.ofNat 8 (b.toNat + 256 * leNat bs) = b := BitVec.eq_of_toNat_eq (by simp; omega)
    have high : (b.toNat + 256 * leNat bs) / 256 = leNat bs := by omega
    rw [List.length_cons, leBytes, leNat, low, high, ih]

/-- A vector of n bytes is what its n bytes stand for. -/
theorem beBits_beBytes {n : Nat} (v : BitVec (8 * n)) : beBits (8 * n) (beBytes n v.toNat) = v := by
  have width : 256 ^ n = 2 ^ (8 * n) := by rw [Nat.pow_mul]
  rw [beBits, beNat, beBytes, List.reverse_reverse, leNat_leBytes, width, Nat.mod_eq_of_lt v.isLt, BitVec.ofNat_toNat,
    BitVec.setWidth_eq]

/-- n bytes are those of the vector that they stand for. -/
theorem beBytes_beBits {n : Nat} {x : Bytes} (len : x.length = n) : beBytes n (beBits (8 * n) x).toNat = x := by
  have bound : beNat x < 2 ^ (8 * n) := by
    have := leNat_lt x.reverse
    rwa [List.length_reverse, len, show 256 = 2 ^ 8 from rfl, ← Nat.pow_mul] at this
  have back := leBytes_leNat x.reverse
  rw [List.length_reverse, len] at back
  rw [beBits, BitVec.toNat_ofNat, Nat.mod_eq_of_lt bound, beBytes, beNat, back, List.reverse_reverse]

/-! ### Rounds undone in reverse order -/

/-- If `g` undoes each round `f` as seen through `view`, then `g` with the keys in reverse order undoes all rounds. -/
theorem foldl_reverse_undo {σ τ κ : Type} {f : σ → κ → σ} {g : τ → κ → τ} {view : σ → τ}
    {ks : List κ} (undo : ∀ k ∈ ks, ∀ s, g (view (f s k)) k = view s) (s : σ) :
    ks.reverse.foldl g (view (ks.foldl f s)) = view s := by
  rw [List.foldl_reverse]
  induction ks generalizing s with
  | nil => rfl
  | cons k ks ih =>
    obtain ⟨first, rest⟩ := List.forall_mem_cons.mp undo
    rw [List.foldr_cons, List.foldl_cons, ih rest, first]

/-! ### Camellia (R98, RFC 3713) -/

theorem camelliaFLInv_camelliaFL (x k : Lane) : camelliaFLInv (camelliaFL x k) k = x := by
  simp only [camelliaFL, camelliaFLInv, BitVec.extractLsb'_append_eq_left, BitVec.extractLsb'_append_eq_right,
    xor_cancel_right]
  exact BitVec.extractLsb'_append_extractLsb'

theorem camelliaFL_camelliaFLInv (y k : Lane) : camelliaFL (camelliaFLInv y k) k = y := by
  simp only [camelliaFL, camelliaFLInv, BitVec.extractLsb'_append_eq_left, BitVec.extractLsb'_append_eq_right,
    xor_cancel_right]
  exact BitVec.extractLsb'_append_extractLsb'

/-- Two Feistel rounds are undone by the same rounds on the exchanged halves, with the exchanged keys. -/
theorem camelliaPair_undo (d k : Lane × Lane) :
    camelliaPair (camelliaSwap (camelliaPair d k)) (camelliaSwap k) = camelliaSwap d := by
  simp only [camelliaPair, camelliaSwap, xor_cancel_right]

theorem camelliaLayer_undo (d k : Lane × Lane) :
    camelliaLayer (camelliaSwap (camelliaLayer d k)) (camelliaSwap k) = camelliaSwap d := by
  simp only [camelliaLayer, camelliaSwap, camelliaFL_camelliaFLInv, camelliaFLInv_camelliaFL]

/-- The reversed keys of six rounds are those of the mirrored six rounds, in reverse order and exchanged. -/
theorem CamelliaKeys.reversed_rounds {k : CamelliaKeys} {i j : Nat} (rounds : k.rounds.length = 12)
    (mirror : i + j = 3) : (k.reversed.rounds.drop (3 * i)).take 3
      = ((k.rounds.drop (3 * j)).take 3).reverse.map camelliaSwap := by
  have last : 12 - 3 * i = 3 * j + 3 := by omega
  have inside : min (3 * j + 3) 12 = 3 * j + 3 := by omega
  have block : 3 * j + 3 - 3 * j = 3 := by omega
  rw [CamelliaKeys.reversed, ← List.map_drop, ← List.map_take, List.drop_reverse, List.take_reverse, rounds, last,
    List.length_take, rounds, inside, Nat.add_sub_cancel, List.drop_take, block]

theorem CamelliaKeys.reversed_layer {k : CamelliaKeys} {i j : Nat} (layers : k.layers.length = 3) (mirror : i + j = 2) :
    k.reversed.layers.getD i (0, 0) = camelliaSwap (k.layers.getD j (0, 0)) := by
  have index : 3 - 1 - i = j := by omega
  rw [CamelliaKeys.reversed, show ((0, 0) : Lane × Lane) = camelliaSwap (0, 0) from rfl, List.getD_map,
    List.getD_reverse _ (by omega), layers, index]
  rfl

theorem camelliaSix_undo {k : CamelliaKeys} {i j : Nat} (rounds : k.rounds.length = 12) (mirror : i + j = 3)
    (d : Lane × Lane) : camelliaSix k.reversed i (camelliaSwap (camelliaSix k j d)) = camelliaSwap d := by
  rw [camelliaSix, CamelliaKeys.reversed_rounds rounds mirror, List.foldl_map]
  exact foldl_reverse_undo (fun k _ d => camelliaPair_undo d k) d

theorem camelliaHalves_zero (x : BitVec 128) : camelliaHalves x 0 = (x.extractLsb' 64 64, x.extractLsb' 0 64) := by
  rw [camelliaHalves, BitVec.rotateLeft_def, Nat.zero_mod, BitVec.shiftLeft_zero, Nat.sub_zero,
    BitVec.ushiftRight_eq_zero le_rfl, BitVec.or_zero]

theorem camelliaHalves_append (a b : Lane) : camelliaHalves (a ++ b) 0 = (a, b) := by
  rw [camelliaHalves_zero, BitVec.extractLsb'_append_eq_left, BitVec.extractLsb'_append_eq_right]

/-- The data path with the reversed keys undoes, from the last on, the layers of the data path: the whitening, the four
groups of six rounds and the three FL layers between them. -/
theorem camelliaCrypt_reversed {k : CamelliaKeys} (rounds : k.rounds.length = 12) (layers : k.layers.length = 3)
    (x : BitVec 128) : camelliaCrypt k.reversed (camelliaCrypt k x) = x := by
  have six (i j : Nat) (mirror : i + j = 3) := camelliaSix_undo rounds mirror
  have layer (i j : Nat) (mirror : i + j = 2) := CamelliaKeys.reversed_layer layers mirror
  have swap (d : Lane × Lane) : (d.2, d.1) = camelliaSwap d := rfl
  have pre : k.reversed.pre = k.post := rfl
  have post : k.reversed.post = k.pre := rfl
  simp only [camelliaCrypt, camelliaHalves_append, pre, post, xor_cancel_right, swap, six 0 3 rfl, six 1 2 rfl,
    six 2 1 rfl, six 3 0 rfl, layer 0 2 rfl, layer 1 1 rfl, layer 2 0 rfl, camelliaLayer_undo]
  simp only [camelliaSwap, xor_cancel_right, camelliaHalves_zero]
  exact BitVec.extractLsb'_append_extractLsb'

theorem camelliaDecrypt_camelliaEncrypt (key : BitVec 256) (x : BitVec 128) :
    camelliaDecrypt key (camelliaEncrypt key x) = x :=
  camelliaCrypt_reversed rfl rfl x

/-! ### TripleDES (R98, FIPS 46-3) -/

/-- Bits pushed in from the right: bit k of the number is the k-th from the last. -/
theorem testBit_foldl_bits (f : Nat → Bool) (table : List Nat) (k : Nat) :
    (table.foldl (fun acc i => 2 * acc + (f i).toNat) 0).testBit k = (table.map f).reverse.getD k false := by
  induction table using List.reverseRecOn generalizing k with
  | nil => simp
  | append_singleton table i ih =>
    rw [List.foldl_append, List.foldl_cons, List.foldl_nil, ← Nat.bit_val, List.map_append, List.reverse_append]
    cases k with
    | zero => exact Nat.testBit_bit_zero ..
    | succ k => exact (Nat.testBit_bit_succ ..).trans (ih k)

/-- Bit j of a selection, from the most significant on, is the bit that entry j of the table names. -/
theorem desSelect_getMsbD {n m : Nat} {table : List Nat} (len : table.length = m) (x : BitVec n) {j : Nat} (h : j < m) :
    (desSelect table m x).getMsbD j = x.getMsbD (table.getD j 0 - 1) := by
  subst len
  have inside : table.length - 1 - j < table.length := by omega
  have mirrored : table.length - 1 - (table.length - 1 - j) = j := by omega
  rw [desSelect, BitVec.getMsbD_eq_getLsbD, BitVec.getLsbD_ofNat, testBit_foldl_bits fun i => x.getMsbD (i - 1)]
  simp [h, inside, mirrored]

/-- A table that names each bit at the place where the other one takes it from undoes the other one. -/
theorem desSelect_undo {table inverse : List Nat} (len : table.length = 64) (inverseLen : inverse.length = 64)
    (inverts : ∀ j < 64, inverse.getD j 0 - 1 < 64 ∧ table.getD (inverse.getD j 0 - 1) 0 - 1 = j) (x : BitVec 64) :
    desSelect inverse 64 (desSelect table 64 x) = x := by
  refine BitVec.eq_of_getMsbD_eq fun j hj => ?_
  obtain ⟨inside, back⟩ := inverts j hj
  rw [desSelect_getMsbD inverseLen _ hj, desSelect_getMsbD len _ inside, back]

theorem desFp_desIp (x : BitVec 64) : desSelect desFp 64 (desSelect desIp 64 x) = x :=
  desSelect_undo rfl rfl (by decide) x

theorem desIp_desFp (x : BitVec 64) : desSelect desIp 64 (desSelect desFp 64 x) = x :=
  desSelect_undo rfl rfl (by decide) x

theorem desRound_undo (lr : BitVec 32 × BitVec 32) (k : BitVec 48) : desRound (desRound lr k).swap k = lr.swap := by
  simp only [desRound, Prod.swap, xor_cancel_right]

/-- The data path with the keys in reverse order undoes the data path. -/
theorem desCrypt_reverse (ks : List (BitVec 48)) (x : BitVec 64) : desCrypt ks.reverse (desCrypt ks x) = x := by
  have rounds (lr : BitVec 32 × BitVec 32) : ks.reverse.foldl desRound (ks.foldl desRound lr).swap = lr.swap :=
    foldl_reverse_undo (fun k _ lr => desRound_undo lr k) lr
  simp only [desCrypt, desIp_desFp, BitVec.extractLsb'_append_eq_left, BitVec.extractLsb'_append_eq_right]
  rw [← Prod.swap, rounds]
  simp only [Prod.swap]
  rw [BitVec.extractLsb'_append_extractLsb' (w := 32) (len := 32), desFp_desIp]

theorem desDecrypt_desEncrypt (key x : BitVec 64) : desDecrypt key (desEncrypt key x) = x := desCrypt_reverse _ x

theorem desEncrypt_desDecrypt (key y : BitVec 64) : desEncrypt key (desDecrypt key y) = y := by
  have undone := desCrypt_reverse (desKeys key).reverse y
  rwa [List.reverse_reverse] at undone

theorem tripleDesDecrypt_tripleDesEncrypt (key : BitVec 192) (x : BitVec 64) :
    tripleDesDecrypt key (tripleDesEncrypt key x) = x := by
  simp only [tripleDesDecrypt, tripleDesEncrypt, desDecrypt_desEncrypt, desEncrypt_desDecrypt]

/-! ### Powers modulo p (R128), with which IDEA inverts a word -/

theorem powModStep_pow (p x a : Nat) (bit : Bool) : powModStep p x (x ^ a % p) bit = x ^ (2 * a + bit.toNat) % p := by
  have square : x ^ a % p * (x ^ a % p) % p = x ^ (2 * a) % p := by rw [← Nat.mul_mod, two_mul, pow_add]
  cases bit with
  | false => exact square
  | true => rw [powModStep, if_pos rfl, square, Bool.toNat_true, pow_succ, Nat.mod_mul_mod]

/-- The steps of the low n bits of e take x^a to x^(a·2^n + e mod 2^n). -/
theorem foldl_powModStep (p x e n a : Nat) :
    ((List.range n).reverse.map e.testBit).foldl (powModStep p x) (x ^ a % p) = x ^ (a * 2 ^ n + e % 2 ^ n) % p := by
  induction n generalizing a with
  | zero => simp [Nat.mod_one]
  | succ n ih =>
    have exponent : (2 * a + (e.testBit n).toNat) * 2 ^ n + e % 2 ^ n = a * 2 ^ (n + 1) + e % 2 ^ (n + 1) := by
      rw [Nat.mod_pow_succ, Nat.toNat_testBit]
      ring
    rw [List.range_succ, List.reverse_append, List.reverse_singleton, List.singleton_append, List.map_cons,
      List.foldl_cons, powModStep_pow, ih, exponent]

/-- Square and multiply is exponentiation modulo p (R128). -/
theorem powMod_eq (p x e : Nat) : powMod p x e = x ^ e % p := by
  have folded := foldl_powModStep p x e (e.log2 + 1) 0
  rwa [pow_zero, Nat.zero_mul, Nat.zero_add, Nat.mod_eq_of_lt Nat.lt_log2_self] at folded

/-! ### IDEA (R98) -/

/-- The residue that a word stands for in `ideaMul`. -/
def ideaResidue (a : BitVec 16) : Nat := if a = 0 then 65536 else a.toNat

theorem ideaResidue_bounds (a : BitVec 16) : 0 < ideaResidue a ∧ ideaResidue a < 65537 := by
  have := a.isLt
  unfold ideaResidue
  split
  case isTrue => omega
  case isFalse nonzero =>
    have : a.toNat ≠ 0 := fun zero => nonzero (BitVec.eq_of_toNat_eq zero)
    omega

theorem ofNat_ideaResidue (a : BitVec 16) : BitVec.ofNat 16 (ideaResidue a) = a := by
  unfold ideaResidue
  split
  case isTrue zero => rw [zero]; rfl
  case isFalse => rw [BitVec.ofNat_toNat, BitVec.setWidth_eq]

theorem ideaResidue_ofNat {n : Nat} (positive : 0 < n) (bound : n < 65537) : ideaResidue (BitVec.ofNat 16 n) = n := by
  unfold ideaResidue
  split
  case isTrue zero =>
    have : n % 65536 = 0 := congrArg BitVec.toNat zero
    omega
  case isFalse nonzero =>
    have : n ≠ 65536 := fun top => nonzero (top ▸ rfl)
    rw [BitVec.toNat_ofNat]
    omega

theorem prime_65537 : Nat.Prime 65537 := by norm_num

theorem coprime_ideaResidue (a : BitVec 16) : (ideaResidue a).Coprime 65537 := by
  obtain ⟨positive, bound⟩ := ideaResidue_bounds a
  exact (Nat.coprime_of_lt_prime positive.ne' bound prime_65537).symm

/-- A product prime to 65537 is not 0 modulo 65537, so its word stands for it. -/
theorem ideaResidue_ofNat_mod {n : Nat} (unit : n.Coprime 65537) :
    ideaResidue (BitVec.ofNat 16 (n % 65537)) = n % 65537 := by
  refine ideaResidue_ofNat (Nat.pos_of_ne_zero fun zero => ?_) (Nat.mod_lt _ (by decide))
  have := Nat.eq_one_of_dvd_coprimes unit (Nat.dvd_of_mod_eq_zero zero) dvd_rfl
  omega

theorem ideaResidue_ideaMul (a b : BitVec 16) :
    ideaResidue (ideaMul a b) = ideaResidue a * ideaResidue b % 65537 :=
  ideaResidue_ofNat_mod ((coprime_ideaResidue a).mul_left (coprime_ideaResidue b))

theorem ideaResidue_powMod (a : BitVec 16) (e : Nat) :
    ideaResidue (BitVec.ofNat 16 (powMod 65537 (ideaResidue a) e)) = ideaResidue a ^ e % 65537 := by
  rw [powMod_eq]
  exact ideaResidue_ofNat_mod ((coprime_ideaResidue a).pow_left e)

/-- `ideaInv` inverts `ideaMul`, by Fermat's theorem modulo 65537. -/
theorem ideaMul_ideaInv_cancel (a k : BitVec 16) : ideaMul (ideaMul a k) (ideaInv k) = a := by
  have exponent : 65535 + 1 = Nat.totient 65537 := (Nat.totient_prime prime_65537).symm
  have fermat := (Nat.ModEq.pow_totient (coprime_ideaResidue k)).mul_left (ideaResidue a)
  have inverse : ideaResidue (ideaInv k) = _ := ideaResidue_powMod k 65535
  have product : ideaResidue (ideaMul (ideaMul a k) (ideaInv k)) = ideaResidue a := by
    rw [ideaResidue_ideaMul, ideaResidue_ideaMul, inverse, ← Nat.mul_mod, mul_assoc, ← pow_succ', exponent,
      fermat, mul_one, Nat.mod_eq_of_lt (ideaResidue_bounds a).2]
  rw [← ofNat_ideaResidue (ideaMul _ _), product, ofNat_ideaResidue]

theorem ideaKeyLayer_undo (key : BitVec 128) (i : Nat) (b : IdeaBlock) :
    ideaKeyLayerInv key i (ideaKeyLayer key i b) = b := by
  simp only [ideaKeyLayer, ideaKeyLayerInv, ideaMul_ideaInv_cancel, BitVec.add_sub_cancel]

/-- The multiply-add layer changes x1 and x3, and x2 and x4, alike, so it meets the same sums again. -/
theorem ideaMaLayer_undo (key : BitVec 128) (i : Nat) (b : IdeaBlock) :
    ideaMaLayer key i (ideaMaLayer key i b) = b := by
  have cancel (x y t : BitVec 16) : x ^^^ t ^^^ (y ^^^ t) = x ^^^ y := by
    rw [xor_comm y, ← xor_assoc, xor_cancel_right]
  simp only [ideaMaLayer, cancel, xor_cancel_right]

theorem ideaSplit_ideaJoin (b : IdeaBlock) : ideaSplit (ideaJoin b) = b := by
  simp only [ideaSplit, ideaJoin, BitVec.extractLsb'_append_eq_left, BitVec.extractLsb'_append_eq_right,
    BitVec.extractLsb'_append_eq_of_le, Nat.reduceLeDiff, Nat.reduceSub]

theorem ideaJoin_ideaSplit (x : BitVec 64) : ideaJoin (ideaSplit x) = x := by
  simp only [ideaSplit, ideaJoin]
  rw [BitVec.extractLsb'_append_extractLsb'_eq_extractLsb' (show 48 = 32 + 16 from rfl),
    BitVec.extractLsb'_append_extractLsb'_eq_extractLsb' (show 32 = 16 + 16 from rfl)]
  exact BitVec.extractLsb'_append_extractLsb'

theorem ideaSwap_ideaSwap (b : IdeaBlock) : ideaSwap (ideaSwap b) = b := rfl

theorem ideaRound_undo (key : BitVec 128) (b : IdeaBlock) (d : Nat) : ideaRoundInv key (ideaRound key b d) d = b := by
  rw [ideaRound, ideaRoundInv, ideaSwap_ideaSwap, ideaMaLayer_undo, ideaKeyLayer_undo]

theorem ideaDecrypt_ideaEncrypt (key : BitVec 128) (x : BitVec 64) : ideaDecrypt key (ideaEncrypt key x) = x := by
  have rounds (b : IdeaBlock) :
      (List.range 8).reverse.foldl (ideaRoundInv key) ((List.range 8).foldl (ideaRound key) b) = b :=
    foldl_reverse_undo (view := id) (fun d _ b => ideaRound_undo key b d) b
  rw [ideaEncrypt, ideaDecrypt, ideaSplit_ideaJoin, ideaKeyLayer_undo, ideaSwap_ideaSwap, rounds, ideaJoin_ideaSplit]

/-! ### AES (R99 to R102) -/

/-! Doubling, and so the product by a constant, is additive. -/

theorem gfDouble_xor (a b : Byte) : gfDouble (a ^^^ b) = gfDouble a ^^^ gfDouble b := by
  have reduced (a : Byte) : gfDouble a = a <<< 1 ^^^ (if a.getLsbD 7 then 0x1B else 0) := by
    rw [gfDouble]
    split
    · rfl
    · exact (xor_zero _).symm
  have reductions (p q : Bool) :
      (if p ^^ q then (0x1B : Byte) else 0) = (if p then 0x1B else 0) ^^^ (if q then 0x1B else 0) := by
    revert p q
    decide
  rw [reduced, reduced, reduced, BitVec.getLsbD_xor, BitVec.shiftLeft_xor_distrib, reductions]
  ac_rfl

theorem gfMulFrom_xor (count i : Nat) (a b m : Byte) :
    gfMulFrom count i (a ^^^ b) m = gfMulFrom count i a m ^^^ gfMulFrom count i b m := by
  induction count generalizing i a b with
  | zero => exact (xor_self (0 : Byte)).symm
  | succ count ih =>
    have term : (if m.getLsbD i then a ^^^ b else 0)
        = (if m.getLsbD i then a else 0) ^^^ (if m.getLsbD i then b else 0) := by
      split
      · rfl
      · exact (xor_self (0 : Byte)).symm
    simp only [gfMulFrom, gfDouble_xor, ih, term]
    ac_rfl

theorem gfMul_xor (a b m : Byte) : gfMul (a ^^^ b) m = gfMul a m ^^^ gfMul b m := gfMulFrom_xor 8 0 a b m

/-! The products by the coefficients of MixColumns and InvMixColumns, as sums of doublings. -/

theorem gfMul_one (a : Byte) : gfMul a 1 = a := by simp [gfMul, gfMulFrom]
theorem gfMul_two (a : Byte) : gfMul a 2 = gfDouble a := by simp [gfMul, gfMulFrom]
theorem gfMul_three (a : Byte) : gfMul a 3 = a ^^^ gfDouble a := by simp [gfMul, gfMulFrom]
theorem gfMul_nine (a : Byte) : gfMul a 9 = a ^^^ gfDouble (gfDouble (gfDouble a)) := by simp [gfMul, gfMulFrom]
theorem gfMul_eleven (a : Byte) : gfMul a 11 = a ^^^ (gfDouble a ^^^ gfDouble (gfDouble (gfDouble a))) := by
  simp [gfMul, gfMulFrom]
theorem gfMul_thirteen (a : Byte) :
    gfMul a 13 = a ^^^ (gfDouble (gfDouble a) ^^^ gfDouble (gfDouble (gfDouble a))) := by simp [gfMul, gfMulFrom]
theorem gfMul_fourteen (a : Byte) :
    gfMul a 14 = gfDouble a ^^^ (gfDouble (gfDouble a) ^^^ gfDouble (gfDouble (gfDouble a))) := by
  simp [gfMul, gfMulFrom]

/-- The rows of the product of the two matrices on one byte: the coefficients of InvMixColumns times a column of
MixColumns sum to 1 on the diagonal and to 0 off it. -/
theorem gfMul_invMix_mix_byte (a : Byte) :
    gfMul (gfMul a 2) 14 ^^^ gfMul (gfMul a 1) 11 ^^^ gfMul (gfMul a 1) 13 ^^^ gfMul (gfMul a 3) 9 = a
    ∧ gfMul (gfMul a 3) 14 ^^^ gfMul (gfMul a 2) 11 ^^^ gfMul (gfMul a 1) 13 ^^^ gfMul (gfMul a 1) 9 = 0
    ∧ gfMul (gfMul a 1) 14 ^^^ gfMul (gfMul a 3) 11 ^^^ gfMul (gfMul a 2) 13 ^^^ gfMul (gfMul a 1) 9 = 0
    ∧ gfMul (gfMul a 1) 14 ^^^ gfMul (gfMul a 1) 11 ^^^ gfMul (gfMul a 3) 13 ^^^ gfMul (gfMul a 2) 9 = 0 := by
  have left (a b d : Byte) : a ^^^ (b ^^^ d) = b ^^^ (a ^^^ d) := by ac_rfl
  simp only [gfMul_one, gfMul_two, gfMul_three, gfMul_nine, gfMul_eleven, gfMul_thirteen, gfMul_fourteen, gfDouble_xor]
  simp only [BitVec.xor_assoc, BitVec.xor_comm, left, xor_cancel_left, LawfulXor.xor_self, xor_zero, and_self]

/-- InvMixColumns undoes MixColumns on the first byte of a column. -/
theorem gfMul_invMix_mix (a b c d : Byte) :
    gfMul (gfMul a 2 ^^^ gfMul b 3 ^^^ gfMul c 1 ^^^ gfMul d 1) 14
      ^^^ gfMul (gfMul b 2 ^^^ gfMul c 3 ^^^ gfMul d 1 ^^^ gfMul a 1) 11
      ^^^ gfMul (gfMul c 2 ^^^ gfMul d 3 ^^^ gfMul a 1 ^^^ gfMul b 1) 13
      ^^^ gfMul (gfMul d 2 ^^^ gfMul a 3 ^^^ gfMul b 1 ^^^ gfMul c 1) 9 = a := by
  obtain ⟨ofA, -, -, -⟩ := gfMul_invMix_mix_byte a
  obtain ⟨-, ofB, -, -⟩ := gfMul_invMix_mix_byte b
  obtain ⟨-, -, ofC, -⟩ := gfMul_invMix_mix_byte c
  obtain ⟨-, -, -, ofD⟩ := gfMul_invMix_mix_byte d
  simp only [gfMul_xor]
  calc _
    _ = (gfMul (gfMul a 2) 14 ^^^ gfMul (gfMul a 1) 11 ^^^ gfMul (gfMul a 1) 13 ^^^ gfMul (gfMul a 3) 9)
      ^^^ (gfMul (gfMul b 3) 14 ^^^ gfMul (gfMul b 2) 11 ^^^ gfMul (gfMul b 1) 13 ^^^ gfMul (gfMul b 1) 9)
      ^^^ (gfMul (gfMul c 1) 14 ^^^ gfMul (gfMul c 3) 11 ^^^ gfMul (gfMul c 2) 13 ^^^ gfMul (gfMul c 1) 9)
      ^^^ (gfMul (gfMul d 1) 14 ^^^ gfMul (gfMul d 1) 11 ^^^ gfMul (gfMul d 3) 13 ^^^ gfMul (gfMul d 2) 9) := by ac_rfl
    _ = a := by rw [ofA, ofB, ofC, ofD, xor_zero, xor_zero, xor_zero]

/-! The state as 16 bytes, row k mod 4 of column k div 4. -/

theorem map_range_getD {s : Bytes} (len : s.length = 16) : (List.range 16).map (fun k => s.getD k 0) = s := by
  refine List.ext_getElem (by simp [len]) fun i _ h => ?_
  simp [h]

theorem getD_map_range (f : Nat → Byte) {k : Nat} (h : k < 16) : ((List.range 16).map f).getD k 0 = f k := by
  simp [h]

theorem aesInvShiftRows_aesShiftRows {s : Bytes} (len : s.length = 16) : aesInvShiftRows (aesShiftRows s) = s := by
  have back : ∀ k < 16, ∀ j, k % 4 + 4 * ((k / 4 + 4 - k % 4) % 4) = j →
      j < 16 ∧ j % 4 + 4 * ((j / 4 + j % 4) % 4) = k := by
    rintro k hk _ rfl
    revert k
    decide
  calc aesInvShiftRows (aesShiftRows s)
    _ = (List.range 16).map fun k => s.getD k 0 := by
      refine List.map_congr_left fun k hk => ?_
      obtain ⟨inside, source⟩ := back k (List.mem_range.mp hk) _ rfl
      rw [aesShiftRows, getD_map_range _ inside, source]
    _ = s := map_range_getD len

/-- Row r of column c. -/
theorem aesMixColumns_getD (s : Bytes) {c r : Nat} (hc : c < 4) (hr : r < 4) :
    (aesMixColumns s).getD (4 * c + r) 0 = aesColumn 2 3 1 1 s c r := by
  have column : (4 * c + r) / 4 = c := by omega
  have row : (4 * c + r) % 4 = r := by omega
  rw [aesMixColumns, getD_map_range _ (by omega), column, row]

/-- The four rows of a column are one identity with the column's bytes turned round. -/
theorem aesColumn_undo (s : Bytes) {c r : Nat} (hc : c < 4) (hr : r < 4) :
    aesColumn 14 11 13 9 (aesMixColumns s) c r = s.getD (4 * c + r) 0 := by
  rw [aesColumn, aesMixColumns_getD s hc hr, aesMixColumns_getD s hc (Nat.mod_lt _ (by decide)),
    aesMixColumns_getD s hc (Nat.mod_lt _ (by decide)), aesMixColumns_getD s hc (Nat.mod_lt _ (by decide))]
  simp only [aesColumn]
  interval_cases r <;> exact gfMul_invMix_mix ..

theorem aesInvMixColumns_aesMixColumns {s : Bytes} (len : s.length = 16) : aesInvMixColumns (aesMixColumns s) = s := by
  calc aesInvMixColumns (aesMixColumns s)
    _ = (List.range 16).map fun k => s.getD k 0 := by
      refine List.map_congr_left fun k hk => ?_
      have := List.mem_range.mp hk
      rw [aesColumn_undo s (by omega) (by omega), Nat.div_add_mod]
    _ = s := map_range_getD len

/-- The table names 256 different bytes: checked on each of them. -/
theorem aesInvSbox_aesSbox (x : Byte) : aesInvSbox (aesSbox x) = x := by
  revert x
  decide +kernel

/-! The key words and round keys (R100). -/

theorem aesKeyTemp_length (i : Nat) (rcon : Byte) {t : Bytes} (len : t.length = 4) :
    (aesKeyTemp i rcon t).length = 4 := by
  unfold aesKeyTemp
  split
  · rfl
  · split
    · rwa [List.length_map]
    · exact len

/-- Each step of the key expansion adds one word of four bytes. -/
theorem aesExtend_lengths {count i : Nat} {rcon : Byte} {ws : List Bytes} (eight : 8 ≤ ws.length)
    (words : ∀ w ∈ ws, w.length = 4) :
    (aesExtend count i rcon ws).length = ws.length + count ∧ ∀ w ∈ aesExtend count i rcon ws, w.length = 4 := by
  induction count generalizing i rcon ws with
  | zero => exact ⟨rfl, words⟩
  | succ count ih =>
    have word {j : Nat} (h : j < 8) : (ws.getD j []).length = 4 := by
      rw [List.getD_eq_getElem _ _ (by omega)]
      exact words _ (List.getElem_mem _)
    obtain ⟨total, all⟩ := ih (i := i + 1) (rcon := if i % 8 = 0 then gfDouble rcon else rcon)
      (ws := xorBytes (ws.getD 7 []) (aesKeyTemp i rcon (ws.getD 0 [])) :: ws)
      (Nat.le_succ_of_le eight) (by
        rw [List.forall_mem_cons, xorBytes_length, word (by decide), aesKeyTemp_length i rcon (word (by decide))]
        exact ⟨rfl, words⟩)
    refine ⟨?_, all⟩
    rw [aesExtend, total, List.length_cons]
    omega

theorem aesKeyWords_lengths {key : Bytes} (len : key.length = 32) :
    (aesKeyWords key).length = 60 ∧ ∀ w ∈ aesKeyWords key, w.length = 4 := by
  have words : ∀ w ∈ (splitBlocks 4 8 key).reverse, w.length = 4 := fun w hw =>
    splitBlocks_block_length 4 8 key (by omega) w (List.mem_reverse.mp hw)
  obtain ⟨total, all⟩ := aesExtend_lengths (count := 52) (i := 8) (rcon := 1) (by simp) words
  refine ⟨?_, fun w hw => all w (List.mem_reverse.mp hw)⟩
  rw [aesKeyWords, List.length_reverse, total, List.length_reverse, splitBlocks_length]

theorem aesRoundKey_length {key : Bytes} (len : key.length = 32) {d : Nat} (h : d ≤ 14) :
    (aesRoundKey (aesKeyWords key) d).length = 16 := by
  obtain ⟨total, words⟩ := aesKeyWords_lengths len
  have four : (((aesKeyWords key).drop (4 * d)).take 4).length = 4 := by
    rw [List.length_take, List.length_drop, total]
    omega
  rw [aesRoundKey, flatten_length 4 _ fun w hw => words w (List.mem_of_mem_drop (List.mem_of_mem_take hw)), four]

/-! The rounds (R101, R102). -/

theorem aesAddKey_undo {k s : Bytes} (h : s.length ≤ k.length) : aesAddKey k (aesAddKey k s) = s :=
  xorBytes_cancel s k h

@[simp] theorem aesShiftRows_length (s : Bytes) : (aesShiftRows s).length = 16 := by simp [aesShiftRows]
@[simp] theorem aesMixColumns_length (s : Bytes) : (aesMixColumns s).length = 16 := by simp [aesMixColumns]

/-- SubBytes and ShiftRows, with which every round begins. -/
def aesSubShift (s : Bytes) : Bytes := aesShiftRows (s.map aesSbox)

theorem aesSubShift_undo {s : Bytes} (len : s.length = 16) : (aesInvShiftRows (aesSubShift s)).map aesInvSbox = s := by
  rw [aesSubShift, aesInvShiftRows_aesShiftRows (by rwa [List.length_map]), List.map_map]
  exact (List.map_congr_left fun b _ => aesInvSbox_aesSbox b).trans (List.map_id s)

/-- The inverse round undoes a round when both are seen after the next SubBytes and ShiftRows. -/
theorem aesRound_undo {ws : List Bytes} {d : Nat} (key : (aesRoundKey ws d).length = 16) (s : Bytes) :
    aesInvRound ws (aesSubShift (aesRound ws s d)) d = aesSubShift s := by
  have len : (aesRound ws s d).length = 16 := by
    rw [aesRound, aesAddKey, xorBytes_length, aesMixColumns_length, key, Nat.min_self]
  rw [aesInvRound, aesSubShift_undo len, aesRound, aesAddKey_undo (by rw [key, aesMixColumns_length]),
    aesInvMixColumns_aesMixColumns (aesShiftRows_length _), aesSubShift]

theorem aesEncryptBytes_eq (key x : Bytes) : aesEncryptBytes key x
    = aesAddKey (aesRoundKey (aesKeyWords key) 14) (aesSubShift
      (aesRounds.foldl (aesRound (aesKeyWords key)) (aesAddKey (aesRoundKey (aesKeyWords key) 0) x))) := rfl

theorem aesDecryptBytes_eq (key y : Bytes) : aesDecryptBytes key y
    = aesAddKey (aesRoundKey (aesKeyWords key) 0) ((aesInvShiftRows
      (aesRounds.reverse.foldl (aesInvRound (aesKeyWords key)) (aesAddKey (aesRoundKey (aesKeyWords key) 14) y))).map
        aesInvSbox) := rfl

theorem aesDecryptBytes_aesEncryptBytes {key x : Bytes} (keyLen : key.length = 32) (len : x.length = 16) :
    aesDecryptBytes key (aesEncryptBytes key x) = x := by
  have roundKey {d : Nat} (h : d ≤ 14) := aesRoundKey_length keyLen h
  have inRange : ∀ d ∈ aesRounds, d ≤ 14 := by decide
  have start : (aesAddKey (aesRoundKey (aesKeyWords key) 0) x).length = 16 := by
    rw [aesAddKey, xorBytes_length, roundKey (by decide), len, Nat.min_self]
  have rounds := foldl_reverse_undo (view := aesSubShift) (f := aesRound (aesKeyWords key))
    (g := aesInvRound (aesKeyWords key)) fun d hd s => aesRound_undo (roundKey (inRange d hd)) s
  have final : (aesSubShift (aesRounds.foldl (aesRound (aesKeyWords key))
      (aesAddKey (aesRoundKey (aesKeyWords key) 0) x))).length ≤ (aesRoundKey (aesKeyWords key) 14).length := by
    rw [roundKey le_rfl, aesSubShift, aesShiftRows_length]
  rw [aesEncryptBytes_eq, aesDecryptBytes_eq, aesAddKey_undo final, rounds, aesSubShift_undo start,
    aesAddKey_undo (by rw [roundKey (by decide), len])]

theorem aesDecrypt_aesEncrypt (key : BitVec 256) (x : BitVec 128) : aesDecrypt key (aesEncrypt key x) = x := by
  have encryptedLen : (aesEncryptBytes (beBytes 32 key.toNat) (beBytes 16 x.toNat)).length = 16 := by
    rw [aesEncryptBytes_eq, aesAddKey, xorBytes_length, aesRoundKey_length (beBytes_length ..) le_rfl, aesSubShift,
      aesShiftRows_length, Nat.min_self]
  rw [aesEncrypt, aesDecrypt, beBytes_beBits (n := 16) encryptedLen,
    aesDecryptBytes_aesEncryptBytes (beBytes_length ..) (beBytes_length ..), beBits_beBytes (n := 16)]

/-! ### The five ciphers (R98) -/

/-- Settles O54: each cipher works on the vector that the block's bytes stand for, and its decryption undoes it. -/
theorem blockDecryptionInvertsEncryption : Obligations.BlockDecryptionInvertsEncryption := by
  intro alg key x keyLen len
  cases alg with
  | blowfish =>
    rw [blockEncrypt, blockDecrypt, beBits_beBytes (n := 8), Equiv.symm_apply_apply, beBytes_beBits (n := 8) len]
  | aes =>
    rw [blockEncrypt, blockDecrypt, beBits_beBytes (n := 16), aesDecrypt_aesEncrypt, beBytes_beBits (n := 16) len]
  | camellia =>
    rw [blockEncrypt, blockDecrypt, beBits_beBytes (n := 16), camelliaDecrypt_camelliaEncrypt,
      beBytes_beBits (n := 16) len]
  | idea =>
    rw [blockEncrypt, blockDecrypt, beBits_beBytes (n := 8), ideaDecrypt_ideaEncrypt, beBytes_beBits (n := 8) len]
  | tripleDes =>
    rw [blockEncrypt, blockDecrypt, beBits_beBytes (n := 8), tripleDesDecrypt_tripleDesEncrypt,
      beBytes_beBits (n := 8) len]

end Sys2Proof.Machine

/-! The modes and the codec (spec/43_cipher.md R103 to R112), and the envelope around two codec layers
(spec/44_mac_envelope.md R121 to R125): what was encrypted decrypts. -/

namespace Sys2Proof.Machine

open Sys2Proof

/-! ### The modes (R103) -/

/-- CBC on full blocks with an IV of a block's size: D undoes E and the second exclusive-or undoes the first. -/
theorem cbcDecrypt_cbcEncrypt {alg : Cipher} {key prev : Bytes} {ps : List Bytes}
    (keyLen : key.length = cipherKeyBytes alg) (prevLen : prev.length = cipherBlockBytes alg)
    (full : ∀ p ∈ ps, p.length = cipherBlockBytes alg) :
    cbcDecrypt alg key prev (cbcEncrypt alg key prev ps) = ps := by
  induction ps generalizing prev with
  | nil => rfl
  | cons p ps ih =>
    obtain ⟨pLen, full⟩ := List.forall_mem_cons.mp full
    have inner : (xorBytes p prev).length = cipherBlockBytes alg := by
      rw [xorBytes_length, pLen, prevLen, Nat.min_self]
    rw [cbcEncrypt, cbcDecrypt, blockDecryptionInvertsEncryption alg key _ keyLen inner,
      xorBytes_cancel p prev (pLen.trans prevLen.symm).le, ih (blockEncrypt_length alg key _) full]

/-- CFB on full blocks: both directions add the same E(KEY, previous ciphertext block). -/
theorem cfbDecrypt_cfbEncrypt {alg : Cipher} {key prev : Bytes} {ps : List Bytes}
    (full : ∀ p ∈ ps, p.length = cipherBlockBytes alg) :
    cfbDecrypt alg key prev (cfbEncrypt alg key prev ps) = ps := by
  induction ps generalizing prev with
  | nil => rfl
  | cons p ps ih =>
    obtain ⟨pLen, full⟩ := List.forall_mem_cons.mp full
    rw [cfbEncrypt, cfbDecrypt, xorBytes_cancel p _ (pLen.trans (blockEncrypt_length alg key prev).symm).le, ih full]

/-- A whole number of blocks is the join of its blocks. -/
theorem cipherBlocks_join {alg : Cipher} {x : Bytes} (whole : x.length % cipherBlockBytes alg = 0) :
    (cipherBlocks alg x).flatten = x :=
  splitBlocks_flatten _ _ x (Nat.div_mul_cancel (Nat.dvd_of_mod_eq_zero whole)).symm

/-- ModeDec undoes ModeEnc on whole blocks, in every mode. -/
theorem modeDecrypt_modeEncrypt {alg : Cipher} {mode : Mode} {key iv p : Bytes}
    (keyLen : key.length = cipherKeyBytes alg) (ivLen : iv.length = cipherBlockBytes alg)
    (whole : p.length % cipherBlockBytes alg = 0) :
    modeDecrypt alg mode key iv (modeEncrypt alg mode key iv p) = p := by
  have full := cipherBlocks_block alg p
  cases mode with
  | cbc =>
    obtain ⟨-, blocks⟩ := cbcEncrypt_blocks alg key iv (cipherBlocks alg p)
    rw [modeEncrypt, modeDecrypt, cipherBlocks_flatten alg _ blocks, cbcDecrypt_cbcEncrypt keyLen ivLen full,
      cipherBlocks_join whole]
  | cfb =>
    obtain ⟨-, blocks⟩ := cfbEncrypt_blocks alg key iv (cipherBlocks alg p) full
    rw [modeEncrypt, modeDecrypt, cipherBlocks_flatten alg _ blocks, cfbDecrypt_cfbEncrypt full,
      cipherBlocks_join whole]
  | ofb => exact modeDecrypt_ofb alg key iv p whole

/-! ### The codec (R107, R108, R112) -/

/-- One encryption layer after its 8-byte salt is one block at least, and whole blocks. -/
theorem codecEncrypt_whole {stretch : HashAlg} {alg : Cipher} {mode : Mode} {scheme : Scheme} {fill : Nat → Byte}
    {p k salt : Bytes} {rounds : Nat} (saltLen : salt.length = 8) :
    8 + cipherBlockBytes alg ≤ (codecEncrypt stretch alg mode scheme fill p k salt rounds).length
      ∧ ((codecEncrypt stretch alg mode scheme fill p k salt rounds).length - 8) % cipherBlockBytes alg = 0 := by
  have positive := cipherBlockBytes_pos alg
  have whole := padBytes_blocks scheme (cipherBlockBytes alg) fill p positive
  obtain ⟨padded, -⟩ := padLen_pos (cipherBlockBytes alg) p.length positive
  rw [padBytes_length scheme _ fill p positive] at whole
  have block := Nat.le_of_dvd (by omega) (Nat.dvd_of_mod_eq_zero whole)
  rw [codecEncrypt_length, saltLen, Nat.add_sub_cancel_left]
  exact ⟨Nat.add_le_add_left block 8, whole⟩

/-- Settles O55: the layer passes the length check, its salt gives the same KEY and IV, the mode is undone, and UNPAD
undoes PAD. -/
theorem codecRoundTrip : Obligations.CodecRoundTrip := by
  intro stretch strict alg mode scheme fill p k salt rounds saltLen _
  have positive := cipherBlockBytes_pos alg
  have small : cipherBlockBytes alg ≤ 255 := by cases alg <;> decide
  obtain ⟨long, whole⟩ := codecEncrypt_whole (stretch := stretch) (alg := alg) (mode := mode) (scheme := scheme)
    (fill := fill) (p := p) (k := k) (rounds := rounds) saltLen
  rw [codecDecrypt_of_blocks long whole, codecEncrypt, List.take_left' saltLen, List.drop_left' saltLen,
    modeDecrypt_modeEncrypt (codecKey_length ..) (codecIv_length ..) (padBytes_blocks scheme _ fill p positive)]
  exact unpadInvertsPad strict scheme _ fill p positive small

/-! ### The envelope (R122, R124, R125) -/

/-- Settles O56: the envelope's tag is the MAC of its outer layer, and both layers decrypt. -/
theorem envelopeRoundTrip : Obligations.EnvelopeRoundTrip := by
  intro s mcode pcode sel primary secondary mode scheme fill1 fill2 p s1 s2 wf named hp hq hm hc operands len1 len2
    envelope fits
  have tagLen := mac_length (s.operand s.latch.a.b ++ s.operand s.latch.a.c)
  have decrypts (alg : Cipher) (fill : Nat → Byte) (m k salt : Bytes) (saltLen : salt.length = 8) :=
    codecRoundTrip Config.stretchHash false alg mode scheme fill m k salt 1000 saltLen (by decide)
  have stored := envDecStoresPlaintext s mcode pcode sel primary secondary mode scheme _ _ _
    (codecEncrypt Config.stretchHash primary mode scheme fill1 p (s.operand s.latch.a.b) s1 1000) p wf named hp hq hm hc
    operands envelope.symm rfl rfl
  rw [envEncrypt, List.take_left' (tagLen _), List.drop_left' (tagLen _), List.length_append, tagLen] at stored
  have long := (codecEncrypt_whole (stretch := Config.stretchHash) (alg := secondary) (mode := mode) (scheme := scheme)
    (fill := fill2) (k := s.operand s.latch.a.c) (rounds := 1000)
    (p := codecEncrypt Config.stretchHash primary mode scheme fill1 p (s.operand s.latch.a.b) s1 1000) len2).1
  exact (stored (by rw [Config.defaultRounds]; omega) rfl (decrypts secondary fill2 _ _ s2 len2)
    (decrypts primary fill1 p _ s1 len1)).1 fits

end Sys2Proof.Machine

/-! The MAC unit and the envelope sequencer (spec/44_mac_envelope.md): MAC_GEN, the comparison of tags and MAC_VERIFY,
the selector's pairs of ciphers, ENV_ENC, and the envelopes that ENV_DEC refuses. -/

namespace Sys2Proof.Machine

open Sys2Proof

/-! ### MAC_GEN (R117, R119) -/

/-- Settles O28: the tag has 32 bytes, and the rule delivers it. -/
theorem macGenStoresTag : Obligations.MacGenStoresTag := by
  intro s wf operands fits
  have tagLen := mac_length (s.operand s.latch.a.b) (s.operand s.latch.a.a)
  refine ⟨tagLen, (stores_or_fails_of_deliver wf (i := .macGen) ?_).1 (tagLen.le.trans fits)⟩
  exact withOperands_of_ok s _ _ operands

/-! ### Comparing tags (R118) -/

/-- Differences accumulated by `or` are zero exactly when each of them is. -/
theorem foldl_or_eq_zero {n : Nat} (f : Nat → BitVec n) (l : List Nat) (acc : BitVec n) :
    l.foldl (fun acc i => acc ||| f i) acc = 0 ↔ acc = 0 ∧ ∀ i ∈ l, f i = 0 := by
  induction l generalizing acc with
  | nil => simp
  | cons i l ih =>
    rw [List.foldl_cons, ih, List.forall_mem_cons, ← and_assoc]
    exact and_congr_left' BitVec.or_eq_zero_iff

/-- Two 32-byte tags compare equal exactly when they are: a differing byte leaves a difference. -/
theorem ctEqual_iff {t1 t2 : Bytes} (len1 : t1.length = 32) (len2 : t2.length = 32) : ctEqual t1 t2 = true ↔ t1 = t2 := by
  constructor
  · intro equal
    rw [ctEqual, beq_iff_eq, ctDifference, foldl_or_eq_zero] at equal
    obtain ⟨-, bytes⟩ := equal
    refine List.ext_getElem (len1.trans len2.symm) fun i inside1 inside2 => ?_
    have same := BitVec.xor_eq_zero_iff.mp (bytes i (List.mem_range.mpr (len1 ▸ inside1)))
    rwa [List.getD_eq_getElem _ _ inside1, List.getD_eq_getElem _ _ inside2] at same
  · rintro rfl
    exact ctEqual_self t1

/-- A 32-byte string that is not the MAC is refused by the comparison. -/
theorem ctEqual_mac_of_ne {t k x : Bytes} (len : t.length = 32) (h : t ≠ mac k x) : ctEqual t (mac k x) = false := by
  rw [← Bool.not_eq_true, ctEqual_iff len (mac_length k x)]
  exact h

/-! ### MAC_VERIFY (R120) -/

/-- The rule of MAC_VERIFY on a 32-byte tag and admitted operands compares it with the MAC. -/
theorem macVerifyCommand_of_ok {s : State} (len : s.latch.a.cLen = 32)
    (inside : InsideDmem [s.latch.a.a, s.latch.a.b, s.latch.a.c]) :
    ruleOf .macVerify s = if ctEqual (s.operand s.latch.a.c) (mac (s.operand s.latch.a.b) (s.operand s.latch.a.a)) then
      .ok { state := s, results := { out0 := 1 } } else .error .authFail := by
  rw [ruleOf, macVerifyCommand, if_neg (not_not.mpr len), withInputs_of_ok _ _ inside]

/-- Settles O29: the length is checked first, and the comparison of 32 bytes decides the rest. -/
theorem macVerifyComparesWholeTag : Obligations.MacVerifyComparesWholeTag := by
  refine ⟨fun s other => fails_of_rule (if_pos other), fun s len inside => ?_⟩
  have rule := macVerifyCommand_of_ok len inside
  have tagLen : (s.operand s.latch.a.c).length = 32 := by rw [State.operand_length, Args.c, len]; rfl
  refine ⟨fun same => ?_, fun other => ?_⟩
  · rw [← same, if_pos (ctEqual_self _)] at rule
    exact answers_of_ok _ _ _ (by rw [exec_eq_complete, rule])
  · rw [ctEqual_mac_of_ne tagLen other] at rule
    exact fails_of_rule rule

/-! ### The selector (R121) -/

/-- The number of a cipher in a selector (R57). -/
def cipherNumber : Cipher → Nat
  | .blowfish => 0
  | .aes => 1
  | .camellia => 2
  | .idea => 3
  | .tripleDes => 4

theorem cipherNumber_le (c : Cipher) : cipherNumber c ≤ 4 := by
  cases c <;> decide

/-- Each number names its cipher alone. -/
theorem cipherOfNat_eq_some_iff (n : Nat) (c : Cipher) : cipherOfNat n = some c ↔ n = cipherNumber c := by
  constructor
  · intro named
    match n with
    | 0 | 1 | 2 | 3 | 4 => obtain rfl := Option.some.inj named; rfl
    | n + 5 => contradiction
  · rintro rfl
    cases c <;> rfl

/-- A selector up to 24 names its two ciphers by SEL mod 5 and SEL div 5. -/
theorem selector_of_le {sel : BitVec 8} (named : sel.toNat ≤ 24) :
    selectorPrimary sel = cipherOfNat (sel.toNat % 5) ∧ selectorSecondary sel = cipherOfNat (sel.toNat / 5) :=
  ⟨if_pos named, if_pos named⟩

/-- The one selector of an ordered pair of ciphers is the primary's number plus five times the secondary's. -/
theorem selector_names_iff (sel : BitVec 8) (c d : Cipher) :
    (sel.toNat ≤ 24 ∧ selectorPrimary sel = some c ∧ selectorSecondary sel = some d)
      ↔ sel.toNat = cipherNumber c + 5 * cipherNumber d := by
  have hc := cipherNumber_le c
  have hd := cipherNumber_le d
  constructor
  · rintro ⟨named, primary, secondary⟩
    rw [(selector_of_le named).1, cipherOfNat_eq_some_iff] at primary
    rw [(selector_of_le named).2, cipherOfNat_eq_some_iff] at secondary
    omega
  · intro number
    have named : sel.toNat ≤ 24 := by omega
    rw [(selector_of_le named).1, (selector_of_le named).2, cipherOfNat_eq_some_iff, cipherOfNat_eq_some_iff]
    omega

/-- Settles O59: the pair determines the selector's number, which is at most 24. -/
theorem selectorsNameAllCipherPairs : Obligations.SelectorsNameAllCipherPairs := by
  refine ⟨fun sel named => selector_of_le named, fun c d => ?_⟩
  have hc := cipherNumber_le c
  have hd := cipherNumber_le d
  simp only [selector_names_iff]
  have value : (BitVec.ofNat 8 (cipherNumber c + 5 * cipherNumber d)).toNat = cipherNumber c + 5 * cipherNumber d := by
    rw [BitVec.toNat_ofNat]
    omega
  exact ⟨_, value, fun other number => BitVec.eq_of_toNat_eq (number.trans value.symm)⟩

/-! ### ENV_ENC (R122, R123) -/

/-- Only ISO10126 draws fill bytes: all of its pad but the length byte (R67). -/
theorem padDraws_eq (scheme : Scheme) (b len : Nat) :
    padDraws scheme b len = if scheme = .iso10126 then padLen b len - 1 else 0 := by
  cases scheme <;> rfl

/-- The rule of ENV_ENC on admitted operands delivers the envelope of its draws (R123). -/
theorem envEncCommand_of_ok {s : State} {mcode pcode : BitVec 3} {sel : BitVec 8} {primary secondary : Cipher}
    {mode : Mode} {scheme : Scheme} {fill : Nat} (named : sel.toNat ≤ 24)
    (hp : cipherOfNat (sel.toNat % 5) = some primary) (hq : cipherOfNat (sel.toNat / 5) = some secondary)
    (hm : modeOfCode mcode = some mode) (hc : schemeOfCode pcode = some scheme)
    (operands : OperandsOk s [s.latch.a.a, s.latch.a.b, s.latch.a.c])
    (drawn : padDraws scheme (cipherBlockBytes primary) (s.operand s.latch.a.a).length = fill) :
    ruleOf (.envEnc mcode pcode sel) s = deliver s
      (envEncrypt Config.stretchHash primary secondary mode scheme (fun i => s.drawByte (8 + i))
        (fun i => s.drawByte (16 + fill + i)) (s.operand s.latch.a.a) (s.operand s.latch.a.b) (s.operand s.latch.a.c)
        (s.drawBytes 0 8) (s.drawBytes (8 + fill) 8)) (selectorResults sel) := by
  have start : 8 + fill + 8 = 16 + fill := by omega
  obtain ⟨first, second⟩ := selector_of_le named
  simp only [ruleOf, envEncCommand, first, second, hp, hq, hm, hc, withOperands_of_ok s _ _ operands, drawn, start]

/-- Settles O30: the rule delivers the MAC of the second layer and that layer. -/
theorem envEncStoresEnvelope : Obligations.EnvEncStoresEnvelope := by
  rintro s mcode pcode sel primary secondary mode scheme p k1 k2 s1 s2 l1 l2 fill wf named hp hq hm hc operands rfl rfl rfl
    filled rfl rfl rfl rfl fits
  have rule := envEncCommand_of_ok named hp hq hm hc operands ((padDraws_eq ..).trans filled.symm)
  refine (stores_or_fails_of_deliver wf rule).1 ?_
  rw [envEncrypt, List.length_append, mac_length]
  exact fits

/-! ### ENV_DEC (R124) -/

section

variable {stretch : HashAlg} {strict : Bool} {primary secondary : Cipher} {mode : Mode} {scheme : Scheme}
  {w k1 k2 : Bytes}

/-- An envelope that is too short for a tag and a salt is not decrypted. -/
theorem envDecrypt_of_short (short : w.length < 40) :
    envDecrypt stretch strict primary secondary mode scheme w k1 k2 = .error .decryptFail :=
  if_pos short

/-- The tag is compared before either layer is looked at. -/
theorem envDecrypt_of_badTag (long : 40 ≤ w.length) (tag : w.take 32 ≠ mac (k1 ++ k2) (w.drop 32)) :
    envDecrypt stretch strict primary secondary mode scheme w k1 k2 = .error .authFail := by
  have tagLen : (w.take 32).length = 32 := List.length_take_of_le (by omega)
  simp only [envDecrypt, ctEqual_mac_of_ne tagLen tag]
  exact if_neg (by omega)

/-- A layer of an authentic envelope that does not decrypt is ERR_DECRYPT_FAIL. -/
theorem envDecrypt_of_undecryptable (long : 40 ≤ w.length) (tag : w.take 32 = mac (k1 ++ k2) (w.drop 32))
    (undecryptable : ∀ l1 p, codecDecrypt stretch strict secondary mode scheme (w.drop 32) k2 1000 = .ok l1 →
      codecDecrypt stretch strict primary mode scheme l1 k1 1000 ≠ .ok p) :
    envDecrypt stretch strict primary secondary mode scheme w k1 k2 = .error .decryptFail := by
  simp only [envDecrypt, tag, ctEqual_self, Config.defaultRounds]
  rw [if_neg (by omega), if_neg (by decide)]
  cases outer : codecDecrypt stretch strict secondary mode scheme (w.drop 32) k2 1000 with
  | error e => rfl
  | ok l1 =>
    cases inner : codecDecrypt stretch strict primary mode scheme l1 k1 1000 with
    | error e => simp only [inner]
    | ok p => exact absurd inner (undecryptable l1 p outer)

end

/-- The rule of ENV_DEC on admitted operands raises what the envelope's decryption raises. -/
theorem envDecCommand_of_error {s : State} {mcode pcode : BitVec 3} {sel : BitVec 8} {primary secondary : Cipher}
    {mode : Mode} {scheme : Scheme} {e : ErrorCode} (named : sel.toNat ≤ 24)
    (hp : cipherOfNat (sel.toNat % 5) = some primary) (hq : cipherOfNat (sel.toNat / 5) = some secondary)
    (hm : modeOfCode mcode = some mode) (hc : schemeOfCode pcode = some scheme)
    (operands : OperandsOk s [s.latch.a.a, s.latch.a.b, s.latch.a.c])
    (refused : envDecrypt Config.stretchHash false primary secondary mode scheme (s.operand s.latch.a.a)
      (s.operand s.latch.a.b) (s.operand s.latch.a.c) = .error e) :
    ruleOf (.envDec mcode pcode sel) s = .error e := by
  obtain ⟨first, second⟩ := selector_of_le named
  simp only [ruleOf, envDecCommand, first, second, hp, hq, hm, hc, withOperands_of_ok s _ _ operands, Config.unpadStrict,
    refused]

/-- Settles O32: each kind of bad envelope is refused by the decryption with its own error. -/
theorem envDecRefusesBadEnvelopes : Obligations.EnvDecRefusesBadEnvelopes := by
  rintro s mcode pcode sel primary secondary mode scheme w k1 k2 named hp hq hm hc operands rfl rfl rfl
  have raised {e : ErrorCode} (refused) : Fails (.envDec mcode pcode sel) s e :=
    fails_of_rule (envDecCommand_of_error named hp hq hm hc operands refused)
  exact ⟨fun short => raised (envDecrypt_of_short short), fun long tag => raised (envDecrypt_of_badTag long tag),
    fun long tag undecryptable => raised (envDecrypt_of_undecryptable long tag undecryptable)⟩

end Sys2Proof.Machine

/-! The key in the slot (spec/45_keyexchange.md R138): the state with its key replaced, what reads of that state see, and
that every agent's turn but KX_COMPUTE's does the same whatever the key is. -/

namespace Sys2Proof.Machine

open Sys2Proof

/-! ### The state with another key -/

/-- The state with the key k in its slot (R35, R138). -/
def State.withKey (s : State) (k : Nat) : State := { s with slotPriv := k }

/-- The two states differ in the key at most. -/
def SameButKey (s t : State) : Prop := s.withKey 0 = t.withKey 0

/-- Choices by one condition are related when both branches are. -/
theorem rel_ite {α : Type} (R : α → α → Prop) {p : Prop} [Decidable p] {a b a' b' : α} (yes : R a a') (no : R b b') :
    R (if p then a else b) (if p then a' else b') := by
  split
  · exact yes
  · exact no

section
variable (s : State) (k : Nat)

theorem State.latch_withKey : (s.withKey k).latch = s.latch := rfl

theorem State.channel_withKey (c : ChannelId) : (s.withKey k).channel c = s.channel c := by cases c <;> rfl

theorem State.setChannel_withKey (c : ChannelId) (ch : Channel) :
    (s.withKey k).setChannel c ch = (s.setChannel c ch).withKey k := by cases c <;> rfl

/-- No register shows the key (10_state.md R35). -/
theorem State.readReg_withKey (r : Reg) : (s.withKey k).readReg r = s.readReg r := by
  cases r with
  | sc c r => rw [State.readReg, State.readReg, State.channel_withKey]
  | _ => rfl

/-! ### Host accesses (46_system.md R149, R150) -/

/-- A register write keeps the key unread, or, as the soft reset, zeroes it. -/
theorem sameButKey_writeReg (r : Reg) (v : Word) : SameButKey ((s.withKey k).writeReg r v) (s.writeReg r v) := by
  cases r with
  | ctrl => exact rel_ite SameButKey rfl rfl
  | cmd => exact rel_ite SameButKey rfl rfl
  | _ => rfl

theorem sameButKey_hostRead (o : Nat) (w : Width) : SameButKey (hostRead o w (s.withKey k)) (hostRead o w s) := by
  refine rel_ite SameButKey rfl ?_
  cases target o w with
  | register r => rw [State.readTarget, State.readTarget, State.readReg_withKey]; rfl
  | dmem | reserved => rfl

theorem sameButKey_hostWrite (o : Nat) (w : Width) (v : Word) :
    SameButKey (hostWrite o w v (s.withKey k)) (hostWrite o w v s) := by
  refine rel_ite SameButKey rfl ?_
  cases target o w with
  | register r => exact sameButKey_writeReg s k r v
  | dmem | reserved => rfl

/-- When the second step answers a next state, so does the first, and the two differ in the key at most. -/
def SameStep (a b : Host.Outcome State Fault Refusal) : Prop :=
  ∀ t, b = .next t → ∃ u, a = .next u ∧ SameButKey u t

theorem sameStep_next {u t : State} (h : SameButKey u t) : SameStep (.next u) (.next t) := by
  rintro _ ⟨⟩
  exact ⟨u, rfl, h⟩

theorem sameStep_fault (e : Fault) : SameStep (.fault e) (.fault e) := by
  intro t next
  contradiction

theorem sameStep_hostAccess (o : Nat) (w : Width) (op : BusOp) :
    SameStep (hostAccess o w op (s.withKey k)) (hostAccess o w op s) := by
  refine rel_ite SameStep ?_ (sameStep_fault _)
  cases op with
  | read => exact sameStep_next (sameButKey_hostRead s k o w)
  | write v => exact sameStep_next (sameButKey_hostWrite s k o w v)

/-! ### A channel's chunk (42_scrypt.md R89) -/

theorem chunk_withKey (c : ChannelId) : chunk c (s.withKey k) = (chunk c s).withKey k := by
  rw [chunk, chunk, State.channel_withKey]
  split
  · cases c <;> rfl
  · rw [workChannel, workChannel, State.channel_withKey]
    split
    · cases c <;> rfl
    · cases c <;> rfl

theorem sameStep_channelTurn (c : ChannelId) : SameStep (channelTurn c (s.withKey k)) (channelTurn c s) := by
  rw [channelTurn, channelTurn, State.channel_withKey, chunk_withKey]
  exact sameStep_next (rel_ite SameButKey rfl rfl)

end

/-! ### The rules of the commands -/

/-- The two outcomes are the same error, or effects that differ in the key at most. -/
inductive SameOutcome : Except ErrorCode Effect → Except ErrorCode Effect → Prop
  | error (e : ErrorCode) : SameOutcome (.error e) (.error e)
  | ok {s t : State} (r : Results) (same : SameButKey s t) :
      SameOutcome (.ok { state := s, results := r }) (.ok { state := t, results := r })

section
variable {s : State} {k : Nat} {o o' : Except ErrorCode Effect}

/-- The descriptor checks do not read the key (20_memory.md R43, R44). -/
theorem sameOutcome_withOperands {ins : List Descriptor} (h : SameOutcome o o') :
    SameOutcome (withOperands (s.withKey k) ins o) (withOperands s ins o') := by
  have checks : operandError (s.withKey k) ins = operandError s ins := rfl
  rw [withOperands, withOperands, checks]
  split
  · exact .error _
  · exact h

theorem sameOutcome_withInputs {ins : List Descriptor} (h : SameOutcome o o') :
    SameOutcome (withInputs ins o) (withInputs ins o') :=
  rel_ite SameOutcome (.error _) h

/-- A check of the operands or the engine, which does not read the key. -/
theorem sameOutcome_check {p : Prop} [Decidable p] {e : ErrorCode} (h : SameOutcome o o') :
    SameOutcome (if p then .error e else o) (if p then .error e else o') :=
  rel_ite SameOutcome (.error e) h

/-- The delivery of a result does not read the key (20_memory.md R45). -/
theorem sameOutcome_deliver {y : Bytes} {r : Results} : SameOutcome (deliver (s.withKey k) y r) (deliver s y r) :=
  sameOutcome_check (.ok _ rfl)

/-- A result that is delivered unless its computation fails. -/
theorem sameOutcome_match {o : Except ErrorCode Bytes} {r : Results} :
    SameOutcome (match o with | .error e => .error e | .ok y => deliver (s.withKey k) y r)
      (match o with | .error e => .error e | .ok y => deliver s y r) := by
  cases o with
  | error e => exact .error e
  | ok y => exact sameOutcome_deliver

end

/-- No rule but that of KX_COMPUTE reads the key (R138). -/
theorem sameOutcome_ruleOf {i : Instr} (other : i ≠ .kxCompute) (s : State) (k : Nat) :
    SameOutcome (ruleOf i (s.withKey k)) (ruleOf i s) := by
  cases i with
  | nop => exact .ok _ rfl
  | pad c =>
    rw [ruleOf, ruleOf, padCommand, padCommand]
    cases schemeOfCode c with
    | none => exact .error _
    | some scheme => exact sameOutcome_check (sameOutcome_withOperands sameOutcome_deliver)
  | unpad c =>
    rw [ruleOf, ruleOf, unpadCommand, unpadCommand]
    cases schemeOfCode c with
    | none => exact .error _
    | some scheme => exact sameOutcome_check (sameOutcome_withOperands sameOutcome_match)
  | keyfit => exact sameOutcome_check (sameOutcome_withOperands sameOutcome_deliver)
  | hash a =>
    rw [ruleOf, ruleOf, hashCommand, hashCommand]
    cases hashOfCode a with
    | none => exact .error _
    | some alg => exact sameOutcome_withOperands sameOutcome_deliver
  | stretch a =>
    rw [ruleOf, ruleOf, stretchCommand, stretchCommand]
    cases hashOfCode a with
    | none => exact .error _
    | some alg => exact sameOutcome_check (sameOutcome_withOperands sameOutcome_deliver)
  | scryptStart c =>
    rw [ruleOf, ruleOf, scryptStartCommand, scryptStartCommand]
    simp only [State.channel_withKey, State.setChannel_withKey]
    exact sameOutcome_check <| sameOutcome_check <| sameOutcome_check <| sameOutcome_check <| sameOutcome_check <|
      sameOutcome_check <| .ok _ rfl
  | scryptAck c =>
    rw [ruleOf, ruleOf, scryptAckCommand, scryptAckCommand, State.channel_withKey, State.setChannel_withKey]
    exact rel_ite SameOutcome (.ok _ rfl) (.error _)
  | scryptCancel c =>
    rw [ruleOf, ruleOf, scryptCancelCommand, scryptCancelCommand, State.channel_withKey, State.setChannel_withKey]
    exact rel_ite SameOutcome (.ok _ rfl) (.error _)
  | cipherEnc a m c =>
    rw [ruleOf, ruleOf, cipherEncCommand, cipherEncCommand]
    split
    · exact sameOutcome_withOperands sameOutcome_deliver
    · exact .error _
  | cipherDec a m c =>
    rw [ruleOf, ruleOf, cipherDecCommand, cipherDecCommand]
    split
    · exact sameOutcome_withOperands sameOutcome_match
    · exact .error _
  | macGen => exact sameOutcome_withOperands sameOutcome_deliver
  | macVerify =>
    exact sameOutcome_check (sameOutcome_withInputs (rel_ite SameOutcome (.ok _ rfl) (.error _)))
  | envEnc m c x =>
    rw [ruleOf, ruleOf, envEncCommand, envEncCommand]
    split
    · split
      · exact sameOutcome_withOperands sameOutcome_deliver
      · exact .error _
    · exact .error _
  | envDec m c x =>
    rw [ruleOf, ruleOf, envDecCommand, envDecCommand]
    split
    · split
      · exact sameOutcome_withOperands sameOutcome_match
      · exact .error _
    · exact .error _
  | kxGenerate x =>
    rw [ruleOf, ruleOf, kxGenerateCommand, kxGenerateCommand]
    cases tagOfNat x.toNat with
    | none => exact .error _
    | some t => exact sameOutcome_withOperands (sameOutcome_check (.ok _ rfl))
  | kxSerialize x =>
    rw [ruleOf, ruleOf, kxSerializeCommand, kxSerializeCommand]
    cases tagOfNat x.toNat with
    | none => exact .error _
    | some t => exact sameOutcome_withOperands (sameOutcome_check sameOutcome_deliver)
  | kxParse =>
    refine sameOutcome_withInputs ?_
    have blob : (s.withKey k).operand (s.withKey k).latch.a.a = s.operand s.latch.a.a := rfl
    rw [blob]
    split
    · exact .error _
    · exact .ok _ rfl
  | kxCompute => contradiction
  | kxNuke => exact .ok _ rfl
  | kxApplied => exact rel_ite SameOutcome (.ok _ rfl) (.error _)
  | saltOrder =>
    refine sameOutcome_withInputs ?_
    have order : remoteIsPrimary ((s.withKey k).operand (s.withKey k).latch.a.a)
        ((s.withKey k).operand (s.withKey k).latch.a.b)
        = remoteIsPrimary (s.operand s.latch.a.a) (s.operand s.latch.a.b) := rfl
    rw [order]
    split
    · exact .error _
    · exact .ok _ rfl

/-! ### The command unit's turn, and every turn (10_state.md R33) -/

theorem SameButKey.finish {s t : State} (h : SameButKey s t) (e : ErrorCode) (r : Results) :
    SameButKey (s.finish e r) (t.finish e r) :=
  congrArg (fun u : State => u.finish e r) h

/-- Completions of outcomes that differ in the key at most differ in it at most. -/
theorem SameOutcome.complete {o o' : Except ErrorCode Effect} (h : SameOutcome o o') (s : State) (k : Nat) :
    SameStep (complete (s.withKey k) o) (complete s o') := by
  cases h with
  | error e => exact sameStep_next rfl
  | ok r same => exact sameStep_next (same.finish .ok r)

theorem sameStep_commandTurn {s : State} (k : Nat) (other : ¬Executes .commandUnit s .kxCompute) :
    SameStep (commandTurn (s.withKey k)) (commandTurn s) := by
  rw [commandTurn, commandTurn, runLatched, runLatched, State.latch_withKey]
  split
  · rename_i pending
    split
    · rename_i i decoded
      have noCompute : i ≠ .kxCompute := by
        rintro rfl
        exact other ⟨rfl, pending, decoded⟩
      rw [exec_eq_complete, exec_eq_complete]
      exact (sameOutcome_ruleOf noCompute s k).complete s k
    · exact (SameOutcome.error .illegal).complete s k
  · exact sameStep_next rfl

/-- Settles O46: the turn of each agent, taken with another key, differs in the key at most. -/
theorem privateKeyIsReadOnlyByKxCompute : Obligations.PrivateKeyIsReadOnlyByKxCompute := by
  intro turn s t k other next
  have same : SameStep (takeTurn turn (s.withKey k)) (takeTurn turn s) := by
    cases turn with
    | host o w op => exact sameStep_hostAccess s k o w op
    | platform a w op => exact rel_ite SameStep (sameStep_hostAccess s k _ w op) (sameStep_fault _)
    | commandUnit => exact sameStep_commandTurn k other
    | channel c => exact sameStep_channelTurn s k c
  exact same t next

end Sys2Proof.Machine

/-! The key-exchange engine (spec/45_keyexchange.md R137 to R144): the commands that write the key slot, and every agent's
turn as a row of the transition table. -/

namespace Sys2Proof.Machine

open Sys2Proof

/-! ### The reset state (70_reset_and_hazards.md R178) -/

/-- Settles O42: the reset state is its own soft reset. -/
theorem resetStateMeetsInvariant : Obligations.ResetStateMeetsInvariant := inv_softReset State.reset

/-! ### KX_NUKE and KX_APPLIED (R143, R144) -/

/-- A command whose rule only writes the slot. -/
theorem movesSlot_of_rule {i : Instr} {s : State} {phase : KxPhase} {tag : Option Tag} {priv : Nat}
    (rule : ruleOf i s = .ok { state := s.setSlot phase tag priv }) : MovesSlot i s phase tag priv :=
  ⟨(s.setSlot phase tag priv).finish .ok {}, by rw [exec_eq_complete, rule]; rfl, finish_completed s _ _ _ rfl rfl rfl rfl,
    ⟨rfl, rfl, rfl, rfl, rfl, rfl, rfl, rfl, rfl⟩, ⟨rfl, rfl, rfl⟩, ⟨rfl, rfl⟩, fun _ => rfl⟩

/-- Settles O37: KX_NUKE has no check, and the engine's state decides between the two answers of KX_APPLIED. -/
theorem kxNukeAndAppliedMoveEngine : Obligations.KxNukeAndAppliedMoveEngine :=
  fun _ => ⟨movesSlot_of_rule rfl, fun computed => movesSlot_of_rule (if_pos computed),
    fun other => fails_of_rule (if_neg other)⟩

/-! ### KX_COMPUTE (R142) -/

section
variable {s : State} {t : Tag} (tag : s.slotTag = some t) (operands : OperandsOk s [s.latch.a.a])
include tag operands

/-- A refused public value is the rule's error. -/
theorem kxCompute_of_refused (refused : sharedSecret t s.slotPriv (s.operand s.latch.a.a) = none) :
    ruleOf .kxCompute s = .error .kxFail := by
  simp only [ruleOf, kxComputeCommand, tag, refused]
  exact withOperands_of_ok s _ _ operands

/-- A secret is stored, and the slot emptied, unless the secret is longer than DST_CAP. -/
theorem kxCompute_of_secret {sec : Bytes} (secret : sharedSecret t s.slotPriv (s.operand s.latch.a.a) = some sec) :
    ruleOf .kxCompute s =
      if s.latch.a.dst.len < secLen t then .error .capacity
      else .ok { state := (s.storeBytes s.latch.a.dst.off sec).setSlot .secretComputed none 0
                 results := { outLen := BitVec.ofNat 32 (secLen t), out0 := tagResult t } } := by
  simp only [ruleOf, kxComputeCommand, tag, secret]
  exact withOperands_of_ok s _ _ operands

end

/-- The tag's number as a result register (R139, R142). -/
theorem tagResult_eq (t : Tag) : tagResult t = BitVec.ofNat 32 (tagCode t).toNat := (BitVec.ofNat_toNat 32 _).symm

/-- Settles O36: the slot, the secret and the capacity decide the answer in turn. -/
theorem kxComputeStoresSecretOnce : Obligations.KxComputeStoresSecretOnce := by
  refine ⟨fun s empty => fails_of_rule (by simp only [ruleOf, kxComputeCommand, empty]), fun s t tag operands =>
    ⟨fun refused => fails_of_rule (kxCompute_of_refused tag operands refused), fun sec secret => ?_⟩⟩
  have length := sharedSecret_length _ _ _ _ secret
  have rule := kxCompute_of_secret tag operands secret
  refine ⟨length, fun full => fails_of_rule (rule.trans (if_pos full)), fun wf fits => ?_⟩
  refine storesAndMovesSlot_of_ok .kxCompute s sec _ _ _ _ wf ?_
  have fitting : ¬s.latch.a.dst.len < secLen t := Nat.not_lt.mpr fits
  rw [exec_eq_complete, rule, if_neg fitting, ← length, tagResult_eq]
  rfl

/-! ### The transition table: the command unit's turn (R137, R138) -/

/-- Of the commands that succeed, KX_GENERATE, KX_COMPUTE, KX_NUKE and KX_APPLIED alone write the slot or KX_STATE. -/
theorem kxRule_ruleOf {turn : Turn} {i : Instr} {s : State} {e : Effect} (executes : Executes turn s i)
    (ok : ruleOf i s = .ok e) : KxRule turn s (e.state.finish .ok e.results) := by
  rcases ruleOf_ok i s e ok with same | ⟨ins, y, r, -, -, rfl⟩ | ⟨c, -, start⟩ | ⟨c, -, -, rfl⟩ | ⟨c, -, -, rfl⟩
    | ⟨sel, tag, rfl, named, -, -, rfl⟩ | ⟨tag, sec, rfl, live, -, -, -, rfl⟩ | ⟨rfl, rfl⟩ | ⟨rfl, computed, rfl⟩
  · rw [same]
    exact .inl ⟨rfl, rfl, rfl⟩
  · exact .inl ⟨rfl, rfl, rfl⟩
  · rw [start.effect]
    exact .inl ⟨by simp, by simp, by simp⟩
  · exact .inl ⟨by simp, by simp, by simp⟩
  · exact .inl ⟨by simp, by simp, by simp⟩
  · exact .inr (.inl ⟨sel, tag, executes, rfl, named, rfl, rfl, rfl⟩)
  · exact .inr (.inr (.inl ⟨executes, rfl, ⟨tag, live⟩, rfl, rfl, rfl⟩))
  · exact .inr (.inr (.inr (.inr (.inl ⟨executes, rfl, rfl, rfl⟩))))
  · exact .inr (.inr (.inr (.inl ⟨executes, rfl, computed, rfl, rfl, rfl⟩)))

/-- A command that fails, and fields that are no command, leave the slot (60_exceptions.md R159). -/
theorem kxRule_commandTurn {s t : State} (next : commandTurn s = .next t) : KxRule .commandUnit s t := by
  simp only [commandTurn, runLatched] at next
  split at next
  · rename_i pending
    split at next
    · rename_i i decoded
      rw [exec_eq_complete] at next
      rcases complete_cases s t _ next with ⟨e, ok, rfl⟩ | ⟨e, -, rfl⟩
      · exact kxRule_ruleOf ⟨rfl, pending, decoded⟩ ok
      · exact .inl ⟨rfl, rfl, rfl⟩
    · cases next
      exact .inl ⟨rfl, rfl, rfl⟩
  · cases next
    exact .inl ⟨rfl, rfl, rfl⟩

/-! ### The host's and the channels' turns -/

/-- A register write leaves the slot, but for the soft reset (46_system.md R152). -/
theorem State.writeReg_slot_cases (s : State) (r : Reg) (v : Word) :
    SameSlot s (s.writeReg r v) ∨ (r = .ctrl ∧ v.getLsbD 0 = true ∧ s.writeReg r v = s.softReset) := by
  cases r with
  | ctrl =>
    rw [State.writeReg, State.writeCtrl]
    split
    · rename_i srst
      exact .inr ⟨rfl, srst, rfl⟩
    · exact .inl ⟨rfl, rfl, rfl⟩
  | cmd =>
    rw [State.writeReg, State.issue]
    split
    · exact .inl ⟨rfl, rfl, rfl⟩
    · exact .inl ⟨rfl, rfl, rfl⟩
  | _ => exact .inl ⟨rfl, rfl, rfl⟩

/-- A host read leaves the slot. -/
theorem hostRead_sameSlot (o : Nat) (w : Width) (s : State) : SameSlot s (hostRead o w s) := by
  rw [hostRead]
  split
  · exact ⟨rfl, rfl, rfl⟩
  · exact ⟨rfl, rfl, rfl⟩

/-- A host write leaves the slot, but for an aligned 4-byte write to CTRL with bit 0 set. -/
theorem hostWrite_slot_cases (o : Nat) (w : Width) (v : Word) (s : State) :
    SameSlot s (hostWrite o w v s)
      ∨ (o = 0x004 ∧ w = .word ∧ v.getLsbD 0 = true ∧ hostWrite o w v s = s.softReset) := by
  rw [hostWrite]
  split
  · exact .inl ⟨rfl, rfl, rfl⟩
  rename_i allowed
  cases hit : target o w with
  | register r =>
    rcases s.writeReg_slot_cases r v with same | ⟨rfl, srst, reset⟩
    · exact .inl same
    · have wide : w = .word := by
        rw [accessRefused, hit, Bool.or_eq_true, not_or] at allowed
        simpa [Target.refuses] using allowed.2
      exact .inr ⟨offset_of_target hit, wide, srst, reset⟩
  | dmem | reserved => exact .inl ⟨rfl, rfl, rfl⟩

/-- A host access leaves the slot, or it is a soft reset, named by either of its addresses. -/
theorem kxRule_hostAccess {turn : Turn} {o : Nat} {w : Width} {op : BusOp} {s t : State}
    (named : turn = .host o w op ∨ turn = .platform (Config.base + o) w op) (next : hostAccess o w op s = .next t) :
    KxRule turn s t := by
  simp only [hostAccess] at next
  split at next
  swap
  · contradiction
  cases op with
  | read =>
    obtain rfl := Host.Outcome.next.inj next
    exact .inl (hostRead_sameSlot o w s)
  | write v =>
    obtain rfl := Host.Outcome.next.inj next
    rcases hostWrite_slot_cases o w v s with same | ⟨rfl, rfl, srst, reset⟩
    · exact .inl same
    · rw [reset]
      exact .inr (.inr (.inr (.inr (.inr ⟨⟨v, srst, named⟩, rfl, rfl, rfl⟩))))

/-- A channel's chunk leaves the slot (42_scrypt.md R93). -/
theorem chunk_sameSlot (c : ChannelId) (s : State) : SameSlot s (chunk c s) := by
  rw [(chunk_frame c s).1]
  exact ⟨rfl, rfl, rfl⟩

/-- Settles O45: the host's access, the command unit's command and a channel's chunk each follow the table. -/
theorem keyExchangeFollowsTable : Obligations.KeyExchangeFollowsTable := by
  intro turn s t next
  cases turn with
  | host o w op => exact kxRule_hostAccess (.inl rfl) next
  | platform a w op =>
    simp only [takeTurn, platformAccess] at next
    split at next
    · rename_i window
      exact kxRule_hostAccess (.inr (by rw [Nat.add_sub_cancel' window.1])) next
    · contradiction
  | commandUnit => exact kxRule_commandTurn next
  | channel c =>
    obtain rfl := Host.Outcome.next.inj next
    split
    · exact .inl (chunk_sameSlot c s)
    · exact .inl ⟨rfl, rfl, rfl⟩

end Sys2Proof.Machine

/-! Public-key blobs (spec/45_keyexchange.md R140, R141): the blob that KX_SERIALIZE stores, and the strings that KX_PARSE
accepts. -/

namespace Sys2Proof.Machine

open Sys2Proof

/-- A place n bytes after the one that a register holds. -/
theorem word_add_ofNat (w : Word) (n : Nat) : w + BitVec.ofNat 32 n = BitVec.ofNat 32 (w.toNat + n) := by
  rw [BitVec.ofNat_add, BitVec.ofNat_toNat, BitVec.setWidth_eq]

/-! ### KX_SERIALIZE (R140) -/

section
variable {s : State} {sel : BitVec 8} {t : Tag} (tag : tagOfNat sel.toNat = some t)
  (operands : OperandsOk s [s.latch.a.a])
include tag operands

/-- A key of the wrong length is the rule's error. -/
theorem kxSerialize_of_badLength (bad : s.latch.a.aLen.toNat ≠ pubLen t) :
    ruleOf (.kxSerialize sel) s = .error .length := by
  simp only [ruleOf, kxSerializeCommand, tag]
  rw [withOperands_of_ok s _ _ operands]
  exact if_pos bad

/-- A key of the tag's length is delivered behind the tag, the salt's length and the salt. -/
theorem kxSerialize_of_key (key : s.latch.a.aLen.toNat = pubLen t) : ruleOf (.kxSerialize sel) s =
    deliver s (sel :: BitVec.ofNat 8 (blobSaltLen s) :: (s.drawBytes 1 (blobSaltLen s) ++ s.operand s.latch.a.a))
      { out0 := BitVec.ofNat 32 (blobSaltLen s), out1 := BitVec.ofNat 32 (s.latch.a.dstOff.toNat + 2) } := by
  simp only [ruleOf, kxSerializeCommand, tag]
  have fitting : ¬s.latch.a.a.len ≠ pubLen t := not_not.mpr key
  rw [withOperands_of_ok s _ _ operands, if_neg fitting, publicKeyBlob, State.drawBytes_length,
    tagCode_of_tagOfNat sel t tag, ← word_add_ofNat]
  rfl

end

/-- Settles O34: the drawn length lies in its range, and the key's length decides between the error and the blob. -/
theorem kxSerializeStoresBlob : Obligations.KxSerializeStoresBlob := by
  rintro s sel t _ wf tag operands rfl
  obtain ⟨low, high⟩ := s.drawInt_mem 0 16 31 (by decide)
  refine ⟨low, high, fun bad => fails_of_rule (kxSerialize_of_badLength tag operands bad), fun key fits => ?_⟩
  refine (stores_or_fails_of_deliver wf (kxSerialize_of_key tag operands key)).1 ?_
  have keyLen : (s.operand s.latch.a.a).length = pubLen t := (s.operand_length _).trans key
  rw [List.length_cons, List.length_cons, List.length_append, State.drawBytes_length, keyLen, blobSaltLen]
  omega

/-! ### KX_PARSE (R141) -/

/-- x is the blob [tb] ‖ [n] ‖ salt ‖ key of tag t: a salt of 16 to 32 bytes and a key of PUBLEN(t) bytes. -/
def IsBlob (x : Bytes) (t : Tag) (tb n : Byte) (salt key : Bytes) : Prop :=
  x = tb :: n :: (salt ++ key) ∧ tagOfNat tb.toNat = some t ∧ 16 ≤ n.toNat ∧ n.toNat ≤ 32 ∧ salt.length = n.toNat
    ∧ key.length = pubLen t

theorem parseBlob_of_isBlob {x : Bytes} {t : Tag} {tb n : Byte} {salt key : Bytes} (blob : IsBlob x t tb n salt key) :
    parseBlob x = some (t, n.toNat) := by
  obtain ⟨rfl, tag, low, high, saltLen, keyLen⟩ := blob
  have range : ¬(n.toNat < 16 ∨ 32 < n.toNat) := by omega
  simp only [parseBlob, tag, if_neg range, List.length_append, saltLen, keyLen, ne_eq, not_true_eq_false, if_false]

/-- The rest of an accepted string is a salt of the length that it says, and the key. -/
theorem isBlob_of_parseBlob {x : Bytes} {p : Tag × Nat} (parsed : parseBlob x = some p) :
    ∃ t tb n salt key, IsBlob x t tb n salt key := by
  unfold parseBlob at parsed
  split at parsed
  swap
  · contradiction
  rename_i tb n rest
  split at parsed
  · contradiction
  rename_i t tag
  split at parsed
  · contradiction
  rename_i range
  split at parsed
  · contradiction
  rename_i len
  rw [not_not] at len
  refine ⟨t, tb, n, rest.take n.toNat, rest.drop n.toNat, by rw [List.take_append_drop], tag, by omega, by omega, ?_, ?_⟩
  · rw [List.length_take]; omega
  · rw [List.length_drop]; omega

/-- The rule of KX_PARSE on an admitted operand answers what the parser reads. -/
theorem kxParse_of_blob {s : State} (inside : InsideDmem [s.latch.a.a]) {t : Tag} {n : Nat}
    (parsed : parseBlob (s.operand s.latch.a.a) = some (t, n)) :
    ruleOf .kxParse s = .ok
      { state := s
        results :=
          { out0 := tagResult t, out1 := s.latch.a.aOff + 2, out2 := BitVec.ofNat 32 n,
            out3 := s.latch.a.aOff + 2 + BitVec.ofNat 32 n, out4 := BitVec.ofNat 32 (pubLen t) } } := by
  simp only [ruleOf, kxParseCommand, parsed]
  exact withInputs_of_ok _ _ inside

/-- The rule of KX_PARSE refuses what the parser refuses. -/
theorem kxParse_of_refused {s : State} (inside : InsideDmem [s.latch.a.a])
    (refused : parseBlob (s.operand s.latch.a.a) = none) : ruleOf .kxParse s = .error .badBlob := by
  simp only [ruleOf, kxParseCommand, refused]
  exact withInputs_of_ok _ _ inside

/-- Settles O35: the parser accepts exactly the well-formed blobs. -/
theorem kxParseLocatesSaltAndKey : Obligations.KxParseLocatesSaltAndKey := by
  refine ⟨fun s t tb n salt key inside input tag low high saltLen keyLen => ?_, fun s inside noBlob => ?_⟩
  · have rule := kxParse_of_blob inside (parseBlob_of_isBlob ⟨input, tag, low, high, saltLen, keyLen⟩)
    have saltPlace : s.latch.a.aOff + 2 = BitVec.ofNat 32 (s.latch.a.aOff.toNat + 2) := word_add_ofNat _ 2
    rw [saltPlace, ← BitVec.ofNat_add, tagResult_eq, tagCode_of_tagOfNat tb t tag] at rule
    exact answers_of_ok .kxParse s _ (by rw [exec_eq_complete, rule])
  · refine fails_of_rule (kxParse_of_refused inside (Option.eq_none_iff_forall_ne_some.mpr fun p parsed => ?_))
    exact noBlob (isBlob_of_parseBlob parsed)

end Sys2Proof.Machine

/-! The salt order (spec/45_keyexchange.md R145) and the DH secret (R128, R134): both are facts of big-endian integers. -/

namespace Sys2Proof.Machine

open Sys2Proof

/-! ### Big-endian integers (00_scope.md R10) -/

theorem leNat_append (x y : Bytes) : leNat (x ++ y) = leNat x + 256 ^ x.length * leNat y := by
  induction x with
  | nil => simp [leNat]
  | cons b bs ih =>
    rw [List.cons_append, leNat, leNat, ih, List.length_cons, pow_succ]
    ring

theorem beNat_append (x y : Bytes) : beNat (x ++ y) = beNat x * 256 ^ y.length + beNat y := by
  rw [beNat, List.reverse_append, leNat_append, List.length_reverse, Nat.add_comm, Nat.mul_comm]
  rfl

theorem beNat_lt (x : Bytes) : beNat x < 256 ^ x.length := by
  have bound := leNat_lt x.reverse
  rwa [List.length_reverse] at bound

theorem beNat_beBytes (n v : Nat) : beNat (beBytes n v) = v % 256 ^ n := by
  rw [beNat, beBytes, List.reverse_reverse, leNat_leBytes]

/-- A string is the bytes of its integer. -/
theorem beBytes_beNat (x : Bytes) : beBytes x.length (beNat x) = x := by
  have back := leBytes_leNat x.reverse
  rw [List.length_reverse] at back
  rw [beBytes, beNat, back, List.reverse_reverse]

/-- Strings of one length are equal when their integers are. -/
theorem eq_of_beNat_eq {x y : Bytes} (len : x.length = y.length) (same : beNat x = beNat y) : x = y := by
  rw [← beBytes_beNat x, ← beBytes_beNat y, len, same]

/-- Of two strings of one length with different heads, the one with the smaller head is the smaller integer. -/
theorem beNat_append_lt {x y restX restY : Bytes} (len : restX.length = restY.length) (less : beNat x < beNat y) :
    beNat (x ++ restX) < beNat (y ++ restY) := by
  rw [beNat_append, beNat_append, len]
  have bound := beNat_lt restX
  rw [len] at bound
  calc beNat x * 256 ^ restY.length + beNat restX
      < (beNat x + 1) * 256 ^ restY.length := by rw [Nat.succ_mul]; omega
    _ ≤ beNat y * 256 ^ restY.length := Nat.mul_le_mul_right _ less
    _ ≤ beNat y * 256 ^ restY.length + beNat restY := Nat.le_add_right _ _

/-! ### The order of two salts (R145) -/

/-- Is the remote integer the larger one; `none` when they are equal. -/
def remoteLarger (l r : Nat) : Option Bool := if r ≠ l then some (decide (l < r)) else none

theorem remoteLarger_self (n : Nat) : remoteLarger n n = none := if_neg (not_not.mpr rfl)

theorem remoteLarger_of_lt {l r : Nat} (less : l < r) : remoteLarger l r = some true := by
  rw [remoteLarger, if_pos (Nat.ne_of_gt less), decide_eq_true less]

theorem remoteLarger_of_gt {l r : Nat} (greater : r < l) : remoteLarger l r = some false := by
  rw [remoteLarger, if_pos (Nat.ne_of_lt greater), decide_eq_false (Nat.not_lt_of_gt greater)]

theorem remoteLarger_add_left (c l r : Nat) : remoteLarger (c + l) (c + r) = remoteLarger l r := by
  simp only [remoteLarger, ne_eq, Nat.add_left_cancel_iff, Nat.add_lt_add_iff_left]

/-- Heads that differ decide between two strings, and equal heads leave it to the rests. -/
theorem remoteLarger_append {x y restX restY : Bytes} (len : restX.length = restY.length) :
    remoteLarger (beNat (x ++ restX)) (beNat (y ++ restY)) =
      if beNat y ≠ beNat x then some (decide (beNat x < beNat y)) else remoteLarger (beNat restX) (beNat restY) := by
  rcases lt_trichotomy (beNat x) (beNat y) with less | same | greater
  · rw [remoteLarger_of_lt (beNat_append_lt len less), if_pos (Nat.ne_of_gt less), decide_eq_true less]
  · rw [if_neg (not_not.mpr same.symm), beNat_append, beNat_append, same, len, remoteLarger_add_left]
  · rw [remoteLarger_of_gt (beNat_append_lt len.symm greater), if_pos (Nat.ne_of_lt greater),
      decide_eq_false (Nat.not_lt_of_gt greater)]

/-- The chunks of two strings of one length are compared as the strings are. -/
theorem firstDifference_splitBlocks {n count : Nat} {l r : Bytes} (len : l.length = r.length)
    (covered : l.length ≤ count * n) :
    firstDifference (splitBlocks n count l) (splitBlocks n count r) = remoteLarger (beNat l) (beNat r) := by
  induction count generalizing l r with
  | zero =>
    obtain rfl : l = [] := List.length_eq_zero_iff.mp (by omega)
    obtain rfl : r = [] := List.length_eq_zero_iff.mp len.symm
    rfl
  | succ count ih =>
    rw [Nat.succ_mul] at covered
    have restLen : (l.drop n).length = (r.drop n).length := by rw [List.length_drop, List.length_drop, len]
    have rest := ih restLen (by rw [List.length_drop]; omega)
    rw [splitBlocks, splitBlocks, firstDifference, rest, ← remoteLarger_append restLen, List.take_append_drop,
      List.take_append_drop]

/-- The local salt is the smaller one: a shorter string, or one of the same length and a smaller integer. -/
def SaltLess (l r : Bytes) : Prop := l.length < r.length ∨ (l.length = r.length ∧ beNat l < beNat r)

theorem saltLess_trichotomy (l r : Bytes) : SaltLess l r ∨ l = r ∨ SaltLess r l := by
  rcases lt_trichotomy l.length r.length with shorter | len | longer
  · exact .inl (.inl shorter)
  · rcases lt_trichotomy (beNat l) (beNat r) with less | same | greater
    · exact .inl (.inr ⟨len, less⟩)
    · exact .inr (.inl (eq_of_beNat_eq len same))
    · exact .inr (.inr (.inr ⟨len.symm, greater⟩))
  · exact .inr (.inr (.inl longer))

/-- Salts of one length are ordered as their integers. -/
theorem remoteIsPrimary_of_length_eq {l r : Bytes} (len : l.length = r.length) :
    remoteIsPrimary l r = remoteLarger (beNat l) (beNat r) := by
  rw [remoteIsPrimary, if_neg (not_not.mpr len.symm), blocksOf, blocksOf, ← len]
  exact firstDifference_splitBlocks len (by omega)

theorem remoteIsPrimary_of_length_ne {l r : Bytes} (len : r.length ≠ l.length) :
    remoteIsPrimary l r = some (decide (l.length < r.length)) := if_pos len

/-- The larger salt is primary, whichever peer asks. -/
theorem remoteIsPrimary_of_saltLess {l r : Bytes} (h : SaltLess l r) :
    remoteIsPrimary l r = some true ∧ remoteIsPrimary r l = some false := by
  rcases h with shorter | ⟨len, less⟩
  · rw [remoteIsPrimary_of_length_ne (Nat.ne_of_gt shorter), remoteIsPrimary_of_length_ne (Nat.ne_of_lt shorter),
      decide_eq_true shorter, decide_eq_false (Nat.not_lt_of_gt shorter)]
    exact ⟨rfl, rfl⟩
  · rw [remoteIsPrimary_of_length_eq len, remoteIsPrimary_of_length_eq len.symm]
    exact ⟨remoteLarger_of_lt less, remoteLarger_of_gt less⟩

/-- Equal salts tie. -/
theorem remoteIsPrimary_self (l : Bytes) : remoteIsPrimary l l = none := by
  rw [remoteIsPrimary_of_length_eq rfl, remoteLarger_self]

/-- Opposite answers to the two peers make the salts different. -/
theorem antisymmetric_of_decided {l r : Bytes} {b : Bool} (here : remoteIsPrimary l r = some b)
    (there : remoteIsPrimary r l = some (!b)) :
    (remoteIsPrimary l r = none ↔ l = r)
      ∧ ∀ c : Bool, remoteIsPrimary l r = some c → remoteIsPrimary r l = some (!c) := by
  refine ⟨iff_of_false (by rw [here]; nofun) ?_, fun c decided => ?_⟩
  · rintro rfl
    rw [remoteIsPrimary_self] at here
    contradiction
  · obtain rfl := Option.some.inj (here.symm.trans decided)
    exact there

/-- Settles O60: one salt is smaller than the other, or they are equal. -/
theorem saltOrderIsAntisymmetric : Obligations.SaltOrderIsAntisymmetric := by
  intro l r
  rcases saltLess_trichotomy l r with less | rfl | greater
  · obtain ⟨here, there⟩ := remoteIsPrimary_of_saltLess less
    exact antisymmetric_of_decided here there
  · rw [remoteIsPrimary_self]
    exact ⟨iff_of_true rfl rfl, nofun⟩
  · obtain ⟨there, here⟩ := remoteIsPrimary_of_saltLess greater
    exact antisymmetric_of_decided here there

/-! ### SALT_ORDER (R145) -/

section
variable {s : State} (inside : InsideDmem [s.latch.a.a, s.latch.a.b])
include inside

theorem saltOrder_of_decided {b : Bool}
    (decided : remoteIsPrimary (s.operand s.latch.a.a) (s.operand s.latch.a.b) = some b) :
    ruleOf .saltOrder s = .ok { state := s, results := { out0 := if b then 1 else 0 } } := by
  simp only [ruleOf, saltOrderCommand, decided]
  exact withInputs_of_ok _ _ inside

theorem saltOrder_of_tie (tie : remoteIsPrimary (s.operand s.latch.a.a) (s.operand s.latch.a.b) = none) :
    ruleOf .saltOrder s = .error .saltTie := by
  simp only [ruleOf, saltOrderCommand, tie]
  exact withInputs_of_ok _ _ inside

/-- SALT_ORDER with a smaller local salt answers 1. -/
theorem saltOrder_of_less (less : SaltLess (s.operand s.latch.a.a) (s.operand s.latch.a.b)) :
    Answers .saltOrder s { out0 := 1 } :=
  answers_of_ok _ s _ (by rw [exec_eq_complete, saltOrder_of_decided inside (remoteIsPrimary_of_saltLess less).1]; rfl)

/-- SALT_ORDER with a smaller remote salt answers 0. -/
theorem saltOrder_of_greater (greater : SaltLess (s.operand s.latch.a.b) (s.operand s.latch.a.a)) :
    Answers .saltOrder s { out0 := 0 } :=
  answers_of_ok _ s _ (by rw [exec_eq_complete, saltOrder_of_decided inside (remoteIsPrimary_of_saltLess greater).2]; rfl)

end

/-- The first byte that differs decides between strings of one length. -/
theorem saltLess_of_byte {same restL restR : Bytes} {x y : Byte} (len : restL.length = restR.length)
    (less : x.toNat < y.toNat) : SaltLess (same ++ x :: restL) (same ++ y :: restR) := by
  have single (b : Byte) : beNat (same ++ [b]) = beNat same * 256 + b.toNat := by
    rw [beNat_append]
    rfl
  have heads : beNat (same ++ [x]) < beNat (same ++ [y]) := by
    rw [single, single]
    omega
  have whole := beNat_append_lt len heads
  rw [List.append_assoc, List.append_assoc] at whole
  exact .inr ⟨by rw [List.length_append, List.length_append, List.length_cons, List.length_cons, len], whole⟩

/-- Settles O38: each clause says which salt is the smaller one. -/
theorem saltOrderPicksLargerSalt : Obligations.SaltOrderPicksLargerSalt := by
  intro s l r inside hl hr
  refine ⟨fun shorter => saltOrder_of_less inside (hl ▸ hr ▸ .inl shorter),
    fun longer => saltOrder_of_greater inside (hl ▸ hr ▸ .inl longer), fun same restL restR x y eqL eqR len ne => ?_,
    fun equal => fails_of_rule (saltOrder_of_tie inside ?_)⟩
  · rcases Nat.lt_or_gt_of_ne (mt BitVec.eq_of_toNat_eq ne) with less | greater
    · rw [if_pos less]
      refine saltOrder_of_less inside ?_
      rw [← hl, ← hr, eqL, eqR]
      exact saltLess_of_byte len less
    · rw [if_neg (Nat.not_lt_of_gt greater)]
      refine saltOrder_of_greater inside ?_
      rw [← hl, ← hr, eqL, eqR]
      exact saltLess_of_byte len.symm greater
  · rw [← hl, ← hr, equal, remoteIsPrimary_self]

/-! ### The DH secret (R128, R134) -/

/-- The DH secret is the power of the public value, refused outside the ranges of R134. -/
theorem dhSecret_eq (group : DhGroup) (bits x : Nat) (v : Bytes) : dhSecret group bits x v =
    if v.length = bits / 8 ∧ 2 ≤ beNat v ∧ beNat v ≤ group.p - 2 ∧ beNat v ^ x % group.p ≠ 1 then
      some (beBytes (bits / 8) (beNat v ^ x % group.p))
    else none := by
  simp only [dhSecret, powMod_eq]
  by_cases len : v.length = bits / 8
  swap
  · rw [if_pos len, if_neg fun h => len h.1]
  rw [if_neg (not_not.mpr len)]
  by_cases range : beNat v < 2 ∨ group.p - 2 < beNat v
  · rw [if_pos range, if_neg (by omega)]
  rw [if_neg range]
  by_cases one : beNat v ^ x % group.p = 1
  · rw [if_pos one, if_neg fun h => h.2.2.2 one]
  · rw [if_neg one, if_pos ⟨len, by omega, by omega, one⟩]

/-- Settles O58: square-and-multiply is the power, and R134's checks are those of the rule. -/
theorem dhSecretIsModularPower : Obligations.DhSecretIsModularPower := ⟨powMod_eq, dhSecret_eq⟩

/-- A secret computed from the other party's public key g^y is g^(y·x): the key is read back from its bytes, since an
accepted value lies below p. -/
theorem dhSecret_of_publicKey {group : DhGroup} {bits x y : Nat} {sec : Bytes} (whole : bits % 8 = 0)
    (bound : group.p ≤ 2 ^ bits)
    (secret : dhSecret group bits x (beBytes (bits / 8) (powMod group.p group.g y)) = some sec) :
    sec = beBytes (bits / 8) (group.g ^ (y * x) % group.p) := by
  rw [dhSecret_eq] at secret
  split at secret
  swap
  · contradiction
  rename_i accepted
  obtain ⟨-, low, high, -⟩ := accepted
  have bytes : 256 ^ (bits / 8) = 2 ^ bits := by
    rw [show 256 = 2 ^ 8 from rfl, ← pow_mul, Nat.mul_div_cancel' (Nat.dvd_of_mod_eq_zero whole)]
  have below : group.g ^ y % group.p < 256 ^ (bits / 8) :=
    bytes ▸ lt_of_lt_of_le (Nat.mod_lt _ (by omega)) bound
  rw [beNat_beBytes, powMod_eq, Nat.mod_eq_of_lt below, ← Nat.pow_mod, ← pow_mul] at secret
  exact (Option.some.inj secret).symm

/-- Settles O57: both secrets are g^(x·y). -/
theorem dhPartiesAgree : Obligations.DhPartiesAgree := by
  intro group bits x y sx sy whole bound secretX secretY
  rw [dhSecret_of_publicKey whole bound secretX, dhSecret_of_publicKey whole bound secretY, Nat.mul_comm]

end Sys2Proof.Machine

/-! Host writes of CMD and IRQ_STATUS (spec/46_system.md R151, R153): when a command word is issued, and which interrupt
bits a write clears. -/

namespace Sys2Proof.Machine

open Sys2Proof

/-! ### CMD (R151) -/

/-- A CMD write while BUSY = 1 is dropped and sets CMD_OVR. -/
theorem issue_of_busy {s : State} (pending : s.latch.pending = true) (w : Word) :
    s.issue w = { s with cmdOvr := true } := by
  rw [State.issue, State.busy, if_pos pending]

/-- Settles O7: the write issues its word, and BUSY decides between the two outcomes of issuing. -/
theorem cmdWriteIssuesOrIsDropped : Obligations.CmdWriteIssuesOrIsDropped := by
  intro s w
  refine (hostAccess_writeReg .cmd w s).trans (congrArg _ ?_)
  rw [State.writeReg]
  by_cases pending : s.latch.pending = true
  · rw [if_pos pending, issue_of_busy pending]
  · rw [if_neg pending, issue_of_idle (Bool.eq_false_of_not_eq_true pending), decodeFields]

/-! ### IRQ_STATUS (R153) -/

/-- Masking with the complement of the low bits of a word clears the bits that the word has set. -/
theorem getLsbD_and_not_extractLsb' {n i : Nat} (b : BitVec n) (v : Word) (inside : i < n) :
    (b &&& ~~~v.extractLsb' 0 n).getLsbD i = if v.getLsbD i = true then false else b.getLsbD i := by
  have masked : (b &&& ~~~v.extractLsb' 0 n).getLsbD i = (b.getLsbD i && !v.getLsbD i) := by
    simp [inside]
  rw [masked]
  cases v.getLsbD i <;> simp

/-- Settles O9: the write masks IRQ_STATUS with the complement of the word's bits 2:0. -/
theorem irqStatusWriteClearsOnes : Obligations.IrqStatusWriteClearsOnes := fun s v =>
  ⟨s.irqStatus &&& ~~~v.extractLsb' 0 3, hostAccess_writeReg .irqStatus v s,
    fun _ inside => getLsbD_and_not_extractLsb' s.irqStatus v inside⟩

end Sys2Proof.Machine

/-! Failed commands (spec/60_exceptions.md R160) and the two resets (spec/70_reset_and_hazards.md R178, R179): the frame of
a command that raises an error, and the values that every register, DMEM and the hidden state have after a reset. -/

namespace Sys2Proof.Machine

open Sys2Proof

/-! ### Failed commands (R159, R160) -/

/-- A state that a command leaves with an error was completed with an error that the command's rule raised. -/
theorem ruleOf_error_of_failed {i : Instr} {s t : State} (next : exec i s = .next t) (failed : t.err ≠ .ok) :
    ruleOf i s = .error t.err := by
  rw [exec_eq_complete] at next
  rcases complete_cases s t _ next with ⟨e, -, rfl⟩ | ⟨e, raised, rfl⟩
  · exact absurd rfl failed
  · exact raised

/-- Settles O39: the rule raised the error that ERR shows, and a raised error is completed on the state before it. -/
theorem errorsArePrecise : Obligations.ErrorsArePrecise := by
  intro i s t next failed
  obtain ⟨t', next', frame⟩ := fails_of_rule (ruleOf_error_of_failed next failed)
  obtain rfl : t = t' := Host.Outcome.next.inj (next.symm.trans next')
  exact frame

/-! ### The resets (R178, R179) -/

/-- A CTRL write with SRST = 1 is the soft reset, whatever its other bits (46_system.md R152). -/
theorem writeCtrl_of_srst {v : Word} (srst : v.getLsbD 0 = true) (s : State) : s.writeCtrl v = s.softReset := if_pos srst

/-- A reset state, hard or soft, is a soft reset of some state: the hardware reset state is its own. -/
theorem eq_softReset_of_reset {u : State}
    (reset : u = State.reset ∨ ∃ (s : State) (v : Word), v.getLsbD 0 = true ∧ hostAccess 0x004 .word (.write v) s = .next u) :
    ∃ s : State, u = s.softReset := by
  rcases reset with rfl | ⟨s, v, srst, next⟩
  · exact ⟨State.reset, rfl⟩
  · have written : hostAccess 0x004 .word (.write v) s = .next (s.writeCtrl v) := hostAccess_writeReg .ctrl v s
    rw [next, writeCtrl_of_srst srst] at written
    exact ⟨s, Host.Outcome.next.inj written⟩

/-- The value that a register has after a reset (R178). -/
def Reg.resetValue : Reg → Word
  | .id => 0x44430007
  | .kxState => 0x0000FF00
  | _ => 0

/-- A register of the reset state has its reset value: the status words, whose fields are packed, are computed. -/
theorem State.readReg_reset (r : Reg) : State.reset.readReg r = r.resetValue := by
  cases r with
  | arg r => cases r <;> rfl
  | sc c r => cases c <;> cases r <;> decide
  | _ => decide

/-- No register shows the fields that a soft reset leaves, which are the model's own (R179). -/
theorem State.readReg_softReset (s : State) (r : Reg) : s.softReset.readReg r = State.reset.readReg r := by
  cases r with
  | sc c r => cases c <;> rfl
  | _ => rfl

/-- Settles O15: both resets are the soft reset of some state, whose values are those of R178. -/
theorem resetLeavesSpecifiedValues : Obligations.ResetLeavesSpecifiedValues := by
  intro u reset
  obtain ⟨s, rfl⟩ := eq_softReset_of_reset reset
  refine ⟨fun r => ?_, fun _ => rfl, rfl, rfl, rfl, rfl, rfl, rfl⟩
  rw [s.readReg_softReset, State.readReg_reset]
  cases r <;> rfl

end Sys2Proof.Machine
